-- ==== Sys2Proof/Word.lean ====
section
/-! DEFINITION. The words and the sample types of the block (spec/00_scope.md R11, R12, R14). -/

namespace Sys2Proof

/-- `u8` of R11. -/
abbrev Byte := BitVec 8
/-- `u16` or `s16` of R11, by how it is read. -/
abbrev Half := BitVec 16
/-- `u32` or `s32` of R11, by how it is read. -/
abbrev Word := BitVec 32
/-- The bit pattern of an IEEE 754 binary32 value, `f32` of R12 and R15. -/
abbrev F32 := BitVec 32

/-- `c8` of R12: a pair of s8. -/
structure C8 where
  re : BitVec 8
  im : BitVec 8
  deriving DecidableEq, Repr

/-- `c16` of R12: a pair of s16. -/
structure C16 where
  re : Half
  im : Half
  deriving DecidableEq, Repr

/-- The sample (0, 0). -/
def C16.zero : C16 := ⟨0, 0⟩

/-- A sample buffer of c16 (R14): `b.n` is the length of `data`, `b.rate` is in Hz. -/
structure C16Buf where
  rate : Word
  data : List C16
  deriving DecidableEq, Repr

/-- A sample buffer of f32 (R14). -/
structure F32Buf where
  rate : Word
  data : List F32
  deriving DecidableEq, Repr

/-- An empty view (no samples), the value of an output buffer that nothing has filled yet. -/
def C16Buf.empty : C16Buf := ⟨0, []⟩
/-- An empty view of f32 samples. -/
def F32Buf.empty : F32Buf := ⟨0, []⟩

end Sys2Proof
end

