-- ==== Sys2Proof/Machine/Arith.lean ====
section
/-! DEFINITION. The integer arithmetic laws of spec/00_scope.md R13 and the sine ROM of 10_state.md R76. -/

namespace Sys2Proof.Machine
open Sys2Proof

/-- `clamp(a, lo, hi) = min(hi, max(lo, a))` (R13). -/
def clamp (a lo hi : Int) : Int := min hi (max lo a)

/-- `sat16(a)` (R13). -/
def sat16 (a : Int) : Int := clamp a (-32768) 32767

/-- `satu8(a)` (R13). -/
def satu8 (a : Int) : Int := clamp a 0 255

/-- `a >> n`, the floor of a / 2^n (R13). -/
def sra (a : Int) (n : Nat) : Int := a / 2 ^ n

/-- An integer as an s16 register value. -/
def toS16 (a : Int) : Half := BitVec.ofInt 16 a

/-- `c8_to_c16` (41_fir_filters.md R175): each part shifted left by 8. -/
def widen (x : C8) : C16 := ⟨toS16 (x.re.toInt * 256), toS16 (x.im.toInt * 256)⟩

/-- `SINQ[0..64]` (R76). -/
def sinq : List Int :=
  [0, 804, 1608, 2410, 3212, 4011, 4808, 5602,
   6393, 7179, 7962, 8739, 9512, 10278, 11039, 11793] ++
  [12539, 13279, 14010, 14732, 15446, 16151, 16846, 17530,
   18204, 18868, 19519, 20159, 20787, 21403, 22005, 22594] ++
  [23170, 23731, 24279, 24811, 25329, 25832, 26319, 26790,
   27245, 27683, 28105, 28510, 28898, 29268, 29621, 29956] ++
  [30273, 30571, 30852, 31113, 31356, 31580, 31785, 31971,
   32137, 32285, 32412, 32521, 32609, 32678, 32728, 32757, 32767]

/-- `SIN256(p)` (R76), for p taken modulo 256. -/
def sin256 (p : Nat) : Int :=
  let q := p / 64 % 4
  let r := p % 64
  if q = 0 then sinq.getD r 0
  else if q = 1 then sinq.getD (64 - r) 0
  else if q = 2 then -sinq.getD r 0
  else -sinq.getD (64 - r) 0

/-- `COS256(p) = SIN256((p + 64) mod 256)` (R76). -/
def cos256 (p : Nat) : Int := sin256 ((p + 64) % 256)

end Sys2Proof.Machine
end

