-- ==== Sys2Proof/Config.lean ====
section
/-! DEFINITION. The build parameters of spec/00_scope.md R10 and the free values the spec leaves open. -/

namespace Sys2Proof

/-- A function of `hist_bits`, `hist_err` and `hist_n` as plain data: a tree of tests. Each operand is finite, so every
PKT_MATCH(hist_bits, hist_err, hist_n) is such a tree (log entry 5; Laws/Policies.lean proves it). -/
inductive MatchTree
  | answer (b : Bool)
  /-- Is bit `i` of `hist_bits` 1? -/
  | ifBit (i : Nat) (yes no : MatchTree)
  /-- Is bit `i` of `hist_err` 1? -/
  | ifErr (i : Nat) (yes no : MatchTree)
  /-- Is `hist_n` at least `n`? -/
  | ifCount (n : Nat) (yes no : MatchTree)
  deriving DecidableEq, Repr

/-- The preamble matcher of PKT (44_packet_builder.md R242): the default of R245, or a substituted function. -/
inductive MatchPolicy
  | pattern
  | tree (t : MatchTree)
  deriving DecidableEq, Repr

/-- The lost-sync detector PKT_LOST(capture_len) of PKT (R242): the default "never", or a substituted function, given by
the counts at which it is true (`capture_len` never exceeds PKT_CAP, so every function is such a list; log entry 5). -/
inductive LostPolicy
  | never
  | atCounts (counts : List Nat)
  deriving DecidableEq, Repr

/-- The completion predicate PKT_DONE(capture_len) of PKT (R242): the default fixed symbol count, or a substituted
function, given by the counts at which it is true (log entry 5). -/
inductive DonePolicy
  | fixedCount
  | atCounts (counts : List Nat)
  deriving DecidableEq, Repr

/-- A word computed inside a stage of AUD_STAGE, as plain data: from the stage's input, its own memory words, the
configuration bytes, constants and the f32 operations of 00_scope.md R15. With `ifBit` every function of those words is
such an expression (log entry 5). -/
inductive StageExpr
  | const (w : Word)
  /-- The sample that enters the stage. -/
  | input
  /-- The sample that entered the chain. -/
  | raw
  /-- Word `i` of the stage's own memory, before this sample. -/
  | mem (i : Nat)
  /-- The little-endian word at byte `i` of AUD.cfg, bytes past its end read as 0. -/
  | cfg (i : Nat)
  /-- The number of bytes of AUD.cfg. -/
  | cfgLen
  /-- 1.0 while the squelch gate lets samples through, else +0.0; always 1.0 before the gate. -/
  | present
  | add (a b : StageExpr)
  | sub (a b : StageExpr)
  | mul (a b : StageExpr)
  | div (a b : StageExpr)
  | sqrt (a : StageExpr)
  | neg (a : StageExpr)
  /-- `yes` if `f32_lt(a, b)`, else `no`. -/
  | ifLess (a b yes no : StageExpr)
  /-- `yes` if bit `i` of `a` is 1, else `no`. -/
  | ifBit (a : StageExpr) (i : Nat) (yes no : StageExpr)
  deriving DecidableEq, Repr

/-- A filter of the chain: its output, and the next value of each of its memory words (words without one are kept). -/
structure FilterStage where
  output : StageExpr := .input
  memory : List StageExpr := []
  deriving DecidableEq, Repr

/-- A squelch gate: it mutes while its level is below its threshold (46_audio_output.md R290). -/
structure SquelchGate where
  level : StageExpr
  threshold : StageExpr
  memory : List StageExpr := []
  deriving DecidableEq, Repr

/-- AUD_STAGE (46_audio_output.md R285, R286, R290): high-pass, optional de-emphasis, optional squelch gate, then the
presence/level history. The default of each is a pass-through. -/
structure AudioStage where
  highPass : FilterStage := {}
  deEmphasis : Option FilterStage := none
  squelch : Option SquelchGate := none
  history : List StageExpr := []
  deriving DecidableEq, Repr

/-- `AUD.fstate` (46_audio_output.md R286): the memories of the three stages and the presence/level history. -/
structure AudioMemory where
  highPass : List Word := []
  deEmphasis : List Word := []
  squelch : List Word := []
  history : List Word := []
  deriving DecidableEq, Repr

/-- The parameters a build of the block fixes, with the defaults of 00_scope.md R10.
SHM_BASE has no default in the spec (93 U16): 0 here is a DESIGN CHOICE, log entry 14. -/
structure Params where
  /-- BUF_N, samples per raw buffer. -/
  bufN : Nat := 2048
  /-- MFC_CAP, bytes in each message ring. -/
  mfcCap : Nat := 1024
  /-- STAT_PERIOD, raw buffers between two statistics messages; 0 disables them. -/
  statPeriod : Word := 1500
  /-- PKT_CAP, payload capacity in bits. -/
  pktCap : Nat := 256
  /-- PKT_LEN, symbol count of the default completion predicate. -/
  pktLen : Nat := 16
  /-- PKT_PREAMBLE, element 0 received first. -/
  pktPreamble : List Bool := [true, false, true, false, true, true, false, false]
  /-- PKT_ERR_MAX. -/
  pktErrMax : Nat := 1
  /-- PKT_MIN_RUN. -/
  pktMinRun : Nat := 2
  pktMatch : MatchPolicy := .pattern
  pktLost : LostPolicy := .never
  pktDone : DonePolicy := .fixedCount
  /-- AUD_BLOCK, samples per audio block. -/
  audBlock : Nat := 32
  /-- AUD_STAGE, the per-sample filter chain. -/
  audStage : AudioStage := {}
  /-- AUD_INIT, the initial filter-chain memory. -/
  audInit : AudioMemory := {}
  /-- SHM_BASE, byte address of the shared region. -/
  shmBase : Nat := 0
  deriving DecidableEq, Repr

/-- The build with every default of R10. -/
def Params.default : Params := {}

namespace Config

/-- FS_IN, the nominal rate of the raw stream in Hz (R10). -/
def fsIn : Word := 3072000
/-- FIR_TAPS_MAX (R10). -/
def firTapsMax : Nat := 64
/-- FIR_D_MAX (R10). -/
def firDMax : Nat := 16
/-- FBF_TAPS_MAX (R10). -/
def fbfTapsMax : Nat := 32
/-- FFT_N (R10). -/
def fftN : Nat := 256
/-- MAN_BITS_MAX (R10). -/
def manBitsMax : Nat := 512
/-- PKT_HIST (R10, R242). -/
def pktHist : Nat := 64

/-- FREE VALUE (R15, 93 U4; log entry 6): the sign bit and the 22 payload bits of the n-th quiet NaN drawn. -/
opaque nanDraw : Nat → BitVec 23
/-- FREE VALUE (R128, 93 U5; log entry 7): the n-th busy time drawn. -/
opaque busyDraw : Nat → Word
/-- FREE VALUE (R45, 93 U3; log entry 8): what the ring byte at an offset holds before anything writes it. -/
opaque ringPowerOn : Nat → Byte

end Config
end Sys2Proof
end

