-- ==== Sys2Proof/Machine/Layout.lean ====
section
/-! DEFINITION. Derived parameters, the build check, byte order and bit-field helpers
(spec/00_scope.md R10, R11; 20_memory.md R80, R87; 30_encoding.md R113). -/

namespace Sys2Proof.Machine
open Sys2Proof

/-- PAYLOAD_MAX = min(252, MFC_CAP - 4) (R10, R111). -/
def payloadMax (p : Params) : Nat := min 252 (p.mfcCap - 4)

/-- `MFC_CAP` is a power of two from 16 to 2^16 (R10). -/
def capOk (n : Nat) : Bool := (List.range 13).any fun k => n == 2 ^ (k + 4)

/-- The parameters a build accepts (93 U7, U13; 44_packet_builder.md R242, R247; 30_encoding.md R129). -/
def paramsOk (p : Params) : Bool :=
  capOk p.mfcCap && decide (1 ≤ p.bufN) && decide (1 ≤ p.audBlock)
    && decide (p.pktCap ≤ 8 * (payloadMax p - 4))
    && decide (1 ≤ p.pktLen) && decide (p.pktLen ≤ p.pktCap)
    && decide (1 ≤ p.pktPreamble.length) && decide (p.pktPreamble.length ≤ 64)

/-! ### Little-endian fields (R80, R113) -/

/-- The u16 whose low byte is `b0`. -/
def u16le (b0 b1 : Byte) : Half := BitVec.ofNat 16 (b0.toNat + 256 * b1.toNat)

/-- The u32 whose lowest byte is `b0`. -/
def u32le (b0 b1 b2 b3 : Byte) : Word :=
  BitVec.ofNat 32 (b0.toNat + 256 * b1.toNat + 65536 * b2.toNat + 16777216 * b3.toNat)

/-- The two bytes of a u16, least significant first. -/
def le16 (v : Half) : List Byte := [BitVec.ofNat 8 v.toNat, BitVec.ofNat 8 (v.toNat / 256)]

/-- The four bytes of a u32, least significant first (`le32` of 48_top_level.md R317). -/
def le32 (v : Word) : List Byte :=
  [BitVec.ofNat 8 v.toNat, BitVec.ofNat 8 (v.toNat / 256), BitVec.ofNat 8 (v.toNat / 65536),
    BitVec.ofNat 8 (v.toNat / 16777216)]

/-- The 4-byte header of a message (R111): kind, 0, length low, length high. -/
def header (kind : Byte) (len : Nat) : List Byte :=
  [kind, 0, BitVec.ofNat 8 len, BitVec.ofNat 8 (len / 256)]

/-- The bytes of a whole message (R111). -/
def messageBytes (kind : Byte) (payload : List Byte) : List Byte :=
  header kind payload.length ++ payload

/-- The low `n` bytes of a number, least significant first. -/
def bytesOfNat : Nat → Nat → List Byte
  | 0, _ => []
  | n + 1, w => BitVec.ofNat 8 w :: bytesOfNat n (w / 256)

/-! ### The address map of R87, as byte offsets from SHM_BASE -/

/-- Where the ring of a channel starts: 0x0200 for A2B, 0x0200 + MFC_CAP for B2A. -/
def ringBase (cap : Nat) (isB2a : Bool) : Nat := 0x200 + if isB2a then cap else 0

/-- The length of the shared region. -/
def shmSize (p : Params) : Nat := 0x200 + 2 * p.mfcCap

/-- The ring offset of byte `i` of a message whose first byte is at cursor `c` (R96). -/
def ringOffset (base cap c i : Nat) : Nat := base + (c + i) % cap

end Sys2Proof.Machine
end

