-- ==== Sys2Proof/Machine/Operands.lean ====
section
/-! DEFINITION. Every operand form of the messages (spec/30_encoding.md R113 to R130): the fields cut out of a control
message's payload, `none` where the payload's length is not the one its kind requires (R115), and the payloads of the
result messages. -/

namespace Sys2Proof.Machine
open Sys2Proof

/-- Consecutive u16 or s16 elements, element 0 first (R113). -/
def halves : List Byte → List Half
  | b0 :: b1 :: r => u16le b0 b1 :: halves r
  | _ => []

/-- Consecutive u32 or f32 elements, element 0 first (R113). -/
def words : List Byte → List Word
  | b0 :: b1 :: b2 :: b3 :: r => u32le b0 b1 b2 b3 :: words r
  | _ => []

/-- CTL_SET_MODE (R118): the mode byte. -/
def cutSetMode : List Byte → Option Byte
  | [m] => some m
  | _ => none

/-- The fields of CTL_DECIMATOR_CONFIG (R119). -/
structure DecimatorFields where
  stage : Byte
  d : Byte
  t : Byte
  taps : List Half
  deriving DecidableEq, Repr

/-- CTL_DECIMATOR_CONFIG: 4 + 2*T bytes; byte 3 is reserved (R114, R119). -/
def cutDecimator : List Byte → Option DecimatorFields
  | stage :: d :: t :: _ :: r =>
    if r.length = 2 * t.toNat then some ⟨stage, d, t, halves r⟩ else none
  | _ => none

/-- The fields of CTL_CHANNEL_FILTER_CONFIG (R120). -/
structure ChannelFilterFields where
  d : Byte
  t : Byte
  passHz : Word
  stopHz : Word
  taps : List Half
  deriving DecidableEq, Repr

/-- CTL_CHANNEL_FILTER_CONFIG: 12 + 2*T bytes; bytes 2 and 3 are reserved (R120). -/
def cutChannelFilter : List Byte → Option ChannelFilterFields
  | d :: t :: _ :: _ :: p0 :: p1 :: p2 :: p3 :: s0 :: s1 :: s2 :: s3 :: r =>
    if r.length = 2 * t.toNat then some ⟨d, t, u32le p0 p1 p2 p3, u32le s0 s1 s2 s3, halves r⟩ else none
  | _ => none

/-- The fields of CTL_DEMOD_CONFIG (R121). -/
structure DemodFields where
  ssb : Bool
  bfoInc : Word
  gain : F32
  deriving DecidableEq, Repr

/-- CTL_DEMOD_CONFIG: 12 bytes; bit 0 of byte 0 is `ssb`, the rest of bytes 0 to 3 reserved (R121). -/
def cutDemod : List Byte → Option DemodFields
  | [f, _, _, _, i0, i1, i2, i3, g0, g1, g2, g3] =>
    some ⟨f.getLsbD 0, u32le i0 i1 i2 i3, u32le g0 g1 g2 g3⟩
  | _ => none

/-- The fields of CTL_BASEBAND_FIR_CONFIG (R122). -/
structure BasebandFields where
  t : Byte
  taps : List F32
  deriving DecidableEq, Repr

/-- CTL_BASEBAND_FIR_CONFIG: 4 + 4*T bytes; bytes 1 to 3 are reserved (R122). -/
def cutBaseband : List Byte → Option BasebandFields
  | t :: _ :: _ :: _ :: r => if r.length = 4 * t.toNat then some ⟨t, words r⟩ else none
  | _ => none

/-- The fields of CTL_CLOCK_CONFIG (R123). -/
structure ClockFields where
  sampleRate : Word
  symbolRate : Word
  gain : F32
  deriving DecidableEq, Repr

/-- CTL_CLOCK_CONFIG: 12 bytes (R123). -/
def cutClock : List Byte → Option ClockFields
  | [a0, a1, a2, a3, b0, b1, b2, b3, g0, g1, g2, g3] =>
    some ⟨u32le a0 a1 a2 a3, u32le b0 b1 b2 b3, u32le g0 g1 g2 g3⟩
  | _ => none

/-- CTL_SPECTRUM_START: 4 bytes; K, and bytes 2 and 3 reserved (R126). -/
def cutSpectrumStart : List Byte → Option Half
  | [k0, k1, _, _] => some (u16le k0 k1)
  | _ => none

/-! ### Result messages: the `len` expression of each row (R117, R137), and the payloads -/

/-- `len` of RES_STATISTICS: 16 (R117). -/
def statisticsLengthOk (payload : List Byte) : Bool := payload.length == 16

/-- `len` of RES_PACKET: 4 + ceil(count/8), with `count` at most PKT_CAP (R117, R129). -/
def packetLengthOk (p : Params) : List Byte → Bool
  | c0 :: c1 :: _ :: _ :: bits =>
    decide ((u16le c0 c1).toNat ≤ p.pktCap) && bits.length == ((u16le c0 c1).toNat + 7) / 8
  | _ => false

/-- `len` of RES_SPECTRUM_READY: 4 (R117). -/
def readyLengthOk (payload : List Byte) : Bool := payload.length == 4

/-- RES_STATISTICS (R128): flags, reserved, the two busy times, the interval. -/
def statsPayload (sat : Bool) (busyRt busyIdle interval : Word) : List Byte :=
  [if sat then 1 else 0, 0, 0, 0] ++ le32 busyRt ++ le32 busyIdle ++ le32 interval

/-- The value of up to eight bits, the first in bit 7 (R129). -/
def packByte : Nat → List Bool → Nat
  | 0, _ => 0
  | _, [] => 0
  | n + 1, b :: r => (if b then 2 ^ n else 0) + packByte n r

/-- Payload bit i in byte floor(i/8), bit 7 - (i mod 8), unused bits 0 (R129): `n` bytes. -/
def packBytes : Nat → List Bool → List Byte
  | 0, _ => []
  | n + 1, bits => BitVec.ofNat 8 (packByte 8 bits) :: packBytes n (bits.drop 8)

/-- RES_PACKET (R129, R328): count, reserved, ceil(count/8) bytes of bits. -/
def packetPayload (bits : List Bool) : List Byte :=
  le16 (BitVec.ofNat 16 bits.length) ++ [0, 0] ++ packBytes ((bits.length + 7) / 8) bits

/-- RES_SPECTRUM_READY (R130): handle 0, reserved. -/
def readyPayload : List Byte := [0, 0, 0, 0]

/-- `taps[k] if k < T else 0` for k in 0..n-1 (R172, R181, R187). -/
def padTaps {w : Nat} (n t : Nat) (taps : List (BitVec w)) : List (BitVec w) :=
  (List.range n).map fun k => if k < t then taps.getD k 0 else 0

end Sys2Proof.Machine
end

