-- ==== Sys2Proof/Syntax.lean ====
section
/-! DEFINITION. The operations of the block, one constructor per row of spec/opcode_table.json (30_encoding.md R117, R125). -/

namespace Sys2Proof

/-- The two message channels of MFC (40_message_channel.md R150). -/
inductive Chan
  | a2b
  | b2a
  deriving DecidableEq, Repr

/-- Which cursor copies an MFC.SYNC refreshes: "either or both" (R158). -/
inductive SyncSel
  | both
  | wSeen
  | rSeen
  deriving DecidableEq, Repr

/-- The operations: the 12 message kinds of R117, each with its payload bytes, and the 37 unit operations of
R125, each with the operands its rule lists. `Fin 3` numbers the three PFD instances. -/
inductive Instr
  | ctlSetMode (payload : List Byte)
  | ctlDecimatorConfig (payload : List Byte)
  | ctlChannelFilterConfig (payload : List Byte)
  | ctlDemodConfig (payload : List Byte)
  | ctlBasebandFirConfig (payload : List Byte)
  | ctlClockConfig (payload : List Byte)
  | ctlAudioConfig (payload : List Byte)
  | ctlSpectrumStart (payload : List Byte)
  | ctlSpectrumStop (payload : List Byte)
  | resStatistics (payload : List Byte)
  | resPacket (payload : List Byte)
  | resSpectrumReady (payload : List Byte)
  | mfcSend (c : Chan) (kind : Byte) (payload : List Byte)
  | mfcRecv (c : Chan)
  | mfcSync (c : Chan) (sel : SyncSel)
  | pfdReset (i : Fin 3)
  | pfdCfg (i : Fin 3) (d t : Byte) (taps : List Half)
  | pfdExec (i : Fin 3) (input : C16Buf)
  | bpfReset
  | bpfCfg (d t : Byte) (passHz stopHz : Word) (taps : List Half)
  | bpfExec (input : C16Buf)
  | fbfReset
  | fbfCfg (t : Byte) (taps : List F32)
  | fbfExec (input : F32Buf)
  | amdReset
  | amdCfg (ssb : Bool) (bfoInc : Word)
  | amdExec (input : C16Buf)
  | fmdReset
  | fmdCfg (gain : F32)
  | fmdExec (input : C16Buf)
  | strReset
  | strCfg (sampleRate symbolRate : Word) (gain : F32)
  | strPush (x : F32)
  | pktReset
  | pktPush (bit err : Bool)
  | spcReset
  | spcStart (k : Half)
  | spcFeed (input : C16Buf) (passHz stopHz : Word)
  | spcStop
  | spcUpdate
  | spcDrain
  | audReset
  | audCfg (bytes : List Byte)
  | audExec (input : F32Buf)
  | manDecode (bits : List Bool) (sense : Bool)
  | topReset
  | topDispatch
  | topBuffer (raw : List C8)
  | topStats
  deriving DecidableEq, Repr

/-- The two encoded interfaces of R110: an 8-bit code with its operands on a unit's ports, and a message. -/
inductive Port
  | cmd
  | msg
  deriving DecidableEq, Repr

/-- One move of an agent as it is scheduled: the interface and the bytes on it (log entry 1). -/
structure Move where
  port : Port
  bytes : List Byte
  deriving DecidableEq, Repr

/-- Why bytes are no operation. -/
inductive DecodeError
  /-- Nothing stands on the interface. -/
  | empty
  /-- Kind 0, or a length above PAYLOAD_MAX (R112). -/
  | malformedMessage
  /-- The message is shorter than its header says. -/
  | truncatedMessage
  /-- A well-formed message of no assigned kind (R131). -/
  | unknownKind (kind : Byte)
  /-- A unit operation code that is not in R125 (R131). -/
  | unassignedCode (code : Byte)
  /-- The operands of an assigned code are missing or outside the operand's range. -/
  | badOperands (code : Byte)
  deriving DecidableEq, Repr

/-- What the decoder answers: an operation, or a rejection by name. -/
inductive Decoded
  | ok (i : Instr)
  | reject (e : DecodeError)
  deriving DecidableEq, Repr

end Sys2Proof
end

