-- ==== Sys2Proof/WellFormed.lean ====
section
/-! DEFINITION. Which operand values an operation admits (the Operands line of each operation's rule). -/

namespace Sys2Proof
open Sys2Proof.Machine

/-- A count that a u32 field holds. -/
def fitsCount (n : Nat) : Bool := decide (n < 2 ^ 32)

/-- The operands are in the ranges the operation's rule lists.
For a control message of the wrong length the rule has a meaning (ConfigRejected), so only PAYLOAD_MAX bounds it. -/
def wellFormed (p : Params) : Instr → Bool
  | .ctlSetMode pl => decide (pl.length ≤ payloadMax p)
  | .ctlDecimatorConfig pl => decide (pl.length ≤ payloadMax p)
  | .ctlChannelFilterConfig pl => decide (pl.length ≤ payloadMax p)
  | .ctlDemodConfig pl => decide (pl.length ≤ payloadMax p)
  | .ctlBasebandFirConfig pl => decide (pl.length ≤ payloadMax p)
  | .ctlClockConfig pl => decide (pl.length ≤ payloadMax p)
  | .ctlAudioConfig pl => decide (pl.length ≤ payloadMax p)
  | .ctlSpectrumStart pl => decide (pl.length ≤ payloadMax p)
  | .ctlSpectrumStop pl => decide (pl.length ≤ payloadMax p)
  | .resStatistics pl => decide (pl.length ≤ payloadMax p) && statisticsLengthOk pl
  | .resPacket pl => decide (pl.length ≤ payloadMax p) && packetLengthOk p pl
  | .resSpectrumReady pl => decide (pl.length ≤ payloadMax p) && readyLengthOk pl
  | .mfcSend _ _ pl => fitsCount pl.length
  | .mfcRecv _ => true
  | .mfcSync _ _ => true
  | .pfdReset _ => true
  | .pfdCfg _ _ t taps => decide (taps.length = t.toNat)
  | .pfdExec _ b => fitsCount b.data.length
  | .bpfReset => true
  | .bpfCfg _ t _ _ taps => decide (taps.length = t.toNat)
  | .bpfExec b => fitsCount b.data.length
  | .fbfReset => true
  | .fbfCfg t taps => decide (taps.length = t.toNat)
  | .fbfExec b => fitsCount b.data.length
  | .amdReset => true
  | .amdCfg _ _ => true
  | .amdExec b => fitsCount b.data.length
  | .fmdReset => true
  | .fmdCfg _ => true
  | .fmdExec b => fitsCount b.data.length
  | .strReset => true
  | .strCfg _ _ _ => true
  | .strPush _ => true
  | .pktReset => true
  | .pktPush _ _ => true
  | .spcReset => true
  | .spcStart _ => true
  | .spcFeed b _ _ => fitsCount b.data.length
  | .spcStop => true
  | .spcUpdate => true
  | .spcDrain => true
  | .audReset => true
  | .audCfg bytes => decide (bytes.length ≤ payloadMax p)
  | .audExec b => fitsCount b.data.length
  | .manDecode bits _ => decide (bits.length ≤ Config.manBitsMax)
  | .topReset => true
  | .topDispatch => true
  | .topBuffer raw => decide (raw.length = p.bufN)
  | .topStats => true

end Sys2Proof
end

