-- ==== Sys2Proof/Decode.lean ====
section
/-! DEFINITION. The decoder of both encoded interfaces (spec/30_encoding.md R110 to R131, R137), total on any bytes, and
the encoder written from the same tables. The operand layout on the command port is the model's (log entry 2). -/

namespace Sys2Proof
open Sys2Proof.Machine

/-! ### Reading operand fields -/

/-- A u8. -/
def rdU8 : List Byte → Option (Byte × List Byte)
  | b :: r => some (b, r)
  | [] => none

/-- A little-endian u16 (R113). -/
def rdU16 : List Byte → Option (Half × List Byte)
  | b0 :: b1 :: r => some (u16le b0 b1, r)
  | _ => none

/-- A little-endian u32 or f32 (R113). -/
def rdU32 : List Byte → Option (Word × List Byte)
  | b0 :: b1 :: b2 :: b3 :: r => some (u32le b0 b1 b2 b3, r)
  | _ => none

/-- A c8: re, then im (R12). -/
def rdC8 : List Byte → Option (C8 × List Byte)
  | b0 :: b1 :: r => some (⟨b0, b1⟩, r)
  | _ => none

/-- A c16: re low, re high, im low, im high (R80). -/
def rdC16 : List Byte → Option (C16 × List Byte)
  | b0 :: b1 :: b2 :: b3 :: r => some (⟨u16le b0 b1, u16le b2 b3⟩, r)
  | _ => none

/-- One bit in a byte, 0 or 1. -/
def rdBit : List Byte → Option (Bool × List Byte)
  | b :: r => if b = 0 then some (false, r) else if b = 1 then some (true, r) else none
  | [] => none

/-- A channel, 0 for A2B and 1 for B2A. -/
def rdChan : List Byte → Option (Chan × List Byte)
  | b :: r => if b = 0 then some (.a2b, r) else if b = 1 then some (.b2a, r) else none
  | [] => none

/-- Which copies an MFC.SYNC refreshes. -/
def rdSel : List Byte → Option (SyncSel × List Byte)
  | b :: r =>
    if b = 0 then some (.both, r) else if b = 1 then some (.wSeen, r)
    else if b = 2 then some (.rSeen, r) else none
  | [] => none

/-- A PFD instance, 0 to 2. -/
def rdStage : List Byte → Option (Fin 3 × List Byte)
  | b :: r => if h : b.toNat < 3 then some (⟨b.toNat, h⟩, r) else none
  | [] => none

/-- `n` elements, element 0 first (R113). -/
def rdMany {α : Type} (rd : List Byte → Option (α × List Byte)) : Nat → List Byte → Option (List α × List Byte)
  | 0, r => some ([], r)
  | n + 1, r =>
    match rd r with
    | none => none
    | some (x, r') =>
      match rdMany rd n r' with
      | none => none
      | some (xs, r'') => some (x :: xs, r'')

/-- A u32 count and that many elements. -/
def rdCounted {α : Type} (rd : List Byte → Option (α × List Byte)) (r : List Byte) : Option (List α × List Byte) :=
  match rdU32 r with
  | none => none
  | some (n, r') => rdMany rd n.toNat r'

/-- A c16 buffer: rate, count, samples. -/
def rdBuf16 (r : List Byte) : Option (C16Buf × List Byte) :=
  match rdU32 r with
  | none => none
  | some (rate, r') =>
    match rdCounted rdC16 r' with
    | none => none
    | some (xs, r'') => some (⟨rate, xs⟩, r'')

/-- An f32 buffer: rate, count, samples. -/
def rdBuf32 (r : List Byte) : Option (F32Buf × List Byte) :=
  match rdU32 r with
  | none => none
  | some (rate, r') =>
    match rdCounted rdU32 r' with
    | none => none
    | some (xs, r'') => some (⟨rate, xs⟩, r'')

/-! ### Operands of the unit operations that have any

Each reader takes the operands in the order its rule's Operands line names them; the spec gives them no layout, so the order
and every width and count here are the model's (log entry 2). -/

def opSend (r : List Byte) : Option Instr := do
  let (c, r) ← rdChan r
  let (k, r) ← rdU8 r
  let (pl, _) ← rdCounted rdU8 r
  return .mfcSend c k pl

def opRecv (r : List Byte) : Option Instr := do
  let (c, _) ← rdChan r
  return .mfcRecv c

def opSync (r : List Byte) : Option Instr := do
  let (c, r) ← rdChan r
  let (sel, _) ← rdSel r
  return .mfcSync c sel

def opPfdReset (r : List Byte) : Option Instr := do
  let (i, _) ← rdStage r
  return .pfdReset i

def opPfdCfg (r : List Byte) : Option Instr := do
  let (i, r) ← rdStage r
  let (d, r) ← rdU8 r
  let (t, r) ← rdU8 r
  let (taps, _) ← rdMany rdU16 t.toNat r
  return .pfdCfg i d t taps

def opPfdExec (r : List Byte) : Option Instr := do
  let (i, r) ← rdStage r
  let (b, _) ← rdBuf16 r
  return .pfdExec i b

def opBpfCfg (r : List Byte) : Option Instr := do
  let (d, r) ← rdU8 r
  let (t, r) ← rdU8 r
  let (pass, r) ← rdU32 r
  let (stop, r) ← rdU32 r
  let (taps, _) ← rdMany rdU16 t.toNat r
  return .bpfCfg d t pass stop taps

def opBpfExec (r : List Byte) : Option Instr := do
  let (b, _) ← rdBuf16 r
  return .bpfExec b

def opFbfCfg (r : List Byte) : Option Instr := do
  let (t, r) ← rdU8 r
  let (taps, _) ← rdMany rdU32 t.toNat r
  return .fbfCfg t taps

def opFbfExec (r : List Byte) : Option Instr := do
  let (b, _) ← rdBuf32 r
  return .fbfExec b

def opAmdCfg (r : List Byte) : Option Instr := do
  let (ssb, r) ← rdBit r
  let (inc, _) ← rdU32 r
  return .amdCfg ssb inc

def opAmdExec (r : List Byte) : Option Instr := do
  let (b, _) ← rdBuf16 r
  return .amdExec b

def opFmdCfg (r : List Byte) : Option Instr := do
  let (g, _) ← rdU32 r
  return .fmdCfg g

def opFmdExec (r : List Byte) : Option Instr := do
  let (b, _) ← rdBuf16 r
  return .fmdExec b

def opStrCfg (r : List Byte) : Option Instr := do
  let (sr, r) ← rdU32 r
  let (sy, r) ← rdU32 r
  let (g, _) ← rdU32 r
  return .strCfg sr sy g

def opStrPush (r : List Byte) : Option Instr := do
  let (x, _) ← rdU32 r
  return .strPush x

def opPktPush (r : List Byte) : Option Instr := do
  let (bit, r) ← rdBit r
  let (err, _) ← rdBit r
  return .pktPush bit err

def opSpcStart (r : List Byte) : Option Instr := do
  let (k, _) ← rdU16 r
  return .spcStart k

/-- The buffer, `pass_hz`, `stop_hz`: R261 names them in this order; that they lie so is the model's (log entry 2). -/
def opSpcFeed (r : List Byte) : Option Instr := do
  let (b, r) ← rdBuf16 r
  let (pass, r) ← rdU32 r
  let (stop, _) ← rdU32 r
  return .spcFeed b pass stop

/-- AUD.CFG takes 0 to PAYLOAD_MAX bytes (R287). -/
def opAudCfg (p : Params) (r : List Byte) : Option Instr := do
  let (bytes, _) ← rdCounted rdU8 r
  if bytes.length ≤ payloadMax p then return .audCfg bytes else none

def opAudExec (r : List Byte) : Option Instr := do
  let (b, _) ← rdBuf32 r
  return .audExec b

/-- `n`, the `n` bits, `sense`: R296 names them in this order; that they lie so is the model's (log entry 2). -/
def opManDecode (r : List Byte) : Option Instr := do
  let (bits, r) ← rdCounted rdBit r
  let (sense, _) ← rdBit r
  return .manDecode bits sense

/-- "the interface frames exactly BUF_N samples" (R316, R330). -/
def opTopBuffer (p : Params) (r : List Byte) : Option Instr := do
  let (raw, _) ← rdMany rdC8 p.bufN r
  return .topBuffer raw

/-- Name the missing or illegal operands of an assigned code. -/
def withOperands (code : Byte) : Option Instr → Decoded
  | some i => .ok i
  | none => .reject (.badOperands code)

/-- The unit operation of a code and its operand bytes (R125). -/
def decodeCode (p : Params) (code : Byte) (r : List Byte) : Decoded :=
  match code.toNat with
  | 0x11 => withOperands code (opSend r)
  | 0x12 => withOperands code (opRecv r)
  | 0x13 => withOperands code (opSync r)
  | 0x20 => withOperands code (opPfdReset r)
  | 0x21 => withOperands code (opPfdCfg r)
  | 0x22 => withOperands code (opPfdExec r)
  | 0x30 => .ok .bpfReset
  | 0x31 => withOperands code (opBpfCfg r)
  | 0x32 => withOperands code (opBpfExec r)
  | 0x40 => .ok .fbfReset
  | 0x41 => withOperands code (opFbfCfg r)
  | 0x42 => withOperands code (opFbfExec r)
  | 0x50 => .ok .amdReset
  | 0x51 => withOperands code (opAmdCfg r)
  | 0x52 => withOperands code (opAmdExec r)
  | 0x60 => .ok .fmdReset
  | 0x61 => withOperands code (opFmdCfg r)
  | 0x62 => withOperands code (opFmdExec r)
  | 0x70 => .ok .strReset
  | 0x71 => withOperands code (opStrCfg r)
  | 0x72 => withOperands code (opStrPush r)
  | 0x80 => .ok .pktReset
  | 0x82 => withOperands code (opPktPush r)
  | 0x90 => .ok .spcReset
  | 0x91 => withOperands code (opSpcStart r)
  | 0x92 => withOperands code (opSpcFeed r)
  | 0x93 => .ok .spcStop
  | 0x94 => .ok .spcUpdate
  | 0x95 => .ok .spcDrain
  | 0xA0 => .ok .audReset
  | 0xA1 => withOperands code (opAudCfg p r)
  | 0xA2 => withOperands code (opAudExec r)
  | 0xB2 => withOperands code (opManDecode r)
  | 0xC0 => .ok .topReset
  | 0xC1 => .ok .topDispatch
  | 0xC2 => withOperands code (opTopBuffer p r)
  | 0xC3 => .ok .topStats
  | _ => .reject (.unassignedCode code)

/-- The command port: one code byte, then its operands. -/
def decodeCmd (p : Params) : List Byte → Decoded
  | [] => .reject .empty
  | code :: r => decodeCode p code r

/-- The message of an assigned kind (R117). -/
def decodeKind (kind : Byte) (payload : List Byte) : Decoded :=
  match kind.toNat with
  | 0x01 => .ok (.ctlSetMode payload)
  | 0x02 => .ok (.ctlDecimatorConfig payload)
  | 0x03 => .ok (.ctlChannelFilterConfig payload)
  | 0x04 => .ok (.ctlDemodConfig payload)
  | 0x05 => .ok (.ctlBasebandFirConfig payload)
  | 0x06 => .ok (.ctlClockConfig payload)
  | 0x07 => .ok (.ctlAudioConfig payload)
  | 0x08 => .ok (.ctlSpectrumStart payload)
  | 0x09 => .ok (.ctlSpectrumStop payload)
  | 0x81 => .ok (.resStatistics payload)
  | 0x82 => .ok (.resPacket payload)
  | 0x83 => .ok (.resSpectrumReady payload)
  | _ => .reject (.unknownKind kind)

/-- A message: header, then `len` payload bytes (R111, R112); header byte 1 is ignored (R114). -/
def decodeMsg (p : Params) : List Byte → Decoded
  | [] => .reject .empty
  | kind :: _ :: l0 :: l1 :: r =>
    let len := (u16le l0 l1).toNat
    if kind = 0 ∨ payloadMax p < len then .reject .malformedMessage
    else if r.length < len then .reject .truncatedMessage
    else decodeKind kind (r.take len)
  | _ => .reject .truncatedMessage

/-- The decoder: any bytes on either interface. -/
def decode (p : Params) (m : Move) : Decoded :=
  match m.port with
  | .cmd => decodeCmd p m.bytes
  | .msg => decodeMsg p m.bytes

/-! ### The encoder -/

def wrBit (b : Bool) : Byte := if b then 1 else 0

def wrChan : Chan → Byte
  | .a2b => 0
  | .b2a => 1

def wrSel : SyncSel → Byte
  | .both => 0
  | .wSeen => 1
  | .rSeen => 2

def wrStage (i : Fin 3) : Byte := BitVec.ofNat 8 i.val

def wrC8 (x : C8) : List Byte := [x.re, x.im]

def wrC16 (x : C16) : List Byte := le16 x.re ++ le16 x.im

def wrCounted {α : Type} (wr : α → List Byte) (xs : List α) : List Byte :=
  le32 (BitVec.ofNat 32 xs.length) ++ xs.flatMap wr

def wrBuf16 (b : C16Buf) : List Byte := le32 b.rate ++ wrCounted wrC16 b.data

def wrBuf32 (b : F32Buf) : List Byte := le32 b.rate ++ wrCounted le32 b.data

/-- A message move: kind, 0, length, payload (R111). -/
def msgMove (kind : Byte) (payload : List Byte) : Move := ⟨.msg, messageBytes kind payload⟩

/-- A command move: the code of R125 and its operand bytes. -/
def cmdMove (code : Byte) (operands : List Byte) : Move := ⟨.cmd, code :: operands⟩

/-- The encoder: the move that stands for an operation. -/
def encode : Instr → Move
  | .ctlSetMode pl => msgMove 0x01 pl
  | .ctlDecimatorConfig pl => msgMove 0x02 pl
  | .ctlChannelFilterConfig pl => msgMove 0x03 pl
  | .ctlDemodConfig pl => msgMove 0x04 pl
  | .ctlBasebandFirConfig pl => msgMove 0x05 pl
  | .ctlClockConfig pl => msgMove 0x06 pl
  | .ctlAudioConfig pl => msgMove 0x07 pl
  | .ctlSpectrumStart pl => msgMove 0x08 pl
  | .ctlSpectrumStop pl => msgMove 0x09 pl
  | .resStatistics pl => msgMove 0x81 pl
  | .resPacket pl => msgMove 0x82 pl
  | .resSpectrumReady pl => msgMove 0x83 pl
  | .mfcSend c k pl => cmdMove 0x11 (wrChan c :: k :: wrCounted (fun b => [b]) pl)
  | .mfcRecv c => cmdMove 0x12 [wrChan c]
  | .mfcSync c sel => cmdMove 0x13 [wrChan c, wrSel sel]
  | .pfdReset i => cmdMove 0x20 [wrStage i]
  | .pfdCfg i d t taps => cmdMove 0x21 (wrStage i :: d :: t :: taps.flatMap le16)
  | .pfdExec i b => cmdMove 0x22 (wrStage i :: wrBuf16 b)
  | .bpfReset => cmdMove 0x30 []
  | .bpfCfg d t pass stop taps => cmdMove 0x31 (d :: t :: (le32 pass ++ le32 stop ++ taps.flatMap le16))
  | .bpfExec b => cmdMove 0x32 (wrBuf16 b)
  | .fbfReset => cmdMove 0x40 []
  | .fbfCfg t taps => cmdMove 0x41 (t :: taps.flatMap le32)
  | .fbfExec b => cmdMove 0x42 (wrBuf32 b)
  | .amdReset => cmdMove 0x50 []
  | .amdCfg ssb inc => cmdMove 0x51 (wrBit ssb :: le32 inc)
  | .amdExec b => cmdMove 0x52 (wrBuf16 b)
  | .fmdReset => cmdMove 0x60 []
  | .fmdCfg g => cmdMove 0x61 (le32 g)
  | .fmdExec b => cmdMove 0x62 (wrBuf16 b)
  | .strReset => cmdMove 0x70 []
  | .strCfg sr sy g => cmdMove 0x71 (le32 sr ++ le32 sy ++ le32 g)
  | .strPush x => cmdMove 0x72 (le32 x)
  | .pktReset => cmdMove 0x80 []
  | .pktPush bit err => cmdMove 0x82 [wrBit bit, wrBit err]
  | .spcReset => cmdMove 0x90 []
  | .spcStart k => cmdMove 0x91 (le16 k)
  | .spcFeed b pass stop => cmdMove 0x92 (wrBuf16 b ++ le32 pass ++ le32 stop)
  | .spcStop => cmdMove 0x93 []
  | .spcUpdate => cmdMove 0x94 []
  | .spcDrain => cmdMove 0x95 []
  | .audReset => cmdMove 0xA0 []
  | .audCfg bytes => cmdMove 0xA1 (wrCounted (fun b => [b]) bytes)
  | .audExec b => cmdMove 0xA2 (wrBuf32 b)
  | .manDecode bits sense => cmdMove 0xB2 (wrCounted (fun b => [wrBit b]) bits ++ [wrBit sense])
  | .topReset => cmdMove 0xC0 []
  | .topDispatch => cmdMove 0xC1 []
  | .topBuffer raw => cmdMove 0xC2 (raw.flatMap wrC8)
  | .topStats => cmdMove 0xC3 []

/-! ### The opcode table's words -/

/-- Is a byte one of the message kinds of R117? -/
def isMessageKind (b : Byte) : Bool :=
  match decodeKind b [] with
  | .ok _ => true
  | .reject _ => false

/-- Is a byte one of the unit operation codes of R125? -/
def isUnitCode (p : Params) (b : Byte) : Bool :=
  match decodeCode p b [] with
  | .reject (.unassignedCode _) => false
  | _ => true

/-- Which interface a word of the opcode table stands on: an 8-bit word is a unit operation's code and a wider word a
message header (R137), unless only the other interface knows its low byte (log entry 3). -/
def tablePort (p : Params) (nbits : Nat) (b : Byte) : Port :=
  if nbits ≤ 8 then (if isUnitCode p b then .cmd else .msg)
  else (if isMessageKind b then .msg else .cmd)

/-- The move of a table word: its bytes, lowest first, and zeros up to the longest operation. -/
def tableMove (p : Params) (nbits w : Nat) : Move :=
  ⟨tablePort p nbits (BitVec.ofNat 8 w),
    bytesOfNat ((nbits + 7) / 8) w ++ List.replicate (2 * p.bufN + 256) 0⟩

/-- The operation the decoder reads from a word of the opcode table. -/
def decodeTableWord (nbits w : Nat) : Option Instr :=
  match decode Params.default (tableMove Params.default nbits w) with
  | .ok i => some i
  | .reject _ => none

end Sys2Proof
end

