-- ==== Sys2Proof/Machine/State.lean ====
section
/-! DEFINITION. The whole state of the block as plain data (spec/10_state.md R40 to R78), its reset values, and the reasons
a step can stop. -/

namespace Sys2Proof.Machine
open Sys2Proof

/-- `TOP.mode` (R43, R70): 0 NONE, 1 AM, 2 NFM, 3 TPMS. -/
inductive Mode
  | none
  | am
  | nfm
  | tpms
  deriving DecidableEq, Repr

/-- The cursors, cursor copies and fault flag of one message channel (R45). The ring bytes are in `State.mem`. -/
structure ChannelRegs where
  w : Word
  r : Word
  rSeen : Word
  wSeen : Word
  fault : Bool
  deriving DecidableEq, Repr

/-- One fixed-point FIR unit (R42, R43, R47): `h[0..63]`, and `hist[j]` of the spec at list position `j - 1`. `out` is the
unit's own output buffer (00_scope.md R14), meaningful until its next operation. -/
structure FirUnit where
  configured : Bool
  sat : Bool
  d : BitVec 5
  t : BitVec 7
  h : List Half
  hist : List C16
  out : C16Buf
  deriving DecidableEq, Repr

/-- BPF: a FIR unit and the channel filter's edges in Hz (R43). -/
structure BandpassUnit where
  fir : FirUnit
  passHz : Word
  stopHz : Word
  deriving DecidableEq, Repr

/-- FBF (R43, R48): `h[0..31]`, `hist[1..31]`, and the output buffer of R14. -/
structure BasebandUnit where
  t : BitVec 6
  h : List F32
  hist : List F32
  out : F32Buf
  deriving DecidableEq, Repr

/-- AMD (R43, R50). -/
structure AmUnit where
  ssb : Bool
  bfoInc : Word
  bfoPhase : Word
  out : F32Buf
  deriving DecidableEq, Repr

/-- FMD (R43, R52). -/
structure FmUnit where
  gain : F32
  zPrev : C16
  out : F32Buf
  deriving DecidableEq, Repr

/-- STR (R42, R43, R58). -/
structure ClockUnit where
  configured : Bool
  sampleRate : Word
  symbolRate : Word
  inc : Word
  gain : F32
  phase : Word
  last : F32
  ef : F32
  deriving DecidableEq, Repr

/-- PKT (R61, 44_packet_builder.md R242): bit 0 of the shift registers is the newest symbol. -/
structure PacketUnit where
  capturing : Bool
  histBits : BitVec 64
  histErr : BitVec 64
  histN : Nat
  payload : List Bool
  captureLen : Nat
  deriving DecidableEq, Repr

/-- The capture side of SPC and the epoch handed to SPE (R62). -/
structure SpectrumUnit where
  streaming : Bool
  k : Half
  decCount : Half
  fill : Byte
  cb : List C16
  fb : List C16
  fbRate : Word
  fbPass : Word
  fbStop : Word
  updateRequest : Bool
  deriving DecidableEq, Repr

/-- One spectrum snapshot: rate, edges and 256 bins (R62). -/
structure Snapshot where
  rate : Word
  pass : Word
  stop : Word
  db : List Byte
  deriving DecidableEq, Repr

/-- The single-slot FIFO, handle 0 (R62, 20_memory.md R87). -/
structure SlotRegs where
  valid : Bool
  snap : Snapshot
  deriving DecidableEq, Repr

/-- AUD (46_audio_output.md R286). -/
structure AudioUnit where
  cfg : List Byte
  fstate : AudioMemory
  block : List Half
  blockN : Nat
  deriving DecidableEq, Repr

/-- A block handed to SINK, with its rate in Hz (R288). -/
structure AudioBlock where
  rate : Word
  samples : List Half
  deriving DecidableEq, Repr

/-- What an operation returns, R135's "-> result" (log entry 10). -/
inductive Ret
  | none
  | bool (b : Bool)
  | message (kind : Byte) (payload : List Byte)
  | kind (kind : Byte)
  | buf16 (b : C16Buf)
  | buf32 (b : F32Buf)
  | symbol (x : F32)
  | packet (bits : List Bool) (count : Nat)
  | snapshot (s : Snapshot)
  | hex (data errs : List Byte)
  deriving DecidableEq, Repr

/-- The ring storage: (offset, byte) cells, offsets strictly rising, only bytes that something has written. -/
abbrev Memory := List Host.Cell

/-- The state of the block, and the model's own fields (last five, INVENTORY.md). -/
structure State where
  mode : Mode
  bufCount : Word
  errstat : BitVec 8
  evt : BitVec 32
  a2b : ChannelRegs
  b2a : ChannelRegs
  mem : Memory
  pfd0 : FirUnit
  pfd1 : FirUnit
  pfd2 : FirUnit
  bpf : BandpassUnit
  fbf : BasebandUnit
  amd : AmUnit
  fmd : FmUnit
  str : ClockUnit
  pkt : PacketUnit
  spc : SpectrumUnit
  slot : SlotRegs
  aud : AudioUnit
  /-- The build parameters (00_scope.md R10); no step writes them (log entry 4). -/
  params : Params
  /-- The agents' moves still to come (log entry 1). -/
  agenda : List Move
  /-- What the last operation returned (log entry 10). -/
  ret : Ret
  /-- The audio blocks SINK has accepted, oldest first (R288; log entry 10). -/
  sink : List AudioBlock
  /-- How many free values have been drawn (log entry 18). -/
  draws : Nat
  deriving DecidableEq, Repr

/-- Why the machine stops. The block has no trap of its own (60_exceptions.md R355): its errors are ERRSTAT bits. -/
inductive Fault
  /-- Raised by `memRead` for an offset outside the shared region (20_memory.md R87). No operation of the block computes
  such an offset (R96). SAFE: the model stops where the spec describes nothing. -/
  | noSuchAddress (offset : Nat)
  deriving DecidableEq, Repr

/-- Why an operation has no step. -/
inductive Refusal
  /-- An arm without a meaning. No arm of `exec` raises it. SAFE. -/
  | notModelled (mnemonic : String)
  /-- Raised by a meaning whose Precondition does not hold: "an operation that is not enabled has no step"
  (00_scope.md R17). `step` passes over such a move (log entry 11). SAFE: the spec has no step there either. -/
  | notEnabled (mnemonic : String)
  /-- Raised by `step` for bytes that are no operation (93 U14, R112; log entry 15). SAFE: no agent makes such a move. -/
  | noOperation (e : DecodeError)
  deriving DecidableEq, Repr

/-- The outcome of an operation. -/
abbrev Result := Host.Outcome State Fault Refusal

/-! ### Power-on values (the power-on column of 10_state.md; 70_reset_and_hazards.md R370) -/

/-- Power-on value of a channel's registers (R45). -/
def ChannelRegs.powerOn : ChannelRegs := { w := 0, r := 0, rSeen := 0, wSeen := 0, fault := false }

/-- Power-on value of PFD[s] and of BPF's FIR (R42, R43, R47). -/
def FirUnit.powerOn : FirUnit :=
  { configured := false, sat := false, d := 0, t := 0, h := List.replicate 64 0,
    hist := List.replicate 63 C16.zero, out := C16Buf.empty }

/-- Power-on value of BPF (R43). -/
def BandpassUnit.powerOn : BandpassUnit := { fir := FirUnit.powerOn, passHz := 0, stopHz := 0 }

/-- The f32 1.0. -/
def f32One : F32 := 0x3F800000

/-- Power-on value of FBF: the single tap 1.0 (R43, R48). -/
def BasebandUnit.powerOn : BasebandUnit :=
  { t := 1, h := f32One :: List.replicate 31 0, hist := List.replicate 31 0, out := F32Buf.empty }

/-- Power-on value of AMD (R43, R50). -/
def AmUnit.powerOn : AmUnit := { ssb := false, bfoInc := 0, bfoPhase := 0, out := F32Buf.empty }

/-- Power-on value of FMD (R43, R52). -/
def FmUnit.powerOn : FmUnit := { gain := f32One, zPrev := C16.zero, out := F32Buf.empty }

/-- Power-on value of STR (R42, R43, R58). -/
def ClockUnit.powerOn : ClockUnit :=
  { configured := false, sampleRate := 0, symbolRate := 0, inc := 0, gain := 0, phase := 0, last := 0, ef := 0 }

/-- Power-on value of PKT (R61, R242). The payload bits are a DESIGN CHOICE (log entry 9). -/
def PacketUnit.powerOn (p : Params) : PacketUnit :=
  { capturing := false, histBits := 0, histErr := 0, histN := 0,
    payload := List.replicate p.pktCap false, captureLen := 0 }

/-- Power-on value of SPC (R62). -/
def SpectrumUnit.powerOn : SpectrumUnit :=
  { streaming := false, k := 0, decCount := 0, fill := 0, cb := List.replicate 256 C16.zero,
    fb := List.replicate 256 C16.zero, fbRate := 0, fbPass := 0, fbStop := 0, updateRequest := false }

/-- Power-on value of the slot (R62). -/
def SlotRegs.powerOn : SlotRegs :=
  { valid := false, snap := { rate := 0, pass := 0, stop := 0, db := List.replicate 256 0 } }

/-- Power-on value of AUD (R286). -/
def AudioUnit.powerOn (p : Params) : AudioUnit :=
  { cfg := [], fstate := p.audInit, block := List.replicate p.audBlock 0, blockN := 0 }

/-- The block built with parameters `p`, right after hardware reset (R370), with no move scheduled. -/
def State.powerOn (p : Params) : State :=
  { mode := .none, bufCount := 0, errstat := 0, evt := 0,
    a2b := ChannelRegs.powerOn, b2a := ChannelRegs.powerOn, mem := [],
    pfd0 := FirUnit.powerOn, pfd1 := FirUnit.powerOn, pfd2 := FirUnit.powerOn, bpf := BandpassUnit.powerOn,
    fbf := BasebandUnit.powerOn, amd := AmUnit.powerOn, fmd := FmUnit.powerOn, str := ClockUnit.powerOn,
    pkt := PacketUnit.powerOn p, spc := SpectrumUnit.powerOn, slot := SlotRegs.powerOn, aud := AudioUnit.powerOn p,
    params := p, agenda := [], ret := .none, sink := [], draws := 0 }

/-- The machine right after reset, built with the default parameters of 00_scope.md R10. -/
def State.reset : State := State.powerOn Params.default

end Sys2Proof.Machine
end

