-- ==== Sys2Proof/Machine/Flags.lean ====
section
/-! DEFINITION. Every flag computation of the block (spec/10_state.md R42, R44, R63): the ERRSTAT bits, EVT[0], and the
saturation test of the FIR units. -/

namespace Sys2Proof.Machine
open Sys2Proof

/-- The error conditions of 60_exceptions.md R340. -/
inductive ErrCond
  | configRejected
  | txOverflow
  | unknownKind
  | rxMalformed
  | captureOverflow
  deriving DecidableEq, Repr

/-- The code of a condition: its bit number in ERRSTAT (R340). -/
def errCode : ErrCond → Nat
  | .configRejected => 0
  | .txOverflow => 1
  | .unknownKind => 2
  | .rxMalformed => 3
  | .captureOverflow => 4

/-- The ERRSTAT word with one more sticky bit set (R341, R356). -/
def errBits (e : BitVec 8) (x : ErrCond) : BitVec 8 := e ||| (1#8 <<< errCode x)

/-- Is a condition's bit set? -/
def errSet (e : BitVec 8) (x : ErrCond) : Bool := e.getLsbD (errCode x)

/-- EVT[0], the spectrum event, and the level of the output line `evt` (R351). -/
def evtBit (e : BitVec 32) : Bool := e.getLsbD 0

/-- EVT after a write: bits 31:1 are reserved, read as 0, and writes to them are ignored (R63). -/
def evtWrite (v : BitVec 32) : BitVec 32 := v &&& 1

/-- A FIR output part saturates (R174). -/
def satPart (y : Int) : Bool := decide (y ≠ sat16 y)

/-- The saturation flag of a statistics message: the OR of the four `sat` bits (48_top_level.md R317). -/
def anySat (s : State) : Bool := s.pfd0.sat || s.pfd1.sat || s.pfd2.sat || s.bpf.fir.sat

end Sys2Proof.Machine
end

