-- ==== Sys2Proof/Machine/Ops.lean ====
section
/-! DEFINITION. The shared operations: the error entry `raise`, memory, the address map, the three operations of the
message channel, and the accessors of the unit registers. -/

namespace Sys2Proof.Machine
open Sys2Proof

/-- End an operation: the next state, with the value it returns. -/
def done (r : Ret) (s : State) : Result := .next { s with ret := r }

/-- `raise X` (60_exceptions.md R341): sets the condition's ERRSTAT bit. It saves nothing, changes no mode and transfers
control nowhere (R355); the operation that raises it ends where its rule says. There is no return from it (R356). -/
def State.raise (x : ErrCond) (s : State) : State := { s with errstat := errBits s.errstat x }

/-- Build the block: "a model refuses to be built" with parameters outside the contract (93 U7, U13; R242, R247). -/
def State.build (p : Params) : Option State := if paramsOk p then some (State.powerOn p) else none

/-! ### Registers by name -/

/-- The registers of a channel. -/
def State.chan (s : State) : Chan → ChannelRegs
  | .a2b => s.a2b
  | .b2a => s.b2a

/-- Write the registers of a channel. -/
def State.setChan (s : State) (c : Chan) (x : ChannelRegs) : State :=
  match c with
  | .a2b => { s with a2b := x }
  | .b2a => { s with b2a := x }

/-- The registers of PFD[i]. -/
def State.pfd (s : State) (i : Fin 3) : FirUnit :=
  if i.val = 0 then s.pfd0 else if i.val = 1 then s.pfd1 else s.pfd2

/-- Write the registers of PFD[i]. -/
def State.setPfd (s : State) (i : Fin 3) (f : FirUnit) : State :=
  if i.val = 0 then { s with pfd0 := f } else if i.val = 1 then { s with pfd1 := f } else { s with pfd2 := f }

/-! ### Memory: the ring storage -/

/-- The byte stored at an offset, none where nothing has written one. -/
def memGet : Memory → Nat → Option Byte
  | [], _ => none
  | (a, b) :: m, k => if a = k then some b else memGet m k

/-- Store a byte, keeping the offsets strictly rising. -/
def memSet : Memory → Nat → Byte → Memory
  | [], k, v => [(k, v)]
  | (a, b) :: m, k, v =>
    if k < a then (k, v) :: (a, b) :: m
    else if k = a then (k, v) :: m
    else (a, b) :: memSet m k v

/-- What an unlisted ring byte reads as: a free value (93 U3; log entry 8). The list itself stores no value for it, so
every byte that something has written is listed. -/
def unlisted (off : Nat) : Byte := Config.ringPowerOn off

/-- The canonical form: offsets strictly rising, all of them ring storage (R87). -/
def Memory.wf (p : Params) (m : Memory) : Bool :=
  decide (List.Pairwise (· < ·) (m.map Prod.fst)) && m.all fun c => decide (0x200 ≤ c.1 ∧ c.1 < shmSize p)

/-- The ring byte at an offset. -/
def State.ringByte (s : State) (off : Nat) : Byte := (memGet s.mem off).getD (unlisted off)

/-- Store consecutive bytes of a ring, from cursor position `pos` (R96). -/
def writeRing (base cap : Nat) : Nat → List Byte → Memory → Memory
  | _, [], m => m
  | pos, b :: bs, m => writeRing base cap (pos + 1) bs (memSet m (ringOffset base cap pos 0) b)

/-- Where the ring of a channel starts in this build. -/
def State.ringBase (s : State) (c : Chan) : Nat := Machine.ringBase s.params.mfcCap (c == .b2a)

/-- `n` consecutive ring bytes of a channel from cursor position `pos` (R96). -/
def State.readRing (s : State) (c : Chan) (pos n : Nat) : List Byte :=
  (List.range n).map fun i => s.ringByte (ringOffset (s.ringBase c) s.params.mfcCap pos i)

/-! ### The shared region as APP sees it (20_memory.md R87) -/

/-- The word registers at offsets 0x00 to 0x14. -/
def State.ctlWord (s : State) : Nat → Word
  | 0 => s.a2b.w
  | 1 => s.a2b.r
  | 2 => s.b2a.w
  | 3 => s.b2a.r
  | 4 => s.evt
  | 5 => s.errstat.setWidth 32
  | _ => 0

/-- The slot words at offsets 0x20 to 0x2C. -/
def State.slotWord (s : State) : Nat → Word
  | 0 => if s.slot.valid then 1 else 0
  | 1 => s.slot.snap.rate
  | 2 => s.slot.snap.pass
  | 3 => s.slot.snap.stop
  | _ => 0

/-- Byte `i` of a little-endian word (R80). -/
def wordByte (v : Word) (i : Nat) : Byte := BitVec.ofNat 8 (v.toNat / 256 ^ i)

/-- The byte at an offset of the shared region, none outside it (R87). The reserved ranges read as 0. -/
def State.shmByte (s : State) (off : Nat) : Option Byte :=
  if off < 0x18 then some (wordByte (s.ctlWord (off / 4)) (off % 4))
  else if off < 0x20 then some 0
  else if off < 0x30 then some (wordByte (s.slotWord (off / 4 - 8)) (off % 4))
  else if off < 0x130 then some (s.slot.snap.db.getD (off - 0x30) 0)
  else if off < 0x200 then some 0
  else if off < shmSize s.params then some (s.ringByte off)
  else none

/-- `MemRead(addr, n)` (00_scope.md R16): n bytes, little-endian; a fault outside the region. -/
def State.memRead (s : State) : Nat → Nat → Except Fault Nat
  | _, 0 => .ok 0
  | off, n + 1 =>
    match s.shmByte off with
    | none => .error (.noSuchAddress off)
    | some b =>
      match s.memRead (off + 1) n with
      | .error e => .error e
      | .ok v => .ok (b.toNat + 256 * v)

/-- The byte at an absolute address of a core's map (R87, SHM_BASE). -/
def State.busByte (s : State) (addr : Nat) : Option Byte :=
  if addr < s.params.shmBase then none else s.shmByte (addr - s.params.shmBase)

/-! ### The message channel (40_message_channel.md) -/

/-- `used(c) = wrap32(w - r)` (R152). -/
def ChannelRegs.used (x : ChannelRegs) : Nat := (x.w - x.r).toNat
/-- The sender's estimate `wrap32(w - r_seen)` (R152). -/
def ChannelRegs.usedSeen (x : ChannelRegs) : Nat := (x.w - x.rSeen).toNat
/-- The receiver's estimate `wrap32(w_seen - r)` (R152). -/
def ChannelRegs.avail (x : ChannelRegs) : Nat := (x.wSeen - x.r).toNat

/-- A message that MFC.SEND refuses before writing anything (R112). -/
def badMessage (p : Params) (kind : Byte) (len : Nat) : Bool := kind == 0 || decide (payloadMax p < len)

/-- The message does not fit in the room the sender sees (R153). -/
def noRoom (p : Params) (x : ChannelRegs) (len : Nat) : Bool := decide (p.mfcCap - x.usedSeen < 4 + len)

/-- MFC.SEND, try_send (R153): bytes first, then the cursor. -/
def State.send (s : State) (c : Chan) (kind : Byte) (payload : List Byte) : State × Bool :=
  if badMessage s.params kind payload.length then (s, false)
  else if noRoom s.params (s.chan c) payload.length then
    (match c with
      | .a2b => s
      | .b2a => s.raise .txOverflow, false)
  else
    let x := s.chan c
    let s1 := { s with
      mem := writeRing (s.ringBase c) s.params.mfcCap x.w.toNat (messageBytes kind payload) s.mem }
    (s1.setChan c { x with w := x.w + BitVec.ofNat 32 (4 + payload.length) }, true)

/-- RxMalformed (R157): the channel's fault is latched, and ERRSTAT[3] set if the receiver is BB. -/
def State.rxMalformed (s : State) (c : Chan) : State :=
  match c with
  | .a2b => (s.setChan .a2b { s.a2b with fault := true }).raise .rxMalformed
  | .b2a => s.setChan .b2a { s.b2a with fault := true }

/-- The kind byte of the message at the read cursor (R111). -/
def State.headKind (s : State) (c : Chan) : Byte := (s.readRing c (s.chan c).r.toNat 4).getD 0 0

/-- The length field of the message at the read cursor (R111). -/
def State.headLen (s : State) (c : Chan) : Nat :=
  let h := s.readRing c (s.chan c).r.toNat 4
  (u16le (h.getD 2 0) (h.getD 3 0)).toNat

/-- MFC.RECV, try_receive (R155): reads first, then the cursor. -/
def State.recv (s : State) (c : Chan) : State × Option (Byte × List Byte) :=
  let x := s.chan c
  if x.fault then (s, none)
  else if x.avail < 4 then (s, none)
  else if badMessage s.params (s.headKind c) (s.headLen c) then (s.rxMalformed c, none)
  else if x.avail < 4 + s.headLen c then (s, none)
  else
    (s.setChan c { x with r := x.r + BitVec.ofNat 32 (4 + s.headLen c) },
      some (s.headKind c, s.readRing c (x.r.toNat + 4) (s.headLen c)))

/-- MFC.SYNC (R158): refresh one copy or both. -/
def ChannelRegs.sync (x : ChannelRegs) : SyncSel → ChannelRegs
  | .both => { x with wSeen := x.w, rSeen := x.r }
  | .wSeen => { x with wSeen := x.w }
  | .rSeen => { x with rSeen := x.r }

end Sys2Proof.Machine
end

