-- ==== Sys2Proof/Machine/Channel.lean ====
section
/-! DEFINITION. The operations of MFC (spec/40_message_channel.md). -/

namespace Sys2Proof.Machine
open Sys2Proof

/-- MFC.SEND (R153). -/
def execMfcSend (c : Chan) (kind : Byte) (payload : List Byte) (s : State) : Result :=
  done (.bool (s.send c kind payload).2) (s.send c kind payload).1

/-- What MFC.RECV returns: none, or the message. -/
def recvRet : Option (Byte × List Byte) → Ret
  | none => .none
  | some (kind, payload) => .message kind payload

/-- MFC.RECV (R155). -/
def execMfcRecv (c : Chan) (s : State) : Result := done (recvRet (s.recv c).2) (s.recv c).1

/-- MFC.SYNC (R158). -/
def execMfcSync (c : Chan) (sel : SyncSel) (s : State) : Result :=
  done .none (s.setChan c ((s.chan c).sync sel))

end Sys2Proof.Machine
end

