-- ==== Sys2Proof/Machine/Manchester.lean ====
section
/-! DEFINITION. The Manchester decoder, MAN (spec/47_manchester_decoder.md). -/

namespace Sys2Proof.Machine
open Sys2Proof

/-- The decoded bit and the error bit of each whole pair (R296); an odd last bit is ignored. -/
def manPairs (sense : Bool) : List Bool → List (Bool × Bool)
  | b0 :: b1 :: r => (if sense then b1 else b0, b0 == b1) :: manPairs sense r
  | _ => []

/-- The number of digits, ceil(pairs / 4) (R296). -/
def manDigits (n : Nat) : Nat := (n / 2 + 3) / 4

/-- `HEX(x)`: the ASCII code of an upper-case hexadecimal digit (R296). -/
def hexDigit (x : Nat) : Byte := BitVec.ofNat 8 (if x < 10 then 0x30 + x else 0x37 + x)

/-- A bit as a number. -/
def bitNat (b : Bool) : Nat := if b then 1 else 0

/-- `digits` digits of four bits each, the first bit the most significant; missing bits are `pad` (R296). -/
def hexDigits (pad : Bool) : Nat → List Bool → List Byte
  | 0, _ => []
  | n + 1, bits =>
    hexDigit (8 * bitNat (bits.getD 0 pad) + 4 * bitNat (bits.getD 1 pad) + 2 * bitNat (bits.getD 2 pad)
      + bitNat (bits.getD 3 pad)) :: hexDigits pad n (bits.drop 4)

/-- MAN.DECODE's `data` string (R296): padded bits are 0. -/
def manData (bits : List Bool) (sense : Bool) : List Byte :=
  hexDigits false (manDigits bits.length) ((manPairs sense bits).map Prod.fst)

/-- MAN.DECODE's `errs` string (R296): padding positions are errors. -/
def manErrs (bits : List Bool) (sense : Bool) : List Byte :=
  hexDigits true (manDigits bits.length) ((manPairs sense bits).map Prod.snd)

/-- MAN.DECODE (R296): the input port accepts at most MAN_BITS_MAX bits. -/
def execManDecode (bits : List Bool) (sense : Bool) (s : State) : Result :=
  if bits.length ≤ Config.manBitsMax then done (.hex (manData bits sense) (manErrs bits sense)) s
  else .refused (.notEnabled "MAN.DECODE")

end Sys2Proof.Machine
end

