-- ==== Sys2Proof/Machine/Float32.lean ====
section
/-! DEFINITION. IEEE 754 binary32 on bit patterns (spec/00_scope.md R15): exact integer arithmetic and one rounding to
nearest, ties to even. Every operation that can produce a NaN takes the index `d` of the free value it draws (log entries
6 and 18). What R15 does not spell out (signs of zeros, infinities) is PRESUMED from IEEE 754, log entry 20. -/

namespace Sys2Proof.Machine
open Sys2Proof

/-- What a bit pattern stands for; a finite value is (-1)^neg * m * 2^e. -/
inductive FloatView
  | nan
  | inf (neg : Bool)
  | fin (neg : Bool) (m : Nat) (e : Int)
  deriving DecidableEq, Repr

/-- The exponent field, bits 30:23. -/
def f32Exp (x : F32) : Nat := x.toNat / 2 ^ 23 % 256
/-- The fraction field, bits 22:0. -/
def f32Frac (x : F32) : Nat := x.toNat % 2 ^ 23
/-- The sign bit. -/
def f32Sign (x : F32) : Bool := decide (2 ^ 31 ≤ x.toNat)
/-- All bits but the sign. -/
def f32Mag (x : F32) : Nat := x.toNat % 2 ^ 31

/-- The value of a bit pattern. -/
def f32View (x : F32) : FloatView :=
  if f32Exp x = 255 then (if f32Frac x = 0 then .inf (f32Sign x) else .nan)
  else if f32Exp x = 0 then .fin (f32Sign x) (f32Frac x) (-149)
  else .fin (f32Sign x) (2 ^ 23 + f32Frac x) ((f32Exp x : Int) - 150)

/-- Is the pattern a NaN? -/
def f32IsNaN (x : F32) : Bool := f32Exp x == 255 && f32Frac x != 0

/-- Is the exponent field not all ones (43_clock_recovery.md R222)? -/
def f32Finite (x : F32) : Bool := f32Exp x != 255

/-- A sign and the 31 lower bits. -/
def f32Pack (neg : Bool) (mag : Nat) : F32 := BitVec.ofNat 32 (mag + if neg then 2 ^ 31 else 0)

/-- Infinity. -/
def f32Inf (neg : Bool) : F32 := f32Pack neg 0x7F800000

/-- "some quiet NaN; its sign and payload are not specified": the `d`-th free draw. -/
def f32NaN (d : Nat) : F32 :=
  let v := (Config.nanDraw d).toNat
  f32Pack (decide (2 ^ 22 ≤ v)) (0x7FC00000 + v % 2 ^ 22)

/-- The significand `m * 2^e` rounded to a multiple of `2^q`, to nearest, ties to even; `sticky` says that a nonzero
part below the last bit of `m` was cut off. -/
def roundTo (m : Nat) (e q : Int) (sticky : Bool) : Nat :=
  if q ≤ e then m * 2 ^ (e - q).toNat
  else
    let d := (q - e).toNat
    let k := m / 2 ^ d
    let rem := m % 2 ^ d
    let half := 2 ^ (d - 1)
    if half < rem ∨ (rem = half ∧ (sticky = true ∨ k % 2 = 1)) then k + 1 else k

/-- Round (-1)^neg * m * 2^e to binary32. The last place is 24 bits below the leading bit, or 2^-149; a result above the
largest finite value is an infinity. -/
def f32Round (neg : Bool) (m : Nat) (e : Int) (sticky : Bool) : F32 :=
  if m = 0 then f32Pack neg 0
  else
    let q : Int := max (e + (Nat.log2 m : Int) - 23) (-149)
    f32Pack neg (min 0x7F800000 ((q + 149).toNat * 2 ^ 23 + roundTo m e q sticky))

/-- `f32_neg`: flips the sign bit, exact. -/
def f32Neg (x : F32) : F32 := x ^^^ 0x80000000

/-- A signed significand. -/
def signed (neg : Bool) (m : Nat) : Int := if neg then -(m : Int) else m

/-- `f32_add`. -/
def f32Add (d : Nat) (a b : F32) : F32 :=
  match f32View a, f32View b with
  | .nan, _ => f32NaN d
  | _, .nan => f32NaN d
  | .inf s, .inf t => if s = t then f32Inf s else f32NaN d
  | .inf s, .fin _ _ _ => f32Inf s
  | .fin _ _ _, .inf t => f32Inf t
  | .fin s m e, .fin t n f =>
    let g := min e f
    let sum := signed s (m * 2 ^ (e - g).toNat) + signed t (n * 2 ^ (f - g).toNat)
    if sum = 0 then f32Pack (s && t) 0
    else f32Round (decide (sum < 0)) sum.natAbs g false

/-- `f32_sub`. -/
def f32Sub (d : Nat) (a b : F32) : F32 := f32Add d a (f32Neg b)

/-- `f32_mul`. -/
def f32Mul (d : Nat) (a b : F32) : F32 :=
  match f32View a, f32View b with
  | .nan, _ => f32NaN d
  | _, .nan => f32NaN d
  | .inf s, .inf t => f32Inf (s != t)
  | .inf s, .fin t n _ => if n = 0 then f32NaN d else f32Inf (s != t)
  | .fin s m _, .inf t => if m = 0 then f32NaN d else f32Inf (s != t)
  | .fin s m e, .fin t n f => f32Round (s != t) (m * n) (e + f) false

/-- `f32_div`: 50 more quotient bits than needed for the integer part, and a sticky bit for the rest. -/
def f32Div (d : Nat) (a b : F32) : F32 :=
  match f32View a, f32View b with
  | .nan, _ => f32NaN d
  | _, .nan => f32NaN d
  | .inf _, .inf _ => f32NaN d
  | .inf s, .fin t _ _ => f32Inf (s != t)
  | .fin s _ _, .inf t => f32Pack (s != t) 0
  | .fin s m e, .fin t n f =>
    if n = 0 then (if m = 0 then f32NaN d else f32Inf (s != t))
    else f32Round (s != t) (m * 2 ^ 50 / n) (e - f - 50) (decide (m * 2 ^ 50 % n ≠ 0))

/-- The integer square root, one bit at a time from bit `k - 1` down. -/
def isqrtFrom : Nat → Nat → Nat → Nat
  | 0, _, r => r
  | k + 1, n, r => if (r + 2 ^ k) * (r + 2 ^ k) ≤ n then isqrtFrom k n (r + 2 ^ k) else isqrtFrom k n r

/-- The floor of the square root of a number below 2^80. -/
def isqrt (n : Nat) : Nat := isqrtFrom 40 n 0

/-- `f32_sqrt`. -/
def f32Sqrt (d : Nat) (a : F32) : F32 :=
  match f32View a with
  | .nan => f32NaN d
  | .inf s => if s then f32NaN d else f32Inf false
  | .fin s m e =>
    if m = 0 then f32Pack s 0
    else if s then f32NaN d
    else
      let k : Nat := if e % 2 = 0 then 52 else 53
      let n := m * 2 ^ k
      let r := isqrt n
      f32Round false r ((e - k) / 2) (decide (r * r ≠ n))

/-- The order of the values of non-NaN patterns; -0 and +0 have the same key. -/
def f32Key (x : F32) : Int := signed (f32Sign x) (f32Mag x)

/-- `f32_lt`: false whenever an operand is NaN. -/
def f32Lt (a b : F32) : Bool := !f32IsNaN a && !f32IsNaN b && decide (f32Key a < f32Key b)

/-- `f32_ge`: false whenever an operand is NaN. -/
def f32Ge (a b : F32) : Bool := !f32IsNaN a && !f32IsNaN b && decide (f32Key b ≤ f32Key a)

/-- `int_to_f32`: rounded once; 0 gives +0.0. -/
def intToF32 (i : Int) : F32 := f32Round (decide (i < 0)) i.natAbs 0 false

/-- Truncate a finite value toward zero. -/
def truncFin (neg : Bool) (m : Nat) (e : Int) : Int :=
  signed neg (if 0 ≤ e then m * 2 ^ e.toNat else m / 2 ^ (-e).toNat)

/-- `f32_to_s32_rtz_sat`. -/
def f32ToS32 (x : F32) : Int :=
  match f32View x with
  | .nan => 0
  | .inf s => if s then -2147483648 else 2147483647
  | .fin s m e => min 2147483647 (max (-2147483648) (truncFin s m e))

end Sys2Proof.Machine
end

