-- ==== Sys2Proof/Machine/Audio.lean ====
section
/-! DEFINITION. The audio output chain, AUD (spec/46_audio_output.md). -/

namespace Sys2Proof.Machine
open Sys2Proof

/-! ### AUD_STAGE (R285, R286, R290) -/

/-- What the expressions of a stage can read. -/
structure StageEnv where
  cfg : List Byte
  raw : F32
  input : F32
  mem : List Word
  present : Bool
  deriving DecidableEq, Repr

/-- How many free values an expression may draw: one for each f32 operation that can make a NaN. -/
def exprDraws : StageExpr → Nat
  | .const _ => 0
  | .input => 0
  | .raw => 0
  | .mem _ => 0
  | .cfg _ => 0
  | .cfgLen => 0
  | .present => 0
  | .add a b => exprDraws a + exprDraws b + 1
  | .sub a b => exprDraws a + exprDraws b + 1
  | .mul a b => exprDraws a + exprDraws b + 1
  | .div a b => exprDraws a + exprDraws b + 1
  | .sqrt a => exprDraws a + 1
  | .neg a => exprDraws a
  | .ifLess a b yes no => exprDraws a + exprDraws b + exprDraws yes + exprDraws no
  | .ifBit a _ yes no => exprDraws a + exprDraws yes + exprDraws no

/-- The word an expression stands for, its free values numbered from `d`. -/
def evalExpr (env : StageEnv) : Nat → StageExpr → Word
  | _, .const w => w
  | _, .input => env.input
  | _, .raw => env.raw
  | _, .mem i => env.mem.getD i 0
  | _, .cfg i => u32le (env.cfg.getD i 0) (env.cfg.getD (i + 1) 0) (env.cfg.getD (i + 2) 0) (env.cfg.getD (i + 3) 0)
  | _, .cfgLen => BitVec.ofNat 32 env.cfg.length
  | _, .present => if env.present then f32One else 0
  | d, .add a b => f32Add (d + exprDraws a + exprDraws b) (evalExpr env d a) (evalExpr env (d + exprDraws a) b)
  | d, .sub a b => f32Sub (d + exprDraws a + exprDraws b) (evalExpr env d a) (evalExpr env (d + exprDraws a) b)
  | d, .mul a b => f32Mul (d + exprDraws a + exprDraws b) (evalExpr env d a) (evalExpr env (d + exprDraws a) b)
  | d, .div a b => f32Div (d + exprDraws a + exprDraws b) (evalExpr env d a) (evalExpr env (d + exprDraws a) b)
  | d, .sqrt a => f32Sqrt (d + exprDraws a) (evalExpr env d a)
  | d, .neg a => f32Neg (evalExpr env d a)
  | d, .ifLess a b yes no =>
    if f32Lt (evalExpr env d a) (evalExpr env (d + exprDraws a) b) then
      evalExpr env (d + exprDraws a + exprDraws b) yes
    else evalExpr env (d + exprDraws a + exprDraws b + exprDraws yes) no
  | d, .ifBit a i yes no =>
    if (evalExpr env d a).getLsbD i then evalExpr env (d + exprDraws a) yes
    else evalExpr env (d + exprDraws a + exprDraws yes) no

/-- How many free values a list of expressions may draw. -/
def listDraws : List StageExpr → Nat
  | [] => 0
  | e :: es => exprDraws e + listDraws es

/-- The next memory of a stage: every expression reads the memory from before the sample; words without one are kept. -/
def nextMemory (env : StageEnv) : Nat → List StageExpr → List Word → List Word
  | _, [], ws => ws
  | _, _ :: _, [] => []
  | d, e :: es, _ :: ws => evalExpr env d e :: nextMemory env (d + exprDraws e) es ws

/-- How many free values a filter may draw for a sample. -/
def filterDraws (f : FilterStage) : Nat := exprDraws f.output + listDraws f.memory

/-- One sample through a filter: its next memory and its output. -/
def runFilter (cfg : List Byte) (raw : F32) (d : Nat) (f : FilterStage) (mem : List Word) (x : F32) : List Word × F32 :=
  let env : StageEnv := { cfg := cfg, raw := raw, input := x, mem := mem, present := true }
  (nextMemory env (d + exprDraws f.output) f.memory mem, evalExpr env d f.output)

/-- How many free values the optional de-emphasis filter may draw. -/
def deEmphasisDraws : Option FilterStage → Nat
  | none => 0
  | some f => filterDraws f

/-- The de-emphasis filter, "pass-through by default" (R285, R290). -/
def deEmphasize (cfg : List Byte) (raw : F32) (d : Nat) (mem : List Word) (x : F32) : Option FilterStage → List Word × F32
  | none => (mem, x)
  | some f => runFilter cfg raw d f mem x

/-- How many free values the optional squelch gate may draw. -/
def squelchDraws : Option SquelchGate → Nat
  | none => 0
  | some g => exprDraws g.level + exprDraws g.threshold + listDraws g.memory

/-- The squelch gate (R290): its next memory, and whether it lets the sample through. A level that compares with nothing
(a NaN) is not below the threshold (log entry 5). -/
def squelchGate (cfg : List Byte) (raw : F32) (d : Nat) (mem : List Word) (x : F32) : Option SquelchGate → List Word × Bool
  | none => (mem, true)
  | some g =>
    let env : StageEnv := { cfg := cfg, raw := raw, input := x, mem := mem, present := true }
    let dl := d + exprDraws g.level
    let dt := dl + exprDraws g.threshold
    (nextMemory env dt g.memory mem, !f32Lt (evalExpr env d g.level) (evalExpr env dl g.threshold))

/-- The presence/level history, updated for every sample, muted or not (R285, R290): it sees the sample before muting. -/
def updateHistory (cfg : List Byte) (raw : F32) (d : Nat) (es : List StageExpr) (mem : List Word) (x : F32)
    (present : Bool) : List Word :=
  nextMemory { cfg := cfg, raw := raw, input := x, mem := mem, present := present } d es mem

/-- How many free values AUD_STAGE may draw for a sample. -/
def stageDraws (st : AudioStage) : Nat :=
  filterDraws st.highPass + deEmphasisDraws st.deEmphasis + squelchDraws st.squelch + listDraws st.history

/-- AUD_STAGE (R286) in the settled order (R285, R290): high-pass, de-emphasis, squelch, statistics; muting replaces the
sample by +0.0 and skips nothing. One sample in, one out. -/
def audStage (p : Params) (d : Nat) (cfg : List Byte) (m : AudioMemory) (x : F32) : AudioMemory × F32 :=
  let st := p.audStage
  let d1 := d + filterDraws st.highPass
  let d2 := d1 + deEmphasisDraws st.deEmphasis
  let hp := runFilter cfg x d st.highPass m.highPass x
  let de := deEmphasize cfg x d1 m.deEmphasis hp.2 st.deEmphasis
  let sq := squelchGate cfg x d2 m.squelch de.2 st.squelch
  ({ highPass := hp.1, deEmphasis := de.1, squelch := sq.1,
     history := updateHistory cfg x (d2 + squelchDraws st.squelch) st.history m.history de.2 sq.2 },
    if sq.2 then de.2 else 0)

/-! ### The unit -/

/-- TO_S16 (R289): times 32768, truncated, saturated; a NaN gives 0. -/
def toAudio (y : F32) : Half := toS16 (sat16 (f32ToS32 (f32Mul 0 y 0x47000000)))

/-- AUD.RESET (R286): `cfg` and the block's contents are kept. -/
def AudioUnit.reset (u : AudioUnit) (p : Params) : AudioUnit := { u with fstate := p.audInit, blockN := 0 }

/-- AUD.CFG (R287): `block_n` is kept. -/
def AudioUnit.config (u : AudioUnit) (p : Params) (bytes : List Byte) : AudioUnit :=
  { u with cfg := bytes, fstate := p.audInit }

/-- One sample of AUD.EXEC (R288): the next unit, and the block it completes; free values numbered from `d`. -/
def AudioUnit.step (u : AudioUnit) (p : Params) (d : Nat) (x : F32) : AudioUnit × Option (List Half) :=
  let r := audStage p d u.cfg u.fstate x
  let block := u.block.set u.blockN (toAudio r.2)
  if u.blockN = p.audBlock - 1 then
    ({ u with fstate := r.1, block := block, blockN := 0 }, some (block.take p.audBlock))
  else ({ u with fstate := r.1, block := block, blockN := u.blockN + 1 }, none)

/-- Hand a block, if there is one, to SINK (R288). -/
def emitBlock (rate : Word) (sink : List AudioBlock) : Option (List Half) → List AudioBlock
  | none => sink
  | some b => sink ++ [⟨rate, b⟩]

/-- One sample of AUD.EXEC on the state (R288). -/
def State.audStep (rate : Word) (s : State) (x : F32) : State :=
  let r := s.aud.step s.params s.draws x
  { s with aud := r.1, sink := emitBlock rate s.sink r.2, draws := s.draws + stageDraws s.params.audStage }

/-- AUD.EXEC (R288). -/
def State.audExec (s : State) (b : F32Buf) : State := b.data.foldl (State.audStep b.rate) s

/-! ### Meanings -/

/-- AUD.RESET (R286). -/
def execAudReset (s : State) : Result := done .none { s with aud := s.aud.reset s.params }

/-- AUD.CFG (R287). -/
def execAudCfg (bytes : List Byte) (s : State) : Result :=
  done .none { s with aud := s.aud.config s.params bytes }

/-- AUD.EXEC (R288). -/
def execAudExec (b : F32Buf) (s : State) : Result := done .none (s.audExec b)

end Sys2Proof.Machine
end

