-- ==== Sys2Proof/Machine/Clock.lean ====
section
/-! DEFINITION. Clock recovery, STR (spec/43_clock_recovery.md). -/

namespace Sys2Proof.Machine
open Sys2Proof

/-- STR.RESET (R221). -/
def ClockUnit.reset (_ : ClockUnit) : ClockUnit := ClockUnit.powerOn

/-- The operands STR.CFG accepts (R222). -/
def clockLegal (sampleRate symbolRate : Word) (gain : F32) : Bool :=
  sampleRate != 0 && symbolRate != 0 && decide (2 * symbolRate.toNat ≤ sampleRate.toNat)
    && f32Finite gain && f32Lt 0 gain && !f32Lt f32One gain

/-- `inc = floor(symbol_rate * 2^32 / sample_rate)` (R222). -/
def clockInc (sampleRate symbolRate : Word) : Word :=
  BitVec.ofNat 32 (symbolRate.toNat * 2 ^ 32 / sampleRate.toNat)

/-- An accepted STR.CFG (R222): "reset wholesale on reconfiguration". -/
def ClockUnit.cfg (_ : ClockUnit) (sampleRate symbolRate : Word) (gain : F32) : ClockUnit :=
  { configured := true, sampleRate := sampleRate, symbolRate := symbolRate,
    inc := clockInc sampleRate symbolRate, gain := gain, phase := 0, last := 0, ef := 0 }

/-- `LOOP_K` (R225). -/
def loopK : F32 := 0x3D800000

/-- `adj(ef, inc)` (R225). A NaN converts to 0, so the two free values it could draw do not show. An infinite `ef` converts
to the end of the s32 range and clamps to `inc >> 1` or its negative: corner case (f) of R224 says that an infinite sample
has "the same consequence" as a NaN, `adj = 0`; the model follows the pseudocode (DESIGN CHOICE, log entry 21). -/
def adj (ef : F32) (inc : Word) : Int :=
  let half : Int := (inc.toNat / 2 : Nat)
  clamp (f32ToS32 (f32Mul 0 (f32Mul 0 ef loopK) (intToF32 inc.toNat))) (-half) half

/-- `sum` of R224, exact. -/
def phaseSum (u : ClockUnit) : Int := (u.phase.toNat : Int) + (u.inc.toNat : Int) + adj u.ef u.inc

/-- The phase crossed a symbol boundary (R224). -/
def phaseWraps (u : ClockUnit) : Bool := decide ((2 : Int) ^ 32 ≤ phaseSum u)

/-- `e = sign(x) * last - sign(last) * x` (R224), drawing the free value `d` if it is a NaN. -/
def timingError (d : Nat) (last x : F32) : F32 :=
  let a := if f32Lt x 0 then f32Neg last else last
  let b := if f32Lt last 0 then f32Neg x else x
  f32Sub d a b

/-- `ef + gain * (e - ef)` (R224), free values `d` to `d + 2`. -/
def filterError (d : Nat) (gain ef e : F32) : F32 := f32Add (d + 2) ef (f32Mul (d + 1) gain (f32Sub d e ef))

/-- STR.PUSH (R224): the next unit and the symbol, with free values `d` to `d + 3`. An infinite sample goes through the
pseudocode like any other: it can leave `ef` infinite, and not a NaN, until the next symbol (DESIGN CHOICE, log entry 21). -/
def ClockUnit.push (u : ClockUnit) (d : Nat) (x : F32) : ClockUnit × Option F32 :=
  let u1 := { u with phase := BitVec.ofInt 32 (phaseSum u) }
  if phaseWraps u then
    ({ u1 with ef := filterError (d + 1) u.gain u.ef (timingError d u.last x), last := x }, some x)
  else (u1, none)

/-- STR.CFG (R222). -/
def State.strCfg (s : State) (sampleRate symbolRate : Word) (gain : F32) : State :=
  if clockLegal sampleRate symbolRate gain then { s with str := s.str.cfg sampleRate symbolRate gain }
  else s.raise .configRejected

/-- STR.PUSH (R224). -/
def State.strPush (s : State) (x : F32) : State × Option F32 :=
  ({ s with str := (s.str.push s.draws x).1, draws := s.draws + 4 }, (s.str.push s.draws x).2)

/-! ### Meanings -/

/-- What STR.PUSH returns: none, or the symbol. -/
def symbolRet : Option F32 → Ret
  | none => .none
  | some x => .symbol x

/-- STR.RESET (R221). -/
def execStrReset (s : State) : Result := done .none { s with str := s.str.reset }

/-- STR.CFG (R222). -/
def execStrCfg (sampleRate symbolRate : Word) (gain : F32) (s : State) : Result :=
  done .none (s.strCfg sampleRate symbolRate gain)

/-- STR.PUSH (R224): enabled when configured. -/
def execStrPush (x : F32) (s : State) : Result :=
  if s.str.configured then done (symbolRet (s.strPush x).2) (s.strPush x).1
  else .refused (.notEnabled "STR.PUSH")

end Sys2Proof.Machine
end

