-- ==== Sys2Proof/Machine/Demod.lean ====
section
/-! DEFINITION. The demodulators AMD and FMD (spec/42_demodulators.md). -/

namespace Sys2Proof.Machine
open Sys2Proof

/-! ### AMD -/

/-- AMD.RESET (R201). -/
def AmUnit.reset (u : AmUnit) : AmUnit := { u with ssb := false, bfoInc := 0, bfoPhase := 0 }

/-- AMD.CFG (R202): every operand value is legal. -/
def AmUnit.cfg (u : AmUnit) (ssb : Bool) (bfoInc : Word) : AmUnit :=
  { u with ssb := ssb, bfoInc := bfoInc, bfoPhase := 0 }

/-- `p = re*re + im*im`, exact (R204). -/
def power (x : C16) : Int := x.re.toInt * x.re.toInt + x.im.toInt * x.im.toInt

/-- ENVELOPE (R204): no operation of it can produce a NaN, so the free-value index plays no part. -/
def envelope (x : C16) : F32 := f32Mul 0 (f32Sqrt 0 (intToF32 (power x))) 0x38000000

/-- The table index of PRODUCT: the top 8 bits of the phase (R205). -/
def bfoIndex (phase : Word) : Nat := phase.toNat / 2 ^ 24

/-- `p = re * COS256(idx) + im * SIN256(idx)`, exact (R205). -/
def carrierProduct (phase : Word) (x : C16) : Int :=
  x.re.toInt * cos256 (bfoIndex phase) + x.im.toInt * sin256 (bfoIndex phase)

/-- The sample PRODUCT returns at a carrier phase (R205). -/
def product (phase : Word) (x : C16) : F32 := f32Mul 0 (intToF32 (carrierProduct phase x)) 0x30800000

/-- The outputs of product mode, the phase advancing after each lookup (R205). -/
def productRun (inc : Word) : Word → List C16 → List F32
  | _, [] => []
  | phase, x :: xs => product phase x :: productRun inc (phase + inc) xs

/-- AMD.EXEC (R203). -/
def AmUnit.exec (u : AmUnit) (b : C16Buf) : AmUnit :=
  if u.ssb then
    { u with bfoPhase := u.bfoPhase + BitVec.ofNat 32 b.data.length * u.bfoInc,
             out := ⟨b.rate, productRun u.bfoInc u.bfoPhase b.data⟩ }
  else { u with out := ⟨b.rate, b.data.map envelope⟩ }

/-! ### FMD -/

/-- FMD.RESET (R206). -/
def FmUnit.reset (u : FmUnit) : FmUnit := { u with gain := f32One, zPrev := C16.zero }

/-- FMD.CFG (R207): every bit pattern is legal. -/
def FmUnit.cfg (u : FmUnit) (gain : F32) : FmUnit := { u with gain := gain, zPrev := C16.zero }

/-- The real part of `s * conj(z)`, exact (R209). -/
def conjRe (s z : C16) : Int := s.re.toInt * z.re.toInt + s.im.toInt * z.im.toInt

/-- The imaginary part of `s * conj(z)`, exact (R209). -/
def conjIm (s z : C16) : Int := s.im.toInt * z.re.toInt - s.re.toInt * z.im.toInt

/-- `RAT(x) = x / (1 + C_A * x^2)` (R208). -/
def rat (x : F32) : F32 := f32Div 0 x (f32Add 0 0x3F800000 (f32Mul 0 0x3E8FCCE2 (f32Mul 0 x x)))

/-- ANGLE (R208): its operands are finite and its divisors nonzero, so no NaN arises in it. -/
def angle (tr ti : Int) : F32 :=
  if tr = 0 ∧ ti = 0 then 0
  else
    let a := intToF32 tr.natAbs
    let b := intToF32 ti.natAbs
    let q0 := if f32Ge a b then rat (f32Div 0 b a) else f32Sub 0 0x3FC90FDB (rat (f32Div 0 a b))
    let q1 := if tr < 0 then f32Sub 0 0x40490FDB q0 else q0
    if ti < 0 then f32Neg q1 else q1

/-- The outputs of FMD.EXEC (R209); sample n draws the free value `d + n` if its product is a NaN. -/
def fmdRun (gain : F32) : Nat → C16 → List C16 → List F32
  | _, _, [] => []
  | d, z, s :: xs => f32Mul d (angle (conjRe s z) (conjIm s z)) gain :: fmdRun gain (d + 1) s xs

/-- FMD.EXEC (R209). -/
def FmUnit.exec (u : FmUnit) (d : Nat) (b : C16Buf) : FmUnit :=
  { u with zPrev := (u.zPrev :: b.data).getLast (by simp), out := ⟨b.rate, fmdRun u.gain d u.zPrev b.data⟩ }

/-! ### The units in the state -/

/-- AMD.EXEC (R203). -/
def State.amdExec (s : State) (b : C16Buf) : State := { s with amd := s.amd.exec b }

/-- FMD.EXEC (R209): one free-value index per sample. -/
def State.fmdExec (s : State) (b : C16Buf) : State :=
  { s with fmd := s.fmd.exec s.draws b, draws := s.draws + b.data.length }

/-! ### Meanings -/

/-- AMD.RESET (R201). -/
def execAmdReset (s : State) : Result := done .none { s with amd := s.amd.reset }

/-- AMD.CFG (R202). -/
def execAmdCfg (ssb : Bool) (bfoInc : Word) (s : State) : Result :=
  done .none { s with amd := s.amd.cfg ssb bfoInc }

/-- AMD.EXEC (R203). -/
def execAmdExec (b : C16Buf) (s : State) : Result := done (.buf32 (s.amd.exec b).out) (s.amdExec b)

/-- FMD.RESET (R206). -/
def execFmdReset (s : State) : Result := done .none { s with fmd := s.fmd.reset }

/-- FMD.CFG (R207). -/
def execFmdCfg (gain : F32) (s : State) : Result := done .none { s with fmd := s.fmd.cfg gain }

/-- FMD.EXEC (R209). -/
def execFmdExec (b : C16Buf) (s : State) : Result :=
  done (.buf32 (s.fmd.exec s.draws b).out) (s.fmdExec b)

end Sys2Proof.Machine
end

