-- ==== Sys2Proof/Machine/Fir.lean ====
section
/-! DEFINITION. The FIR units PFD[0..2], BPF and FBF (spec/41_fir_filters.md). -/

namespace Sys2Proof.Machine
open Sys2Proof

/-! ### The fixed-point FIR shared by PFD and BPF -/

/-- RESET of a FIR unit (R171). -/
def FirUnit.reset (f : FirUnit) : FirUnit :=
  { f with configured := false, sat := false, d := 0, t := 0, h := List.replicate 64 0,
           hist := List.replicate 63 C16.zero }

/-- The tap count and decimation factor CFG accepts (R172). -/
def firLegal (d t : Byte) : Bool :=
  decide (1 ≤ d.toNat) && decide (d.toNat ≤ Config.firDMax) && decide (1 ≤ t.toNat)
    && decide (t.toNat ≤ Config.firTapsMax)

/-- An accepted CFG of a FIR unit (R172): "changing configuration resets internal state". -/
def FirUnit.cfg (f : FirUnit) (d t : Byte) (taps : List Half) : FirUnit :=
  { f with d := BitVec.ofNat 5 d.toNat, t := BitVec.ofNat 7 t.toNat, h := padTaps 64 t.toNat taps,
           hist := List.replicate 63 C16.zero, sat := false, configured := true }

/-- The exact sums of `h[k] * e[.. - k]`, both parts; the second list is newest sample first (R174). -/
def dotC16 : List Half → List C16 → Int × Int
  | h :: hs, x :: xs =>
    let r := dotC16 hs xs
    (h.toInt * x.re.toInt + r.1, h.toInt * x.im.toInt + r.2)
  | _, _ => (0, 0)

/-- One output sample and whether a part saturated (R174): floor shift by 15, then sat16. -/
def firSample (h : List Half) (line : List C16) : C16 × Bool :=
  let acc := dotC16 h line
  let yRe := sra acc.1 15
  let yIm := sra acc.2 15
  (⟨toS16 (sat16 yRe), toS16 (sat16 yIm)⟩, satPart yRe || satPart yIm)

/-- The outputs of one call (R174). `line` holds the past samples, newest first; the last sample of each group of `d`
inputs of this call yields an output, and the group position restarts at every call. -/
def firRun (d : Nat) (h : List Half) : Nat → List C16 → List C16 → List (C16 × Bool)
  | _, _, [] => []
  | pos, line, x :: xs =>
    if pos + 1 = d then firSample h (x :: line) :: firRun d h 0 (x :: line) xs
    else firRun d h (pos + 1) (x :: line) xs

/-- The history after a call: `hist[j] <- e[N - j]` for j in 1..T-1, the others kept (R174). -/
def nextHist {α : Type} (t : Nat) (hist input : List α) : List α :=
  (input.reverse ++ hist).take (t - 1) ++ hist.drop (t - 1)

/-- `floor(rate / D)` (00_scope.md R14). -/
def divRate (rate : Word) (d : Nat) : Word := BitVec.ofNat 32 (rate.toNat / d)

/-- EXEC of a FIR unit (R174). -/
def FirUnit.exec (f : FirUnit) (b : C16Buf) : FirUnit :=
  let ys := firRun f.d.toNat (f.h.take f.t.toNat) 0 f.hist b.data
  { f with sat := f.sat || ys.any Prod.snd, hist := nextHist f.t.toNat f.hist b.data,
           out := ⟨divRate b.rate f.d.toNat, ys.map Prod.fst⟩ }

/-! ### The units in the state -/

/-- PFD.CFG (R172). -/
def State.pfdCfg (s : State) (i : Fin 3) (d t : Byte) (taps : List Half) : State :=
  if firLegal d t then s.setPfd i ((s.pfd i).cfg d t taps) else s.raise .configRejected

/-- PFD.EXEC (R174). -/
def State.pfdExec (s : State) (i : Fin 3) (b : C16Buf) : State := s.setPfd i ((s.pfd i).exec b)

/-- The edges BPF.CFG accepts (R181). -/
def edgesLegal (passHz stopHz : Word) : Bool := passHz != 0 && decide (passHz.toNat < stopHz.toNat)

/-- BPF.RESET (R180). -/
def State.bpfReset (s : State) : State :=
  { s with bpf := { fir := s.bpf.fir.reset, passHz := 0, stopHz := 0 } }

/-- BPF.CFG (R181). -/
def State.bpfCfg (s : State) (d t : Byte) (passHz stopHz : Word) (taps : List Half) : State :=
  if firLegal d t && edgesLegal passHz stopHz then
    { s with bpf := { fir := s.bpf.fir.cfg d t taps, passHz := passHz, stopHz := stopHz } }
  else s.raise .configRejected

/-- BPF.EXEC (R182). -/
def State.bpfExec (s : State) (b : C16Buf) : State :=
  { s with bpf := { s.bpf with fir := s.bpf.fir.exec b } }

/-! ### FBF, the real-valued filter -/

/-- FBF.RESET (R186): the pass-through. -/
def BasebandUnit.reset (f : BasebandUnit) : BasebandUnit :=
  { f with t := 1, h := f32One :: List.replicate 31 0, hist := List.replicate 31 0 }

/-- An accepted FBF.CFG (R187). -/
def BasebandUnit.cfg (f : BasebandUnit) (t : Byte) (taps : List F32) : BasebandUnit :=
  { f with t := BitVec.ofNat 6 t.toNat, h := padTaps 32 t.toNat taps, hist := List.replicate 31 0 }

/-- The tap count FBF.CFG accepts (R187). -/
def fbfLegal (t : Byte) : Bool := decide (1 ≤ t.toNat) && decide (t.toNat ≤ Config.fbfTapsMax)

/-- The accumulation of R188, ascending k: each tap rounds its product, then its sum. -/
def dotF32 : Nat → F32 → List F32 → List F32 → F32
  | d, acc, h :: hs, x :: xs => dotF32 (d + 2) (f32Add (d + 1) acc (f32Mul d h x)) hs xs
  | _, acc, _, _ => acc

/-- The outputs of one call (R188), one per input. -/
def fbfRun (h : List F32) : Nat → List F32 → List F32 → List F32
  | _, _, [] => []
  | d, line, x :: xs => dotF32 d 0 h (x :: line) :: fbfRun h (d + 2 * h.length) (x :: line) xs

/-- FBF.EXEC (R188), with free-value indices from `d` on. -/
def BasebandUnit.exec (f : BasebandUnit) (d : Nat) (b : F32Buf) : BasebandUnit :=
  { f with hist := nextHist f.t.toNat f.hist b.data,
           out := ⟨b.rate, fbfRun (f.h.take f.t.toNat) d f.hist b.data⟩ }

/-- FBF.CFG (R187). -/
def State.fbfCfg (s : State) (t : Byte) (taps : List F32) : State :=
  if fbfLegal t then { s with fbf := s.fbf.cfg t taps } else s.raise .configRejected

/-- FBF.EXEC (R188): two free-value indices per tap and sample. -/
def State.fbfExec (s : State) (b : F32Buf) : State :=
  { s with fbf := s.fbf.exec s.draws b, draws := s.draws + 2 * s.fbf.t.toNat * b.data.length }

/-! ### Meanings -/

/-- PFD.RESET (R171). -/
def execPfdReset (i : Fin 3) (s : State) : Result := done .none (s.setPfd i (s.pfd i).reset)

/-- PFD.CFG (R172). -/
def execPfdCfg (i : Fin 3) (d t : Byte) (taps : List Half) (s : State) : Result :=
  done .none (s.pfdCfg i d t taps)

/-- PFD.EXEC (R174): enabled when configured. -/
def execPfdExec (i : Fin 3) (b : C16Buf) (s : State) : Result :=
  if (s.pfd i).configured then done (.buf16 ((s.pfd i).exec b).out) (s.pfdExec i b)
  else .refused (.notEnabled "PFD.EXEC")

/-- BPF.RESET (R180). -/
def execBpfReset (s : State) : Result := done .none s.bpfReset

/-- BPF.CFG (R181). -/
def execBpfCfg (d t : Byte) (passHz stopHz : Word) (taps : List Half) (s : State) : Result :=
  done .none (s.bpfCfg d t passHz stopHz taps)

/-- BPF.EXEC (R182): enabled when configured. -/
def execBpfExec (b : C16Buf) (s : State) : Result :=
  if s.bpf.fir.configured then done (.buf16 (s.bpf.fir.exec b).out) (s.bpfExec b)
  else .refused (.notEnabled "BPF.EXEC")

/-- FBF.RESET (R186). -/
def execFbfReset (s : State) : Result := done .none { s with fbf := s.fbf.reset }

/-- FBF.CFG (R187). -/
def execFbfCfg (t : Byte) (taps : List F32) (s : State) : Result := done .none (s.fbfCfg t taps)

/-- FBF.EXEC (R188). -/
def execFbfExec (b : F32Buf) (s : State) : Result :=
  done (.buf32 (s.fbf.exec s.draws b).out) (s.fbfExec b)

end Sys2Proof.Machine
end

