-- ==== Sys2Proof/Machine/Packet.lean ====
section
/-! DEFINITION. The symbol slicer and the packet builder, PKT (spec/44_packet_builder.md). -/

namespace Sys2Proof.Machine
open Sys2Proof

/-- The slicer (R244): bit 1 when x > 0. -/
def slice (x : F32) : Bool := f32Lt 0 x

/-- PKT.RESET (R241): the payload register is not cleared. -/
def PacketUnit.reset (u : PacketUnit) : PacketUnit :=
  { u with capturing := false, histBits := 0, histErr := 0, histN := 0, captureLen := 0 }

/-- `good[i]` of R245 for i = 0 (the newest symbol) to L-1. -/
def goodList (preamble : List Bool) (bits errs : BitVec 64) : List Bool :=
  (List.range preamble.length).map fun i =>
    (bits.getLsbD i == preamble.getD (preamble.length - 1 - i) false) && !errs.getLsbD i

/-- The default preamble matcher (R245). -/
def matchPattern (p : Params) (bits errs : BitVec 64) (n : Nat) : Bool :=
  let good := goodList p.pktPreamble bits errs
  decide (p.pktPreamble.length ≤ n) && decide (good.countP (fun g => !g) ≤ p.pktErrMax)
    && decide (p.pktMinRun ≤ (good.takeWhile id).length)

/-- A substituted PKT_MATCH (R242). -/
def evalMatch (bits errs : BitVec 64) (n : Nat) : MatchTree → Bool
  | .answer b => b
  | .ifBit i yes no => if bits.getLsbD i then evalMatch bits errs n yes else evalMatch bits errs n no
  | .ifErr i yes no => if errs.getLsbD i then evalMatch bits errs n yes else evalMatch bits errs n no
  | .ifCount k yes no => if k ≤ n then evalMatch bits errs n yes else evalMatch bits errs n no

/-- PKT_MATCH (R242). -/
def pktMatch (p : Params) (bits errs : BitVec 64) (n : Nat) : Bool :=
  match p.pktMatch with
  | .pattern => matchPattern p bits errs n
  | .tree t => evalMatch bits errs n t

/-- PKT_LOST (R242). -/
def pktLost (p : Params) (len : Nat) : Bool :=
  match p.pktLost with
  | .never => false
  | .atCounts counts => counts.contains len

/-- PKT_DONE (R242). -/
def pktDone (p : Params) (len : Nat) : Bool :=
  match p.pktDone with
  | .fixedCount => len == p.pktLen
  | .atCounts counts => counts.contains len

/-- A shift register with one more symbol: bit 0 is the newest (R242). -/
def shiftIn (h : BitVec 64) (b : Bool) : BitVec 64 := (h <<< 1) ||| (if b then 1 else 0)

/-- "records every received symbol" (R243). -/
def PacketUnit.record (u : PacketUnit) (bit err : Bool) : PacketUnit :=
  { u with histBits := shiftIn u.histBits bit, histErr := shiftIn u.histErr err,
           histN := min Config.pktHist (u.histN + 1) }

/-- Append a payload bit; past capacity the write is refused (R243, R247). -/
def PacketUnit.append (u : PacketUnit) (cap : Nat) (bit : Bool) : PacketUnit :=
  if u.captureLen < cap then
    { u with payload := u.payload.set u.captureLen bit, captureLen := u.captureLen + 1 }
  else u

/-- The payload bits captured so far (R243). -/
def PacketUnit.captured (u : PacketUnit) : List Bool := u.payload.take u.captureLen

/-- PKT.PUSH on the unit alone (R243): the next unit and the completed packet. -/
def PacketUnit.push (u : PacketUnit) (p : Params) (bit err : Bool) : PacketUnit × Option (List Bool) :=
  let u1 := u.record bit err
  if u.capturing then
    let u2 := u1.append p.pktCap bit
    if pktLost p u2.captureLen then ({ u2 with capturing := false }, none)
    else if pktDone p u2.captureLen then ({ u2 with capturing := false }, some u2.captured)
    else (u2, none)
  else if pktMatch p u1.histBits u1.histErr u1.histN then
    ({ u1 with capturing := true, captureLen := 0 }, none)
  else (u1, none)

/-- The condition of CaptureOverflow (60_exceptions.md R347). -/
def PacketUnit.overflows (u : PacketUnit) (p : Params) : Bool :=
  u.capturing && decide (p.pktCap ≤ u.captureLen)

/-- PKT.PUSH (R243): CaptureOverflow sets its bit and the operation continues. -/
def State.pktPush (s : State) (bit err : Bool) : State × Option (List Bool) :=
  let r := s.pkt.push s.params bit err
  let s1 := if s.pkt.overflows s.params then s.raise .captureOverflow else s
  ({ s1 with pkt := r.1 }, r.2)

/-! ### Meanings -/

/-- What PKT.PUSH returns: none, or the payload bits and their count. -/
def packetRet : Option (List Bool) → Ret
  | none => .none
  | some bits => .packet bits bits.length

/-- PKT.RESET (R241). -/
def execPktReset (s : State) : Result := done .none { s with pkt := s.pkt.reset }

/-- PKT.PUSH (R243). -/
def execPktPush (bit err : Bool) (s : State) : Result :=
  done (packetRet (s.pktPush bit err).2) (s.pktPush bit err).1

end Sys2Proof.Machine
end

