-- ==== Sys2Proof/Machine/Spectrum.lean ====
section
/-! DEFINITION. The spectrum collector, SPC, and the single slot (spec/45_spectrum_collector.md). -/

namespace Sys2Proof.Machine
open Sys2Proof

/-! ### Operations of BB -/

/-- The K that SPC.START accepts (R258). -/
def SpectrumUnit.start (u : SpectrumUnit) (k : Half) : SpectrumUnit :=
  { u with k := k, decCount := 0, fill := 0, streaming := true }

/-- SPC.STOP (R259). -/
def SpectrumUnit.stop (u : SpectrumUnit) : SpectrumUnit :=
  { u with streaming := false, decCount := 0, fill := 0 }

/-- One kept sample of SPC.FEED (R261): the epoch is handed over when the buffer is full and no request is pending,
and discarded when one is. -/
def SpectrumUnit.keep (u : SpectrumUnit) (rate passHz stopHz : Word) (x : C16) : SpectrumUnit :=
  let cb := u.cb.set u.fill.toNat x
  if u.fill = 255 then
    if u.updateRequest then { u with cb := cb, fill := 0 }
    else { u with cb := cb, fill := 0, fb := cb, fbRate := BitVec.ofNat 32 (rate.toNat / u.k.toNat),
                  fbPass := passHz, fbStop := stopHz, updateRequest := true }
  else { u with cb := cb, fill := u.fill + 1 }

/-- One sample of SPC.FEED (R261): the first of every K is kept. -/
def SpectrumUnit.feedOne (rate passHz stopHz : Word) (u : SpectrumUnit) (x : C16) : SpectrumUnit :=
  let u1 := if u.decCount = 0 then u.keep rate passHz stopHz x else u
  { u1 with decCount := BitVec.ofNat 16 ((u.decCount.toNat + 1) % u.k.toNat) }

/-- SPC.FEED (R261). -/
def SpectrumUnit.feed (u : SpectrumUnit) (b : C16Buf) (passHz stopHz : Word) : SpectrumUnit :=
  if u.streaming then b.data.foldl (SpectrumUnit.feedOne b.rate passHz stopHz) u else u

/-! ### The operation of SPE -/

/-- The 8-bit reversal (R265). -/
def brev8 (i : Nat) : Nat :=
  (List.range 8).foldl (fun acc b => acc + if i.testBit b then 2 ^ (7 - b) else 0) 0

/-- A complex working value of the transform. -/
abbrev Cplx := Int × Int

/-- Load sample i into `a[BREV8(i)]` (R264, R265); BREV8 is its own inverse. -/
def loadFft (fb : List C16) : List Cplx :=
  (List.range 256).map fun k =>
    let x := fb.getD (brev8 k) C16.zero
    (x.re.toInt, x.im.toInt)

/-- `t` of a butterfly: `v * w` with `w = exp(-2*pi*i*idx/256) * 32767` from the ROM, floor shift by 15 (R266). -/
def twiddle (idx : Nat) (v : Cplx) : Cplx :=
  let wRe := cos256 idx
  let wIm := -sin256 idx
  (sra (v.1 * wRe - v.2 * wIm) 15, sra (v.1 * wIm + v.2 * wRe) 15)

/-- The upper output of a butterfly, halved (R266). -/
def bflyAdd (u t : Cplx) : Cplx := (sra (u.1 + t.1) 1, sra (u.2 + t.2) 1)
/-- The lower output of a butterfly, halved (R266). -/
def bflySub (u t : Cplx) : Cplx := (sra (u.1 - t.1) 1, sra (u.2 - t.2) 1)

/-- The `t` values of one block: entry j of its lower half is turned by `(j0 + j) * stride` (R266). -/
def twiddles (stride : Nat) : Nat → List Cplx → List Cplx
  | _, [] => []
  | j, v :: vs => twiddle (j * stride) v :: twiddles stride (j + 1) vs

/-- One block of `2 * half` values (R266). -/
def fftBlock (half : Nat) (a : List Cplx) : List Cplx :=
  let u := a.take half
  let t := twiddles (128 / half) 0 (a.drop half)
  List.zipWith bflyAdd u t ++ List.zipWith bflySub u t

/-- One stage: `n` blocks of `2 * half` values each (R266). -/
def fftStage (half : Nat) : Nat → List Cplx → List Cplx
  | 0, _ => []
  | n + 1, a => fftBlock half (a.take (2 * half)) ++ fftStage half n (a.drop (2 * half))

/-- `FFT256` (R266): stages of block size 2, 4, .., 256. -/
def fft256 (a : List Cplx) : List Cplx :=
  (List.range 8).foldl (fun a s => fftStage (2 ^ s) (128 / 2 ^ s) a) a

/-- `P[k]` (R267). -/
def binPower (x : Cplx) : Nat := (x.1 * x.1 + x.2 * x.2).toNat

/-- `S[k] = (P[k-1] + 2*P[k] + P[k+1]) >> 2`, indices modulo 256 (R268). -/
def smooth (p : List Nat) : List Nat :=
  (List.range 256).map fun k =>
    (p.getD ((k + 255) % 256) 0 + 2 * p.getD k 0 + p.getD ((k + 1) % 256) 0) / 4

/-- `ILOG2Q8` (R269). -/
def ilog2q8 (s : Nat) : Nat :=
  if s = 0 then 0
  else
    let e := Nat.log2 s
    256 * e + (s - 2 ^ e) * 256 / 2 ^ e

/-- The mapping to 8 bits (R270). -/
def dbOf (l : Nat) : Byte := BitVec.ofInt 8 (satu8 (255 + sra ((l : Int) - 7424) 5))

/-- The 256 bins of an epoch (R264 to R270). -/
def spectrumDb (fb : List C16) : List Byte :=
  (smooth ((fft256 (loadFft fb)).map binPower)).map fun s => dbOf (ilog2q8 s)

/-- The snapshot of the epoch in FB (R264). -/
def SpectrumUnit.snapshot (u : SpectrumUnit) : Snapshot :=
  { rate := u.fbRate, pass := u.fbPass, stop := u.fbStop, db := spectrumDb u.fb }

/-- The post group of SPC.UPDATE (R264): slot, valid, request, event. -/
def State.spcUpdate (s : State) : State :=
  { s with slot := { valid := true, snap := s.spc.snapshot }, spc := { s.spc with updateRequest := false },
           evt := evtWrite (s.evt ||| 1) }

/-! ### The operation of APP -/

/-- SPC.DRAIN (R273): check the event, clear it, then read the slot and clear its valid bit. -/
def State.spcDrain (s : State) : State × Option Snapshot :=
  if evtBit s.evt then
    let s1 := { s with evt := evtWrite 0 }
    if s.slot.valid then ({ s1 with slot := { s.slot with valid := false } }, some s.slot.snap)
    else (s1, none)
  else (s, none)

/-! ### Meanings -/

/-- What SPC.DRAIN returns: none, or the snapshot. -/
def snapshotRet : Option Snapshot → Ret
  | none => .none
  | some x => .snapshot x

/-- SPC.RESET (R256): every field of SPC, the slot and EVT at its power-on value. -/
def execSpcReset (s : State) : Result :=
  done .none { s with spc := SpectrumUnit.powerOn, slot := SlotRegs.powerOn, evt := 0 }

/-- SPC.START on the state (R258), and whether K was accepted. -/
def State.spcStart (s : State) (k : Half) : State × Bool :=
  if k = 0 then (s.raise .configRejected, false) else ({ s with spc := s.spc.start k }, true)

/-- SPC.START (R258). -/
def execSpcStart (k : Half) (s : State) : Result := done .none (s.spcStart k).1

/-- SPC.FEED on the state (R261). -/
def State.spcFeed (s : State) (b : C16Buf) (passHz stopHz : Word) : State :=
  { s with spc := s.spc.feed b passHz stopHz }

/-- SPC.FEED (R261). -/
def execSpcFeed (b : C16Buf) (passHz stopHz : Word) (s : State) : Result :=
  done .none (s.spcFeed b passHz stopHz)

/-- SPC.STOP (R259). -/
def execSpcStop (s : State) : Result := done .none { s with spc := s.spc.stop }

/-- SPC.UPDATE (R264): enabled while a request is pending. -/
def execSpcUpdate (s : State) : Result :=
  if s.spc.updateRequest then done .none s.spcUpdate else .refused (.notEnabled "SPC.UPDATE")

/-- SPC.DRAIN (R273). -/
def execSpcDrain (s : State) : Result := done (snapshotRet s.spcDrain.2) s.spcDrain.1

end Sys2Proof.Machine
end

