-- ==== Sys2Proof/Machine/Messages.lean ====
section
/-! DEFINITION. What each message kind means (spec/48_top_level.md R312, R317 to R329): BB's handling of a control
message, and BB's emission of a result message. -/

namespace Sys2Proof.Machine
open Sys2Proof

/-- The mode of a mode byte (R118): other values are rejected. -/
def modeOf (b : Byte) : Option Mode :=
  match b.toNat with
  | 0 => some .none
  | 1 => some .am
  | 2 => some .nfm
  | 3 => some .tpms
  | _ => none

/-- The teardown of a mode change (R312): RESET of every processor unit, and SPC.STOP. -/
def State.teardown (s : State) : State :=
  { s with
    pfd0 := s.pfd0.reset, pfd1 := s.pfd1.reset, pfd2 := s.pfd2.reset,
    bpf := { fir := s.bpf.fir.reset, passHz := 0, stopHz := 0 },
    fbf := s.fbf.reset, amd := s.amd.reset, fmd := s.fmd.reset, str := s.str.reset, pkt := s.pkt.reset,
    aud := s.aud.reset s.params, spc := s.spc.stop }

/-! ### Control messages: length check first, then the fields, then the unit operation (R314) -/

/-- CTL_SET_MODE (R312). -/
def State.ctlSetMode (s : State) (payload : List Byte) : State :=
  match (cutSetMode payload).bind modeOf with
  | none => s.raise .configRejected
  | some m => { s.teardown with mode := m }

/-- CTL_DECIMATOR_CONFIG (R319). -/
def State.ctlDecimator (s : State) (payload : List Byte) : State :=
  match cutDecimator payload with
  | none => s.raise .configRejected
  | some f =>
    if h : f.stage.toNat < 3 then s.pfdCfg ⟨f.stage.toNat, h⟩ f.d f.t f.taps else s.raise .configRejected

/-- CTL_CHANNEL_FILTER_CONFIG (R320). -/
def State.ctlChannelFilter (s : State) (payload : List Byte) : State :=
  match cutChannelFilter payload with
  | none => s.raise .configRejected
  | some f => s.bpfCfg f.d f.t f.passHz f.stopHz f.taps

/-- CTL_DEMOD_CONFIG (R321): both demodulators. -/
def State.ctlDemod (s : State) (payload : List Byte) : State :=
  match cutDemod payload with
  | none => s.raise .configRejected
  | some f => { s with amd := s.amd.cfg f.ssb f.bfoInc, fmd := s.fmd.cfg f.gain }

/-- CTL_BASEBAND_FIR_CONFIG (R322). -/
def State.ctlBaseband (s : State) (payload : List Byte) : State :=
  match cutBaseband payload with
  | none => s.raise .configRejected
  | some f => s.fbfCfg f.t f.taps

/-- CTL_CLOCK_CONFIG (R323). -/
def State.ctlClock (s : State) (payload : List Byte) : State :=
  match cutClock payload with
  | none => s.raise .configRejected
  | some f => s.strCfg f.sampleRate f.symbolRate f.gain

/-- CTL_AUDIO_CONFIG (R324): any length is accepted. -/
def State.ctlAudio (s : State) (payload : List Byte) : State :=
  { s with aud := s.aud.config s.params payload }

/-- The emission of RES_SPECTRUM_READY (R329). -/
def State.sendReady (s : State) : State := (s.send .b2a 0x83 readyPayload).1

/-- CTL_SPECTRUM_START (R325): RES_SPECTRUM_READY follows an accepted start. -/
def State.ctlSpectrumStart (s : State) (payload : List Byte) : State :=
  match cutSpectrumStart payload with
  | none => s.raise .configRejected
  | some k => if (s.spcStart k).2 then (s.spcStart k).1.sendReady else (s.spcStart k).1

/-- CTL_SPECTRUM_STOP (R326). -/
def State.ctlSpectrumStop (s : State) (payload : List Byte) : State :=
  if payload.length = 0 then { s with spc := s.spc.stop } else s.raise .configRejected

/-- What TOP.DISPATCH does with a received message (R314, R327). -/
def State.handle (s : State) (kind : Byte) (payload : List Byte) : State :=
  match kind.toNat with
  | 0x01 => s.ctlSetMode payload
  | 0x02 => s.ctlDecimator payload
  | 0x03 => s.ctlChannelFilter payload
  | 0x04 => s.ctlDemod payload
  | 0x05 => s.ctlBaseband payload
  | 0x06 => s.ctlClock payload
  | 0x07 => s.ctlAudio payload
  | 0x08 => s.ctlSpectrumStart payload
  | 0x09 => s.ctlSpectrumStop payload
  | _ => s.raise .unknownKind

/-! ### Meanings of the control messages: BB handles the message -/

/-- CTL_SET_MODE (R312). -/
def execCtlSetMode (payload : List Byte) (s : State) : Result := done .none (s.ctlSetMode payload)

/-- CTL_DECIMATOR_CONFIG (R319). -/
def execCtlDecimatorConfig (payload : List Byte) (s : State) : Result := done .none (s.ctlDecimator payload)

/-- CTL_CHANNEL_FILTER_CONFIG (R320). -/
def execCtlChannelFilterConfig (payload : List Byte) (s : State) : Result :=
  done .none (s.ctlChannelFilter payload)

/-- CTL_DEMOD_CONFIG (R321). -/
def execCtlDemodConfig (payload : List Byte) (s : State) : Result := done .none (s.ctlDemod payload)

/-- CTL_BASEBAND_FIR_CONFIG (R322). -/
def execCtlBasebandFirConfig (payload : List Byte) (s : State) : Result := done .none (s.ctlBaseband payload)

/-- CTL_CLOCK_CONFIG (R323). -/
def execCtlClockConfig (payload : List Byte) (s : State) : Result := done .none (s.ctlClock payload)

/-- CTL_AUDIO_CONFIG (R324). -/
def execCtlAudioConfig (payload : List Byte) (s : State) : Result := done .none (s.ctlAudio payload)

/-- CTL_SPECTRUM_START (R325). -/
def execCtlSpectrumStart (payload : List Byte) (s : State) : Result := done .none (s.ctlSpectrumStart payload)

/-- CTL_SPECTRUM_STOP (R326). -/
def execCtlSpectrumStop (payload : List Byte) (s : State) : Result := done .none (s.ctlSpectrumStop payload)

/-! ### Meanings of the result messages: BB performs MFC[B2A].SEND of the message (R117; log entry 12)

`len` is checked against the row's expression first (R137); no agent sends a result message of another length, so there is no
step for one (log entries 11, 12). -/

/-- MFC[B2A].SEND of a kind and payload, returning whether it was accepted. -/
def State.emitResult (s : State) (kind : Byte) (payload : List Byte) : Result :=
  done (.bool (s.send .b2a kind payload).2) (s.send .b2a kind payload).1

/-- RES_STATISTICS (R317). -/
def execResStatistics (payload : List Byte) (s : State) : Result :=
  if statisticsLengthOk payload then s.emitResult 0x81 payload else .refused (.notEnabled "RES_STATISTICS")

/-- RES_PACKET (R328). -/
def execResPacket (payload : List Byte) (s : State) : Result :=
  if packetLengthOk s.params payload then s.emitResult 0x82 payload else .refused (.notEnabled "RES_PACKET")

/-- RES_SPECTRUM_READY (R329). -/
def execResSpectrumReady (payload : List Byte) (s : State) : Result :=
  if readyLengthOk payload then s.emitResult 0x83 payload else .refused (.notEnabled "RES_SPECTRUM_READY")

end Sys2Proof.Machine
end

