-- ==== Sys2Proof/Machine/Top.lean ====
section
/-! DEFINITION. The top-level sequencer, TOP (spec/48_top_level.md R311 to R318, R331). -/

namespace Sys2Proof.Machine
open Sys2Proof

/-- The *configured* predicate (R315). -/
def State.configuredFor (s : State) : Mode → Bool
  | .none => false
  | .am => s.pfd0.configured && s.pfd1.configured && s.pfd2.configured && s.bpf.fir.configured
  | .nfm => s.pfd0.configured && s.pfd1.configured && s.pfd2.configured && s.bpf.fir.configured
  | .tpms =>
    s.pfd0.configured && s.pfd1.configured && s.pfd2.configured && s.bpf.fir.configured && s.str.configured

/-- TOP.RESET (R331): every field takes its power-on value but the ring bytes and PKT.payload, which reset does not write
(70_reset_and_hazards.md R370, 93 U3; log entry 16). -/
def State.hardReset (s : State) : State :=
  { s with
    mode := .none, bufCount := 0, errstat := 0, evt := 0,
    a2b := ChannelRegs.powerOn, b2a := ChannelRegs.powerOn,
    pfd0 := FirUnit.powerOn, pfd1 := FirUnit.powerOn, pfd2 := FirUnit.powerOn, bpf := BandpassUnit.powerOn,
    fbf := BasebandUnit.powerOn, amd := AmUnit.powerOn, fmd := FmUnit.powerOn, str := ClockUnit.powerOn,
    pkt := s.pkt.reset, spc := SpectrumUnit.powerOn, slot := SlotRegs.powerOn,
    aud := AudioUnit.powerOn s.params }

/-- TOP.DISPATCH (R314): receive from A2B and handle; the kind of the message handled, if any. -/
def State.dispatch (s : State) : State × Option Byte :=
  match s.recv .a2b with
  | (s1, none) => (s1, none)
  | (s1, some (kind, payload)) => (s1.handle kind payload, some kind)

/-- `while TOP.DISPATCH() != none` (R316), at most `n` times. -/
def State.drainControl : Nat → State → State
  | 0, s => s
  | n + 1, s =>
    match s.dispatch with
    | (s1, none) => s1
    | (s1, some _) => drainControl n s1

/-- A bound on the visible messages: each DISPATCH that is not none releases at least 4 bytes. -/
def State.visibleBound (s : State) : Nat := s.a2b.avail / 4 + 1

/-- The front chain (R311, R316): c8_to_c16, PFD[0], PFD[1], PFD[2], BPF. -/
def State.frontChain (s : State) (raw : List C8) : State :=
  let s0 := s.pfdExec 0 ⟨Config.fsIn, raw.map widen⟩
  let s1 := s0.pfdExec 1 s0.pfd0.out
  let s2 := s1.pfdExec 2 s1.pfd1.out
  s2.bpfExec s2.pfd2.out

/-- The emission of RES_PACKET (R328). -/
def State.sendPacket (s : State) : Option (List Bool) → State
  | none => s
  | some bits => (s.send .b2a 0x82 (packetPayload bits)).1

/-- A symbol is sliced, pushed to PKT, and a completed packet sent at once (R316, R244, 43 R230). -/
def State.pushSymbol (s : State) : Option F32 → State
  | none => s
  | some x => (s.pktPush (slice x) false).1.sendPacket (s.pktPush (slice x) false).2

/-- One sample of the TPMS back chain (R316). -/
def State.pushSample (s : State) (x : F32) : State := (s.strPush x).1.pushSymbol (s.strPush x).2

/-- The back chain of the active mode on the channel samples in BPF's output buffer (R311, R316). -/
def State.backChain (s : State) : State :=
  match s.mode with
  | .none => s
  | .am => (s.amdExec s.bpf.fir.out).audExec (s.amdExec s.bpf.fir.out).amd.out
  | .nfm => (s.fmdExec s.bpf.fir.out).audExec (s.fmdExec s.bpf.fir.out).fmd.out
  | .tpms =>
    let s1 := s.fmdExec s.bpf.fir.out
    let s2 := s1.fbfExec s1.fmd.out
    s2.fbf.out.data.foldl State.pushSample s2

/-- The processing of one raw buffer by the active chain (R316). -/
def State.processRaw (s : State) (raw : List C8) : State :=
  let s1 := s.frontChain raw
  (s1.spcFeed s1.bpf.fir.out s1.bpf.passHz s1.bpf.stopHz).backChain

/-- Clear the four saturation flags (R317). -/
def State.clearSat (s : State) : State :=
  { s with pfd0 := { s.pfd0 with sat := false }, pfd1 := { s.pfd1 with sat := false },
           pfd2 := { s.pfd2 with sat := false },
           bpf := { s.bpf with fir := { s.bpf.fir with sat := false } } }

/-- A statistics message is due (R317). -/
def statsDue (p : Params) (count : Word) : Bool :=
  p.statPeriod != 0 && decide (p.statPeriod.toNat ≤ count.toNat)

/-- The payload of the statistics message, with two busy times drawn (R317, R128). -/
def State.statsBytes (s : State) : List Byte :=
  statsPayload (anySat s) (Config.busyDraw s.draws) (Config.busyDraw (s.draws + 1)) s.params.statPeriod

/-- TOP.STATS (R317): the flags and the counter are cleared even if the send fails. -/
def State.topStats (s : State) : State :=
  let s1 := { s with bufCount := s.bufCount + 1 }
  if statsDue s.params s1.bufCount then
    { (s1.send .b2a 0x81 s1.statsBytes).1.clearSat with bufCount := 0, draws := s.draws + 2 }
  else s1

/-- A buffer is processed when a mode is active and configured, and discarded otherwise (R316). -/
def State.consume (s : State) (raw : List C8) : State :=
  if s.configuredFor s.mode then s.processRaw raw else s

/-- TOP.BUFFER (R316): control messages first, then the buffer, then the statistics. -/
def State.topBuffer (s : State) (raw : List C8) : State :=
  (((s.drainControl s.visibleBound).consume raw)).topStats

/-! ### Meanings -/

/-- What TOP.DISPATCH returns: none, or the kind. -/
def kindRet : Option Byte → Ret
  | none => .none
  | some k => .kind k

/-- TOP.RESET (R331). -/
def execTopReset (s : State) : Result := done .none s.hardReset

/-- TOP.DISPATCH (R314). -/
def execTopDispatch (s : State) : Result := done (kindRet s.dispatch.2) s.dispatch.1

/-- TOP.BUFFER (R316): a buffer of another size cannot be presented. -/
def execTopBuffer (raw : List C8) (s : State) : Result :=
  if raw.length = s.params.bufN then done .none (s.topBuffer raw) else .refused (.notEnabled "TOP.BUFFER")

/-- TOP.STATS (R317). -/
def execTopStats (s : State) : Result := done .none s.topStats

end Sys2Proof.Machine
end

