-- ==== Sys2Proof/Machine/Dispatch.lean ====
section
/-! DEFINITION. One arm per operation: the meaning of each row of spec/opcode_table.json. -/

namespace Sys2Proof.Machine
open Sys2Proof

/-- The meaning of an operation. -/
def exec (i : Instr) (s : State) : Host.Outcome State Fault Refusal :=
  match i with
  | .ctlSetMode pl => Sys2Proof.Machine.execCtlSetMode pl s
  | .ctlDecimatorConfig pl => Sys2Proof.Machine.execCtlDecimatorConfig pl s
  | .ctlChannelFilterConfig pl => Sys2Proof.Machine.execCtlChannelFilterConfig pl s
  | .ctlDemodConfig pl => Sys2Proof.Machine.execCtlDemodConfig pl s
  | .ctlBasebandFirConfig pl => Sys2Proof.Machine.execCtlBasebandFirConfig pl s
  | .ctlClockConfig pl => Sys2Proof.Machine.execCtlClockConfig pl s
  | .ctlAudioConfig pl => Sys2Proof.Machine.execCtlAudioConfig pl s
  | .ctlSpectrumStart pl => Sys2Proof.Machine.execCtlSpectrumStart pl s
  | .ctlSpectrumStop pl => Sys2Proof.Machine.execCtlSpectrumStop pl s
  | .resStatistics pl => Sys2Proof.Machine.execResStatistics pl s
  | .resPacket pl => Sys2Proof.Machine.execResPacket pl s
  | .resSpectrumReady pl => Sys2Proof.Machine.execResSpectrumReady pl s
  | .mfcSend c k pl => Sys2Proof.Machine.execMfcSend c k pl s
  | .mfcRecv c => Sys2Proof.Machine.execMfcRecv c s
  | .mfcSync c sel => Sys2Proof.Machine.execMfcSync c sel s
  | .pfdReset n => Sys2Proof.Machine.execPfdReset n s
  | .pfdCfg n d t taps => Sys2Proof.Machine.execPfdCfg n d t taps s
  | .pfdExec n b => Sys2Proof.Machine.execPfdExec n b s
  | .bpfReset => Sys2Proof.Machine.execBpfReset s
  | .bpfCfg d t pass stop taps => Sys2Proof.Machine.execBpfCfg d t pass stop taps s
  | .bpfExec b => Sys2Proof.Machine.execBpfExec b s
  | .fbfReset => Sys2Proof.Machine.execFbfReset s
  | .fbfCfg t taps => Sys2Proof.Machine.execFbfCfg t taps s
  | .fbfExec b => Sys2Proof.Machine.execFbfExec b s
  | .amdReset => Sys2Proof.Machine.execAmdReset s
  | .amdCfg ssb inc => Sys2Proof.Machine.execAmdCfg ssb inc s
  | .amdExec b => Sys2Proof.Machine.execAmdExec b s
  | .fmdReset => Sys2Proof.Machine.execFmdReset s
  | .fmdCfg g => Sys2Proof.Machine.execFmdCfg g s
  | .fmdExec b => Sys2Proof.Machine.execFmdExec b s
  | .strReset => Sys2Proof.Machine.execStrReset s
  | .strCfg sr sy g => Sys2Proof.Machine.execStrCfg sr sy g s
  | .strPush x => Sys2Proof.Machine.execStrPush x s
  | .pktReset => Sys2Proof.Machine.execPktReset s
  | .pktPush bit err => Sys2Proof.Machine.execPktPush bit err s
  | .spcReset => Sys2Proof.Machine.execSpcReset s
  | .spcStart k => Sys2Proof.Machine.execSpcStart k s
  | .spcFeed b pass stop => Sys2Proof.Machine.execSpcFeed b pass stop s
  | .spcStop => Sys2Proof.Machine.execSpcStop s
  | .spcUpdate => Sys2Proof.Machine.execSpcUpdate s
  | .spcDrain => Sys2Proof.Machine.execSpcDrain s
  | .audReset => Sys2Proof.Machine.execAudReset s
  | .audCfg bytes => Sys2Proof.Machine.execAudCfg bytes s
  | .audExec b => Sys2Proof.Machine.execAudExec b s
  | .manDecode bits sense => Sys2Proof.Machine.execManDecode bits sense s
  | .topReset => Sys2Proof.Machine.execTopReset s
  | .topDispatch => Sys2Proof.Machine.execTopDispatch s
  | .topBuffer raw => Sys2Proof.Machine.execTopBuffer raw s
  | .topStats => Sys2Proof.Machine.execTopStats s

end Sys2Proof.Machine
end

