-- ==== Sys2Proof/Machine/Fetch.lean ====
section
/-! DEFINITION. How the next move of an agent is taken from the agenda and run (log entries 1, 11, 15). -/

namespace Sys2Proof.Machine
open Sys2Proof

/-- Run a decoded operation. A move whose operation is not enabled "has no step" (00_scope.md R17): it is passed over, and
the machine stays as it is for the next move (log entry 11). -/
def runInstr (i : Instr) (s : State) : Result :=
  match exec i s with
  | .refused (.notEnabled _) => .next s
  | .next t => .next t
  | .fault f => .fault f
  | .refused r => .refused r

/-- A move that is no operation. A unit that receives an unassigned code "does nothing" (30_encoding.md R131); a
well-formed message of an unknown kind is UnknownKind (48_top_level.md R327); anything else is refused (log entry 15). -/
def runRejected (e : DecodeError) (s : State) : Result :=
  match e with
  | .unassignedCode _ => .next s
  | .unknownKind _ => .next (s.raise .unknownKind)
  | .empty => .refused (.noOperation .empty)
  | .malformedMessage => .refused (.noOperation .malformedMessage)
  | .truncatedMessage => .refused (.noOperation .truncatedMessage)
  | .badOperands code => .refused (.noOperation (.badOperands code))

/-- Run what the decoder answered. -/
def runDecoded (d : Decoded) (s : State) : Result :=
  match d with
  | .ok i => runInstr i s
  | .reject e => runRejected e s

/-- The state with its first move taken off the agenda. -/
def State.taken (s : State) : State := { s with agenda := s.agenda.tail }

/-- One step: the first move of the agenda is decoded and run. With no move left every agent is idle and nothing changes
(60_exceptions.md R364). -/
def stepAgenda (s : State) : Result :=
  match s.agenda with
  | [] => .next s
  | m :: _ => runDecoded (decode s.params m) s.taken

/-- A state whose next move is a word of the opcode table. -/
def State.schedule (s : State) (nbits w : Nat) : State :=
  { s with agenda := tableMove s.params nbits w :: s.agenda }

end Sys2Proof.Machine
end

