-- ==== Sys2Proof/Machine/Step.lean ====
section
/-! DEFINITION. The step of the machine: the next scheduled move of an agent. -/

namespace Sys2Proof.Machine
open Sys2Proof

/-- One step of the machine. -/
def step (s : State) : Host.Outcome State Fault Refusal := stepAgenda s

/-- The state whose next step runs the opcode-table word `w`: the move is put at the head of the agenda, with zeros above
`nbits` up to the longest operation (log entry 1). -/
def State.withFetchWord (s : State) (nbits w : Nat) : State := s.schedule nbits w

end Sys2Proof.Machine
end

