-- ==== Sys2Proof/Safety.lean ====
section
/-! DEFINITION. What a healthy state of the block is: the invariants that the spec states field by field
(10_state.md R42 to R63), and what a message ring holds (40_message_channel.md R152, R161). -/

namespace Sys2Proof.Machine
open Sys2Proof

/-! ### One predicate per unit -/

/-- A FIR unit (R43, R47): legal factors when configured and zeros when not, taps beyond T and history beyond T-1 zero. -/
structure FirUnit.Ok (f : FirUnit) : Prop where
  taps : f.h.length = 64
  past : f.hist.length = 63
  legal : f.configured = true → 1 ≤ f.d.toNat ∧ f.d.toNat ≤ 16 ∧ 1 ≤ f.t.toNat ∧ f.t.toNat ≤ 64
  idle : f.configured = false → f.d = 0 ∧ f.t = 0
  tapsPadded : ∀ x ∈ f.h.drop f.t.toNat, x = 0
  pastPadded : ∀ x ∈ f.hist.drop (f.t.toNat - 1), x = C16.zero

/-- BPF (R43, R181): the stored edges are legal when configured and 0 when not. -/
structure BandpassUnit.Ok (b : BandpassUnit) : Prop where
  fir : b.fir.Ok
  edges : b.fir.configured = true → 1 ≤ b.passHz.toNat ∧ b.passHz.toNat < b.stopHz.toNat
  idle : b.fir.configured = false → b.passHz = 0 ∧ b.stopHz = 0

/-- FBF (R43, R48). -/
structure BasebandUnit.Ok (f : BasebandUnit) : Prop where
  count : 1 ≤ f.t.toNat ∧ f.t.toNat ≤ 32
  taps : f.h.length = 32
  past : f.hist.length = 31
  tapsPadded : ∀ x ∈ f.h.drop f.t.toNat, x = 0
  pastPadded : ∀ x ∈ f.hist.drop (f.t.toNat - 1), x = 0

/-- STR (R43, 43_clock_recovery.md R222): "an illegal value is never stored". -/
structure ClockUnit.Ok (u : ClockUnit) : Prop where
  legal : u.configured = true →
    1 ≤ u.symbolRate.toNat ∧ 2 * u.symbolRate.toNat ≤ u.sampleRate.toNat
      ∧ u.inc.toNat = u.symbolRate.toNat * 2 ^ 32 / u.sampleRate.toNat
      ∧ f32Finite u.gain = true ∧ f32Lt 0 u.gain = true ∧ f32Lt f32One u.gain = false
  idle : u.configured = false → u = ClockUnit.powerOn

/-- PKT (R61, 44_packet_builder.md R242, R246). -/
structure PacketUnit.Ok (u : PacketUnit) (p : Params) : Prop where
  history : u.histN ≤ 64
  capacity : u.payload.length = p.pktCap
  count : u.captureLen ≤ p.pktCap

/-- SPC (R62). -/
structure SpectrumUnit.Ok (u : SpectrumUnit) : Prop where
  capture : u.cb.length = 256
  epoch : u.fb.length = 256
  running : u.streaming = true → u.decCount.toNat < u.k.toNat
  idle : u.streaming = false → u.decCount = 0 ∧ u.fill = 0

/-- AUD (46_audio_output.md R286). -/
structure AudioUnit.Ok (u : AudioUnit) (p : Params) : Prop where
  cfg : u.cfg.length ≤ payloadMax p
  block : u.block.length = p.audBlock
  count : u.blockN < p.audBlock

/-- The cursors of a channel (R152): `avail_r <= used(c) <= used_s <= MFC_CAP`. -/
structure ChannelRegs.Ok (x : ChannelRegs) (cap : Nat) : Prop where
  seen : x.avail ≤ x.used
  known : x.used ≤ x.usedSeen
  room : x.usedSeen ≤ cap

/-- The invariant of the block: every field holds a value that 10_state.md allows it. -/
structure State.Inv (s : State) : Prop where
  params : paramsOk s.params = true
  memory : Memory.wf s.params s.mem = true
  /-- ERRSTAT bits 7:5 are reserved and read as 0 (R44). -/
  errors : s.errstat.toNat < 32
  /-- EVT bits 31:1 read as 0 (R63), and `EVT[0] = SLOT.valid` (45_spectrum_collector.md R274). -/
  event : s.evt = if s.slot.valid then 1 else 0
  a2b : s.a2b.Ok s.params.mfcCap
  b2a : s.b2a.Ok s.params.mfcCap
  pfd0 : s.pfd0.Ok
  pfd1 : s.pfd1.Ok
  pfd2 : s.pfd2.Ok
  bpf : s.bpf.Ok
  fbf : s.fbf.Ok
  str : s.str.Ok
  pkt : s.pkt.Ok s.params
  spc : s.spc.Ok
  bins : s.slot.snap.db.length = 256
  aud : s.aud.Ok s.params
  /-- "fixed-size blocks of audio samples" (R285, R288). -/
  blocks : ∀ b ∈ s.sink, b.samples.length = s.params.audBlock

/-! ### What a message ring holds -/

/-- A message as the sender gave it: its kind and its payload. -/
abbrev Message := Byte × List Byte

/-- The bytes of consecutive messages, packed back to back (R111). -/
def queueBytes (q : List Message) : List Byte := q.flatMap fun m => messageBytes m.1 m.2

/-- Ring `c` of `s` holds the messages `vis`, which the receiver can see, and after them `hid`, which it cannot see yet:
whole well-formed messages between `r`, `w_seen` and `w` (R161), and a sender that believes at least as many bytes to be
in use (R152). -/
structure State.Holds (s : State) (c : Chan) (vis hid : List Message) : Prop where
  noFault : (s.chan c).fault = false
  wellFormed : ∀ m ∈ vis ++ hid, badMessage s.params m.1 m.2.length = false
  visible : (s.chan c).avail = (queueBytes vis).length
  stored : (s.chan c).used = (queueBytes (vis ++ hid)).length
  known : (s.chan c).used ≤ (s.chan c).usedSeen
  room : (s.chan c).usedSeen ≤ s.params.mfcCap
  bytes : s.readRing c (s.chan c).r.toNat (s.chan c).used = queueBytes (vis ++ hid)

/-- Both rings hold whole messages. -/
def State.Whole (s : State) : Prop := ∀ c, ∃ vis hid, s.Holds c vis hid

/-- The ring offsets that a message of `n` bytes at the write cursor of channel `c` is stored to (R96). -/
def State.storedAt (s : State) (c : Chan) (n off : Nat) : Prop :=
  ∃ i, i < n ∧ off = ringOffset (s.ringBase c) s.params.mfcCap (s.chan c).w.toNat i

end Sys2Proof.Machine
end

