-- ==== Sys2Proof/SpecForms.lean ====
section
/-! DEFINITION. The spec's own pseudocode formulas, index by index, as the statements about the machine use them. -/

namespace Sys2Proof.Machine
open Sys2Proof

/-! ### Floating point (00_scope.md R15) -/

/-- The number a finite pattern stands for (1 sign bit, 8 exponent bits, 23 fraction bits, subnormals exact). -/
def f32Value (x : F32) : ℚ :=
  let e : ℕ := x.toNat / 2 ^ 23 % 256
  let f : ℕ := x.toNat % 2 ^ 23
  (if x.toNat / 2 ^ 31 = 0 then 1 else -1)
    * (if e = 0 then (f : ℚ) * 2 ^ (-149 : ℤ) else ((2 ^ 23 + f : ℕ) : ℚ) * 2 ^ ((e : ℤ) - 150))

/-- A pattern of a finite number. -/
def IsFinite (x : F32) : Prop := x.toNat / 2 ^ 23 % 256 ≠ 255

/-- A pattern of a NaN. -/
def IsNaN (x : F32) : Prop := x.toNat / 2 ^ 23 % 256 = 255 ∧ x.toNat % 2 ^ 23 ≠ 0

/-- A quiet NaN: the first fraction bit is 1. -/
def IsQuietNaN (x : F32) : Prop := x.toNat / 2 ^ 23 % 256 = 255 ∧ 2 ^ 22 ≤ x.toNat % 2 ^ 23

/-- The infinity of a sign, `true` for minus. -/
def infinity (neg : Bool) : F32 := if neg then 0xFF800000 else 0x7F800000

/-- The zero of a sign. -/
def zeroOf (neg : Bool) : F32 := if neg then 0x80000000 else 0

/-- The sign bit of a pattern. -/
def negative (x : F32) : Bool := x.getLsbD 31

/-- `x` is the number `v` "correctly rounded", to nearest and ties to even, with the sign `neg`: no finite number is nearer;
of two that are as near, `x` has an even fraction; from half a place above the largest finite number on it is infinite. -/
def IsRounded (v : ℝ) (neg : Bool) (x : F32) : Prop :=
  negative x = neg
    ∧ (|v| < 2 ^ 128 - 2 ^ 103 → IsFinite x
        ∧ ∀ y, IsFinite y → |v - (f32Value x : ℝ)| ≤ |v - (f32Value y : ℝ)|
          ∧ (|v - (f32Value x : ℝ)| = |v - (f32Value y : ℝ)| → f32Value y ≠ f32Value x → x.toNat % 2 = 0))
    ∧ (2 ^ 128 - 2 ^ 103 ≤ |v| → x = infinity neg)

/-- Where a pattern that is no NaN stands in the order of the numbers and the two infinities. -/
def f32Place (x : F32) : WithBot (WithTop ℚ) :=
  if x.toNat / 2 ^ 23 % 256 ≠ 255 then ((f32Value x : WithTop ℚ) : WithBot (WithTop ℚ))
  else if negative x then ⊥ else ((⊤ : WithTop ℚ) : WithBot (WithTop ℚ))

/-- A number without its fraction. -/
def truncate (v : ℚ) : Int := if 0 ≤ v then ⌊v⌋ else ⌈v⌉

/-- The sign of an exact result: that of the number, and `zeroSign` for 0. -/
def signOf (zeroSign : Bool) (v : ℚ) : Bool := if v = 0 then zeroSign else decide (v < 0)

/-- `f32_add` and `f32_sub`: correctly rounded; a NaN drawn as `d` for a NaN operand and for the sum of two unlike
infinities; any other infinite operand is the result. -/
def AdditionLaw (d : Nat) (a b : F32) : Prop :=
  (IsFinite a → IsFinite b →
      IsRounded ((f32Value a + f32Value b : ℚ) : ℝ) (signOf (negative a && negative b) (f32Value a + f32Value b))
        (f32Add d a b))
    ∧ (IsNaN a ∨ IsNaN b ∨ (∃ n, a = infinity n ∧ b = infinity (!n)) → f32Add d a b = f32NaN d)
    ∧ (∀ n, a = infinity n → ¬ IsNaN b → b ≠ infinity (!n) → f32Add d a b = infinity n)
    ∧ f32Add d a b = f32Add d b a ∧ f32Sub d a b = f32Add d a (f32Neg b)

/-- `f32_mul`: correctly rounded; a NaN drawn as `d` for a NaN operand and for an infinity times a zero; an infinity times
anything else is infinite. -/
def ProductLaw (d : Nat) (a b : F32) : Prop :=
  (IsFinite a → IsFinite b →
      IsRounded ((f32Value a * f32Value b : ℚ) : ℝ) (negative a != negative b) (f32Mul d a b))
    ∧ (IsNaN a ∨ IsNaN b ∨ (∃ n m, a = infinity n ∧ b = zeroOf m) → f32Mul d a b = f32NaN d)
    ∧ (∀ n, a = infinity n → ¬ IsNaN b → (∀ m, b ≠ zeroOf m) → f32Mul d a b = infinity (n != negative b))
    ∧ f32Mul d a b = f32Mul d b a

/-- `f32_div`: correctly rounded; a NaN drawn as `d` for a NaN operand, two infinities and two zeros; a nonzero number by
zero, and an infinity by a number, are infinite; a number by an infinity is a zero. -/
def QuotientLaw (d : Nat) (a b : F32) : Prop :=
  (IsFinite a → IsFinite b → f32Value b ≠ 0 →
      IsRounded ((f32Value a / f32Value b : ℚ) : ℝ) (negative a != negative b) (f32Div d a b))
    ∧ (IsNaN a ∨ IsNaN b ∨ (∃ n m, a = infinity n ∧ b = infinity m) ∨ (∃ n m, a = zeroOf n ∧ b = zeroOf m) →
        f32Div d a b = f32NaN d)
    ∧ (∀ m, IsFinite a → f32Value a ≠ 0 → b = zeroOf m → f32Div d a b = infinity (negative a != m))
    ∧ (∀ n, a = infinity n → IsFinite b → f32Div d a b = infinity (n != negative b))
    ∧ (∀ m, IsFinite a → b = infinity m → f32Div d a b = zeroOf (negative a != m))

/-- `f32_sqrt`: correctly rounded, a zero keeping its sign; a NaN drawn as `d` for a NaN and for anything below zero. -/
def RootLaw (d : Nat) (a : F32) : Prop :=
  (IsFinite a → 0 ≤ f32Value a → IsRounded (Real.sqrt (f32Value a : ℝ)) (negative a) (f32Sqrt d a))
    ∧ (IsNaN a ∨ f32Value a < 0 ∧ IsFinite a ∨ a = infinity true → f32Sqrt d a = f32NaN d)
    ∧ (a = infinity false → f32Sqrt d a = infinity false)

/-- `f32_lt` and `f32_ge`: false whenever an operand is a NaN, else the order of the numbers and the infinities. -/
def OrderLaw (a b : F32) : Prop :=
  (IsNaN a ∨ IsNaN b → f32Lt a b = false ∧ f32Ge a b = false)
    ∧ (¬ IsNaN a → ¬ IsNaN b →
        (f32Lt a b = true ↔ f32Place a < f32Place b) ∧ (f32Ge a b = true ↔ f32Place b ≤ f32Place a))

/-- `int_to_f32`: rounded once, 0 giving +0.0. `f32_to_s32_rtz_sat`: truncated, saturated, 0 for a NaN. -/
def ConversionLaw (i : Int) (a : F32) : Prop :=
  IsRounded (i : ℝ) (decide (i < 0)) (intToF32 i) ∧ intToF32 0 = 0
    ∧ (IsFinite a → f32ToS32 a = min 2147483647 (max (-2147483648) (truncate (f32Value a))))
    ∧ (IsNaN a → f32ToS32 a = 0)
    ∧ f32ToS32 (infinity false) = 2147483647 ∧ f32ToS32 (infinity true) = -2147483648

/-! ### The sine ROM (10_state.md R76) -/

/-- The contents of SINQ, as the rule lists them. -/
def romValues : List Int :=
  [0, 804, 1608, 2410, 3212, 4011, 4808, 5602, 6393, 7179, 7962, 8739, 9512, 10278, 11039, 11793, 12539, 13279, 14010,
    14732, 15446, 16151, 16846, 17530, 18204, 18868, 19519, 20159, 20787, 21403, 22005, 22594, 23170, 23731, 24279, 24811,
    25329, 25832, 26319, 26790, 27245, 27683, 28105, 28510, 28898, 29268, 29621, 29956, 30273, 30571, 30852, 31113, 31356,
    31580, 31785, 31971, 32137, 32285, 32412, 32521, 32609, 32678, 32728, 32757, 32767]

/-! ### ANGLE (42_demodulators.md R208), every operation of it drawing the free value `d` -/

/-- `RAT(x)`. -/
def ratAt (d : Nat) (x : F32) : F32 :=
  f32Div d x (f32Add d 0x3F800000 (f32Mul d 0x3E8FCCE2 (f32Mul d x x)))

/-- `q` of ANGLE before the two quadrant corrections. -/
def octantAt (d : Nat) (a b : F32) : F32 :=
  if f32Ge a b then ratAt d (f32Div d b a) else f32Sub d 0x3FC90FDB (ratAt d (f32Div d a b))

/-- `ANGLE(tr, ti)`. -/
def angleAt (d : Nat) (tr ti : Int) : F32 :=
  if tr = 0 ∧ ti = 0 then 0
  else
    let q := octantAt d (intToF32 |tr|) (intToF32 |ti|)
    let r := if tr < 0 then f32Sub d 0x40490FDB q else q
    if ti < 0 then f32Neg r else r

/-! ### Streams with a past (41_fir_filters.md R174, R188) -/

/-- `e[i - k]` of R174: an input sample when the index is not negative, else the history (`hist[j]` is at position
`j - 1` of the list). -/
def streamAt {α : Type} (zero : α) (hist input : List α) (i k : Nat) : α :=
  if k ≤ i then input.getD (i - k) zero else hist.getD (k - i - 1) zero

/-- `sum for k in 0..T-1 of h[k] * e[i - k]`, for one part of the samples (R174). -/
def firAcc (part : C16 → Int) (h : List Half) (t : Nat) (hist input : List C16) (i : Nat) : Int :=
  ((List.range t).map fun k => (h.getD k 0).toInt * part (streamAt C16.zero hist input i k)).sum

/-- `y_re` of R174 for output `m`. -/
def firRe (f : FirUnit) (input : List C16) (m : Nat) : Int :=
  firAcc (fun x => x.re.toInt) f.h f.t.toNat f.hist input (m * f.d.toNat + f.d.toNat - 1) / 2 ^ 15

/-- `y_im` of R174 for output `m`. -/
def firIm (f : FirUnit) (input : List C16) (m : Nat) : Int :=
  firAcc (fun x => x.im.toInt) f.h f.t.toNat f.hist input (m * f.d.toNat + f.d.toNat - 1) / 2 ^ 15

/-- `f` after EXEC on a buffer, as R174 says: the outputs, their count and rate, the saturation flag, the history, and
nothing else. -/
def FirStep (f g : FirUnit) (b : C16Buf) : Prop :=
  g.out.data = (List.range (b.data.length / f.d.toNat)).map (fun m =>
      ⟨BitVec.ofInt 16 (min 32767 (max (-32768) (firRe f b.data m))),
        BitVec.ofInt 16 (min 32767 (max (-32768) (firIm f b.data m)))⟩)
    ∧ g.out.rate = BitVec.ofNat 32 (b.rate.toNat / f.d.toNat)
    ∧ (g.sat = true ↔ f.sat = true ∨ ∃ m, m < b.data.length / f.d.toNat
        ∧ ¬ (-32768 ≤ firRe f b.data m ∧ firRe f b.data m ≤ 32767
          ∧ -32768 ≤ firIm f b.data m ∧ firIm f b.data m ≤ 32767))
    ∧ g.hist.length = f.hist.length
    ∧ (∀ j, 1 ≤ j → j ≤ f.t.toNat - 1 →
        g.hist.getD (j - 1) C16.zero = streamAt C16.zero f.hist b.data b.data.length j)
    ∧ (∀ j, f.t.toNat ≤ j → 1 ≤ j → g.hist.getD (j - 1) C16.zero = f.hist.getD (j - 1) C16.zero)
    ∧ g.configured = f.configured ∧ g.d = f.d ∧ g.t = f.t ∧ g.h = f.h

/-- `f` after an accepted CFG, as R172 says. -/
def FirConfigured (f g : FirUnit) (d t : Byte) (taps : List Half) : Prop :=
  g.d.toNat = d.toNat ∧ g.t.toNat = t.toNat ∧ g.configured = true ∧ g.sat = false
    ∧ g.h.length = 64 ∧ (∀ k, k < 64 → g.h.getD k 0 = if k < t.toNat then taps.getD k 0 else 0)
    ∧ g.hist = List.replicate 63 C16.zero ∧ g.out = f.out

/-- The RESET of a FIR unit (R171): every field 0. -/
def FirCleared (f g : FirUnit) : Prop :=
  g = { configured := false, sat := false, d := 0, t := 0, h := List.replicate 64 0,
        hist := List.replicate 63 C16.zero, out := f.out }

/-- The factors CFG accepts (R172). -/
def factorsLegal (d t : Byte) : Prop := 1 ≤ d.toNat ∧ d.toNat ≤ 16 ∧ 1 ≤ t.toNat ∧ t.toNat ≤ 64

/-- `acc` of R188 for output `n`: ascending k, each product and each sum rounded once, the free values numbered from
`d`. -/
def fbfAcc (f : BasebandUnit) (d : Nat) (input : List F32) (n : Nat) : F32 :=
  (List.range f.t.toNat).foldl
    (fun acc k => f32Add (d + 2 * f.t.toNat * n + 2 * k + 1) acc
      (f32Mul (d + 2 * f.t.toNat * n + 2 * k) (f.h.getD k 0) (streamAt 0 f.hist input n k))) 0

/-! ### Messages (30_encoding.md R111, R117) -/

/-- The rules' length test of a control message fails (R115, R312, R319 to R326). -/
def wrongLength : Instr → Prop
  | .ctlSetMode pl => pl.length ≠ 1
  | .ctlDecimatorConfig pl => pl.length < 4 ∨ pl.length ≠ 4 + 2 * (pl.getD 2 0).toNat
  | .ctlChannelFilterConfig pl => pl.length < 12 ∨ pl.length ≠ 12 + 2 * (pl.getD 1 0).toNat
  | .ctlDemodConfig pl => pl.length ≠ 12
  | .ctlBasebandFirConfig pl => pl.length < 4 ∨ pl.length ≠ 4 + 4 * (pl.getD 0 0).toNat
  | .ctlClockConfig pl => pl.length ≠ 12
  | .ctlSpectrumStart pl => pl.length ≠ 4
  | .ctlSpectrumStop pl => pl.length ≠ 0
  | _ => False

/-- The u16 or s16 at offset `i` of a payload, least significant byte first (R113). -/
def halfAt (pl : List Byte) (i : Nat) : Half :=
  BitVec.ofNat 16 ((pl.getD i 0).toNat + 256 * (pl.getD (i + 1) 0).toNat)

/-- The u32 or f32 at offset `i` of a payload, least significant byte first (R113). -/
def wordAt (pl : List Byte) (i : Nat) : Word :=
  BitVec.ofNat 32 ((pl.getD i 0).toNat + 256 * (pl.getD (i + 1) 0).toNat + 65536 * (pl.getD (i + 2) 0).toNat
    + 16777216 * (pl.getD (i + 3) 0).toNat)

/-- The kind byte and the payload of an operation that is a message (R117). -/
def messageOf : Instr → Option Message
  | .ctlSetMode pl => some (0x01, pl)
  | .ctlDecimatorConfig pl => some (0x02, pl)
  | .ctlChannelFilterConfig pl => some (0x03, pl)
  | .ctlDemodConfig pl => some (0x04, pl)
  | .ctlBasebandFirConfig pl => some (0x05, pl)
  | .ctlClockConfig pl => some (0x06, pl)
  | .ctlAudioConfig pl => some (0x07, pl)
  | .ctlSpectrumStart pl => some (0x08, pl)
  | .ctlSpectrumStop pl => some (0x09, pl)
  | .resStatistics pl => some (0x81, pl)
  | .resPacket pl => some (0x82, pl)
  | .resSpectrumReady pl => some (0x83, pl)
  | _ => none

/-- The result messages' `len` expressions (R117, R128, R129, R130): 16; 4 + ceil(count/8) with count at most PKT_CAP; 4. -/
def resultLength (p : Params) : Instr → Prop
  | .resStatistics pl => pl.length = 16
  | .resPacket pl => 4 ≤ pl.length ∧ (halfAt pl 0).toNat ≤ p.pktCap ∧ pl.length = 4 + ((halfAt pl 0).toNat + 7) / 8
  | .resSpectrumReady pl => pl.length = 4
  | _ => True

/-- Byte `i` of a message (R111): the kind, 0, the length's low byte, its high byte, the payload. -/
def messageByte (m : Message) (i : Nat) : Byte :=
  match i with
  | 0 => m.1
  | 1 => 0
  | 2 => BitVec.ofNat 8 (m.2.length % 256)
  | 3 => BitVec.ofNat 8 (m.2.length / 256)
  | j + 4 => m.2.getD j 0

/-- The payload of RES_PACKET (R129; 48_top_level.md R328): the count as a u16, low byte first, two zero bytes, then
ceil(count/8) bytes with payload bit `i` at bit `7 - (i mod 8)` of byte `floor(i/8)` and the unused bits 0. -/
def PacketBytes (bits : List Bool) (pl : List Byte) : Prop :=
  pl.length = 4 + (bits.length + 7) / 8
    ∧ (pl.getD 0 0).toNat = bits.length % 256 ∧ (pl.getD 1 0).toNat = bits.length / 256 % 256
    ∧ pl.getD 2 0 = 0 ∧ pl.getD 3 0 = 0
    ∧ ∀ i, i / 8 < (bits.length + 7) / 8 →
        (pl.getD (4 + i / 8) 0).getLsbD (7 - i % 8) = if i < bits.length then bits.getD i false else false

/-- MFC.SEND of a message in a state where it is accepted (40_message_channel.md R153): `t` has the message's bytes
behind the old write cursor, the cursor advanced, every other ring byte as before, and nothing else changed. -/
def SendAccepted (s t : State) (c : Chan) (m : Message) : Prop :=
  t = { (s.setChan c { s.chan c with w := (s.chan c).w + BitVec.ofNat 32 (4 + m.2.length) }) with mem := t.mem }
    ∧ (∀ i, i < 4 + m.2.length →
        t.ringByte (ringOffset (s.ringBase c) s.params.mfcCap (s.chan c).w.toNat i)
          = messageByte m i)
    ∧ (∀ off, ¬ s.storedAt c (4 + m.2.length) off → t.ringByte off = s.ringByte off)

/-- The first test of R153 passes: the message is well-formed (30_encoding.md R112). -/
def Sendable (s : State) (m : Message) : Prop := m.1 ≠ 0 ∧ m.2.length ≤ min 252 (s.params.mfcCap - 4)

/-- The second test of R153 passes: the message fits in the room the sender sees. -/
def Fits (s : State) (c : Chan) (m : Message) : Prop :=
  4 + m.2.length ≤ s.params.mfcCap - ((s.chan c).w - (s.chan c).rSeen).toNat

/-- MFC.SEND of each message in turn, all accepted (R162). -/
def SendAll (c : Chan) : List Message → State → State → Prop
  | [], s, t => t = s
  | m :: q, s, t => ∃ u, exec (.mfcSend c m.1 m.2) s = .next u ∧ u.ret = .bool true ∧ SendAll c q u t

/-- MFC.RECV once for each message, in this order, then once more with none left (R162). -/
def RecvAll (c : Chan) : List Message → State → State → Prop
  | [], s, t => exec (.mfcRecv c) s = .next t ∧ t.ret = .none
  | m :: q, s, t => ∃ u, exec (.mfcRecv c) s = .next u ∧ u.ret = .message m.1 m.2 ∧ RecvAll c q u t

/-! ### Legal builds (00_scope.md R10; 44_packet_builder.md R242; 93 U7, U13) -/

/-- The parameters a block can be built with. -/
def LegalBuild (p : Params) : Prop :=
  (∃ k, 4 ≤ k ∧ k ≤ 16 ∧ p.mfcCap = 2 ^ k) ∧ 1 ≤ p.bufN ∧ 1 ≤ p.audBlock
    ∧ 1 ≤ p.pktLen ∧ p.pktLen ≤ p.pktCap ∧ p.pktCap + 32 ≤ 8 * min 252 (p.mfcCap - 4)
    ∧ 1 ≤ p.pktPreamble.length ∧ p.pktPreamble.length ≤ 64

/-! ### Power-on values (10_state.md, the power-on column; 70_reset_and_hazards.md R370) -/

/-- A channel at power-on (R45). -/
def ChannelAtPowerOn (x : ChannelRegs) : Prop :=
  x.w = 0 ∧ x.r = 0 ∧ x.rSeen = 0 ∧ x.wSeen = 0 ∧ x.fault = false

/-- A FIR unit at power-on (R42, R43, R47). -/
def FirAtPowerOn (f : FirUnit) : Prop :=
  f.configured = false ∧ f.sat = false ∧ f.d = 0 ∧ f.t = 0 ∧ f.h = List.replicate 64 0
    ∧ f.hist = List.replicate 63 ⟨0, 0⟩

/-- Every register the spec gives a power-on value has it. -/
def RegistersAtPowerOn (s : State) : Prop :=
  s.mode = .none ∧ s.bufCount = 0 ∧ s.errstat = 0 ∧ s.evt = 0
    ∧ ChannelAtPowerOn s.a2b ∧ ChannelAtPowerOn s.b2a
    ∧ FirAtPowerOn s.pfd0 ∧ FirAtPowerOn s.pfd1 ∧ FirAtPowerOn s.pfd2
    ∧ FirAtPowerOn s.bpf.fir ∧ s.bpf.passHz = 0 ∧ s.bpf.stopHz = 0
    ∧ s.fbf.t = 1 ∧ s.fbf.h = 0x3F800000 :: List.replicate 31 0 ∧ s.fbf.hist = List.replicate 31 0
    ∧ s.amd.ssb = false ∧ s.amd.bfoInc = 0 ∧ s.amd.bfoPhase = 0
    ∧ s.fmd.gain = 0x3F800000 ∧ s.fmd.zPrev = ⟨0, 0⟩
    ∧ s.str = { configured := false, sampleRate := 0, symbolRate := 0, inc := 0, gain := 0, phase := 0, last := 0, ef := 0 }
    ∧ s.pkt.capturing = false ∧ s.pkt.histBits = 0 ∧ s.pkt.histErr = 0 ∧ s.pkt.histN = 0 ∧ s.pkt.captureLen = 0
    ∧ s.spc = { streaming := false, k := 0, decCount := 0, fill := 0, cb := List.replicate 256 ⟨0, 0⟩,
                fb := List.replicate 256 ⟨0, 0⟩, fbRate := 0, fbPass := 0, fbStop := 0, updateRequest := false }
    ∧ s.slot = { valid := false, snap := { rate := 0, pass := 0, stop := 0, db := List.replicate 256 0 } }
    ∧ s.aud = { cfg := [], fstate := s.params.audInit, block := List.replicate s.params.audBlock 0, blockN := 0 }

/-! ### The mode change (48_top_level.md R312) -/

/-- `t` is `s` after the teardown of R312, with the mode `m` installed. -/
def ModeInstalled (s t : State) (m : Mode) : Prop :=
  t.mode = m
    ∧ FirCleared s.pfd0 t.pfd0 ∧ FirCleared s.pfd1 t.pfd1 ∧ FirCleared s.pfd2 t.pfd2
    ∧ FirCleared s.bpf.fir t.bpf.fir ∧ t.bpf.passHz = 0 ∧ t.bpf.stopHz = 0
    ∧ t.fbf = { s.fbf with t := 1, h := 0x3F800000 :: List.replicate 31 0, hist := List.replicate 31 0 }
    ∧ t.amd = { s.amd with ssb := false, bfoInc := 0, bfoPhase := 0 }
    ∧ t.fmd = { s.fmd with gain := 0x3F800000, zPrev := C16.zero }
    ∧ t.str = { configured := false, sampleRate := 0, symbolRate := 0, inc := 0, gain := 0, phase := 0, last := 0,
                ef := 0 }
    ∧ t.pkt = { s.pkt with capturing := false, histBits := 0, histErr := 0, histN := 0, captureLen := 0 }
    ∧ t.aud = { s.aud with fstate := s.params.audInit, blockN := 0 }
    ∧ t.spc = { s.spc with streaming := false, decCount := 0, fill := 0 }
    ∧ t.slot = s.slot ∧ t.evt = s.evt ∧ t.errstat = s.errstat ∧ t.bufCount = s.bufCount
    ∧ t.a2b = s.a2b ∧ t.b2a = s.b2a ∧ t.mem = s.mem
    ∧ t.params = s.params ∧ t.agenda = s.agenda ∧ t.sink = s.sink ∧ t.draws = s.draws

/-! ### Clock recovery (43_clock_recovery.md) -/

/-- The operands STR.CFG accepts (R222). -/
def clockAccepted (sampleRate symbolRate : Word) (gain : F32) : Prop :=
  sampleRate ≠ 0 ∧ symbolRate ≠ 0 ∧ 2 * symbolRate.toNat ≤ sampleRate.toNat
    ∧ gain.toNat / 2 ^ 23 % 256 ≠ 255 ∧ f32Lt 0 gain = true ∧ f32Lt 0x3F800000 gain = false

/-- The unit after an accepted STR.CFG (R222). -/
def clockConfigured (sampleRate symbolRate : Word) (gain : F32) : ClockUnit :=
  { configured := true, sampleRate := sampleRate, symbolRate := symbolRate,
    inc := BitVec.ofNat 32 (symbolRate.toNat * 2 ^ 32 / sampleRate.toNat), gain := gain,
    phase := 0, last := 0, ef := 0 }

/-- `sum` of R224 with `adj` of R225 written out, its two products drawing the free values `d1` and `d2`. -/
def pushSum (u : ClockUnit) (d1 d2 : Nat) : Int :=
  (u.phase.toNat : Int) + (u.inc.toNat : Int)
    + min ((u.inc.toNat / 2 : Nat) : Int)
        (max (-((u.inc.toNat / 2 : Nat) : Int))
          (f32ToS32 (f32Mul d2 (f32Mul d1 u.ef 0x3D800000) (intToF32 (u.inc.toNat : Int)))))

/-- The unit after a PUSH that crosses a symbol boundary (R224), its free values numbered from `d`. -/
def pushedSymbol (u : ClockUnit) (d : Nat) (sum : Int) (x : F32) : ClockUnit :=
  let a := if f32Lt x 0 then u.last ^^^ 0x80000000 else u.last
  let b := if f32Lt u.last 0 then x ^^^ 0x80000000 else x
  let e := f32Sub d a b
  { u with
    phase := BitVec.ofInt 32 (sum % 2 ^ 32), last := x,
    ef := f32Add (d + 3) u.ef (f32Mul (d + 2) u.gain (f32Sub (d + 1) e u.ef)) }

/-- `n` STR.PUSH operations of one sample, one after another: `k` of them returned a symbol. -/
def Pushes (x : F32) : Nat → Nat → State → State → Prop
  | 0, k, s, t => k = 0 ∧ t = s
  | n + 1, k, s, t =>
    ∃ k0 u, Pushes x n k0 s u ∧ exec (.strPush x) u = .next t
      ∧ (t.ret = .none ∧ k = k0 ∨ t.ret = .symbol x ∧ k = k0 + 1)

/-! ### Packets (44_packet_builder.md R243, R245) -/

/-- PKT_MATCH with the default policy (R245): the newest symbol is at index 0. -/
def preambleGood (p : Params) (bits errs : BitVec 64) (i : Nat) : Prop :=
  bits.getLsbD i = p.pktPreamble.getD (p.pktPreamble.length - 1 - i) false ∧ errs.getLsbD i = false

/-- The result of pushing error-free bits one after another: the packets returned, in order. -/
def PacketsOf : List Bool → List (List Bool) → State → State → Prop
  | [], ps, s, t => ps = [] ∧ t = s
  | b :: bs, ps, s, t =>
    ∃ u, exec (.pktPush b false) s = .next u
      ∧ (u.ret = .none ∧ PacketsOf bs ps u t
        ∨ ∃ bits ps', u.ret = .packet bits bits.length ∧ ps = bits :: ps' ∧ PacketsOf bs ps' u t)

/-! ### Spectrum (45_spectrum_collector.md) -/

/-- `ILOG2Q8(S)` of R269 for `2^e <= S < 2^(e+1)`. -/
def ilogAt (e s : Nat) : Nat := 256 * e + (s - 2 ^ e) * 256 / 2 ^ e

/-- `P[k]` of R267 from the transformed array, indices taken modulo 256. -/
def powerAt (a : List Cplx) (k : Nat) : Int :=
  let x := a.getD (k % 256) (0, 0)
  x.1 * x.1 + x.2 * x.2

/-- `S[k]` of R268. -/
def smoothed (a : List Cplx) (k : Nat) : Int := (powerAt a (k + 255) + 2 * powerAt a k + powerAt a (k + 1)) / 2 ^ 2

/-- The samples of `input` that a FEED keeps when the group position is `dec`: those at a multiple of `k` (R261). -/
def keptSamples (k dec : Nat) (input : List C16) : List C16 :=
  ((List.range input.length).filter fun i => (dec + i) % k = 0).map fun i => input.getD i C16.zero

/-- `u` is `v` after a FEED of `b` while streaming (R261). The samples collected are those in the buffer and then those
kept; each 256 of them are an epoch; the first epoch is handed over if no request is pending, every other is discarded. -/
def SpectrumFed (u v : SpectrumUnit) (b : C16Buf) (pass stop : Word) : Prop :=
  let w := u.cb.take u.fill.toNat ++ keptSamples u.k.toNat u.decCount.toNat b.data
  v.streaming = true ∧ v.k = u.k
    ∧ v.decCount.toNat = (u.decCount.toNat + b.data.length) % u.k.toNat
    ∧ v.fill.toNat = w.length % 256 ∧ v.cb.length = 256
    ∧ (∀ j, j < 256 → v.cb.getD j C16.zero =
        if j < w.length % 256 then w.getD (w.length / 256 * 256 + j) C16.zero
        else if 256 ≤ w.length then w.getD ((w.length / 256 - 1) * 256 + j) C16.zero
        else u.cb.getD j C16.zero)
    ∧ (u.updateRequest = false → 256 ≤ w.length →
        v.fb = w.take 256 ∧ v.fbRate = BitVec.ofNat 32 (b.rate.toNat / u.k.toNat) ∧ v.fbPass = pass ∧ v.fbStop = stop
          ∧ v.updateRequest = true)
    ∧ (u.updateRequest = true ∨ w.length < 256 →
        v.fb = u.fb ∧ v.fbRate = u.fbRate ∧ v.fbPass = u.fbPass ∧ v.fbStop = u.fbStop
          ∧ v.updateRequest = u.updateRequest)

/-! ### Audio (46_audio_output.md R288, R289) -/

/-- One sample through AUD_STAGE as R285 and R290 settle it: high-pass, then de-emphasis (a pass-through where there is
none), then squelch, which replaces the sample by +0.0 while the level is below the threshold, and the presence/level
history, updated whether or not the sample is muted. The free values are numbered from `d`. -/
def StageStep (p : Params) (d : Nat) (cfg : List Byte) (m : AudioMemory) (x : F32) (m' : AudioMemory) (y : F32) : Prop :=
  ∃ (d1 d2 d3 d4 d5 : Nat) (x1 x2 : F32) (present : Bool),
    d ≤ d1 ∧ d1 ≤ d2 ∧ d2 ≤ d3 ∧ d3 ≤ d4 ∧ d4 ≤ d5
      ∧ runFilter cfg x d p.audStage.highPass m.highPass x = (m'.highPass, x1)
      ∧ (p.audStage.deEmphasis = none → x2 = x1 ∧ m'.deEmphasis = m.deEmphasis)
      ∧ (∀ f, p.audStage.deEmphasis = some f → runFilter cfg x d1 f m.deEmphasis x1 = (m'.deEmphasis, x2))
      ∧ (p.audStage.squelch = none → present = true ∧ m'.squelch = m.squelch)
      ∧ (∀ g, p.audStage.squelch = some g →
          let env : StageEnv := { cfg := cfg, raw := x, input := x2, mem := m.squelch, present := true }
          (present = false ↔ f32Lt (evalExpr env d2 g.level) (evalExpr env d3 g.threshold) = true)
            ∧ m'.squelch = nextMemory env d4 g.memory m.squelch)
      ∧ m'.history = nextMemory { cfg := cfg, raw := x, input := x2, mem := m.history, present := present } d5
          p.audStage.history m.history
      ∧ y = if present then x2 else 0

/-- `TO_S16(y)` of R289, its product drawing the free value `d`. -/
def toS16At (d : Nat) (y : F32) : Half :=
  BitVec.ofInt 16 (min 32767 (max (-32768) (f32ToS32 (f32Mul d y 0x47000000))))

/-- The samples of a buffer through AUD_STAGE, one after another, and TO_S16 (R288). -/
def StageRun (p : Params) (cfg : List Byte) (dOut : Nat) : Nat → AudioMemory → List F32 → List Half → AudioMemory → Prop
  | _, m, [], ys, m' => ys = [] ∧ m' = m
  | d, m, x :: xs, ys, m' =>
    ∃ m1 y rest, StageStep p d cfg m x m1 y ∧ ys = toS16At dOut y :: rest
      ∧ StageRun p cfg dOut (d + stageDraws p.audStage) m1 xs rest m'

/-! ### Manchester (47_manchester_decoder.md R296) -/

/-- `v[i]` of R296. -/
def manV (bits : List Bool) (sense : Bool) (i : Nat) : Nat :=
  if i < bits.length / 2 then (if bits.getD (2 * i + (if sense then 1 else 0)) false then 1 else 0) else 0

/-- `e[i]` of R296. -/
def manE (bits : List Bool) (i : Nat) : Nat :=
  if i < bits.length / 2 then (if bits.getD (2 * i) false = bits.getD (2 * i + 1) false then 1 else 0) else 1

/-- The ASCII character "0123456789ABCDEF"[x]. -/
def hexChar (x : Nat) : Byte := BitVec.ofNat 8 (("0123456789ABCDEF".toList.getD x '0').toNat)

/-- The digit made of four bits, the first the most significant (R296). -/
def digitOf (v : Nat → Nat) (d : Nat) : Byte :=
  hexChar (8 * v (4 * d) + 4 * v (4 * d + 1) + 2 * v (4 * d + 2) + v (4 * d + 3))

/-- The encoder that matches a sense (R298): sense 0 pairs with `b -> (b, 1-b)`, sense 1 with `b -> (1-b, b)`. -/
def manEncode (sense : Bool) (data : List Bool) : List Bool :=
  data.flatMap fun b => if sense then [!b, b] else [b, !b]

/-! ### The chain of a raw buffer (48_top_level.md R311, R316) -/

/-- The operations of the front chain in a state, one after another, on a widened raw buffer (R175, R316). -/
def FrontChain (raw : List C8) (s t : State) : Prop :=
  ∃ s1 s2 s3 s4,
    exec (.pfdExec 0 ⟨3072000, raw.map fun x => ⟨BitVec.ofInt 16 (x.re.toInt * 256), BitVec.ofInt 16 (x.im.toInt * 256)⟩⟩) s
        = .next s1
      ∧ exec (.pfdExec 1 s1.pfd0.out) s1 = .next s2
      ∧ exec (.pfdExec 2 s2.pfd1.out) s2 = .next s3
      ∧ exec (.bpfExec s3.pfd2.out) s3 = .next s4
      ∧ exec (.spcFeed s4.bpf.fir.out s4.bpf.passHz s4.bpf.stopHz) s4 = .next t

/-- One sample of the TPMS back chain (R316, 43_clock_recovery.md R230): PUSH, then at once the slicer, PKT.PUSH, and
MFC[B2A].SEND of RES_PACKET, its payload laid out as R129 says, for a completed packet. -/
def SampleChain (x : F32) (s t : State) : Prop :=
  ∃ s1, exec (.strPush x) s = .next s1
    ∧ (s1.ret = .none ∧ t = s1
      ∨ ∃ y s2, s1.ret = .symbol y ∧ exec (.pktPush (f32Lt 0 y) false) s1 = .next s2
          ∧ (s2.ret = .none ∧ t = s2
            ∨ ∃ bits pl, s2.ret = .packet bits bits.length ∧ PacketBytes bits pl
                ∧ exec (.mfcSend .b2a 0x82 pl) s2 = .next t))

/-- The samples of a buffer, one after another. -/
def SamplesChain : List F32 → State → State → Prop
  | [], s, t => t = s
  | x :: xs, s, t => ∃ u, SampleChain x s u ∧ SamplesChain xs u t

/-- The back chain of each mode (R311, R316). -/
def BackChain (s t : State) : Prop :=
  match s.mode with
  | .none => t = s
  | .am => ∃ s1, exec (.amdExec s.bpf.fir.out) s = .next s1 ∧ exec (.audExec s1.amd.out) s1 = .next t
  | .nfm => ∃ s1, exec (.fmdExec s.bpf.fir.out) s = .next s1 ∧ exec (.audExec s1.fmd.out) s1 = .next t
  | .tpms =>
    ∃ s1 s2, exec (.fmdExec s.bpf.fir.out) s = .next s1 ∧ exec (.fbfExec s1.fmd.out) s1 = .next s2
      ∧ SamplesChain s2.fbf.out.data s2 t

/-- `configured(mode)` of R315. -/
def Ready (s : State) : Prop :=
  s.mode ≠ .none ∧ s.pfd0.configured = true ∧ s.pfd1.configured = true ∧ s.pfd2.configured = true
    ∧ s.bpf.fir.configured = true ∧ (s.mode = .tpms → s.str.configured = true)

end Sys2Proof.Machine
end

