-- ==== Sys2Proof/Certificates/Slice0/Obligations.lean ====
section
/-! DEFINITION. The statements about the model, for the provers. The fields `ret` (the result an operation returned) and
`out` (the buffer a unit last produced) are the model's own (log entry 10); where a statement gives them a value, that is the
rule's Result, or the model's choice of leaving the buffer as it was. -/

open Sys2Proof Sys2Proof.Machine

/-! ### Encoding and the step -/

/-- Every well-formed operation is decoded from its own encoding (30_encoding.md R110, R111, R125, R137). The layout of
the operands on the command port is the model's (log entry 2). -/
def Obligations.DecodeEncodeAgree : Prop :=
  ∀ (p : Params) (i : Instr), wellFormed p i = true → decode p (encode i) = .ok i

/-- A message that decodes is the encoding of what it decodes to: no two messages stand for one operation but for the
reserved header byte (R111, R113, R114). -/
def Obligations.MessageWordsAreUnique : Prop :=
  ∀ (p : Params) (kind : Byte) (payload : List Byte) (i : Instr),
    decode p ⟨.msg, messageBytes kind payload⟩ = .ok i → payload.length < 65536 →
      encode i = ⟨.msg, messageBytes kind payload⟩ ∧ messageOf i = some (kind, payload)

/-- Whatever decodes is well-formed, but for a result message of a length no agent sends and a MAN.DECODE that is too
long (R115, R125; 47_manchester_decoder.md R296). -/
def Obligations.DecodedIsWellFormed : Prop :=
  ∀ (p : Params) (m : Move) (i : Instr), decode p m = .ok i →
    (∀ pl, i ≠ .resStatistics pl ∧ i ≠ .resPacket pl ∧ i ≠ .resSpectrumReady pl) →
    (∀ bits sense, i = .manDecode bits sense → bits.length ≤ 512) →
    wellFormed p i = true

/-- A few encodings written out from the spec's examples decode to the operations they stand for (48_top_level.md R312,
R319, R326; 30_encoding.md R125). -/
def Obligations.ExampleWordsDecode : Prop :=
  decode Params.default ⟨.msg, [0x01, 0x00, 0x01, 0x00, 0x01]⟩ = .ok (.ctlSetMode [1])
    ∧ decode Params.default ⟨.msg, [0x02, 0x00, 0x06, 0x00, 0x00, 0x02, 0x01, 0x00, 0x00, 0x40]⟩
        = .ok (.ctlDecimatorConfig [0x00, 0x02, 0x01, 0x00, 0x00, 0x40])
    ∧ decode Params.default ⟨.msg, [0x09, 0x00, 0x00, 0x00]⟩ = .ok (.ctlSpectrumStop [])
    ∧ decode Params.default ⟨.msg, [0x00, 0x00, 0x00, 0x00]⟩ = .reject .malformedMessage
    ∧ decode Params.default ⟨.msg, [0x7F, 0x00, 0x02, 0x00, 0xAA, 0xBB]⟩ = .reject (.unknownKind 0x7F)
    ∧ decode Params.default ⟨.cmd, [0x94]⟩ = .ok .spcUpdate
    ∧ decode Params.default ⟨.cmd, [0x82, 0x01, 0x00]⟩ = .ok (.pktPush true false)
    ∧ decode Params.default ⟨.cmd, [0x81]⟩ = .reject (.unassignedCode 0x81)

/-- A unit operation code that R125 does not list does nothing: the move is consumed and no other field changes (R131). -/
def Obligations.UnassignedCodeDoesNothing : Prop :=
  ∀ (s : State) (code : Byte) (operands : List Byte) (rest : List Move),
    s.agenda = ⟨.cmd, code :: operands⟩ :: rest →
    code.toNat ∉ [0x11, 0x12, 0x13, 0x20, 0x21, 0x22, 0x30, 0x31, 0x32, 0x40, 0x41, 0x42, 0x50, 0x51, 0x52, 0x60, 0x61,
      0x62, 0x70, 0x71, 0x72, 0x80, 0x82, 0x90, 0x91, 0x92, 0x93, 0x94, 0x95, 0xA0, 0xA1, 0xA2, 0xB2, 0xC0, 0xC1, 0xC2,
      0xC3] →
    step s = .next { s with agenda := rest }

/-- A step takes the first move of the agenda and runs the operation it decodes to; a move that is not enabled has no step
and is passed over (00_scope.md R17, R20; log entries 1 and 11); with no move left nothing changes. -/
def Obligations.StepRunsDecodedMove : Prop :=
  (∀ (s : State) (m : Move) (rest : List Move) (i : Instr),
    s.agenda = m :: rest → decode s.params m = .ok i →
      (∀ t, exec i { s with agenda := rest } = .next t → step s = .next t)
        ∧ (∀ n, exec i { s with agenda := rest } = .refused (.notEnabled n) → step s = .next { s with agenda := rest }))
    ∧ ∀ s : State, s.agenda = [] → step s = .next s

/-! ### Invariants -/

/-- A block built with legal parameters is healthy after hardware reset, and every register that the spec gives a power-on
value has it; the ring bytes hold whatever they hold, a free value (70_reset_and_hazards.md R370; 10_state.md R42 to R63).
Legal parameters give a block; any others, PKT_LEN above PKT_CAP and PKT_CAP above 8*(PAYLOAD_MAX - 4) among them, give none
(44_packet_builder.md R242; 93 U7, U13; that PKT_LEN = 0 and a preamble outside its range give none is log entry 4). -/
def Obligations.HealthyAfterReset : Prop :=
  State.reset.Inv ∧ State.reset.Whole ∧ State.reset.params = Params.default ∧ RegistersAtPowerOn State.reset
    ∧ (∀ (p : Params) (s : State), State.build p = some s →
        s.Inv ∧ s.Whole ∧ s.params = p ∧ RegistersAtPowerOn s ∧ ∀ off, s.ringByte off = Config.ringPowerOn off)
    ∧ (∀ p : Params, LegalBuild p → ∃ s, State.build p = some s)
    ∧ (∀ p : Params, ¬ LegalBuild p → State.build p = none)
    ∧ ∀ p : Params, p.pktCap < p.pktLen ∨ 8 * min 252 (p.mfcCap - 4) < p.pktCap + 32 → State.build p = none

/-- Every step of a healthy block leaves a healthy block: every field keeps a value that 10_state.md allows (R42 to R63,
R70), `avail_r <= used <= used_s <= MFC_CAP` (R152), `EVT[0] = SLOT.valid` (R274), the memory its canonical form. -/
def Obligations.StepsKeepHealth : Prop :=
  ∀ s t : State, s.Inv → step s = .next t → t.Inv

/-- `w` moves only from one message boundary to the next: after any step of any state whose rings hold whole messages,
both rings hold whole messages (40_message_channel.md R160, R161). -/
def Obligations.RingsHoldWholeMessages : Prop :=
  ∀ s t : State, paramsOk s.params = true → s.Whole → step s = .next t → t.Whole

/-- The defensive fault of R157 is never raised while only the operations of the block write the rings (R161; 93 U2). -/
def Obligations.MalformedHeaderUnreachable : Prop :=
  ∀ s t : State, paramsOk s.params = true → s.Whole → step s = .next t →
    s.errstat.getLsbD 3 = false → t.errstat.getLsbD 3 = false ∧ t.a2b.fault = false ∧ t.b2a.fault = false

/-- ERRSTAT bits are sticky: only the reset input clears one (10_state.md R44; 60_exceptions.md R356). -/
def Obligations.ErrorsAreSticky : Prop :=
  ∀ (i : Instr) (s t : State), exec i s = .next t → i ≠ .topReset →
    ∀ k, s.errstat.getLsbD k = true → t.errstat.getLsbD k = true

/-- Only SPC.UPDATE, SPC.DRAIN and the reset input write EVT or the slot (10_state.md R42, R62; 20_memory.md R94). -/
def Obligations.EventWriters : Prop :=
  ∀ (i : Instr) (s t : State), exec i s = .next t →
    i ≠ .spcUpdate → i ≠ .spcDrain → i ≠ .spcReset → i ≠ .topReset → t.evt = s.evt ∧ t.slot = s.slot

/-- Each control register is written only where its rule says (10_state.md R43, R70; 43_clock_recovery.md R231): of the
operations, only a mode change writes TOP.mode, only TOP writes TOP.buf_count, and only STR.RESET, STR.CFG, STR.PUSH and
what issues them change STR. -/
def Obligations.RegisterWriters : Prop :=
  ∀ (i : Instr) (s t : State), exec i s = .next t → i ≠ .topReset → (∀ raw, i ≠ .topBuffer raw) →
    ((∀ pl, i ≠ .ctlSetMode pl) → i ≠ .topDispatch → t.mode = s.mode)
      ∧ (i ≠ .topStats → t.bufCount = s.bufCount)
      ∧ (i ≠ .strReset → (∀ a b g, i ≠ .strCfg a b g) → (∀ x, i ≠ .strPush x) → (∀ pl, i ≠ .ctlSetMode pl) →
          (∀ pl, i ≠ .ctlClockConfig pl) → i ≠ .topDispatch → t.str = s.str)

/-- Each side writes only its own cursor (20_memory.md R83, R90; 10_state.md R45): a ring byte is changed only by a send on
its ring, or an operation that issues one, and so is the write cursor; a read cursor is moved only by a receive from its ring;
the copies only by a SYNC; the reset input clears them all. No operation changes the parameters or the moves to come. -/
def Obligations.OnlySendsStore : Prop :=
  ∀ (i : Instr) (s t : State), exec i s = .next t →
    let sendsA2b := ∃ k pl, i = .mfcSend .a2b k pl
    let sendsB2a := (∃ k pl, i = .mfcSend .b2a k pl)
      ∨ (∃ pl, i = .resStatistics pl ∨ i = .resPacket pl ∨ i = .resSpectrumReady pl ∨ i = .ctlSpectrumStart pl)
      ∨ i = .topDispatch ∨ (∃ raw, i = .topBuffer raw) ∨ i = .topStats
    t.params = s.params ∧ t.agenda = s.agenda
      ∧ (¬ sendsA2b → ¬ sendsB2a → ∀ off, t.ringByte off = s.ringByte off)
      ∧ (¬ sendsA2b → ∀ off, 0x200 ≤ off → off < 0x200 + s.params.mfcCap → t.ringByte off = s.ringByte off)
      ∧ (¬ sendsB2a → ∀ off, 0x200 + s.params.mfcCap ≤ off → t.ringByte off = s.ringByte off)
      ∧ (¬ sendsA2b → i ≠ .topReset → t.a2b.w = s.a2b.w)
      ∧ (¬ sendsB2a → i ≠ .topReset → t.b2a.w = s.b2a.w)
      ∧ (i ≠ .mfcRecv .a2b → i ≠ .topReset → i ≠ .topDispatch → (∀ raw, i ≠ .topBuffer raw) → t.a2b.r = s.a2b.r)
      ∧ (i ≠ .mfcRecv .b2a → i ≠ .topReset → t.b2a.r = s.b2a.r)
      ∧ (∀ c, (∀ sel, i ≠ .mfcSync c sel) → i ≠ .topReset →
          (t.chan c).wSeen = (s.chan c).wSeen ∧ (t.chan c).rSeen = (s.chan c).rSeen)

/-! ### Memory and the shared region -/

/-- The shared region's layout and byte order as APP reads it: each word of the map at its offset, little-endian, the
reserved ranges 0, the ring bytes of each channel, and a fault outside the region (20_memory.md R80, R87). -/
def Obligations.SharedRegionLayout : Prop :=
  ∀ s : State,
    s.memRead 0x00 4 = .ok s.a2b.w.toNat ∧ s.memRead 0x04 4 = .ok s.a2b.r.toNat
      ∧ s.memRead 0x08 4 = .ok s.b2a.w.toNat ∧ s.memRead 0x0C 4 = .ok s.b2a.r.toNat
      ∧ s.memRead 0x10 4 = .ok s.evt.toNat ∧ s.memRead 0x14 4 = .ok s.errstat.toNat
      ∧ s.memRead 0x18 8 = .ok 0 ∧ s.memRead 0x20 4 = .ok (if s.slot.valid then 1 else 0)
      ∧ s.memRead 0x24 4 = .ok s.slot.snap.rate.toNat ∧ s.memRead 0x28 4 = .ok s.slot.snap.pass.toNat
      ∧ s.memRead 0x2C 4 = .ok s.slot.snap.stop.toNat
      ∧ (∀ k, k < 256 → s.memRead (0x30 + k) 1 = .ok (s.slot.snap.db.getD k 0).toNat)
      ∧ (∀ k, k < 208 → s.memRead (0x130 + k) 1 = .ok 0)
      ∧ (∀ k, k < s.params.mfcCap → s.memRead (0x200 + k) 1 = .ok (s.ringByte (0x200 + k)).toNat
          ∧ s.memRead (0x200 + s.params.mfcCap + k) 1 = .ok (s.ringByte (0x200 + s.params.mfcCap + k)).toNat)
      ∧ (∀ off, 0x200 + 2 * s.params.mfcCap ≤ off → s.memRead off 1 = .error (.noSuchAddress off))

/-! ### The message channel -/

/-- MFC.SEND (40_message_channel.md R153): a well-formed message that fits is stored from the write cursor on and the
cursor advanced; a malformed or oversized one is refused with nothing written; so is one that does not fit, and only on
B2A does that set ERRSTAT[1] (60_exceptions.md R344). Nothing else changes. -/
def Obligations.SendStoresOrRefuses : Prop :=
  ∀ (s : State) (c : Chan) (kind : Byte) (payload : List Byte),
    (paramsOk s.params = true → Sendable s (kind, payload) → Fits s c (kind, payload) →
        ∃ t, exec (.mfcSend c kind payload) s = .next { t with ret := .bool true } ∧ SendAccepted s t c (kind, payload))
      ∧ (¬ Sendable s (kind, payload) → exec (.mfcSend c kind payload) s = .next { s with ret := .bool false })
      ∧ (Sendable s (kind, payload) → ¬ Fits s c (kind, payload) →
          exec (.mfcSend c kind payload) s
            = .next { s with errstat := (if c = .b2a then s.errstat ||| 2 else s.errstat), ret := .bool false })

/-- The result messages are MFC[B2A].SENDs of their kinds, 0x81, 0x82 and 0x83, with the lengths of R117 (30_encoding.md
R117, R137; 48_top_level.md R328, R329): accepted, the message stands in the ring; with no room, it is lost and ERRSTAT[1]
set. A payload of another length is no such message: there is no step (log entries 11 and 12). -/
def Obligations.ResultMessagesAreSent : Prop :=
  ∀ (s : State) (i : Instr) (k : Byte) (pl : List Byte),
    paramsOk s.params = true → messageOf i = some (k, pl) → 0x80 ≤ k.toNat →
      (resultLength s.params i → Sendable s (k, pl) → Fits s .b2a (k, pl) →
          ∃ t, exec i s = .next { t with ret := .bool true } ∧ SendAccepted s t .b2a (k, pl))
        ∧ (resultLength s.params i → Sendable s (k, pl) → ¬ Fits s .b2a (k, pl) →
            exec i s = .next { s with errstat := s.errstat ||| 2, ret := .bool false })
        ∧ (resultLength s.params i → ¬ Sendable s (k, pl) → exec i s = .next { s with ret := .bool false })
        ∧ (¬ resultLength s.params i → ∃ name, exec i s = .refused (.notEnabled name)
            ∧ (k = 0x81 ∧ name = "RES_STATISTICS" ∨ k = 0x82 ∧ name = "RES_PACKET"
                ∨ k = 0x83 ∧ name = "RES_SPECTRUM_READY"))

/-- The ring is a queue (20_memory.md R91; 40_message_channel.md R161): an accepted message goes behind those stored, a
receive takes the oldest visible one and only when there is one, a SYNC of the channel makes every stored one visible. -/
def Obligations.RingIsQueue : Prop :=
  ∀ (s : State) (c : Chan) (vis hid : List Message), paramsOk s.params = true → s.Holds c vis hid →
    (∀ kind payload, Sendable s (kind, payload) → Fits s c (kind, payload) →
        ∃ t, exec (.mfcSend c kind payload) s = .next t ∧ t.ret = .bool true
          ∧ t.Holds c vis (hid ++ [(kind, payload)]))
      ∧ (∀ kind payload vis', vis = (kind, payload) :: vis' →
          ∃ t, exec (.mfcRecv c) s = .next t ∧ t.ret = .message kind payload ∧ t.Holds c vis' hid
            ∧ t = { s.setChan c { s.chan c with r := (s.chan c).r + BitVec.ofNat 32 (4 + payload.length) } with
                    ret := .message kind payload })
      ∧ (vis = [] → exec (.mfcRecv c) s = .next { s with ret := .none })
      ∧ (∃ t, exec (.mfcSync c .both) s = .next t ∧ t.Holds c (vis ++ hid) [])
      ∧ (∃ t, exec (.mfcSync c .wSeen) s = .next t ∧ t.Holds c (vis ++ hid) [])
      ∧ (∃ t, exec (.mfcSync c .rSeen) s = .next t ∧ t.Holds c vis hid)

/-- Sends that exactly fill the ring all succeed and the next one fails; after it and a SYNC the receives return them in
order; after another SYNC the channel is empty and accepts messages again, wherever the cursors stand (R162). -/
def Obligations.FillDrainRefill : Prop :=
  ∀ (s : State) (c : Chan) (q : List Message) (m : Message),
    paramsOk s.params = true → s.Holds c [] [] → (s.chan c).rSeen = (s.chan c).r →
    (∀ x ∈ q, Sendable s x) → (queueBytes q).length = s.params.mfcCap → Sendable s m →
      ∃ full refused shown drained ready again,
        SendAll c q s full
          ∧ exec (.mfcSend c m.1 m.2) full = .next refused ∧ refused.ret = .bool false
          ∧ exec (.mfcSync c .both) refused = .next shown ∧ RecvAll c q shown drained
          ∧ exec (.mfcSync c .both) drained = .next ready
          ∧ ready.Holds c [] [] ∧ (ready.chan c).rSeen = (ready.chan c).r
          ∧ exec (.mfcSend c m.1 m.2) ready = .next again ∧ again.ret = .bool true

/-- A malformed header met by MFC.RECV (R157): the channel's fault is latched, ERRSTAT[3] set only for A2B, no cursor
moves; from then on every receive returns none and changes nothing, as it does for an empty channel (R155). -/
def Obligations.MalformedHeaderLatches : Prop :=
  ∀ (s : State) (c : Chan),
    ((s.chan c).fault = false → 4 ≤ ((s.chan c).wSeen - (s.chan c).r).toNat →
        ¬ Sendable s (s.headKind c, List.replicate (s.headLen c) 0) →
        exec (.mfcRecv c) s = .next { (s.setChan c { s.chan c with fault := true }) with
          errstat := (if c = .a2b then s.errstat ||| 8 else s.errstat), ret := .none })
      ∧ ((s.chan c).fault = true ∨ ((s.chan c).wSeen - (s.chan c).r).toNat < 4 →
          exec (.mfcRecv c) s = .next { s with ret := .none })

/-- MFC.SYNC refreshes one cursor copy or both and writes nothing else (R158). -/
def Obligations.SyncRefreshesCopies : Prop :=
  ∀ (s : State) (c : Chan),
    exec (.mfcSync c .both) s
        = .next { (s.setChan c { s.chan c with wSeen := (s.chan c).w, rSeen := (s.chan c).r }) with ret := .none }
      ∧ exec (.mfcSync c .wSeen) s
        = .next { (s.setChan c { s.chan c with wSeen := (s.chan c).w }) with ret := .none }
      ∧ exec (.mfcSync c .rSeen) s
        = .next { (s.setChan c { s.chan c with rSeen := (s.chan c).r }) with ret := .none }

/-! ### Control messages -/

/-- A control message of the wrong length is rejected whole: ERRSTAT[0] is set and no other state changes (30_encoding.md
R115; 60_exceptions.md R343). -/
def Obligations.WrongLengthRejected : Prop :=
  ∀ (s : State) (i : Instr), wrongLength i →
    exec i s = .next { s with errstat := s.errstat ||| 1, ret := .none }

/-- CTL_SET_MODE of a legal mode tears every unit down and installs the mode; of another, it is rejected (48_top_level.md
R312). -/
def Obligations.ModeChangeTearsDown : Prop :=
  ∀ (s : State) (b : Byte),
    (∀ m, (b = 0 ∧ m = Mode.none ∨ b = 1 ∧ m = Mode.am ∨ b = 2 ∧ m = Mode.nfm ∨ b = 3 ∧ m = Mode.tpms) →
        ∃ t, exec (.ctlSetMode [b]) s = .next t ∧ ModeInstalled s t m ∧ t.ret = .none)
      ∧ (3 < b.toNat → exec (.ctlSetMode [b]) s = .next { s with errstat := s.errstat ||| 1, ret := .none })

/-- CTL_DECIMATOR_CONFIG of the right length configures the stage it names with its taps, or is rejected when the stage or
a factor is illegal (R319; 41_fir_filters.md R172). -/
def Obligations.DecimatorMessageConfigures : Prop :=
  ∀ (s : State) (pl : List Byte), 4 ≤ pl.length → pl.length = 4 + 2 * (pl.getD 2 0).toNat →
    (∀ i : Fin 3, (pl.getD 0 0).toNat = i.val → factorsLegal (pl.getD 1 0) (pl.getD 2 0) →
        ∃ f, exec (.ctlDecimatorConfig pl) s = .next { (s.setPfd i f) with ret := .none }
          ∧ FirConfigured (s.pfd i) f (pl.getD 1 0) (pl.getD 2 0)
              ((List.range (pl.getD 2 0).toNat).map fun k => halfAt pl (4 + 2 * k)))
      ∧ (2 < (pl.getD 0 0).toNat ∨ ¬ factorsLegal (pl.getD 1 0) (pl.getD 2 0) →
          exec (.ctlDecimatorConfig pl) s = .next { s with errstat := s.errstat ||| 1, ret := .none })

/-- CTL_CHANNEL_FILTER_CONFIG of the right length configures BPF, or is rejected when a factor or an edge is illegal
(R320; 41_fir_filters.md R181). -/
def Obligations.ChannelFilterMessageConfigures : Prop :=
  ∀ (s : State) (pl : List Byte), 12 ≤ pl.length → pl.length = 12 + 2 * (pl.getD 1 0).toNat →
    (factorsLegal (pl.getD 0 0) (pl.getD 1 0) → wordAt pl 4 ≠ 0 → (wordAt pl 4).toNat < (wordAt pl 8).toNat →
        ∃ f, exec (.ctlChannelFilterConfig pl) s
            = .next { s with bpf := { fir := f, passHz := wordAt pl 4, stopHz := wordAt pl 8 }, ret := .none }
          ∧ FirConfigured s.bpf.fir f (pl.getD 0 0) (pl.getD 1 0)
              ((List.range (pl.getD 1 0).toNat).map fun k => halfAt pl (12 + 2 * k)))
      ∧ (¬ factorsLegal (pl.getD 0 0) (pl.getD 1 0) ∨ wordAt pl 4 = 0 ∨ (wordAt pl 8).toNat ≤ (wordAt pl 4).toNat →
          exec (.ctlChannelFilterConfig pl) s = .next { s with errstat := s.errstat ||| 1, ret := .none })

/-- CTL_DEMOD_CONFIG of 12 bytes configures both demodulators, and CTL_AUDIO_CONFIG of any length the audio chain (R321,
R324; 42_demodulators.md R202, R207; 46_audio_output.md R287). -/
def Obligations.DemodAndAudioMessagesConfigure : Prop :=
  ∀ (s : State) (pl : List Byte),
    (pl.length = 12 → exec (.ctlDemodConfig pl) s
        = .next { s with
            amd := { s.amd with ssb := (pl.getD 0 0).getLsbD 0, bfoInc := wordAt pl 4, bfoPhase := 0 },
            fmd := { s.fmd with gain := wordAt pl 8, zPrev := C16.zero }, ret := .none })
      ∧ exec (.ctlAudioConfig pl) s
        = .next { s with aud := { s.aud with cfg := pl, fstate := s.params.audInit }, ret := .none }

/-- CTL_BASEBAND_FIR_CONFIG of the right length configures FBF with its taps and clears its history, or is rejected when
T is 0 or above 32 (R322; 41_fir_filters.md R187). -/
def Obligations.BasebandMessageConfigures : Prop :=
  ∀ (s : State) (pl : List Byte), 4 ≤ pl.length → pl.length = 4 + 4 * (pl.getD 0 0).toNat →
    (1 ≤ (pl.getD 0 0).toNat → (pl.getD 0 0).toNat ≤ 32 →
        ∃ f, exec (.ctlBasebandFirConfig pl) s = .next { s with fbf := f, ret := .none }
          ∧ f.t.toNat = (pl.getD 0 0).toNat ∧ f.h.length = 32
          ∧ (∀ k, k < 32 → f.h.getD k 0 = if k < (pl.getD 0 0).toNat then wordAt pl (4 + 4 * k) else 0)
          ∧ f.hist = List.replicate 31 0 ∧ f.out = s.fbf.out)
      ∧ ((pl.getD 0 0).toNat = 0 ∨ 32 < (pl.getD 0 0).toNat →
          exec (.ctlBasebandFirConfig pl) s = .next { s with errstat := s.errstat ||| 1, ret := .none })

/-- CTL_SPECTRUM_START of 4 bytes with K above 0 starts streaming and sends RES_SPECTRUM_READY; with no room for it the
message is lost, ERRSTAT[1] set, and streaming starts all the same; K = 0 is rejected. CTL_SPECTRUM_STOP of no bytes stops
(R325, R326, R329; 45_spectrum_collector.md R258, R259). -/
def Obligations.SpectrumMessagesStartAndStop : Prop :=
  ∀ (s : State) (pl : List Byte), paramsOk s.params = true → pl.length = 4 →
    (halfAt pl 0 ≠ 0 → Fits s .b2a (0x83, [0, 0, 0, 0]) →
        ∃ t, exec (.ctlSpectrumStart pl) s
            = .next { t with spc := { s.spc with k := halfAt pl 0, decCount := 0, fill := 0, streaming := true },
                             ret := .none }
          ∧ SendAccepted s t .b2a (0x83, [0, 0, 0, 0]))
      ∧ (halfAt pl 0 ≠ 0 → ¬ Fits s .b2a (0x83, [0, 0, 0, 0]) →
          exec (.ctlSpectrumStart pl) s
            = .next { s with spc := { s.spc with k := halfAt pl 0, decCount := 0, fill := 0, streaming := true },
                             errstat := s.errstat ||| 2, ret := .none })
      ∧ (halfAt pl 0 = 0 → exec (.ctlSpectrumStart pl) s = .next { s with errstat := s.errstat ||| 1, ret := .none })
      ∧ exec (.ctlSpectrumStop []) s
          = .next { s with spc := { s.spc with streaming := false, decCount := 0, fill := 0 }, ret := .none }

/-! ### The FIR units -/

/-- PFD.CFG and PFD.RESET (41_fir_filters.md R171, R172): an accepted CFG sets the factors and the taps and clears the
history; a rejected one changes only ERRSTAT[0]; RESET clears the instance; no other instance changes. -/
def Obligations.DecimatorConfigAndReset : Prop :=
  ∀ (s : State) (i : Fin 3) (d t : Byte) (taps : List Half),
    (factorsLegal d t → ∃ f, exec (.pfdCfg i d t taps) s = .next { (s.setPfd i f) with ret := .none }
        ∧ FirConfigured (s.pfd i) f d t taps)
      ∧ (¬ factorsLegal d t → exec (.pfdCfg i d t taps) s = .next { s with errstat := s.errstat ||| 1, ret := .none })
      ∧ (∃ f, exec (.pfdReset i) s = .next { (s.setPfd i f) with ret := .none } ∧ FirCleared (s.pfd i) f)

/-- PFD.EXEC (R174): output m is the rounded and saturated convolution ending at the last sample of group m, for every
configured instance; the history holds the last T-1 samples of the stream; nothing else changes. -/
def Obligations.DecimatorConvolves : Prop :=
  ∀ (s : State) (i : Fin 3) (b : C16Buf), (s.pfd i).Ok → (s.pfd i).configured = true →
    ∃ f, exec (.pfdExec i b) s = .next { (s.setPfd i f) with ret := .buf16 f.out } ∧ FirStep (s.pfd i) f b

/-- BPF.CFG, BPF.RESET and BPF.EXEC (R180, R181, R182): as PFD, with the two edges checked and kept. -/
def Obligations.ChannelFilterOperations : Prop :=
  ∀ (s : State) (d t : Byte) (pass stop : Word) (taps : List Half) (b : C16Buf),
    (factorsLegal d t → pass ≠ 0 → pass.toNat < stop.toNat →
        ∃ f, exec (.bpfCfg d t pass stop taps) s
            = .next { s with bpf := { fir := f, passHz := pass, stopHz := stop }, ret := .none }
          ∧ FirConfigured s.bpf.fir f d t taps)
      ∧ (¬ factorsLegal d t ∨ pass = 0 ∨ stop.toNat ≤ pass.toNat →
          exec (.bpfCfg d t pass stop taps) s = .next { s with errstat := s.errstat ||| 1, ret := .none })
      ∧ (∃ f, exec .bpfReset s = .next { s with bpf := { fir := f, passHz := 0, stopHz := 0 }, ret := .none }
          ∧ FirCleared s.bpf.fir f)
      ∧ (s.bpf.Ok → s.bpf.fir.configured = true →
          ∃ f, exec (.bpfExec b) s = .next { s with bpf := { s.bpf with fir := f }, ret := .buf16 f.out }
            ∧ FirStep s.bpf.fir f b)

/-- The decimators and the channel filter are streaming filters: cutting the input after a whole number of groups gives, over
two calls, the outputs and the history of one call (R174 corner case c, R182; 70_reset_and_hazards.md R381). -/
def Obligations.DecimatorStreams : Prop :=
  ∀ (s : State) (rate : Word) (xs ys : List C16),
    (∀ i : Fin 3, (s.pfd i).Ok → (s.pfd i).configured = true → (s.pfd i).d.toNat ∣ xs.length →
      ∃ t1 t2 t, exec (.pfdExec i ⟨rate, xs⟩) s = .next t1 ∧ exec (.pfdExec i ⟨rate, ys⟩) t1 = .next t2
        ∧ exec (.pfdExec i ⟨rate, xs ++ ys⟩) s = .next t
        ∧ (t.pfd i).out.data = (t1.pfd i).out.data ++ (t2.pfd i).out.data
        ∧ (t.pfd i).hist = (t2.pfd i).hist ∧ (t.pfd i).sat = (t2.pfd i).sat)
    ∧ (s.bpf.Ok → s.bpf.fir.configured = true → s.bpf.fir.d.toNat ∣ xs.length →
      ∃ t1 t2 t, exec (.bpfExec ⟨rate, xs⟩) s = .next t1 ∧ exec (.bpfExec ⟨rate, ys⟩) t1 = .next t2
        ∧ exec (.bpfExec ⟨rate, xs ++ ys⟩) s = .next t
        ∧ t.bpf.fir.out.data = t1.bpf.fir.out.data ++ t2.bpf.fir.out.data
        ∧ t.bpf.fir.hist = t2.bpf.fir.hist ∧ t.bpf.fir.sat = t2.bpf.fir.sat)

/-- FBF.CFG, FBF.RESET and FBF.EXEC (R186, R187, R188): the sum in ascending order of the taps, each product and sum
rounded once, one output for each input; every NaN drawn is free. -/
def Obligations.BasebandFilterOperations : Prop :=
  ∀ (s : State) (t : Byte) (taps : List F32) (b : F32Buf),
    (1 ≤ t.toNat → t.toNat ≤ 32 →
        ∃ f, exec (.fbfCfg t taps) s = .next { s with fbf := f, ret := .none }
          ∧ f.t.toNat = t.toNat ∧ f.h.length = 32 ∧ (∀ k, k < 32 → f.h.getD k 0 = if k < t.toNat then taps.getD k 0 else 0)
          ∧ f.hist = List.replicate 31 0 ∧ f.out = s.fbf.out)
      ∧ (t.toNat = 0 ∨ 32 < t.toNat →
          exec (.fbfCfg t taps) s = .next { s with errstat := s.errstat ||| 1, ret := .none })
      ∧ exec .fbfReset s
          = .next { s with fbf := { s.fbf with t := 1, h := 0x3F800000 :: List.replicate 31 0,
                                                hist := List.replicate 31 0 }, ret := .none }
      ∧ (s.fbf.Ok →
          ∃ f draws, exec (.fbfExec b) s = .next { s with fbf := f, draws := draws, ret := .buf32 f.out }
            ∧ f.out.rate = b.rate ∧ f.out.data = (List.range b.data.length).map (fbfAcc s.fbf s.draws b.data)
            ∧ f.t = s.fbf.t ∧ f.h = s.fbf.h ∧ f.hist.length = 31
            ∧ (∀ j, 1 ≤ j → j ≤ 31 → f.hist.getD (j - 1) 0
                = if j < s.fbf.t.toNat then streamAt 0 s.fbf.hist b.data b.data.length j else s.fbf.hist.getD (j - 1) 0))

/-! ### The demodulators -/

/-- AMD.RESET, AMD.CFG and AMD.EXEC (42_demodulators.md R201 to R205): with ssb = 0 the scaled magnitude and no state
change; with ssb = 1 the product with the carrier, whose phase advances after each lookup. No operation of it can produce
a NaN: the result is the same whatever value a NaN would draw. -/
def Obligations.AmDemodulatorOperations : Prop :=
  ∀ (s : State) (ssb : Bool) (inc : Word) (b : C16Buf) (d1 d2 : Nat),
    exec .amdReset s = .next { s with amd := { s.amd with ssb := false, bfoInc := 0, bfoPhase := 0 }, ret := .none }
      ∧ exec (.amdCfg ssb inc) s
          = .next { s with amd := { s.amd with ssb := ssb, bfoInc := inc, bfoPhase := 0 }, ret := .none }
      ∧ ∃ out, out.rate = b.rate
          ∧ exec (.amdExec b) s
              = .next { s with
                  amd := { s.amd with
                    bfoPhase := (if s.amd.ssb then s.amd.bfoPhase + BitVec.ofNat 32 b.data.length * s.amd.bfoInc
                                 else s.amd.bfoPhase),
                    out := out },
                  ret := .buf32 out }
          ∧ out.data.length = b.data.length
          ∧ ∀ n, n < b.data.length →
              let x := b.data.getD n C16.zero
              let idx := (s.amd.bfoPhase + BitVec.ofNat 32 n * s.amd.bfoInc).toNat / 2 ^ 24
              out.data.getD n 0
                = if s.amd.ssb then
                    f32Mul d1 (intToF32 (x.re.toInt * cos256 idx + x.im.toInt * sin256 idx)) 0x30800000
                  else
                    f32Mul d1 (f32Sqrt d2 (intToF32 (x.re.toInt * x.re.toInt + x.im.toInt * x.im.toInt))) 0x38000000

/-- FMD.RESET, FMD.CFG and FMD.EXEC (R206, R207, R208, R209): each output is the gain times the angle of the sample against
the conjugate of the one before it, the first against `z_prev`; `z_prev` becomes the last sample. ANGLE is R208's formula,
with R208's check values; no operation of it can produce a NaN: it is the same whatever value a NaN would draw. -/
def Obligations.FmDemodulatorOperations : Prop :=
  (∀ (s : State) (gain : F32) (b : C16Buf) (d : Nat),
    exec .fmdReset s = .next { s with fmd := { s.fmd with gain := 0x3F800000, zPrev := C16.zero }, ret := .none }
      ∧ exec (.fmdCfg gain) s = .next { s with fmd := { s.fmd with gain := gain, zPrev := C16.zero }, ret := .none }
      ∧ ∃ out draws, out.rate = b.rate
          ∧ exec (.fmdExec b) s
              = .next { s with
                  fmd := { s.fmd with
                    zPrev := (if b.data.length = 0 then s.fmd.zPrev else b.data.getD (b.data.length - 1) C16.zero),
                    out := out },
                  draws := draws, ret := .buf32 out }
          ∧ out.data.length = b.data.length
          ∧ ∀ n, n < b.data.length →
              let x := b.data.getD n C16.zero
              let z := if n = 0 then s.fmd.zPrev else b.data.getD (n - 1) C16.zero
              out.data.getD n 0
                = f32Mul (s.draws + n)
                    (angleAt d (x.re.toInt * z.re.toInt + x.im.toInt * z.im.toInt)
                      (x.im.toInt * z.re.toInt - x.re.toInt * z.im.toInt)) s.fmd.gain)
    ∧ ∀ d, angleAt d 1 1 = 0x3F47DDA0 ∧ angleAt d 2 1 = 0x3EEF344B ∧ angleAt d 1 2 = 0x3F8D42C8
        ∧ angleAt d (-1) 1 = 0x40171873 ∧ angleAt d (-2) (-1) = 0xC02B2952 ∧ angleAt d 1 (-2) = 0xBF8D42C8
        ∧ angleAt d 0 (-5) = 0xBFC90FDB ∧ angleAt d 5 0 = 0 ∧ angleAt d (-5) 0 = 0x40490FDB
        ∧ angleAt d 3 (-3) = 0xBF47DDA0 ∧ angleAt d 1000000 1000 = 0x3A83126D

/-- Block independence of both demodulators (R213): two consecutive calls give the concatenated output and, but for the
buffer each call returns, the final state of one call on the whole buffer. -/
def Obligations.DemodulatorsAreBlockIndependent : Prop :=
  ∀ (s : State) (rate : Word) (xs ys : List C16),
    (∃ t1 t2 t, exec (.amdExec ⟨rate, xs⟩) s = .next t1 ∧ exec (.amdExec ⟨rate, ys⟩) t1 = .next t2
        ∧ exec (.amdExec ⟨rate, xs ++ ys⟩) s = .next t
        ∧ let out : F32Buf := ⟨rate, t1.amd.out.data ++ t2.amd.out.data⟩
          t = { t2 with amd := { t2.amd with out := out }, ret := .buf32 out })
      ∧ (∃ t1 t2 t, exec (.fmdExec ⟨rate, xs⟩) s = .next t1 ∧ exec (.fmdExec ⟨rate, ys⟩) t1 = .next t2
        ∧ exec (.fmdExec ⟨rate, xs ++ ys⟩) s = .next t
        ∧ let out : F32Buf := ⟨rate, t1.fmd.out.data ++ t2.fmd.out.data⟩
          t = { t2 with fmd := { t2.fmd with out := out }, ret := .buf32 out })

/-! ### Clock recovery -/

/-- STR.RESET, STR.CFG and CTL_CLOCK_CONFIG of 12 bytes (43_clock_recovery.md R221, R222; 48_top_level.md R323): an
accepted configuration resets the loop wholesale, with 1 <= inc <= 2^31; a rejected one changes only ERRSTAT[0]. -/
def Obligations.ClockConfigAndReset : Prop :=
  ∀ (s : State) (a b : Word) (gain : F32) (pl : List Byte),
    (clockAccepted a b gain →
        exec (.strCfg a b gain) s = .next { s with str := clockConfigured a b gain, ret := .none }
          ∧ 1 ≤ (clockConfigured a b gain).inc.toNat ∧ (clockConfigured a b gain).inc.toNat ≤ 2 ^ 31
          ∧ (clockConfigured a b gain).inc.toNat = b.toNat * 2 ^ 32 / a.toNat)
      ∧ (¬ clockAccepted a b gain → exec (.strCfg a b gain) s = .next { s with errstat := s.errstat ||| 1, ret := .none })
      ∧ (pl.length = 12 → clockAccepted (wordAt pl 0) (wordAt pl 4) (wordAt pl 8) →
          exec (.ctlClockConfig pl) s
            = .next { s with str := clockConfigured (wordAt pl 0) (wordAt pl 4) (wordAt pl 8), ret := .none })
      ∧ (pl.length = 12 → ¬ clockAccepted (wordAt pl 0) (wordAt pl 4) (wordAt pl 8) →
          exec (.ctlClockConfig pl) s = .next { s with errstat := s.errstat ||| 1, ret := .none })
      ∧ exec .strReset s
          = .next { s with str := { configured := false, sampleRate := 0, symbolRate := 0, inc := 0, gain := 0, phase := 0,
                                    last := 0, ef := 0 }, ret := .none }

/-- STR.PUSH (R224, R225): the phase advances by `inc + adj`, whatever a NaN in `adj` would draw; crossing a symbol
boundary emits the sample as it is and updates `last` and `ef`, else nothing but the phase changes; the sum stays strictly
between 0 and 2^33. That an infinite `ef` goes through the pseudocode as any other is the model's choice (log entry 21). -/
def Obligations.ClockPushAdvancesPhase : Prop :=
  ∀ (s : State) (x : F32) (d1 d2 : Nat), s.str.Ok → s.str.configured = true →
    0 < pushSum s.str d1 d2 ∧ pushSum s.str d1 d2 < 2 ^ 33
      ∧ ∃ draws,
        (pushSum s.str d1 d2 < 2 ^ 32 →
            exec (.strPush x) s
              = .next { s with str := { s.str with phase := BitVec.ofInt 32 (pushSum s.str d1 d2) }, draws := draws,
                               ret := .none })
          ∧ (2 ^ 32 ≤ pushSum s.str d1 d2 →
              exec (.strPush x) s
                = .next { s with str := pushedSymbol s.str s.draws (pushSum s.str d1 d2) x, draws := draws,
                                 ret := .symbol x })

/-- The symbol rate (R229): after an accepted CFG, n zero samples emit exactly floor(n * inc / 2^32) symbols, and the error
filter stays +0.0. -/
def Obligations.ZeroInputSymbolCount : Prop :=
  ∀ (s : State) (a b : Word) (gain : F32) (n : Nat), clockAccepted a b gain →
    ∃ s0 t, exec (.strCfg a b gain) s = .next s0
      ∧ Pushes 0 n (n * (clockConfigured a b gain).inc.toNat / 2 ^ 32) s0 t ∧ t.str.ef = 0

/-! ### Packets -/

/-- PKT.RESET and PKT.PUSH (44_packet_builder.md R241, R243): the symbol goes into the history in both states; Idle, a
match starts a capture; Capturing, the bit is appended, or refused at capacity with ERRSTAT[4] set; then lost sync before
completion. By default completion is at exactly PKT_LEN symbols and sync is never lost, for every parameter set (R242); a
substituted predicate holds at the counts it lists (log entry 5). -/
def Obligations.PacketBuilderOperations : Prop :=
  (∀ (s : State) (bit err : Bool),
    let hb := (s.pkt.histBits <<< 1) ||| (if bit then 1 else 0)
    let he := (s.pkt.histErr <<< 1) ||| (if err then 1 else 0)
    let hn := min 64 (s.pkt.histN + 1)
    let u := { s.pkt with histBits := hb, histErr := he, histN := hn }
    exec .pktReset s
        = .next { s with pkt := { s.pkt with capturing := false, histBits := 0, histErr := 0, histN := 0, captureLen := 0 },
                         ret := .none }
      ∧ (s.pkt.capturing = false → pktMatch s.params hb he hn = true →
          exec (.pktPush bit err) s = .next { s with pkt := { u with capturing := true, captureLen := 0 }, ret := .none })
      ∧ (s.pkt.capturing = false → pktMatch s.params hb he hn = false →
          exec (.pktPush bit err) s = .next { s with pkt := u, ret := .none })
      ∧ (s.pkt.capturing = true →
          ∃ payload len errstat,
            (s.pkt.captureLen < s.params.pktCap →
                payload = s.pkt.payload.set s.pkt.captureLen bit ∧ len = s.pkt.captureLen + 1 ∧ errstat = s.errstat)
              ∧ (s.params.pktCap ≤ s.pkt.captureLen →
                  payload = s.pkt.payload ∧ len = s.pkt.captureLen ∧ errstat = s.errstat ||| 16)
              ∧ (pktLost s.params len = true →
                  exec (.pktPush bit err) s
                    = .next { s with pkt := { u with payload := payload, captureLen := len, capturing := false },
                                     errstat := errstat, ret := .none })
              ∧ (pktLost s.params len = false → pktDone s.params len = true →
                  exec (.pktPush bit err) s
                    = .next { s with pkt := { u with payload := payload, captureLen := len, capturing := false },
                                     errstat := errstat,
                                     ret := .packet (payload.take len) (payload.take len).length })
              ∧ (pktLost s.params len = false → pktDone s.params len = false →
                  exec (.pktPush bit err) s
                    = .next { s with pkt := { u with payload := payload, captureLen := len }, errstat := errstat,
                                     ret := .none })))
    ∧ ∀ (p : Params) (n : Nat),
        (p.pktDone = .fixedCount → (pktDone p n = true ↔ n = p.pktLen)) ∧ (p.pktLost = .never → pktLost p n = false)
          ∧ (∀ counts, p.pktDone = .atCounts counts → (pktDone p n = true ↔ n ∈ counts))
          ∧ (∀ counts, p.pktLost = .atCounts counts → (pktLost p n = true ↔ n ∈ counts))

/-- The default preamble matcher (R245): enough symbols, at most PKT_ERR_MAX bad positions, and the PKT_MIN_RUN newest
positions all good. -/
def Obligations.PreambleMatcher : Prop :=
  ∀ (p : Params) (bits errs : BitVec 64) (n : Nat), p.pktMatch = .pattern →
    (pktMatch p bits errs n = true ↔
      p.pktPreamble.length ≤ n
        ∧ (∃ bad : List Nat, bad.Nodup ∧ bad.length ≤ p.pktErrMax
            ∧ ∀ i, i < p.pktPreamble.length → ¬ preambleGood p bits errs i → i ∈ bad)
        ∧ p.pktMinRun ≤ p.pktPreamble.length ∧ ∀ i, i < p.pktMinRun → preambleGood p bits errs i)

/-- The document's packet property with the default parameters (R248): from RESET, the 8 preamble bits, or the preamble
with its oldest bit inverted, and then any 16 symbols give exactly one packet, those 16 symbols, at the 24th push. -/
def Obligations.PreambleThenPayload : Prop :=
  ∀ (s : State) (first : Bool) (payload : List Bool), payload.length = 16 →
    s.params = Params.default → s.pkt.Ok s.params →
      ∃ s0 t, exec .pktReset s = .next s0
        ∧ PacketsOf ([first, false, true, false, true, true, false, false] ++ payload) [payload] s0 t
        ∧ t.ret = .packet payload 16

/-! ### Spectrum -/

/-- SPC.RESET, SPC.START and SPC.STOP (45_spectrum_collector.md R256, R258, R259). -/
def Obligations.SpectrumControlOperations : Prop :=
  ∀ (s : State) (k : Half),
    (k ≠ 0 → exec (.spcStart k) s
        = .next { s with spc := { s.spc with k := k, decCount := 0, fill := 0, streaming := true }, ret := .none })
      ∧ (k = 0 → exec (.spcStart k) s = .next { s with errstat := s.errstat ||| 1, ret := .none })
      ∧ exec .spcStop s
          = .next { s with spc := { s.spc with streaming := false, decCount := 0, fill := 0 }, ret := .none }
      ∧ exec .spcReset s
          = .next { s with
              spc := { streaming := false, k := 0, decCount := 0, fill := 0, cb := List.replicate 256 C16.zero,
                       fb := List.replicate 256 C16.zero, fbRate := 0, fbPass := 0, fbStop := 0, updateRequest := false },
              slot := { valid := false, snap := { rate := 0, pass := 0, stop := 0, db := List.replicate 256 0 } },
              evt := 0, ret := .none }

/-- SPC.FEED (R261, R262), whatever the group position and the fill, whether or not a request is pending: not streaming,
nothing changes; streaming, the first of every K samples is collected, the first epoch completed is handed over with its
header unless a request is pending, and every other is discarded. Only SPC changes. -/
def Obligations.SpectrumFeedKeepsFirstOfK : Prop :=
  ∀ (s : State) (b : C16Buf) (pass stop : Word),
    ∃ u, exec (.spcFeed b pass stop) s = .next { s with spc := u, ret := .none }
      ∧ (s.spc.streaming = false → u = s.spc)
      ∧ (s.spc.Ok → s.spc.streaming = true → SpectrumFed s.spc u b pass stop)

/-- One epoch (R258, R261): after an accepted START, feeding 256*K samples with no request pending hands over the first of
every K of them, with the rate divided by K and the edges of the call, and raises the request. -/
def Obligations.EpochIsHandedOver : Prop :=
  ∀ (s : State) (k : Half) (b : C16Buf) (pass stop : Word),
    s.spc.Ok → k ≠ 0 → s.spc.updateRequest = false → b.data.length = 256 * k.toNat →
      ∃ s1 t, exec (.spcStart k) s = .next s1 ∧ exec (.spcFeed b pass stop) s1 = .next t
        ∧ t.spc.fb = (List.range 256).map (fun i => b.data.getD (i * k.toNat) C16.zero)
        ∧ t.spc.fbRate = BitVec.ofNat 32 (b.rate.toNat / k.toNat) ∧ t.spc.fbPass = pass ∧ t.spc.fbStop = stop
        ∧ t.spc.updateRequest = true ∧ t.spc.fill = 0 ∧ t.spc.decCount = 0

/-- SPC.UPDATE (R264, R265, R267, R268, R270): with a request pending it posts the snapshot of FB, whatever the slot held,
clears the request and sets EVT[0]. FB's sample i is loaded at `BREV8(i)`, the array transformed, its powers smoothed; every
bin is `satu8(255 + ((ILOG2Q8(S) - 7424) >> 5))`, never below 23. -/
def Obligations.SpectrumUpdatePosts : Prop :=
  ∀ s : State, s.spc.updateRequest = true →
    ∃ (db : List Byte) (a : List Cplx), exec .spcUpdate s
        = .next { s with
            slot := { valid := true, snap := { rate := s.spc.fbRate, pass := s.spc.fbPass, stop := s.spc.fbStop,
                                               db := db } },
            spc := { s.spc with updateRequest := false }, evt := 1, ret := .none }
      ∧ a.length = 256
      ∧ (∀ i, i < 256 → a.getD (brev8 i) (0, 0)
          = ((s.spc.fb.getD i C16.zero).re.toInt, (s.spc.fb.getD i C16.zero).im.toInt))
      ∧ db.length = 256
      ∧ ∀ k, k < 256 → 0 ≤ smoothed (fft256 a) k ∧ 23 ≤ (db.getD k 0).toNat
          ∧ ((db.getD k 0).toNat : Int)
            = min 255 (max 0 (255 + ((ilog2q8 (smoothed (fft256 a) k).toNat : Int) - 7424) / 2 ^ 5))

/-- SPC.DRAIN (R273): the event is cleared and the slot's snapshot returned once; a second DRAIN returns none and changes
nothing; with no event it returns none and changes nothing. -/
def Obligations.DrainConsumesOnce : Prop :=
  ∀ s : State, s.evt = (if s.slot.valid then 1 else 0) →
    (s.evt = 1 →
        ∃ t, exec .spcDrain s = .next t
          ∧ t = { s with evt := 0, slot := { s.slot with valid := false }, ret := .snapshot s.slot.snap }
          ∧ exec .spcDrain t = .next { t with ret := .none })
      ∧ (s.evt = 0 → exec .spcDrain s = .next { s with ret := .none })

/-- One stage of the transform (R266) acts on each pair `a[k+j]`, `a[k+j+half]` of its blocks as the butterfly says, with
the ROM factor of index `j * stride`, floor shifts by 15 and by 1; BREV8 is its own inverse (R265); SIN256 and COS256 are the
four quarters of the ROM that R76 lists. -/
def Obligations.FftStageButterflies : Prop :=
  (∀ (e : Nat) (a : List Cplx) (block j : Nat), e < 8 → a.length = 256 → block < 128 / 2 ^ e → j < 2 ^ e →
    let half := 2 ^ e
    let i := block * (2 * half) + j
    let u := a.getD i (0, 0)
    let v := a.getD (i + half) (0, 0)
    let wRe := cos256 (j * (128 / half))
    let wIm := -sin256 (j * (128 / half))
    let tRe := (v.1 * wRe - v.2 * wIm) / 2 ^ 15
    let tIm := (v.1 * wIm + v.2 * wRe) / 2 ^ 15
    (fftStage half (128 / half) a).length = 256
      ∧ (fftStage half (128 / half) a).getD i (0, 0) = ((u.1 + tRe) / 2 ^ 1, (u.2 + tIm) / 2 ^ 1)
      ∧ (fftStage half (128 / half) a).getD (i + half) (0, 0) = ((u.1 - tRe) / 2 ^ 1, (u.2 - tIm) / 2 ^ 1))
    ∧ (∀ a, fft256 a = fftStage 128 1 (fftStage 64 2 (fftStage 32 4 (fftStage 16 8 (fftStage 8 16 (fftStage 4 32
        (fftStage 2 64 (fftStage 1 128 a))))))))
    ∧ (∀ i, i < 256 → brev8 i < 256 ∧ brev8 (brev8 i) = i ∧ ∀ b, b < 8 → (brev8 i).testBit b = i.testBit (7 - b))
    ∧ (∀ q r, r < 64 →
        sin256 (256 * q + r) = romValues.getD r 0 ∧ sin256 (256 * q + 64 + r) = romValues.getD (64 - r) 0
          ∧ sin256 (256 * q + 128 + r) = -romValues.getD r 0 ∧ sin256 (256 * q + 192 + r) = -romValues.getD (64 - r) 0)
    ∧ ∀ p, cos256 p = sin256 (p + 64)

/-- ILOG2Q8 (R269): its value on each octave, and it is nondecreasing. -/
def Obligations.LogarithmIsMonotone : Prop :=
  ilog2q8 0 = 0
    ∧ (∀ e s, 2 ^ e ≤ s → s < 2 ^ (e + 1) → ilog2q8 s = ilogAt e s)
    ∧ ∀ a b, a ≤ b → ilog2q8 a ≤ ilog2q8 b

/-! ### Audio -/

/-- AUD.RESET, AUD.CFG and AUD.EXEC (46_audio_output.md R285 to R291): nothing is lost or reordered: the samples waiting and
the new ones are the samples handed to SINK in blocks of AUD_BLOCK and then those still waiting. Each new one has gone through
AUD_STAGE in the order of R285 and R290, muting included. With the default AUD_STAGE a sample is 32768 times the input,
truncated and saturated, whatever a NaN would draw. -/
def Obligations.AudioChainConserves : Prop :=
  ∀ (s : State) (bytes : List Byte) (b : F32Buf) (d : Nat),
    exec .audReset s = .next { s with aud := { s.aud with fstate := s.params.audInit, blockN := 0 }, ret := .none }
      ∧ exec (.audCfg bytes) s
          = .next { s with aud := { s.aud with cfg := bytes, fstate := s.params.audInit }, ret := .none }
      ∧ (s.aud.Ok s.params →
          ∃ new block n fstate ys draws, exec (.audExec b) s
              = .next { s with aud := { s.aud with fstate := fstate, block := block, blockN := n },
                               sink := s.sink ++ new, draws := draws, ret := .none }
            ∧ StageRun s.params s.aud.cfg d s.draws s.aud.fstate b.data ys fstate
            ∧ block.length = s.params.audBlock ∧ n < s.params.audBlock
            ∧ (∀ x ∈ new, x.samples.length = s.params.audBlock ∧ x.rate = b.rate)
            ∧ (new.flatMap (fun x => x.samples)) ++ block.take n = s.aud.block.take s.aud.blockN ++ ys
            ∧ (s.params.audStage = {} → fstate = s.aud.fstate ∧ ys = b.data.map (toS16At d)))

/-! ### Manchester -/

/-- MAN.DECODE (47_manchester_decoder.md R296, R297): the two digit strings, index by index, and no state change. -/
def Obligations.ManchesterDecodes : Prop :=
  ∀ (s : State) (bits : List Bool) (sense : Bool), bits.length ≤ 512 →
    exec (.manDecode bits sense) s
      = .next { s with ret := .hex ((List.range ((bits.length / 2 + 3) / 4)).map (digitOf (manV bits sense)))
                                   ((List.range ((bits.length / 2 + 3) / 4)).map (digitOf (manE bits))) }

/-- The round trip (R298): MAN.DECODE of the matching encoding of whole nibbles gives their digits and an all-zero error
string, with or without one bit more; with the other sense it gives the complement. Flipping encoded bit j sets the error flag
of its pair and no other, and flips the data bit of the pair if j is the bit that the sense selects. -/
def Obligations.ManchesterRoundTrip : Prop :=
  ∀ (s : State) (data : List Bool) (sense : Bool), data.length ≤ 256 → data.length % 4 = 0 →
    let digits (v : Nat → Bool) := (List.range (data.length / 4)).map (digitOf fun i => if v i then 1 else 0)
    let clean := List.replicate (data.length / 4) (0x30 : Byte)
    exec (.manDecode (manEncode sense data) sense) s
        = .next { s with ret := .hex (digits fun i => data.getD i false) clean }
      ∧ exec (.manDecode (manEncode sense data) (!sense)) s
        = .next { s with ret := .hex (digits fun i => !data.getD i false) clean }
      ∧ (∀ x, data.length < 256 → exec (.manDecode (manEncode sense data ++ [x]) sense) s
          = .next { s with ret := .hex (digits fun i => data.getD i false) clean })
      ∧ ∀ j, j < 2 * data.length →
          let selected := j % 2 = 1 ↔ sense = true
          let bits := digits fun i => if i = j / 2 ∧ selected then !data.getD i false else data.getD i false
          let flags := (List.range (data.length / 4)).map fun d => if d = j / 8 then hexChar (2 ^ (3 - j / 2 % 4)) else 0x30
          exec (.manDecode ((manEncode sense data).set j (!(manEncode sense data).getD j false)) sense) s
            = .next { s with ret := .hex bits flags }

/-! ### The top level -/

/-- TOP.RESET (48_top_level.md R331; 70_reset_and_hazards.md R370): every register that the spec gives a power-on value has
it, the ring bytes and the parameters are as they were. -/
def Obligations.HardwareReset : Prop :=
  ∀ s : State, ∃ t, exec .topReset s = .next t ∧ RegistersAtPowerOn t
    ∧ (∀ off, t.ringByte off = s.ringByte off) ∧ t.params = s.params ∧ t.agenda = s.agenda ∧ t.ret = .none

/-- TOP.DISPATCH (R314, R327): with no visible message none and no change; the oldest visible control message is consumed
and handled as its own operation; a message of another kind is consumed and sets ERRSTAT[2]. -/
def Obligations.DispatchHandlesOldest : Prop :=
  ∀ (s : State) (vis hid : List Message), paramsOk s.params = true → s.Holds .a2b vis hid →
    (vis = [] → exec .topDispatch s = .next { s with ret := .none })
      ∧ ∀ kind payload vis', vis = (kind, payload) :: vis' →
          let s1 := { s with a2b := { s.a2b with r := s.a2b.r + BitVec.ofNat 32 (4 + payload.length) } }
          (∀ i, messageOf i = some (kind, payload) → kind.toNat ≤ 9 →
              ∃ t, exec i s1 = .next t ∧ exec .topDispatch s = .next { t with ret := .kind kind })
            ∧ (9 < kind.toNat →
                exec .topDispatch s = .next { s1 with errstat := s.errstat ||| 4, ret := .kind kind })

/-- Control messages come first (R316, R318): a buffer presented while a message is visible is processed as if BB had
dispatched that message before it. -/
def Obligations.MessagesBeforeBuffer : Prop :=
  ∀ (s t : State) (raw : List C8) (vis hid : List Message),
    paramsOk s.params = true → s.Holds .a2b vis hid → vis ≠ [] → raw.length = s.params.bufN →
      exec .topDispatch s = .next t →
        ∃ u, exec (.topBuffer raw) s = .next u ∧ exec (.topBuffer raw) t = .next u

/-- An unconfigured block discards the buffer whole (R315, R316; 70_reset_and_hazards.md R373): with no message visible,
TOP.BUFFER does what TOP.STATS does, and no unit is touched. -/
def Obligations.UnconfiguredDiscards : Prop :=
  ∀ (s : State) (raw : List C8), raw.length = s.params.bufN →
    s.a2b.fault = true ∨ (s.a2b.wSeen - s.a2b.r).toNat < 4 → ¬ Ready s →
      ∃ u, exec (.topBuffer raw) s = .next u ∧ exec .topStats s = .next u

/-- An operation whose precondition does not hold has no step (00_scope.md R17; R174, R182, R224, R264, R296, R316): exec
refuses it by name and a step passes its move over. That it is a refusal, and passed over, is the model's choice (log entry
11). -/
def Obligations.DisabledOperationsHaveNoStep : Prop :=
  (∀ (s : State) (i : Fin 3) (b : C16Buf), (s.pfd i).configured = false →
      exec (.pfdExec i b) s = .refused (.notEnabled "PFD.EXEC"))
    ∧ (∀ (s : State) (b : C16Buf), s.bpf.fir.configured = false →
        exec (.bpfExec b) s = .refused (.notEnabled "BPF.EXEC"))
    ∧ (∀ (s : State) (x : F32), s.str.configured = false →
        exec (.strPush x) s = .refused (.notEnabled "STR.PUSH"))
    ∧ (∀ s : State, s.spc.updateRequest = false → exec .spcUpdate s = .refused (.notEnabled "SPC.UPDATE"))
    ∧ (∀ (s : State) (bits : List Bool) (sense : Bool), 512 < bits.length →
        exec (.manDecode bits sense) s = .refused (.notEnabled "MAN.DECODE"))
    ∧ (∀ (s : State) (raw : List C8), raw.length ≠ s.params.bufN →
        exec (.topBuffer raw) s = .refused (.notEnabled "TOP.BUFFER"))

/-- A configured block sends the buffer through the chain of its mode (R311, R316): with no message visible, TOP.BUFFER is
the front chain, the back chain of the mode and TOP.STATS, one operation after another. In TPMS each completed packet is sent
as RES_PACKET, its payload laid out byte by byte and bit by bit (R328; 30_encoding.md R129). -/
def Obligations.ConfiguredChainRuns : Prop :=
  ∀ (s : State) (raw : List C8), raw.length = s.params.bufN →
    s.a2b.fault = true ∨ (s.a2b.wSeen - s.a2b.r).toNat < 4 → Ready s →
      ∃ s1 s2 u, FrontChain raw s s1 ∧ BackChain s1 s2 ∧ exec .topStats s2 = .next u
        ∧ exec (.topBuffer raw) s = .next u

/-- TOP.STATS (R317): the buffer is counted; when STAT_PERIOD is reached the statistics message is sent with the
saturation flag and any two busy times, and the counter and the four flags are cleared even if the send fails. -/
def Obligations.StatisticsPeriod : Prop :=
  ∀ s : State,
    let n := s.bufCount + 1
    (s.params.statPeriod = 0 ∨ n.toNat < s.params.statPeriod.toNat →
        exec .topStats s = .next { s with bufCount := n, ret := .none })
      ∧ (s.params.statPeriod ≠ 0 → s.params.statPeriod.toNat ≤ n.toNat →
          ∃ (busyRt busyIdle : Word) (u : State) (draws : Nat),
            exec (.mfcSend .b2a 0x81 ([if s.pfd0.sat || s.pfd1.sat || s.pfd2.sat || s.bpf.fir.sat then 1 else 0, 0, 0, 0]
                ++ le32 busyRt ++ le32 busyIdle ++ le32 s.params.statPeriod)) s = .next u
              ∧ exec .topStats s
                = .next { u with bufCount := 0, pfd0 := { s.pfd0 with sat := false },
                                 pfd1 := { s.pfd1 with sat := false }, pfd2 := { s.pfd2 with sat := false },
                                 bpf := { s.bpf with fir := { s.bpf.fir with sat := false } },
                                 draws := draws, ret := .none })

/-! ### Floating point -/

/-- The arithmetic of R15: a NaN result is the drawn quiet NaN, in exactly the cases named (log entry 20); addition,
multiplication, division, the square root and the conversion of an integer are correctly rounded, ties to even, subnormals
exact; negation flips the sign bit; the comparisons order the numbers and are false with a NaN; the conversion to s32
truncates and saturates. -/
def Obligations.FloatArithmeticLaws : Prop :=
  ∀ (d : Nat) (i : Int) (a b : F32),
    IsQuietNaN (f32NaN d)
      ∧ AdditionLaw d a b ∧ ProductLaw d a b ∧ QuotientLaw d a b ∧ RootLaw d a
      ∧ (negative (f32Neg a) = !negative a ∧ (f32Neg a).toNat % 2 ^ 31 = a.toNat % 2 ^ 31)
      ∧ OrderLaw a b ∧ ConversionLaw i a
end

