-- ==== Sys2Proof/Laws/Floats.lean ====
section
/-! SUPPORT. Which operations can draw a free value, and the demodulators' outputs, sample by sample. -/

namespace Sys2Proof.Machine
open Sys2Proof

/-- The number of a packed pattern. -/
theorem pack_toNat (neg : Bool) (mag : Nat) (h : mag < 2^31) : (f32Pack neg mag).toNat = mag + if neg then 2^31 else 0 := by
  unfold f32Pack; rw [BitVec.toNat_ofNat, Nat.mod_eq_of_lt]; split <;> omega

/-- The sign of a packed pattern. -/
theorem pack_sign (neg : Bool) (mag : Nat) (h : mag < 2^31) : f32Sign (f32Pack neg mag) = neg := by
  unfold f32Sign; rw [pack_toNat _ _ h]; cases neg <;> simp <;> omega

/-- A packed magnitude up to infinity is no NaN. -/
theorem pack_view (neg : Bool) (mag : Nat) (h : mag ≤ 0x7F800000) :
    (f32View (f32Pack neg mag) = .inf neg) ∨ ∃ m e, f32View (f32Pack neg mag) = .fin neg m e := by
  unfold f32View
  rw [pack_sign _ _ (by omega)]
  split
  · rename_i h1
    split
    · exact .inl rfl
    · rename_i h2
      exfalso
      unfold f32Exp at h1; unfold f32Frac at h2
      rw [pack_toNat _ _ (by omega)] at h1 h2
      cases neg <;> simp at h1 h2 <;> omega
  · split
    · exact .inr ⟨_, _, rfl⟩
    · exact .inr ⟨_, _, rfl⟩

/-- A rounded result is no NaN. -/
theorem round_pack (neg : Bool) (m : Nat) (e : Int) (st : Bool) : ∃ mag, mag ≤ 0x7F800000 ∧ f32Round neg m e st = f32Pack neg mag := by
  unfold f32Round
  split
  · exact ⟨0, by omega, rfl⟩
  · exact ⟨_, Nat.min_le_left _ _, rfl⟩

/-- A converted integer is a packed pattern. -/
theorem int_pack (i : Int) : ∃ mag, mag ≤ 0x7F800000 ∧ intToF32 i = f32Pack (decide (i < 0)) mag := round_pack _ _ _ _

/-- A converted integer is no NaN. -/
theorem int_notnan (i : Int) : f32View (intToF32 i) ≠ .nan := by
  obtain ⟨mag, h1, h2⟩ := int_pack i
  rw [h2]; rcases pack_view _ mag h1 with h | ⟨_, _, h⟩ <;> rw [h] <;> simp

/-- A product by a nonzero constant draws no free value unless the other factor is a NaN. -/
theorem mul_draw (d d' : Nat) (x c : F32) (hx : f32View x ≠ .nan) (n m e) (hc : f32View c = .fin n m e) (hm : m ≠ 0) : f32Mul d x c = f32Mul d' x c := by
  unfold f32Mul
  rw [hc]
  cases h : f32View x with
  | nan => exact absurd h hx
  | inf s => simp [hm]
  | fin s m e => rfl

/-- The root of a nonnegative value draws no free value. -/
theorem sqrt_draw (d d' : Nat) (mag : Nat) (h : mag ≤ 0x7F800000) : f32Sqrt d (f32Pack false mag) = f32Sqrt d' (f32Pack false mag) ∧ f32View (f32Sqrt d (f32Pack false mag)) ≠ .nan := by
  unfold f32Sqrt
  rcases pack_view false mag h with h | ⟨m, e, h⟩ <;> rw [h]
  · exact ⟨rfl, by simp [f32View, f32Inf, f32Pack, f32Exp, f32Frac]⟩
  · dsimp only
    split
    · exact ⟨rfl, by decide⟩
    · simp only [Bool.false_eq_true, if_false, true_and]
      obtain ⟨mag, h1, h2⟩ := round_pack false (isqrt (m * 2 ^ if e % 2 = 0 then 52 else 53)) ((e - ((if e % 2 = 0 then 52 else 53 : Nat) : Int)) / 2) (decide (isqrt (m * 2 ^ if e % 2 = 0 then 52 else 53) * isqrt (m * 2 ^ if e % 2 = 0 then 52 else 53) ≠ m * 2 ^ if e % 2 = 0 then 52 else 53))
      rw [h2]
      rcases pack_view false mag h1 with h | ⟨_, _, h⟩ <;> rw [h] <;> simp

/-- ENVELOPE draws no free value (42_demodulators.md R204). -/
theorem envelope_draw (d1 d2 : Nat) (x : C16) : f32Mul d1 (f32Sqrt d2 (intToF32 (x.re.toInt * x.re.toInt + x.im.toInt * x.im.toInt))) 0x38000000 = envelope x := by
  unfold envelope power
  obtain ⟨mag, h1, h2⟩ := int_pack (x.re.toInt * x.re.toInt + x.im.toInt * x.im.toInt)
  have : ¬ (x.re.toInt * x.re.toInt + x.im.toInt * x.im.toInt < 0) := by
    have := mul_self_nonneg x.re.toInt
    have := mul_self_nonneg x.im.toInt
    omega
  rw [h2]; simp only [this, decide_false]
  rw [(sqrt_draw d2 0 mag h1).1]
  exact mul_draw _ _ _ _ (sqrt_draw 0 0 mag h1).2 false 0x800000 (-38) (by decide) (by decide)

/-- One output for each input (R205). -/
theorem productRun_length (inc : Word) (xs) : ∀ ph, (productRun inc ph xs).length = xs.length := by
  induction xs with
  | nil => intro _; rfl
  | cons x xs ih => intro ph; simp [productRun, ih]

/-- Output n of product mode (R205). -/
theorem productRun_getD (inc : Word) (xs) : ∀ ph n, n < xs.length → (productRun inc ph xs).getD n 0 = product (ph + BitVec.ofNat 32 n * inc) (xs.getD n C16.zero) := by
  induction xs with
  | nil => intro _ n h; simp at h
  | cons x xs ih =>
    intro ph n h
    cases n with
    | zero => simp [productRun]
    | succ n =>
      simp only [productRun, List.getD_cons_succ]
      rw [ih _ _ (by simpa using h)]
      congr 1
      rw [BitVec.add_assoc, show BitVec.ofNat 32 (n + 1) = 1#32 + BitVec.ofNat 32 n by rw [Nat.add_comm, BitVec.ofNat_add]]
      congr 1
      rw [BitVec.add_mul, BitVec.one_mul]

/-- Product mode over two calls. -/
theorem productRun_append (inc : Word) (xs ys) : ∀ ph, productRun inc ph (xs ++ ys) = productRun inc ph xs ++ productRun inc (ph + BitVec.ofNat 32 xs.length * inc) ys := by
  induction xs with
  | nil => intro ph; simp [productRun]
  | cons x xs ih =>
    intro ph
    simp only [List.cons_append, productRun, ih, List.length_cons]
    congr 3
    rw [BitVec.add_assoc, show BitVec.ofNat 32 (xs.length + 1) = 1#32 + BitVec.ofNat 32 xs.length by rw [Nat.add_comm, BitVec.ofNat_add]]
    congr 1
    rw [BitVec.add_mul, BitVec.one_mul]

/-- One output for each input (R209). -/
theorem fmdRun_length (g : F32) (xs) : ∀ d z, (fmdRun g d z xs).length = xs.length := by
  induction xs with
  | nil => intro _ _; rfl
  | cons x xs ih => intro d z; simp [fmdRun, ih]

/-- Output n of FMD.EXEC (R209). -/
theorem fmdRun_getD (g : F32) (xs) : ∀ d z n, n < xs.length → (fmdRun g d z xs).getD n 0 =
    let s := xs.getD n C16.zero
    let z := if n = 0 then z else xs.getD (n - 1) C16.zero
    f32Mul (d + n) (angle (conjRe s z) (conjIm s z)) g := by
  induction xs with
  | nil => intro _ _ n h; simp at h
  | cons x xs ih =>
    intro d z n h
    cases n with
    | zero => simp [fmdRun]
    | succ n =>
      simp only [fmdRun, List.getD_cons_succ]
      rw [ih _ _ _ (by simpa using h)]
      cases n with
      | zero => simp
      | succ n => simp [Nat.add_assoc, Nat.add_comm 1]

/-- FMD.EXEC over two calls. -/
theorem fmdRun_append (g : F32) (xs ys) : ∀ d z, fmdRun g d z (xs ++ ys) = fmdRun g d z xs ++ fmdRun g (d + xs.length) ((z :: xs).getLast (by simp)) ys := by
  induction xs with
  | nil => intro d z; simp [fmdRun]
  | cons x xs ih =>
    intro d z
    simp only [List.cons_append, fmdRun, ih, List.length_cons]
    rw [Nat.add_assoc, Nat.add_comm 1]; rfl

/-- A drawn NaN is a NaN. -/
theorem nan_view (d) : f32View (f32NaN d) = .nan := by
  have h : f32Exp (f32NaN d) = 255 ∧ 2 ^ 22 ≤ f32Frac (f32NaN d) := by
    simp only [f32Exp, f32Frac, f32NaN, f32Pack, BitVec.toNat_ofNat]
    split <;> omega
  unfold f32View; rw [if_pos h.1, if_neg (by omega)]

/-- Two draws give the same product unless it is a NaN. -/
theorem mul_or (d d' : Nat) (a b : F32) : f32Mul d a b = f32Mul d' a b ∨ (f32Mul d a b = f32NaN d ∧ f32Mul d' a b = f32NaN d') := by
  unfold f32Mul
  cases f32View a <;> cases f32View b <;> simp
  · rename_i n t e; by_cases h : t = 0 <;> simp_all
  · rename_i n t e f; by_cases h : t = 0 <;> simp_all

/-- A NaN factor makes a NaN. -/
theorem mul_nan (d) (a b : F32) (h : f32View a = .nan) : f32Mul d a b = f32NaN d := by unfold f32Mul; rw [h]

/-- A converted product does not show what a NaN drew. -/
theorem toS32_mul (d d' : Nat) (a b : F32) : f32ToS32 (f32Mul d a b) = f32ToS32 (f32Mul d' a b) := by
  rcases mul_or d d' a b with h | ⟨h, h'⟩
  · rw [h]
  · rw [h, h']; unfold f32ToS32; rw [nan_view, nan_view]

/-- Nor does a converted product of a product. -/
theorem toS32_mul2 (d1 d2 e1 e2 : Nat) (a b c : F32) : f32ToS32 (f32Mul d2 (f32Mul d1 a b) c) = f32ToS32 (f32Mul e2 (f32Mul e1 a b) c) := by
  rcases mul_or d1 e1 a b with h | ⟨h, h'⟩
  · rw [h]; exact toS32_mul _ _ _ _
  · rw [h, h', mul_nan _ _ _ (nan_view _), mul_nan _ _ _ (nan_view _)]; unfold f32ToS32; rw [nan_view, nan_view]

end Sys2Proof.Machine
end

