-- ==== Sys2Proof/Laws/Rounding.lean ====
section
/-! SUPPORT. The one rounding of Float32.lean is to nearest, ties to even (00_scope.md R15). -/

namespace Sys2Proof.Machine
open Sys2Proof

/-! ### Values of patterns -/

/-- A packed pattern with an exponent field below 255 is finite. -/
theorem pack_finite (neg : Bool) (mag : Nat) (h : mag < 255 * 2 ^ 23) : IsFinite (f32Pack neg mag) := by
  unfold IsFinite; rw [pack_toNat _ _ (by omega)]; split <;> omega

/-- The sign bit of a packed pattern. -/
theorem pack_negative (neg : Bool) (mag : Nat) (h : mag < 2 ^ 31) : negative (f32Pack neg mag) = neg := by
  unfold negative
  rw [BitVec.getLsbD, pack_toNat _ _ h, Nat.testBit_eq_decide_div_mod_eq]
  cases neg <;> (simp; omega)

/-- The pattern whose exponent field and fraction are `(q + 149) * 2^23 + k` stands for `k * 2^q`. -/
theorem pack_value (neg : Bool) (q : ℤ) (k : Nat) (hq : -149 ≤ q) (hk : k ≤ 2 ^ 24) (hn : q = -149 ∨ 2 ^ 23 ≤ k)
    (h : (q + 149).toNat * 2 ^ 23 + k < 255 * 2 ^ 23) :
    f32Value (f32Pack neg ((q + 149).toNat * 2 ^ 23 + k)) = (if neg then -1 else 1) * ((k : ℚ) * 2 ^ q) := by
  obtain ⟨n, rfl⟩ : ∃ n : ℕ, q = n - 149 := ⟨(q + 149).toNat, by omega⟩
  have hN : ((n : ℤ) - 149 + 149).toNat = n := by omega
  rw [hN] at h ⊢
  have hv := pack_toNat neg (n * 2 ^ 23 + k) (by omega)
  have hs : ((f32Pack neg (n * 2 ^ 23 + k)).toNat / 2 ^ 31 = 0) = (neg = false) := by
    rw [hv]; cases neg <;> (simp; try omega)
  have he : (f32Pack neg (n * 2 ^ 23 + k)).toNat / 2 ^ 23 % 256 = n + k / 2 ^ 23 := by
    rw [hv]; split <;> omega
  have hf : (f32Pack neg (n * 2 ^ 23 + k)).toNat % 2 ^ 23 = k % 2 ^ 23 := by
    rw [hv]; split <;> omega
  unfold f32Value
  simp only [hs, he, hf]
  have e2 : ∀ (a b : ℤ), b = a + 1 → (2 : ℚ) ^ b = 2 * 2 ^ a := by
    intro a b h; rw [h, zpow_add_one₀ (by norm_num)]; ring
  have sgn : (if neg = false then (1 : ℚ) else -1) = if neg = true then -1 else 1 := by cases neg <;> rfl
  rw [sgn]
  congr 1
  rcases Nat.lt_or_ge k (2 ^ 23) with hk1 | hk1
  · have h0 : n = 0 := by omega
    subst h0
    have : k / 2 ^ 23 = 0 := by omega
    simp only [this, if_true, Nat.mod_eq_of_lt hk1]
    norm_num
  · rw [if_neg (by omega)]
    rcases Nat.lt_or_ge k (2 ^ 24) with hk2 | hk2
    · have a : k / 2 ^ 23 = 1 := by omega
      have b : 2 ^ 23 + k % 2 ^ 23 = k := by omega
      rw [a, b]
      congr 2
      push_cast; ring
    · have a : k = 2 ^ 24 := by omega
      subst a
      norm_num
      rw [e2 ((n : ℤ) - 149) _ (by ring)]; ring

/-- A number is `n * 2^p` with at most 24 bits above the last place. -/
theorem value_form (y : F32) : ∃ (n : ℕ) (p : ℤ), |(f32Value y : ℝ)| = n * 2 ^ p ∧ -149 ≤ p ∧ n < 2 ^ 24
    ∧ (p = -149 ∨ 2 ^ 23 ≤ n) := by
  have hs : ∀ v : ℚ, 0 ≤ v → |(if y.toNat / 2 ^ 31 = 0 then (1 : ℚ) else -1) * v| = v := by
    intro v hv; split <;> simp [abs_of_nonneg hv]
  rw [← Rat.cast_abs]
  unfold f32Value
  by_cases h : y.toNat / 2 ^ 23 % 256 = 0
  · refine ⟨y.toNat % 2 ^ 23, -149, ?_, by omega, by omega, .inl rfl⟩
    simp only [h, if_true]
    rw [hs _ (by positivity)]
    push_cast; rfl
  · refine ⟨2 ^ 23 + y.toNat % 2 ^ 23, (y.toNat / 2 ^ 23 % 256 : ℕ) - 150, ?_, by omega, by omega, .inr (by omega)⟩
    simp only [h, if_false]
    rw [hs _ (by positivity)]
    push_cast; rfl

/-- No finite number lies strictly between two neighbouring multiples of a place. -/
theorem value_gap (y : F32) (k : ℕ) (q : ℤ) (hq : q = -149 ∨ 2 ^ 23 ≤ k) :
    |(f32Value y : ℝ)| ≤ k * 2 ^ q ∨ ((k : ℝ) + 1) * 2 ^ q ≤ |(f32Value y : ℝ)| := by
  obtain ⟨n, p, hv, hp, hn, hn2⟩ := value_form y
  rw [hv]
  have hu : (0 : ℝ) < 2 ^ q := by positivity
  rcases le_or_gt q p with h | h
  · obtain ⟨j, rfl⟩ : ∃ j : ℕ, p = q + j := ⟨(p - q).toNat, by omega⟩
    have e : (n : ℝ) * 2 ^ (q + (j : ℤ)) = ((n * 2 ^ j : ℕ) : ℝ) * 2 ^ q := by
      rw [zpow_add₀ (by norm_num), zpow_natCast]; push_cast; ring
    rw [e]
    rcases Nat.lt_or_ge k (n * 2 ^ j) with h1 | h1
    · right
      have : ((k : ℝ) + 1) ≤ ((n * 2 ^ j : ℕ) : ℝ) := by exact_mod_cast h1
      exact mul_le_mul_of_nonneg_right this hu.le
    · left
      have : ((n * 2 ^ j : ℕ) : ℝ) ≤ (k : ℝ) := by exact_mod_cast h1
      exact mul_le_mul_of_nonneg_right this hu.le
  · left
    have hk : 2 ^ 23 ≤ k := by omega
    have h1 : (n : ℝ) ≤ 2 ^ 24 := by exact_mod_cast hn.le
    have h2 : ((2 : ℝ) ^ 23) ≤ k := by exact_mod_cast hk
    calc (n : ℝ) * 2 ^ p ≤ 2 ^ 24 * 2 ^ (q - 1) :=
          mul_le_mul h1 (zpow_le_zpow_right₀ (by norm_num) (by omega)) (by positivity) (by positivity)
      _ = 2 ^ 23 * 2 ^ q := by rw [zpow_sub_one₀ (by norm_num)]; ring
      _ ≤ k * 2 ^ q := mul_le_mul_of_nonneg_right h2 hu.le

/-! ### What `f32View` says -/

/-- Two readings of the sign bit. -/
theorem negative_eq (x : F32) : negative x = f32Sign x := by
  unfold negative f32Sign
  rw [BitVec.getLsbD, Nat.testBit_eq_decide_div_mod_eq]
  have := x.isLt
  congr 1; apply propext; omega

/-- What a view says of the value. -/
theorem view_fin (x : F32) (s m e) (h : f32View x = .fin s m e) :
    IsFinite x ∧ negative x = s ∧ f32Value x = (if s then -1 else 1) * ((m : ℚ) * 2 ^ e) ∧ m < 2^24 := by
  unfold f32View at h
  have hlt := x.isLt
  have sgn : ∀ b, f32Sign x = b → (if x.toNat / 2 ^ 31 = 0 then (1 : ℚ) else -1) = if b then -1 else 1 := by
    intro b hb; unfold f32Sign at hb
    by_cases h : 2 ^ 31 ≤ x.toNat
    · simp only [h, decide_true] at hb; subst hb; rw [if_neg (by omega)]; rfl
    · simp only [h, decide_false] at hb; subst hb; rw [if_pos (by omega)]; rfl
  split at h
  · split at h <;> cases h
  · rename_i h255
    split at h
    · rename_i h0
      cases h
      refine ⟨h255, negative_eq x, ?_, by unfold f32Frac; omega⟩
      unfold f32Value; unfold f32Exp at h0
      simp only [h0, if_true, sgn _ rfl]
      rfl
    · rename_i h0
      cases h
      refine ⟨h255, negative_eq x, ?_, by unfold f32Frac; omega⟩
      unfold f32Value; unfold f32Exp at h0 ⊢
      simp only [h0, if_false, sgn _ rfl]
      rfl

/-- A finite pattern has a significand and an exponent. -/
theorem view_of_finite (x : F32) (h : IsFinite x) : ∃ s m e, f32View x = .fin s m e := by
  unfold f32View; rw [if_neg (show ¬ f32Exp x = 255 from h)]; split <;> exact ⟨_, _, _, rfl⟩

/-- Which patterns are NaNs. -/
theorem view_nan (x : F32) : f32View x = .nan ↔ IsNaN x := by
  unfold f32View IsNaN f32Exp f32Frac
  split
  · split <;> simp_all
  · split <;> simp_all

/-- Which patterns are infinities. -/
theorem view_inf (x : F32) (n) : f32View x = .inf n ↔ x = infinity n := by
  constructor
  · intro h
    unfold f32View at h
    split at h
    · split at h
      · rename_i h1 h2
        cases h
        unfold f32Exp at h1; unfold f32Frac at h2
        apply BitVec.eq_of_toNat_eq
        unfold infinity f32Sign
        by_cases hs : 2^31 ≤ x.toNat
        · simp only [hs, decide_true, if_true]; have := x.isLt; simp; omega
        · simp only [hs, decide_false]; simp; omega
      · cases h
    · split at h <;> cases h
  · rintro rfl; cases n <;> decide

/-- A number is 0 exactly if its significand is. -/
theorem fin_zero (x : F32) (s m e) (h : f32View x = .fin s m e) : f32Value x = 0 ↔ m = 0 := by
  rw [(view_fin _ _ _ _ h).2.2.1]
  have : (2:ℚ)^e ≠ 0 := by positivity
  cases s <;> simp [this]

/-! ### The rounded significand -/

/-- What `roundTo` answers for a number `r` between `m * 2^e` and the next: the nearer of the two multiples of `2^q` around
it, the even one of two as near. -/
theorem roundTo_spec (m : ℕ) (e q : ℤ) (sticky : Bool) (r : ℝ) (h1 : m * 2 ^ e ≤ r) (h2 : r < (m + 1) * 2 ^ e)
    (h3 : sticky = false → r = m * 2 ^ e) (h4 : sticky = true → r ≠ m * 2 ^ e ∧ e < q) :
    ∃ k0 : ℕ, (k0 : ℝ) * 2 ^ q ≤ r ∧ r < ((k0 : ℝ) + 1) * 2 ^ q
      ∧ (roundTo m e q sticky = k0 ∧ r - k0 * 2 ^ q ≤ ((k0 : ℝ) + 1) * 2 ^ q - r
          ∧ (r - k0 * 2 ^ q = ((k0 : ℝ) + 1) * 2 ^ q - r → k0 % 2 = 0)
        ∨ roundTo m e q sticky = k0 + 1 ∧ ((k0 : ℝ) + 1) * 2 ^ q - r ≤ r - k0 * 2 ^ q
          ∧ (r - k0 * 2 ^ q = ((k0 : ℝ) + 1) * 2 ^ q - r → (k0 + 1) % 2 = 0)) := by
  have hu : (0 : ℝ) < 2 ^ q := by positivity
  have hw : (0 : ℝ) < 2 ^ e := by positivity
  unfold roundTo
  rcases le_or_gt q e with h | h
  · obtain ⟨j, rfl⟩ : ∃ j : ℕ, e = q + j := ⟨(e - q).toNat, by omega⟩
    have hs : sticky = false := by
      cases sticky with
      | false => rfl
      | true => have := (h4 rfl).2; omega
    have hr := h3 hs
    rw [if_pos h, show (q + (j : ℤ) - q).toNat = j by omega]
    have e' : r = ((m * 2 ^ j : ℕ) : ℝ) * 2 ^ q := by
      rw [hr, zpow_add₀ (by norm_num), zpow_natCast]; push_cast; ring
    refine ⟨m * 2 ^ j, by rw [e'], by rw [e']; nlinarith, .inl ⟨rfl, by rw [e']; nlinarith, fun hh => ?_⟩⟩
    rw [e'] at hh; nlinarith
  · obtain ⟨j, rfl⟩ : ∃ j : ℕ, q = e + (j + 1 : ℕ) := ⟨(q - e - 1).toNat, by omega⟩
    rw [if_neg (by omega), show (e + ((j + 1 : ℕ) : ℤ) - e).toNat = j + 1 by omega]
    dsimp only
    rw [Nat.add_sub_cancel]
    have hq : (2 : ℝ) ^ (e + ((j + 1 : ℕ) : ℤ)) = 2 * 2 ^ j * 2 ^ e := by
      rw [zpow_add₀ (by norm_num), zpow_natCast, pow_succ]; ring
    obtain ⟨k, hk⟩ : ∃ k, k = m / 2 ^ (j + 1) := ⟨_, rfl⟩
    obtain ⟨x, hx⟩ : ∃ x, x = m % 2 ^ (j + 1) := ⟨_, rfl⟩
    rw [← hk, ← hx]
    have hmx : m = 2 * 2 ^ j * k + x := by
      have := Nat.div_add_mod m (2 ^ (j + 1)); rw [← hk, ← hx, pow_succ] at this; linarith
    have hxl : x < 2 * 2 ^ j := by
      have := Nat.mod_lt m (show 0 < 2 ^ (j + 1) by positivity); rw [← hx, pow_succ] at this; linarith
    have hJ : (0 : ℝ) < 2 ^ j := by positivity
    have hm' : (m : ℝ) = 2 * 2 ^ j * k + x := by exact_mod_cast hmx
    have hxl' : (x : ℝ) + 1 ≤ 2 * 2 ^ j := by exact_mod_cast hxl
    rw [hq]
    -- r = (2 * 2^j * k + x) * 2^e + d with 0 ≤ d < 2^e
    obtain ⟨d, hd⟩ : ∃ d, d = r - m * 2 ^ e := ⟨_, rfl⟩
    have hd0 : 0 ≤ d := by rw [hd]; linarith
    have hd1 : d < 2 ^ e := by rw [hd]; linarith
    have hdz : sticky = false → d = 0 := fun hs => by rw [hd, h3 hs]; ring
    have hdp : sticky = true → 0 < d := fun hs => lt_of_le_of_ne hd0 (by
      intro h0; apply (h4 hs).1; rw [hd] at h0; linarith)
    have hr : r = (2 * 2 ^ j * k + x) * 2 ^ e + d := by rw [hd, ← hm']; ring
    have low : (k : ℝ) * (2 * 2 ^ j * 2 ^ e) ≤ r := by
      rw [hr]; nlinarith [Nat.cast_nonneg (α := ℝ) x]
    have high : r < ((k : ℝ) + 1) * (2 * 2 ^ j * 2 ^ e) := by
      rw [hr]; nlinarith
    refine ⟨k, low, high, ?_⟩
    have key1 : r - k * (2 * 2 ^ j * 2 ^ e) = x * 2 ^ e + d := by rw [hr]; ring
    have key2 : ((k : ℝ) + 1) * (2 * 2 ^ j * 2 ^ e) - r = (2 * 2 ^ j - x) * 2 ^ e - d := by rw [hr]; ring
    rw [key1, key2]
    by_cases hc : 2 ^ j < x ∨ (x = 2 ^ j ∧ (sticky = true ∨ k % 2 = 1))
    · rw [if_pos hc]
      refine .inr ⟨rfl, ?_, ?_⟩
      · rcases hc with hc | ⟨hc, _⟩
        · have : ((2 : ℝ) ^ j) + 1 ≤ x := by exact_mod_cast hc
          nlinarith
        · rw [hc]; push_cast; nlinarith
      · intro ht
        rcases hc with hc | ⟨hc, hc2⟩
        · have : ((2 : ℝ) ^ j) + 1 ≤ x := by exact_mod_cast hc
          nlinarith
        · rw [hc] at ht; push_cast at ht
          rcases hc2 with hc2 | hc2
          · have := hdp hc2; nlinarith
          · omega
    · rw [if_neg hc]
      push Not at hc
      refine .inl ⟨rfl, ?_, ?_⟩
      · rcases Nat.lt_or_ge x (2 ^ j) with hl | hl
        · have : (x : ℝ) + 1 ≤ 2 ^ j := by exact_mod_cast hl
          nlinarith
        · have hxe : x = 2 ^ j := by omega
          have hs : sticky = false := by
            simpa using (hc.2 hxe).1
          rw [hxe, hdz hs]; push_cast; nlinarith
      · intro ht
        rcases Nat.lt_or_ge x (2 ^ j) with hl | hl
        · have : (x : ℝ) + 1 ≤ 2 ^ j := by exact_mod_cast hl
          nlinarith
        · have hxe : x = 2 ^ j := by omega
          have := (hc.2 hxe).2; omega

/-- A number between two powers of two has its leading bit where `f32Round` puts the last place. -/
theorem log_bounds (m : ℕ) (e : ℤ) (r : ℝ) (hm : m ≠ 0) (h1 : m * 2 ^ e ≤ r) (h2 : r < (m + 1) * 2 ^ e) :
    (2 : ℝ) ^ (e + Nat.log2 m) ≤ r ∧ r < (2 : ℝ) ^ (e + Nat.log2 m + 1) := by
  have hw : (0 : ℝ) < 2 ^ e := by positivity
  have l1 : 2 ^ Nat.log2 m ≤ m := Nat.log2_self_le hm
  have l2 : m + 1 ≤ 2 ^ (Nat.log2 m + 1) := Nat.lt_log2_self
  have l1' : ((2 : ℝ) ^ Nat.log2 m) ≤ m := by exact_mod_cast l1
  have l2' : (m : ℝ) + 1 ≤ 2 ^ (Nat.log2 m + 1) := by exact_mod_cast l2
  constructor
  · rw [zpow_add₀ (by norm_num), zpow_natCast]; nlinarith
  · have : (2 : ℝ) ^ (e + (Nat.log2 m : ℤ) + 1) = 2 ^ (Nat.log2 m + 1) * 2 ^ e := by
      rw [show e + (Nat.log2 m : ℤ) + 1 = e + ((Nat.log2 m + 1 : ℕ) : ℤ) by push_cast; ring, zpow_add₀ (by norm_num),
        zpow_natCast]; ring
    rw [this]; nlinarith

/-- The magnitude of a rounded number: a place `q`, the last one at or above `r`'s leading 24 bits, and the nearest
multiple `k` of it, even where two are as near. -/
theorem round_place (m : ℕ) (e : ℤ) (sticky : Bool) (r : ℝ) (hm : m ≠ 0) (h1 : m * 2 ^ e ≤ r) (h2 : r < (m + 1) * 2 ^ e)
    (h3 : sticky = false → r = m * 2 ^ e)
    (h4 : sticky = true → r ≠ m * 2 ^ e ∧ 2 ^ 24 ≤ m) :
    ∃ (q : ℤ) (k0 k : ℕ), -149 ≤ q ∧ (q = -149 ∨ 2 ^ 23 ≤ k0) ∧ k0 < 2 ^ 24 ∧ (k = k0 ∨ k = k0 + 1)
      ∧ (k0 : ℝ) * 2 ^ q ≤ r ∧ r < ((k0 : ℝ) + 1) * 2 ^ q
      ∧ |r - k * 2 ^ q| ≤ r - k0 * 2 ^ q ∧ |r - k * 2 ^ q| ≤ ((k0 : ℝ) + 1) * 2 ^ q - r
      ∧ (r - k0 * 2 ^ q = ((k0 : ℝ) + 1) * 2 ^ q - r → k % 2 = 0)
      ∧ ∀ neg, f32Round neg m e sticky = f32Pack neg (min 0x7F800000 ((q + 149).toNat * 2 ^ 23 + k)) := by
  obtain ⟨q, hq⟩ : ∃ q : ℤ, q = max (e + (Nat.log2 m : ℤ) - 23) (-149) := ⟨_, rfl⟩
  obtain ⟨lo, hi⟩ := log_bounds m e r hm h1 h2
  have h4' : sticky = true → r ≠ m * 2 ^ e ∧ e < q := fun hs => ⟨(h4 hs).1, by
    have : 24 ≤ Nat.log2 m := (Nat.le_log2 hm).2 (h4 hs).2
    omega⟩
  obtain ⟨k0, b1, b2, b3⟩ := roundTo_spec m e q sticky r h1 h2 h3 h4'
  have hu : (0 : ℝ) < 2 ^ q := by positivity
  have p23 : ∀ n : ℕ, (2 : ℝ) ^ (q + (n : ℤ)) = 2 ^ n * 2 ^ q := by
    intro n; rw [zpow_add₀ (by norm_num), zpow_natCast]; ring
  have top : k0 < 2 ^ 24 := by
    have a : r < 2 ^ 24 * 2 ^ q := by
      rw [← p23 24]
      exact lt_of_lt_of_le hi (zpow_le_zpow_right₀ (by norm_num) (by push_cast; omega))
    have : (k0 : ℝ) < 2 ^ 24 := lt_of_mul_lt_mul_right (lt_of_le_of_lt b1 a) hu.le
    exact_mod_cast this
  have bot : q = -149 ∨ 2 ^ 23 ≤ k0 := by
    rcases le_or_gt (e + (Nat.log2 m : ℤ) - 23) (-149) with h | h
    · left; omega
    · right
      have hq' : q + 23 = e + Nat.log2 m := by omega
      have a : 2 ^ 23 * 2 ^ q ≤ r := by rw [← p23 23]; push_cast; rw [hq']; exact lo
      have : (2 : ℝ) ^ 23 < (k0 : ℝ) + 1 := lt_of_mul_lt_mul_right (lt_of_le_of_lt a b2) hu.le
      have : 2 ^ 23 < k0 + 1 := by exact_mod_cast this
      omega
  have hpack : ∀ neg, f32Round neg m e sticky
      = f32Pack neg (min 0x7F800000 ((q + 149).toNat * 2 ^ 23 + roundTo m e q sticky)) := by
    intro neg; unfold f32Round; rw [if_neg hm, hq]
  refine ⟨q, k0, roundTo m e q sticky, by omega, bot, top, ?_, b1, b2, ?_, ?_, ?_, hpack⟩
  · rcases b3 with ⟨h, _⟩ | ⟨h, _⟩ <;> simp [h]
  · rcases b3 with ⟨h, c, _⟩ | ⟨h, c, _⟩ <;> rw [h]
    · rw [abs_of_nonneg (by linarith)]
    · push_cast; rw [abs_of_nonpos (by linarith)]; linarith
  · rcases b3 with ⟨h, c, _⟩ | ⟨h, c, _⟩ <;> rw [h]
    · rw [abs_of_nonneg (by linarith)]; exact c
    · push_cast; rw [abs_of_nonpos (by linarith)]; linarith
  · intro ht
    rcases b3 with ⟨h, _, c⟩ | ⟨h, _, c⟩ <;> rw [h] <;> exact c ht

/-- No finite number is nearer to `r` than the chosen multiple, and one as near leaves it even. -/
theorem nearest (y : F32) (q : ℤ) (k0 k : ℕ) (r : ℝ) (hq : q = -149 ∨ 2 ^ 23 ≤ k0) (b1 : (k0 : ℝ) * 2 ^ q ≤ r)
    (b2 : r < ((k0 : ℝ) + 1) * 2 ^ q) (hk : k = k0 ∨ k = k0 + 1) (c1 : |r - k * 2 ^ q| ≤ r - k0 * 2 ^ q)
    (c2 : |r - k * 2 ^ q| ≤ ((k0 : ℝ) + 1) * 2 ^ q - r)
    (ht : r - k0 * 2 ^ q = ((k0 : ℝ) + 1) * 2 ^ q - r → k % 2 = 0) :
    |r - k * 2 ^ q| ≤ |r - (|(f32Value y : ℝ)|)|
      ∧ (|r - k * 2 ^ q| = |r - (|(f32Value y : ℝ)|)| → |(f32Value y : ℝ)| ≠ k * 2 ^ q → k % 2 = 0) := by
  have hu : (0 : ℝ) < 2 ^ q := by positivity
  rcases value_gap y k0 q hq with h | h
  · rw [abs_of_nonneg (show 0 ≤ r - |(f32Value y : ℝ)| by linarith)]
    refine ⟨by linarith, fun he hne => ?_⟩
    have e0 : |(f32Value y : ℝ)| = k0 * 2 ^ q := by linarith
    rcases hk with rfl | rfl
    · exact absurd e0 hne
    · apply ht
      push_cast at *
      rw [abs_of_nonpos (by linarith)] at he
      linarith
  · rw [abs_of_nonpos (show r - |(f32Value y : ℝ)| ≤ 0 by linarith)]
    refine ⟨by linarith, fun he hne => ?_⟩
    have e0 : |(f32Value y : ℝ)| = ((k0 : ℝ) + 1) * 2 ^ q := by linarith
    rcases hk with rfl | rfl
    · apply ht
      rw [abs_of_nonneg (by linarith)] at he
      linarith
    · exact absurd (by rw [e0]; push_cast; ring) hne

/-- `f32Round` is correct rounding: `m * 2^e`, with a nonzero rest below its last place if `sticky` says so. -/
theorem f32Round_isRounded (neg : Bool) (m : ℕ) (e : ℤ) (sticky : Bool) (r : ℝ) (h1 : m * 2 ^ e ≤ r)
    (h2 : r < (m + 1) * 2 ^ e) (h3 : sticky = false → r = m * 2 ^ e)
    (h4 : sticky = true → r ≠ m * 2 ^ e ∧ 2 ^ 24 ≤ m) :
    IsRounded (if neg then -r else r) neg (f32Round neg m e sticky) := by
  have habs : 0 ≤ r → |if neg then -r else r| = r := by
    intro hr; cases neg <;> simp [abs_of_nonneg hr]
  by_cases hm : m = 0
  · subst hm
    have hs : sticky = false := by
      cases sticky with
      | false => rfl
      | true => exact absurd (h4 rfl).2 (by norm_num)
    have hr : r = 0 := by rw [h3 hs]; simp
    subst hr
    have hp : f32Round neg 0 e sticky = f32Pack neg 0 := rfl
    have hv : f32Value (f32Pack neg 0) = 0 := by
      have := pack_value neg (-149) 0 le_rfl (Nat.zero_le _) (.inl rfl) (by norm_num)
      simpa using this
    rw [hp]
    refine ⟨pack_negative _ _ (by norm_num), fun _ => ⟨pack_finite _ _ (by norm_num), ?_⟩, ?_⟩
    · intro y _
      rw [hv]
      refine ⟨by simp, fun he hne => absurd ?_ hne⟩
      simp only [neg_zero, ite_self, Rat.cast_zero, sub_zero, abs_zero, zero_sub, abs_neg] at he
      have := abs_eq_zero.1 he.symm
      exact_mod_cast this
    · intro h; exfalso
      rw [habs le_rfl] at h; norm_num at h
  · obtain ⟨q, k0, k, hq, bot, top, hk, b1, b2, c1, c2, ht, hpack⟩ := round_place m e sticky r hm h1 h2 h3 h4
    have hw : (0 : ℝ) < 2 ^ e := by positivity
    have hu : (0 : ℝ) < 2 ^ q := by positivity
    have hr : 0 < r := by
      have : (0 : ℝ) < m := by exact_mod_cast Nat.pos_of_ne_zero hm
      nlinarith
    have p23 : ∀ n : ℕ, (2 : ℝ) ^ (q + (n : ℤ)) = 2 ^ n * 2 ^ q := by
      intro n; rw [zpow_add₀ (by norm_num), zpow_natCast]; ring
    rw [hpack neg]
    unfold IsRounded
    rw [habs hr.le]
    refine ⟨pack_negative _ _ (by omega), fun hb => ?_, fun hb => ?_⟩
    · -- below the overflow threshold
      have big : (q + 149).toNat * 2 ^ 23 + k < 255 * 2 ^ 23 := by
        rcases bot with rfl | hk0
        · omega
        · have hk0' : (2 : ℝ) ^ 23 ≤ k0 := by exact_mod_cast hk0
          have hq104 : q ≤ 104 := by
            by_contra hc
            have : (2 : ℝ) ^ (105 : ℤ) ≤ 2 ^ q := zpow_le_zpow_right₀ (by norm_num) (by omega)
            norm_num at this hb
            nlinarith
          rcases lt_or_eq_of_le hq104 with h | h
          · omega
          · subst h
            have : k ≠ 2 ^ 24 := by
              intro hk24
              have hk0e : k0 = 2 ^ 24 - 1 := by omega
              rw [hk24, hk0e] at c1
              rw [hk0e] at b2
              norm_num at c1 b2 hb
              rw [abs_of_nonpos (by linarith)] at c1
              linarith
            omega
      rw [Nat.min_eq_right (by omega)]
      have hk24 : k ≤ 2 ^ 24 := by omega
      have hkn : q = -149 ∨ 2 ^ 23 ≤ k := by omega
      have hv := pack_value neg q k hq hk24 hkn big
      refine ⟨pack_finite _ _ big, fun y _ => ?_⟩
      have hvr : ((f32Value (f32Pack neg ((q + 149).toNat * 2 ^ 23 + k)) : ℚ) : ℝ) = (if neg then -1 else 1) * (k * 2 ^ q) := by
        rw [hv]; cases neg <;> simp
      have dist : |(if neg then -r else r) - ((f32Value (f32Pack neg ((q + 149).toNat * 2 ^ 23 + k)) : ℚ) : ℝ)|
          = |r - k * 2 ^ q| := by
        rw [hvr]; cases neg
        · simp
        · rw [← abs_neg]; congr 1; simp; ring
      have far : |r - (|(f32Value y : ℝ)|)| ≤ |(if neg then -r else r) - (f32Value y : ℝ)| := by
        have := abs_abs_sub_abs_le_abs_sub (if neg then -r else r) (f32Value y : ℝ)
        rwa [habs hr.le] at this
      obtain ⟨n1, n2⟩ := nearest y q k0 k r bot b1 b2 hk c1 c2 ht
      rw [dist]
      refine ⟨n1.trans far, fun he hne => ?_⟩
      have even : k % 2 = 0 := by
        refine n2 (le_antisymm n1 (by rw [he]; exact far)) fun hy => ?_
        -- as large as the chosen number, so its negative: as near only if both are 0
        have hy' : (f32Value y : ℝ) ≠ (if neg then -1 else 1) * (k * 2 ^ q) := by
          intro hh; apply hne
          have : (f32Value y : ℝ) = ((f32Value (f32Pack neg ((q + 149).toNat * 2 ^ 23 + k)) : ℚ) : ℝ) := by rw [hh, hvr]
          exact_mod_cast this
        have hpos : (0 : ℝ) ≤ k * 2 ^ q := by positivity
        have hneg : (f32Value y : ℝ) = -((if neg then -1 else 1) * (k * 2 ^ q)) := by
          rcases abs_choice (f32Value y : ℝ) with hc | hc <;> rw [hc] at hy <;> cases neg <;> simp at hy' ⊢ <;> first
            | exact absurd hy hy'
            | linarith
            | (exfalso; apply hy'; linarith)
        rw [hneg] at he
        have hsum : |(if neg then -r else r) - -((if neg then -1 else 1) * ((k : ℝ) * 2 ^ q))| = r + k * 2 ^ q := by
          cases neg
          · rw [← abs_of_nonneg (show 0 ≤ r + k * 2 ^ q by linarith)]; congr 1; simp
          · rw [← abs_of_nonneg (show 0 ≤ r + k * 2 ^ q by linarith), ← abs_neg]; congr 1; simp; ring
        rw [hsum] at he
        rcases abs_choice (r - k * 2 ^ q) with hc | hc <;> rw [hc] at he
        · have : (k : ℝ) * 2 ^ q = 0 := by linarith
          apply hy'; rw [hneg, this]; simp
        · linarith
      rw [pack_toNat _ _ (by omega)]
      split <;> omega
    · -- from the threshold on
      have : 255 * 2 ^ 23 ≤ (q + 149).toNat * 2 ^ 23 + k := by
        have hq104 : 104 ≤ q := by
          by_contra hc
          have h1 : (2 : ℝ) ^ q ≤ 2 ^ (103 : ℤ) := zpow_le_zpow_right₀ (by norm_num) (by omega)
          have h2 : (k0 : ℝ) + 1 ≤ 2 ^ 24 := by exact_mod_cast top
          norm_num at h1 h2 hb
          nlinarith
        rcases lt_or_eq_of_le hq104 with h | h
        · omega
        · subst h
          have hk0e : k0 = 2 ^ 24 - 1 := by
            by_contra hc
            have h2 : (k0 : ℝ) + 1 ≤ 2 ^ 24 - 1 := by
              have : k0 + 1 ≤ 2 ^ 24 - 1 := by omega
              have : ((k0 + 1 : ℕ) : ℝ) ≤ ((2 ^ 24 - 1 : ℕ) : ℝ) := by exact_mod_cast this
              norm_num at this ⊢; linarith
            norm_num at h2 hb b2
            nlinarith
          have : k = 2 ^ 24 := by
            rcases hk with rfl | rfl
            · exfalso
              rw [hk0e] at c2 ht
              norm_num at c2 ht hb
              have := ht (by
                rw [abs_of_nonneg (by linarith)] at c2
                linarith)
              omega
            · omega
          omega
      rw [Nat.min_eq_left (by omega)]
      cases neg <;> rfl

/-- An exact significand is rounded once. -/
theorem f32Round_exact (neg : Bool) (m : ℕ) (e : ℤ) (v : ℚ) (hv : v = (if neg then -1 else 1) * ((m : ℚ) * 2 ^ e)) :
    IsRounded (v : ℝ) neg (f32Round neg m e false) := by
  have hw : (0:ℝ) < 2^e := by positivity
  have := f32Round_isRounded neg m e false ((m : ℝ) * 2 ^ e) le_rfl (by nlinarith) (fun _ => rfl) (by simp)
  convert this using 1
  rw [hv]; cases neg <;> simp

end Sys2Proof.Machine
end

