-- ==== Sys2Proof/Laws/Angle.lean ====
section
/-! SUPPORT. No operation of ANGLE can produce a NaN (42_demodulators.md R208). -/

namespace Sys2Proof.Machine
open Sys2Proof

/-- A rounded significand has at most 24 bits, and exactly 24 where the last place is not the smallest one. -/
theorem roundTo_bounds (m : ℕ) (e : ℤ) (sticky : Bool) (hm : m ≠ 0) :
    roundTo m e (max (e + (Nat.log2 m : ℤ) - 23) (-149)) sticky ≤ 2 ^ 24
      ∧ (-149 ≤ e + (Nat.log2 m : ℤ) - 23 → 2 ^ 23 ≤ roundTo m e (max (e + (Nat.log2 m : ℤ) - 23) (-149)) sticky) := by
  have l1 : 2 ^ Nat.log2 m ≤ m := Nat.log2_self_le hm
  have l2 : m < 2 ^ (Nat.log2 m + 1) := Nat.lt_log2_self
  obtain ⟨L, hL⟩ : ∃ L, L = Nat.log2 m := ⟨_, rfl⟩
  rw [← hL] at l1 l2 ⊢
  obtain ⟨q, hq⟩ : ∃ q : ℤ, q = max (e + (L : ℤ) - 23) (-149) := ⟨_, rfl⟩
  rw [← hq]
  unfold roundTo
  split
  · rename_i h
    have hj : L + 1 + (e - q).toNat ≤ 24 := by omega
    refine ⟨?_, fun hc => ?_⟩
    · calc m * 2 ^ (e - q).toNat ≤ 2 ^ (L + 1) * 2 ^ (e - q).toNat := Nat.mul_le_mul_right _ l2.le
        _ = 2 ^ (L + 1 + (e - q).toNat) := (pow_add _ _ _).symm
        _ ≤ 2 ^ 24 := Nat.pow_le_pow_right (by norm_num) hj
    · calc 2 ^ 23 = 2 ^ (L + (e - q).toNat) := by congr 1; omega
        _ = 2 ^ L * 2 ^ (e - q).toNat := pow_add _ _ _
        _ ≤ m * 2 ^ (e - q).toNat := Nat.mul_le_mul_right _ l1
  · rename_i h
    dsimp only
    have hk : m / 2 ^ (q - e).toNat < 2 ^ 24 := by
      rw [Nat.div_lt_iff_lt_mul (by positivity), ← pow_add]
      exact lt_of_lt_of_le l2 (Nat.pow_le_pow_right (by norm_num) (by omega))
    have hl : -149 ≤ e + (L : ℤ) - 23 → 2 ^ 23 ≤ m / 2 ^ (q - e).toNat := by
      intro hc
      rw [Nat.le_div_iff_mul_le (by positivity), ← pow_add]
      exact le_trans (Nat.pow_le_pow_right (by norm_num) (by omega)) l1
    split
    · exact ⟨by omega, fun hc => by have := hl hc; omega⟩
    · exact ⟨by omega, hl⟩

/-- Where the pattern of a rounded number lies. -/
theorem f32Round_mag (neg : Bool) (m : ℕ) (e : ℤ) (sticky : Bool) (hm : m ≠ 0) (hb : e + (Nat.log2 m : ℤ) ≤ 126) :
    ∃ mag : ℕ, f32Round neg m e sticky = f32Pack neg mag ∧ mag < 255 * 2 ^ 23
      ∧ (0 ≤ e + (Nat.log2 m : ℤ) → 127 * 2 ^ 23 ≤ mag) ∧ (mag : ℤ) ≤ (max (e + Nat.log2 m) (-126) + 128) * 2 ^ 23 := by
  obtain ⟨h1, h2⟩ := roundTo_bounds m e sticky hm
  unfold f32Round
  rw [if_neg hm]
  dsimp only
  generalize roundTo m e (max (e + (Nat.log2 m : ℤ) - 23) (-149)) sticky = k at *
  rw [Nat.min_eq_right (by omega)]
  exact ⟨_, rfl, by omega, fun h => by have := h2 (by omega); omega, by omega⟩

/-- A packed pattern below infinity is a finite number of that sign, with its exponent where the exponent field says. -/
theorem pack_fin (neg : Bool) (mag : ℕ) (h : mag < 255 * 2 ^ 23) :
    ∃ m e, f32View (f32Pack neg mag) = .fin neg m e ∧ m < 2 ^ 24 ∧ e ≤ max 1 ((mag / 2 ^ 23 : ℕ) : ℤ) - 150
      ∧ (2 ^ 23 ≤ mag → 2 ^ 23 ≤ m ∧ e = ((mag / 2 ^ 23 : ℕ) : ℤ) - 150) := by
  have hv := pack_toNat neg mag (by omega)
  have hx : f32Exp (f32Pack neg mag) = mag / 2 ^ 23 := by unfold f32Exp; rw [hv]; split <;> omega
  unfold f32View
  rw [pack_sign _ _ (by omega), hx, if_neg (by omega)]
  split
  · exact ⟨_, _, rfl, by unfold f32Frac; omega, by omega, fun h => by omega⟩
  · exact ⟨_, _, rfl, by unfold f32Frac; omega, by omega, fun h => ⟨by omega, rfl⟩⟩

/-- A natural number converts with the sign +. -/
theorem int_nat (n : ℕ) : intToF32 n = f32Round false n 0 false := by
  unfold intToF32; rw [decide_eq_false (by omega), Int.natAbs_natCast]

/-- A positive integer of at most 33 bits converts to a positive number. -/
theorem int_view (n : ℕ) (h0 : n ≠ 0) (h : n ≤ 2 ^ 33) :
    ∃ m e, f32View (intToF32 n) = .fin false m e ∧ m ≠ 0 ∧ m < 2 ^ 24 ∧ -24 ≤ e ∧ e ≤ 12 := by
  have hl : Nat.log2 n < 34 := (Nat.log2_lt h0).2 (by omega)
  obtain ⟨mag, e1, e2, e3, e4⟩ := f32Round_mag false n 0 false h0 (by omega)
  have : intToF32 n = f32Pack false mag := by rw [← e1]; exact int_nat n
  obtain ⟨m, e, v1, v2, v3, v4⟩ := pack_fin false mag e2
  have := e3 (by omega)
  obtain ⟨v5, v6⟩ := v4 (by omega)
  exact ⟨m, e, by rw [‹intToF32 n = _›]; exact v1, by omega, v2, by omega, by omega⟩

/-- A converted integer of at most 33 bits is a nonnegative number. -/
theorem int_fin (n : ℕ) (h : n ≤ 2 ^ 33) :
    ∃ m e, f32View (intToF32 n) = .fin false m e ∧ m < 2 ^ 24 ∧ e ≤ 12 := by
  by_cases h0 : n = 0
  · subst h0; exact ⟨0, -149, by decide, by omega, by omega⟩
  · obtain ⟨m, e, v1, _, v2, _, v3⟩ := int_view n h0 h
    exact ⟨m, e, v1, v2, v3⟩

/-- The quotient of two of them is a number and draws nothing. -/
theorem quotient_draw (d d' : ℕ) (x y : F32) (m n : ℕ) (e f : ℤ) (hx : f32View x = .fin false m e)
    (hy : f32View y = .fin false n f) (hm : m < 2 ^ 24) (hn0 : n ≠ 0) (he : e ≤ 12) (hf : -24 ≤ f) :
    f32Div d x y = f32Div d' x y ∧ ∃ m' e', f32View (f32Div d x y) = .fin false m' e' := by
  unfold f32Div
  rw [hx, hy]
  dsimp only
  rw [if_neg hn0, if_neg hn0]
  refine ⟨rfl, ?_⟩
  by_cases h0 : m * 2 ^ 50 / n = 0
  · rw [h0]; exact ⟨0, -149, by simp [f32Round]; decide⟩
  · have hl : Nat.log2 (m * 2 ^ 50 / n) < 74 := (Nat.log2_lt h0).2 (by
      calc m * 2 ^ 50 / n ≤ m * 2 ^ 50 := Nat.div_le_self _ _
        _ < 2 ^ 74 := by omega)
    obtain ⟨mag, e1, e2, _, _⟩ := f32Round_mag (false != false) (m * 2 ^ 50 / n) (e - f - 50)
      (decide (m * 2 ^ 50 % n ≠ 0)) h0 (by omega)
    rw [e1]
    obtain ⟨m', e', v, _⟩ := pack_fin false mag e2
    exact ⟨m', e', v⟩

/-- A sum with a number draws nothing unless the other term is a NaN, and is no NaN. -/
theorem sum_draw (d d' : ℕ) (c y : F32) (s : Bool) (m : ℕ) (e : ℤ) (hc : f32View c = .fin s m e) (hy : f32View y ≠ .nan) :
    f32Add d c y = f32Add d' c y ∧ f32View (f32Add d c y) ≠ .nan := by
  unfold f32Add
  rw [hc]
  cases h : f32View y with
  | nan => exact absurd h hy
  | inf t => exact ⟨rfl, by show f32View (f32Inf t) ≠ .nan; cases t <;> decide⟩
  | fin t n f =>
    refine ⟨rfl, ?_⟩
    dsimp only
    split
    · cases s <;> cases t <;> decide
    · obtain ⟨mag, h1, h2⟩ := round_pack (decide (signed s (m * 2 ^ (e - min e f).toNat) + signed t (n * 2 ^ (f - min e f).toNat) < 0))
        (signed s (m * 2 ^ (e - min e f).toNat) + signed t (n * 2 ^ (f - min e f).toNat)).natAbs (min e f) false
      rw [h2]
      rcases pack_view _ mag h1 with h | ⟨_, _, h⟩ <;> rw [h] <;> simp

/-- The negation of what is no NaN is no NaN. -/
theorem neg_notnan (y : F32) (h : f32View y ≠ .nan) : f32View (f32Neg y) ≠ .nan := by
  intro hc
  rw [view_nan] at hc
  apply h; rw [view_nan]
  obtain ⟨h1, h2⟩ := hc
  have e : (f32Neg y).toNat % 2 ^ 31 = y.toNat % 2 ^ 31 := by
    apply Nat.eq_of_testBit_eq; intro i
    unfold f32Neg
    simp only [BitVec.toNat_xor, Nat.testBit_mod_two_pow, Nat.testBit_xor]
    by_cases hi : i < 31
    · have : (2147483648#32).toNat.testBit i = false := by
        show (2 ^ 31 : ℕ).testBit i = false
        rw [Nat.testBit_two_pow]; simp; omega
      simp only [hi, decide_true, Bool.true_and]
      rw [show (0x80000000 : F32) = 2147483648#32 from rfl, this]; simp
    · simp [hi]
  constructor <;> omega

/-- RAT of a nonnegative number draws nothing and is no NaN (R208). -/
theorem rat_draw (d d' : ℕ) (x : F32) (m : ℕ) (e : ℤ) (hx : f32View x = .fin false m e) :
    ratAt d x = ratAt d' x ∧ f32View (ratAt d x) ≠ .nan := by
  have hsq : f32Mul d x x = f32Mul d' x x ∧ ∃ mag, mag ≤ 0x7F800000 ∧ f32Mul d' x x = f32Pack false mag := by
    unfold f32Mul; rw [hx]; exact ⟨rfl, round_pack _ _ _ _⟩
  obtain ⟨h1, mag, hm, h2⟩ := hsq
  have hprod : f32Mul d 0x3E8FCCE2 (f32Mul d' x x) = f32Mul d' 0x3E8FCCE2 (f32Mul d' x x)
      ∧ ∃ mag, mag ≤ 0x7F800000 ∧ f32Mul d' 0x3E8FCCE2 (f32Mul d' x x) = f32Pack false mag := by
    rw [h2]
    have hc : f32View 0x3E8FCCE2 = .fin false 0x8FCCE2 (-25) := by decide
    unfold f32Mul; rw [hc]
    rcases pack_view false mag hm with h | ⟨n, f, h⟩ <;> rw [h]
    · exact ⟨rfl, 0x7F800000, le_rfl, rfl⟩
    · exact ⟨rfl, round_pack _ _ _ _⟩
  obtain ⟨h3, mag2, hm2, h4⟩ := hprod
  have hone : f32View 0x3F800000 = .fin false 0x800000 (-23) := by decide
  have hn2 : f32View (f32Pack false mag2) ≠ .nan := by
    rcases pack_view false mag2 hm2 with h | ⟨_, _, h⟩ <;> rw [h] <;> simp
  have h5 := (sum_draw d d' 0x3F800000 (f32Pack false mag2) _ _ _ hone hn2).1
  have hden : ∃ mag, 127 * 2 ^ 23 ≤ mag ∧ mag ≤ 0x7F800000 ∧ f32Add d' 0x3F800000 (f32Pack false mag2) = f32Pack false mag := by
    unfold f32Add; rw [hone]
    rcases pack_view false mag2 hm2 with h | ⟨n, f, h⟩ <;> rw [h]
    · exact ⟨0x7F800000, by norm_num, le_rfl, rfl⟩
    · dsimp only [signed]
      simp only [Bool.false_eq_true, if_false]
      obtain ⟨g, hg⟩ : ∃ g, g = min (-23) f := ⟨_, rfl⟩
      rw [← hg]
      obtain ⟨S, hS⟩ : ∃ S : ℕ, S = 8388608 * 2 ^ (-23 - g).toNat + n * 2 ^ (f - g).toNat := ⟨_, rfl⟩
      have hSi : ((8388608 * 2 ^ (-23 - g).toNat : ℕ) : ℤ) + ((n * 2 ^ (f - g).toNat : ℕ) : ℤ) = (S : ℤ) := by rw [hS]; push_cast; ring
      rw [hSi]
      have hge : 2 ^ (-g).toNat ≤ S := by
        have : 2 ^ (-g).toNat = 8388608 * 2 ^ (-23 - g).toNat := by
          rw [show (8388608 : ℕ) = 2 ^ 23 by norm_num, ← pow_add]; congr 1; omega
        rw [hS, this]; omega
      have hpos : 0 < 2 ^ (-g).toNat := by positivity
      have hS0 : S ≠ 0 := by omega
      rw [if_neg (by exact_mod_cast hS0), show decide ((S : ℤ) < 0) = false by simp, Int.natAbs_natCast]
      have hlog : (-g).toNat ≤ Nat.log2 S := (Nat.le_log2 hS0).2 hge
      unfold f32Round
      rw [if_neg hS0]
      dsimp only
      have hb := (roundTo_bounds S g false hS0).2 (by omega)
      refine ⟨_, ?_, Nat.min_le_left _ _, rfl⟩
      generalize roundTo S g (max (g + (Nat.log2 S : ℤ) - 23) (-149)) false = k at hb ⊢
      have hq : 126 ≤ (max (g + (Nat.log2 S : ℤ) - 23) (-149) + 149).toNat := by omega
      generalize (max (g + (Nat.log2 S : ℤ) - 23) (-149) + 149).toNat = q at hq ⊢
      exact le_min (by norm_num) (by omega)
  obtain ⟨mag3, hl, hm3, h6⟩ := hden
  unfold ratAt
  rw [h1, h3, h4, h5, h6]
  have hz : ∀ n f, f32View (f32Pack false mag3) = .fin false n f → n ≠ 0 := by
    intro n f hv h0
    by_cases hh : mag3 < 255 * 2 ^ 23
    · obtain ⟨m', e', v, _, _, v4⟩ := pack_fin false mag3 hh
      rw [hv] at v; cases v
      have := (v4 (by omega)).1; omega
    · have : mag3 = 0x7F800000 := by omega
      rw [this, show f32View (f32Pack false 0x7F800000) = .inf false by decide] at hv; cases hv
  unfold f32Div
  rw [hx]
  rcases pack_view false mag3 hm3 with h | ⟨n, f, h⟩ <;> rw [h]
  · exact ⟨rfl, by show f32View (f32Pack (false != false) 0) ≠ .nan; decide⟩
  · dsimp only
    rw [if_neg (hz n f h), if_neg (hz n f h)]
    refine ⟨rfl, ?_⟩
    obtain ⟨mag, e1, e2⟩ := round_pack (false != false) (m * 2 ^ 50 / n) (e - f - 50) (decide (m * 2 ^ 50 % n ≠ 0))
    rw [e2]
    rcases pack_view (false != false) mag e1 with h | ⟨_, _, h⟩ <;> rw [h] <;> simp

/-- The comparison of two converted integers, not both 0, makes the divisor nonzero (R208). -/
theorem octant_draw (d d' : ℕ) (a b : ℕ) (ha : a ≤ 2 ^ 33) (hb : b ≤ 2 ^ 33) (h : ¬ (a = 0 ∧ b = 0)) :
    octantAt d (intToF32 a) (intToF32 b) = octantAt d' (intToF32 a) (intToF32 b)
      ∧ f32View (octantAt d (intToF32 a) (intToF32 b)) ≠ .nan := by
  have zero : intToF32 (0 : ℕ) = 0 := rfl
  have key : ∀ n : ℕ, n ≠ 0 → n ≤ 2 ^ 33 → 0 < f32Key (intToF32 n) := by
    intro n h0 hn
    have hl : Nat.log2 n < 34 := (Nat.log2_lt h0).2 (by omega)
    obtain ⟨mag, e1, e2, e3, _⟩ := f32Round_mag false n 0 false h0 (by omega)
    have : intToF32 n = f32Pack false mag := by rw [← e1]; exact int_nat n
    have := e3 (by omega)
    rw [‹intToF32 n = _›]
    unfold f32Key
    rw [pack_sign _ _ (by omega)]
    unfold signed f32Mag
    rw [pack_toNat _ _ (by omega)]
    simp; omega
  have notnan : ∀ n : ℕ, f32IsNaN (intToF32 n) = false := by
    intro n
    have := int_notnan (n : ℤ)
    rw [Ne, view_nan] at this
    cases hh : f32IsNaN (intToF32 n) with
    | false => rfl
    | true =>
      exfalso; apply this
      unfold f32IsNaN at hh
      simpa [IsNaN, f32Exp, f32Frac] using hh
  have key0 : f32Key (intToF32 0) = 0 := by decide
  obtain ⟨ma, ea, va, la, ba⟩ := int_fin a ha
  obtain ⟨mb, eb, vb, lb, bb⟩ := int_fin b hb
  unfold octantAt
  by_cases hge : f32Ge (intToF32 a) (intToF32 b) = true
  · rw [if_pos hge, if_pos hge]
    have ha0 : a ≠ 0 := by
      rintro rfl
      have hb0 : b ≠ 0 := fun e => h ⟨rfl, e⟩
      unfold f32Ge at hge
      rw [notnan, notnan] at hge
      have := key b hb0 hb
      simp [key0] at hge; omega
    obtain ⟨m, e, v, n0, n1, n2, n3⟩ := int_view a ha0 ha
    obtain ⟨q1, m', e', q2⟩ := quotient_draw d d' _ _ _ _ _ _ vb v lb n0 bb n2
    rw [← q1]
    exact rat_draw d d' _ _ _ q2
  · rw [if_neg hge, if_neg hge]
    have hb0 : b ≠ 0 := by
      rintro rfl
      apply hge
      unfold f32Ge
      rw [notnan, notnan]
      by_cases ha0 : a = 0
      · subst ha0; simp
      · have := key a ha0 ha
        simp [key0]; omega
    obtain ⟨m, e, v, n0, n1, n2, n3⟩ := int_view b hb0 hb
    obtain ⟨q1, m', e', q2⟩ := quotient_draw d d' _ _ _ _ _ _ va v la n0 ba n2
    rw [← q1]
    obtain ⟨r1, r2⟩ := rat_draw d d' _ _ _ q2
    rw [← r1]
    have hc : f32View 0x3FC90FDB = .fin false 0xC90FDB (-23) := by decide
    exact sum_draw d d' _ _ _ _ _ hc (neg_notnan _ r2)

/-- ANGLE does not depend on the free values (R208), for operands of at most 33 bits. -/
theorem angle_draw (d : ℕ) (tr ti : Int) (h1 : tr.natAbs ≤ 2 ^ 33) (h2 : ti.natAbs ≤ 2 ^ 33) :
    angle tr ti = angleAt d tr ti := by
  unfold angle angleAt
  by_cases h0 : tr = 0 ∧ ti = 0
  · rw [if_pos h0, if_pos h0]
  · rw [if_neg h0, if_neg h0]
    have ea : |tr| = (tr.natAbs : ℤ) := Int.abs_eq_natAbs tr
    have eb : |ti| = (ti.natAbs : ℤ) := Int.abs_eq_natAbs ti
    obtain ⟨o1, o2⟩ := octant_draw d 0 tr.natAbs ti.natAbs h1 h2 (by omega)
    have hc : f32View 0x40490FDB = .fin false 0xC90FDB (-22) := by decide
    have o3 := (sum_draw d 0 0x40490FDB (f32Neg (octantAt d (intToF32 tr.natAbs) (intToF32 ti.natAbs))) _ _ _ hc
      (neg_notnan _ o2)).1
    rw [ea, eb]
    dsimp only
    have e1 : (if f32Ge (intToF32 tr.natAbs) (intToF32 ti.natAbs) = true then
          rat (f32Div 0 (intToF32 ti.natAbs) (intToF32 tr.natAbs))
        else f32Sub 0 0x3FC90FDB (rat (f32Div 0 (intToF32 tr.natAbs) (intToF32 ti.natAbs))))
        = octantAt 0 (intToF32 tr.natAbs) (intToF32 ti.natAbs) := rfl
    unfold f32Sub at o3 ⊢
    rw [show (if f32Ge (intToF32 tr.natAbs) (intToF32 ti.natAbs) = true then
          rat (f32Div 0 (intToF32 ti.natAbs) (intToF32 tr.natAbs))
        else f32Add 0 0x3FC90FDB (f32Neg (rat (f32Div 0 (intToF32 tr.natAbs) (intToF32 ti.natAbs)))))
        = octantAt 0 (intToF32 tr.natAbs) (intToF32 ti.natAbs) from rfl, ← o1, o3]

end Sys2Proof.Machine
end

