-- ==== Sys2Proof/Laws/Audio.lean ====
section
/-! SUPPORT. One sample through the audio chain says what 46_audio_output.md R285, R289 and R290 say. -/

namespace Sys2Proof.Machine
open Sys2Proof

/-- TO_S16's product saturates alike whatever a NaN of it would draw. -/
theorem toAudio_eq (d : Nat) (y : F32) : toAudio y = toS16At d y := by
  have h := toS32_mul 0 d y 0x47000000
  unfold toAudio toS16At toS16 sat16 clamp
  rw [h]

/-- Everything AUD_STAGE does with a sample: the three stages in order, the muting, the history. -/
theorem audStage_step (p : Params) (d : Nat) (cfg : List Byte) (m : AudioMemory) (x : F32) :
    StageStep p d cfg m x (audStage p d cfg m x).1 (audStage p d cfg m x).2 := by
  let d1 := d + filterDraws p.audStage.highPass
  let d2 := d1 + deEmphasisDraws p.audStage.deEmphasis
  let gate := match p.audStage.squelch with
    | none => (d2, d2)
    | some g => (d2 + exprDraws g.level, d2 + exprDraws g.level + exprDraws g.threshold)
  have h3 : d2 ≤ gate.1 ∧ gate.1 ≤ gate.2 ∧ gate.2 ≤ d2 + squelchDraws p.audStage.squelch := by
    simp only [gate]
    cases p.audStage.squelch <;> (simp [squelchDraws]; try omega)
  refine ⟨d1, d2, gate.1, gate.2, d2 + squelchDraws p.audStage.squelch, _, _, _, by omega, by omega, h3.1, h3.2.1, h3.2.2,
    rfl, ?_, ?_, ?_, ?_, rfl, rfl⟩
  · intro h
    simp only [audStage, h, deEmphasize]
    exact ⟨rfl, trivial⟩
  · intro f h
    simp only [audStage, h, deEmphasize]
    rfl
  · intro h
    simp only [audStage, h, squelchGate]
    exact ⟨trivial, trivial⟩
  · intro g h
    simp only [gate, audStage, h, squelchGate]
    refine ⟨?_, rfl⟩
    rw [Bool.not_eq_false']

end Sys2Proof.Machine
end

