-- ==== Sys2Proof/Laws/State.lean ====
section
/-! SUPPORT. One lemma per field for each named update of the state, so that no proof unfolds a record update. -/

namespace Sys2Proof.Machine
open Sys2Proof

/-! ### `raise` -/

@[simp] theorem State.raise_mode (s : State) (x : ErrCond) : (s.raise x).mode = s.mode := rfl
@[simp] theorem State.raise_bufCount (s : State) (x : ErrCond) : (s.raise x).bufCount = s.bufCount := rfl
@[simp] theorem State.raise_errstat (s : State) (x : ErrCond) : (s.raise x).errstat = errBits s.errstat x := rfl
@[simp] theorem State.raise_evt (s : State) (x : ErrCond) : (s.raise x).evt = s.evt := rfl
@[simp] theorem State.raise_a2b (s : State) (x : ErrCond) : (s.raise x).a2b = s.a2b := rfl
@[simp] theorem State.raise_b2a (s : State) (x : ErrCond) : (s.raise x).b2a = s.b2a := rfl
@[simp] theorem State.raise_mem (s : State) (x : ErrCond) : (s.raise x).mem = s.mem := rfl
@[simp] theorem State.raise_pfd0 (s : State) (x : ErrCond) : (s.raise x).pfd0 = s.pfd0 := rfl
@[simp] theorem State.raise_pfd1 (s : State) (x : ErrCond) : (s.raise x).pfd1 = s.pfd1 := rfl
@[simp] theorem State.raise_pfd2 (s : State) (x : ErrCond) : (s.raise x).pfd2 = s.pfd2 := rfl
@[simp] theorem State.raise_bpf (s : State) (x : ErrCond) : (s.raise x).bpf = s.bpf := rfl
@[simp] theorem State.raise_fbf (s : State) (x : ErrCond) : (s.raise x).fbf = s.fbf := rfl
@[simp] theorem State.raise_amd (s : State) (x : ErrCond) : (s.raise x).amd = s.amd := rfl
@[simp] theorem State.raise_fmd (s : State) (x : ErrCond) : (s.raise x).fmd = s.fmd := rfl
@[simp] theorem State.raise_str (s : State) (x : ErrCond) : (s.raise x).str = s.str := rfl
@[simp] theorem State.raise_pkt (s : State) (x : ErrCond) : (s.raise x).pkt = s.pkt := rfl
@[simp] theorem State.raise_spc (s : State) (x : ErrCond) : (s.raise x).spc = s.spc := rfl
@[simp] theorem State.raise_slot (s : State) (x : ErrCond) : (s.raise x).slot = s.slot := rfl
@[simp] theorem State.raise_aud (s : State) (x : ErrCond) : (s.raise x).aud = s.aud := rfl
@[simp] theorem State.raise_params (s : State) (x : ErrCond) : (s.raise x).params = s.params := rfl
@[simp] theorem State.raise_agenda (s : State) (x : ErrCond) : (s.raise x).agenda = s.agenda := rfl
@[simp] theorem State.raise_ret (s : State) (x : ErrCond) : (s.raise x).ret = s.ret := rfl
@[simp] theorem State.raise_sink (s : State) (x : ErrCond) : (s.raise x).sink = s.sink := rfl
@[simp] theorem State.raise_draws (s : State) (x : ErrCond) : (s.raise x).draws = s.draws := rfl

/-! ### `setChan` -/

@[simp] theorem State.setChan_mode (s : State) (c : Chan) (x : ChannelRegs) : (s.setChan c x).mode = s.mode := by
  cases c <;> rfl
@[simp] theorem State.setChan_bufCount (s : State) (c : Chan) (x : ChannelRegs) : (s.setChan c x).bufCount = s.bufCount := by
  cases c <;> rfl
@[simp] theorem State.setChan_errstat (s : State) (c : Chan) (x : ChannelRegs) : (s.setChan c x).errstat = s.errstat := by
  cases c <;> rfl
@[simp] theorem State.setChan_evt (s : State) (c : Chan) (x : ChannelRegs) : (s.setChan c x).evt = s.evt := by
  cases c <;> rfl
@[simp] theorem State.setChan_mem (s : State) (c : Chan) (x : ChannelRegs) : (s.setChan c x).mem = s.mem := by
  cases c <;> rfl
@[simp] theorem State.setChan_pfd0 (s : State) (c : Chan) (x : ChannelRegs) : (s.setChan c x).pfd0 = s.pfd0 := by
  cases c <;> rfl
@[simp] theorem State.setChan_pfd1 (s : State) (c : Chan) (x : ChannelRegs) : (s.setChan c x).pfd1 = s.pfd1 := by
  cases c <;> rfl
@[simp] theorem State.setChan_pfd2 (s : State) (c : Chan) (x : ChannelRegs) : (s.setChan c x).pfd2 = s.pfd2 := by
  cases c <;> rfl
@[simp] theorem State.setChan_bpf (s : State) (c : Chan) (x : ChannelRegs) : (s.setChan c x).bpf = s.bpf := by
  cases c <;> rfl
@[simp] theorem State.setChan_fbf (s : State) (c : Chan) (x : ChannelRegs) : (s.setChan c x).fbf = s.fbf := by
  cases c <;> rfl
@[simp] theorem State.setChan_amd (s : State) (c : Chan) (x : ChannelRegs) : (s.setChan c x).amd = s.amd := by
  cases c <;> rfl
@[simp] theorem State.setChan_fmd (s : State) (c : Chan) (x : ChannelRegs) : (s.setChan c x).fmd = s.fmd := by
  cases c <;> rfl
@[simp] theorem State.setChan_str (s : State) (c : Chan) (x : ChannelRegs) : (s.setChan c x).str = s.str := by
  cases c <;> rfl
@[simp] theorem State.setChan_pkt (s : State) (c : Chan) (x : ChannelRegs) : (s.setChan c x).pkt = s.pkt := by
  cases c <;> rfl
@[simp] theorem State.setChan_spc (s : State) (c : Chan) (x : ChannelRegs) : (s.setChan c x).spc = s.spc := by
  cases c <;> rfl
@[simp] theorem State.setChan_slot (s : State) (c : Chan) (x : ChannelRegs) : (s.setChan c x).slot = s.slot := by
  cases c <;> rfl
@[simp] theorem State.setChan_aud (s : State) (c : Chan) (x : ChannelRegs) : (s.setChan c x).aud = s.aud := by
  cases c <;> rfl
@[simp] theorem State.setChan_params (s : State) (c : Chan) (x : ChannelRegs) : (s.setChan c x).params = s.params := by
  cases c <;> rfl
@[simp] theorem State.setChan_agenda (s : State) (c : Chan) (x : ChannelRegs) : (s.setChan c x).agenda = s.agenda := by
  cases c <;> rfl
@[simp] theorem State.setChan_ret (s : State) (c : Chan) (x : ChannelRegs) : (s.setChan c x).ret = s.ret := by
  cases c <;> rfl
@[simp] theorem State.setChan_sink (s : State) (c : Chan) (x : ChannelRegs) : (s.setChan c x).sink = s.sink := by
  cases c <;> rfl
@[simp] theorem State.setChan_draws (s : State) (c : Chan) (x : ChannelRegs) : (s.setChan c x).draws = s.draws := by
  cases c <;> rfl
@[simp] theorem State.setChan_chan (s : State) (c : Chan) (x : ChannelRegs) : (s.setChan c x).chan c = x := by
  cases c <;> rfl
@[simp] theorem State.setChan_a2b_a2b (s : State) (x : ChannelRegs) : (s.setChan .a2b x).a2b = x := rfl
@[simp] theorem State.setChan_b2a_b2a (s : State) (x : ChannelRegs) : (s.setChan .b2a x).b2a = x := rfl
@[simp] theorem State.setChan_a2b_b2a (s : State) (x : ChannelRegs) : (s.setChan .a2b x).b2a = s.b2a := rfl
@[simp] theorem State.setChan_b2a_a2b (s : State) (x : ChannelRegs) : (s.setChan .b2a x).a2b = s.a2b := rfl
@[simp] theorem State.chan_a2b (s : State) : s.chan .a2b = s.a2b := rfl
@[simp] theorem State.chan_b2a (s : State) : s.chan .b2a = s.b2a := rfl
@[simp] theorem State.setChan_same (s : State) (c : Chan) : s.setChan c (s.chan c) = s := by
  cases c <;> rfl
theorem State.setChan_other (s : State) (c d : Chan) (x : ChannelRegs) (h : d ≠ c) :
    (s.setChan c x).chan d = s.chan d := by
  cases c <;> cases d <;> first | rfl | exact absurd rfl h

/-! ### `setPfd` -/

@[simp] theorem State.setPfd_mode (s : State) (i : Fin 3) (u : FirUnit) : (s.setPfd i u).mode = s.mode := by
  unfold State.setPfd; split <;> [skip; split] <;> rfl
@[simp] theorem State.setPfd_bufCount (s : State) (i : Fin 3) (u : FirUnit) : (s.setPfd i u).bufCount = s.bufCount := by
  unfold State.setPfd; split <;> [skip; split] <;> rfl
@[simp] theorem State.setPfd_errstat (s : State) (i : Fin 3) (u : FirUnit) : (s.setPfd i u).errstat = s.errstat := by
  unfold State.setPfd; split <;> [skip; split] <;> rfl
@[simp] theorem State.setPfd_evt (s : State) (i : Fin 3) (u : FirUnit) : (s.setPfd i u).evt = s.evt := by
  unfold State.setPfd; split <;> [skip; split] <;> rfl
@[simp] theorem State.setPfd_a2b (s : State) (i : Fin 3) (u : FirUnit) : (s.setPfd i u).a2b = s.a2b := by
  unfold State.setPfd; split <;> [skip; split] <;> rfl
@[simp] theorem State.setPfd_b2a (s : State) (i : Fin 3) (u : FirUnit) : (s.setPfd i u).b2a = s.b2a := by
  unfold State.setPfd; split <;> [skip; split] <;> rfl
@[simp] theorem State.setPfd_mem (s : State) (i : Fin 3) (u : FirUnit) : (s.setPfd i u).mem = s.mem := by
  unfold State.setPfd; split <;> [skip; split] <;> rfl
@[simp] theorem State.setPfd_bpf (s : State) (i : Fin 3) (u : FirUnit) : (s.setPfd i u).bpf = s.bpf := by
  unfold State.setPfd; split <;> [skip; split] <;> rfl
@[simp] theorem State.setPfd_fbf (s : State) (i : Fin 3) (u : FirUnit) : (s.setPfd i u).fbf = s.fbf := by
  unfold State.setPfd; split <;> [skip; split] <;> rfl
@[simp] theorem State.setPfd_amd (s : State) (i : Fin 3) (u : FirUnit) : (s.setPfd i u).amd = s.amd := by
  unfold State.setPfd; split <;> [skip; split] <;> rfl
@[simp] theorem State.setPfd_fmd (s : State) (i : Fin 3) (u : FirUnit) : (s.setPfd i u).fmd = s.fmd := by
  unfold State.setPfd; split <;> [skip; split] <;> rfl
@[simp] theorem State.setPfd_str (s : State) (i : Fin 3) (u : FirUnit) : (s.setPfd i u).str = s.str := by
  unfold State.setPfd; split <;> [skip; split] <;> rfl
@[simp] theorem State.setPfd_pkt (s : State) (i : Fin 3) (u : FirUnit) : (s.setPfd i u).pkt = s.pkt := by
  unfold State.setPfd; split <;> [skip; split] <;> rfl
@[simp] theorem State.setPfd_spc (s : State) (i : Fin 3) (u : FirUnit) : (s.setPfd i u).spc = s.spc := by
  unfold State.setPfd; split <;> [skip; split] <;> rfl
@[simp] theorem State.setPfd_slot (s : State) (i : Fin 3) (u : FirUnit) : (s.setPfd i u).slot = s.slot := by
  unfold State.setPfd; split <;> [skip; split] <;> rfl
@[simp] theorem State.setPfd_aud (s : State) (i : Fin 3) (u : FirUnit) : (s.setPfd i u).aud = s.aud := by
  unfold State.setPfd; split <;> [skip; split] <;> rfl
@[simp] theorem State.setPfd_params (s : State) (i : Fin 3) (u : FirUnit) : (s.setPfd i u).params = s.params := by
  unfold State.setPfd; split <;> [skip; split] <;> rfl
@[simp] theorem State.setPfd_agenda (s : State) (i : Fin 3) (u : FirUnit) : (s.setPfd i u).agenda = s.agenda := by
  unfold State.setPfd; split <;> [skip; split] <;> rfl
@[simp] theorem State.setPfd_ret (s : State) (i : Fin 3) (u : FirUnit) : (s.setPfd i u).ret = s.ret := by
  unfold State.setPfd; split <;> [skip; split] <;> rfl
@[simp] theorem State.setPfd_sink (s : State) (i : Fin 3) (u : FirUnit) : (s.setPfd i u).sink = s.sink := by
  unfold State.setPfd; split <;> [skip; split] <;> rfl
@[simp] theorem State.setPfd_draws (s : State) (i : Fin 3) (u : FirUnit) : (s.setPfd i u).draws = s.draws := by
  unfold State.setPfd; split <;> [skip; split] <;> rfl
@[simp] theorem State.setPfd_pfd (s : State) (i : Fin 3) (u : FirUnit) : (s.setPfd i u).pfd i = u := by
  match i with
  | 0 => rfl
  | 1 => rfl
  | 2 => rfl
@[simp] theorem State.pfd_zero (s : State) : s.pfd 0 = s.pfd0 := rfl
@[simp] theorem State.pfd_one (s : State) : s.pfd 1 = s.pfd1 := rfl
@[simp] theorem State.pfd_two (s : State) : s.pfd 2 = s.pfd2 := rfl
@[simp] theorem State.setPfd_zero (s : State) (u : FirUnit) : s.setPfd 0 u = { s with pfd0 := u } := rfl
@[simp] theorem State.setPfd_one (s : State) (u : FirUnit) : s.setPfd 1 u = { s with pfd1 := u } := rfl
@[simp] theorem State.setPfd_two (s : State) (u : FirUnit) : s.setPfd 2 u = { s with pfd2 := u } := rfl

/-! ### `taken` -/

@[simp] theorem State.taken_mode (s : State) : s.taken.mode = s.mode := rfl
@[simp] theorem State.taken_bufCount (s : State) : s.taken.bufCount = s.bufCount := rfl
@[simp] theorem State.taken_errstat (s : State) : s.taken.errstat = s.errstat := rfl
@[simp] theorem State.taken_evt (s : State) : s.taken.evt = s.evt := rfl
@[simp] theorem State.taken_a2b (s : State) : s.taken.a2b = s.a2b := rfl
@[simp] theorem State.taken_b2a (s : State) : s.taken.b2a = s.b2a := rfl
@[simp] theorem State.taken_mem (s : State) : s.taken.mem = s.mem := rfl
@[simp] theorem State.taken_pfd0 (s : State) : s.taken.pfd0 = s.pfd0 := rfl
@[simp] theorem State.taken_pfd1 (s : State) : s.taken.pfd1 = s.pfd1 := rfl
@[simp] theorem State.taken_pfd2 (s : State) : s.taken.pfd2 = s.pfd2 := rfl
@[simp] theorem State.taken_bpf (s : State) : s.taken.bpf = s.bpf := rfl
@[simp] theorem State.taken_fbf (s : State) : s.taken.fbf = s.fbf := rfl
@[simp] theorem State.taken_amd (s : State) : s.taken.amd = s.amd := rfl
@[simp] theorem State.taken_fmd (s : State) : s.taken.fmd = s.fmd := rfl
@[simp] theorem State.taken_str (s : State) : s.taken.str = s.str := rfl
@[simp] theorem State.taken_pkt (s : State) : s.taken.pkt = s.pkt := rfl
@[simp] theorem State.taken_spc (s : State) : s.taken.spc = s.spc := rfl
@[simp] theorem State.taken_slot (s : State) : s.taken.slot = s.slot := rfl
@[simp] theorem State.taken_aud (s : State) : s.taken.aud = s.aud := rfl
@[simp] theorem State.taken_params (s : State) : s.taken.params = s.params := rfl
@[simp] theorem State.taken_agenda (s : State) : s.taken.agenda = s.agenda.tail := rfl
@[simp] theorem State.taken_ret (s : State) : s.taken.ret = s.ret := rfl
@[simp] theorem State.taken_sink (s : State) : s.taken.sink = s.sink := rfl
@[simp] theorem State.taken_draws (s : State) : s.taken.draws = s.draws := rfl

/-- What a finished operation answers, and nothing else of the state than `ret` changes with it. -/
@[simp] theorem done_next_iff (r : Ret) (s t : State) : done r s = .next t ↔ t = { s with ret := r } := by
  simp [done, eq_comm]

end Sys2Proof.Machine
end

