-- ==== Sys2Proof/Laws/Memory.lean ====
section
/-! SUPPORT. The laws of the ring storage: read after write, and every memory operation keeps the canonical form. -/

namespace Sys2Proof.Machine
open Sys2Proof

/-- A byte reads as it was last written, and a write leaves every other byte alone. -/
theorem memGet_memSet (m : Memory) (k j : Nat) (v : Byte) :
    memGet (memSet m k v) j = if j = k then some v else memGet m j := by
  induction m with
  | nil => simp [memSet, memGet, eq_comm]
  | cons c m ih =>
    obtain ⟨a, b⟩ := c
    unfold memSet
    split
    · by_cases h : j = k
      · simp [memGet, h]
      · simp [memGet, h, Ne.symm h]
    · split
      · rename_i h1 h2
        subst h2
        by_cases h : j = k
        · simp [memGet, h]
        · simp [memGet, h, Ne.symm h]
      · rename_i h1 h2
        by_cases h : j = k
        · subst h
          simp [memGet, ih, Ne.symm h2]
        · simp [memGet, ih, h]

theorem mem_memSet (m : Memory) (k : Nat) (v : Byte) (c : Nat × Byte) (h : c ∈ memSet m k v) :
    c = (k, v) ∨ c ∈ m := by
  induction m with
  | nil => simpa [memSet] using h
  | cons d m ih =>
    obtain ⟨a, b⟩ := d
    unfold memSet at h
    split at h
    · simpa using h
    · split at h
      · rcases List.mem_cons.1 h with h | h
        · exact .inl h
        · exact .inr (List.mem_cons_of_mem _ h)
      · rcases List.mem_cons.1 h with h | h
        · exact .inr (h ▸ List.mem_cons_self)
        · rcases ih h with h | h
          · exact .inl h
          · exact .inr (List.mem_cons_of_mem _ h)

theorem memSet_rising (m : Memory) (k : Nat) (v : Byte) (h : (m.map Prod.fst).Pairwise (· < ·)) :
    ((memSet m k v).map Prod.fst).Pairwise (· < ·) := by
  induction m with
  | nil => simp [memSet]
  | cons d m ih =>
    obtain ⟨a, b⟩ := d
    simp only [List.map_cons, List.pairwise_cons] at h
    unfold memSet
    split
    · rename_i hk
      simp only [List.map_cons, List.pairwise_cons]
      refine ⟨fun x hx => ?_, h⟩
      rcases List.mem_cons.1 hx with hx | hx
      · exact hx ▸ hk
      · exact Nat.lt_trans hk (h.1 x hx)
    · split
      · rename_i hk
        subst hk
        simpa [List.pairwise_cons] using h
      · rename_i h1 h2
        simp only [List.map_cons, List.pairwise_cons]
        refine ⟨fun x hx => ?_, ih h.2⟩
        obtain ⟨c, hc, rfl⟩ := List.mem_map.1 hx
        rcases mem_memSet m k v c hc with hc | hc
        · subst hc; dsimp only; omega
        · exact h.1 _ (List.mem_map_of_mem hc)

/-- A write into the ring storage keeps the canonical form. -/
theorem memSet_wf (p : Params) (m : Memory) (k : Nat) (v : Byte) (h : Memory.wf p m = true)
    (h1 : 0x200 ≤ k) (h2 : k < shmSize p) : Memory.wf p (memSet m k v) = true := by
  simp only [Memory.wf, Bool.and_eq_true, decide_eq_true_eq, List.all_eq_true] at h ⊢
  refine ⟨memSet_rising m k v h.1, fun c hc => ?_⟩
  rcases mem_memSet m k v c hc with rfl | hc
  · exact ⟨h1, h2⟩
  · exact h.2 c hc

/-- Reset memory has the canonical form. -/
theorem reset_memory_wf : Memory.wf State.reset.params State.reset.mem = true := by decide

theorem ringOffset_succ (base cap pos i : Nat) : ringOffset base cap (pos + 1) i = ringOffset base cap pos (i + 1) := by
  simp [ringOffset, Nat.add_assoc, Nat.add_comm 1]

/-- Two different bytes of one ring-full stand at different offsets. -/
theorem ringOffset_inj (base cap pos i j : Nat) (hi : i < cap) (hj : j < cap)
    (h : ringOffset base cap pos i = ringOffset base cap pos j) : i = j := by
  unfold ringOffset at h
  have h' : (pos + i) % cap = (pos + j) % cap := by omega
  have := (Nat.ModEq.add_left_cancel' pos (show pos + i ≡ pos + j [MOD cap] from h'))
  unfold Nat.ModEq at this
  rwa [Nat.mod_eq_of_lt hi, Nat.mod_eq_of_lt hj] at this

/-- Bytes that a ring write does not store to are left alone. -/
theorem memGet_writeRing_out (base cap : Nat) (bs : List Byte) : ∀ (pos : Nat) (m : Memory) (off : Nat),
    (∀ i, i < bs.length → off ≠ ringOffset base cap pos i) → memGet (writeRing base cap pos bs m) off = memGet m off := by
  induction bs with
  | nil => intros; rfl
  | cons b bs ih =>
    intro pos m off h
    rw [writeRing, ih, memGet_memSet, if_neg (h 0 (by simp))]
    intro i hi
    rw [ringOffset_succ]
    exact h (i + 1) (by simpa using hi)

/-- The bytes a ring write stores. -/
theorem memGet_writeRing_in (base cap : Nat) (bs : List Byte) : ∀ (pos : Nat) (m : Memory) (i : Nat),
    bs.length ≤ cap → (h : i < bs.length) → memGet (writeRing base cap pos bs m) (ringOffset base cap pos i) = some bs[i] := by
  induction bs with
  | nil => intro _ _ i _ h; simp at h
  | cons b bs ih =>
    intro pos m i hc h
    simp only [List.length_cons] at hc h
    rw [writeRing]
    cases i with
    | zero =>
      rw [memGet_writeRing_out, memGet_memSet, if_pos rfl]; rfl
      intro i hi he
      rw [ringOffset_succ] at he
      exact absurd (ringOffset_inj base cap pos _ _ (by omega) (by omega) he) (by omega)
    | succ i =>
      rw [← ringOffset_succ, ih _ _ _ (by omega) (by omega)]
      rfl

theorem ringOffset_range (base cap pos i : Nat) (h : 0 < cap) :
    base ≤ ringOffset base cap pos i ∧ ringOffset base cap pos i < base + cap := by
  have := Nat.mod_lt (pos + i) h
  unfold ringOffset
  omega

/-- A ring write keeps the canonical form. -/
theorem writeRing_wf (p : Params) (b2a : Bool) (hcap : 0 < p.mfcCap) (bs : List Byte) : ∀ (pos : Nat) (m : Memory),
    Memory.wf p m = true → Memory.wf p (writeRing (ringBase p.mfcCap b2a) p.mfcCap pos bs m) = true := by
  induction bs with
  | nil => intro _ _ h; exact h
  | cons b bs ih =>
    intro pos m h
    rw [writeRing]
    refine ih _ _ (memSet_wf p m _ b h ?_ ?_) <;>
    · have := ringOffset_range (ringBase p.mfcCap b2a) p.mfcCap pos 0 hcap
      unfold ringBase at this ⊢
      cases b2a <;> simp_all [shmSize] <;> omega

end Sys2Proof.Machine
end

