-- ==== Sys2Proof/Laws/Channel.lean ====
section
/-! SUPPORT. What MFC.SEND, MFC.RECV and MFC.SYNC can do, said once each (40_message_channel.md R153, R155, R158). -/

namespace Sys2Proof.Machine
open Sys2Proof

/-- A legal ring capacity: positive, at most 2^16, and a divisor of 2^32, so that the index is continuous where a cursor
wraps (20_memory.md R96). -/
theorem capOk_bounds (n : Nat) (h : capOk n = true) : 16 ≤ n ∧ n ≤ 65536 ∧ n ∣ 2 ^ 32 := by
  simp only [capOk, List.any_eq_true, List.mem_range, beq_iff_eq] at h
  obtain ⟨k, hk, rfl⟩ := h
  refine ⟨?_, ?_, pow_dvd_pow 2 (by omega)⟩
  · calc 16 = 2 ^ 4 := rfl
      _ ≤ 2 ^ (k + 4) := Nat.pow_le_pow_right (by omega) (by omega)
  · calc 2 ^ (k + 4) ≤ 2 ^ 16 := Nat.pow_le_pow_right (by omega) (by omega)
      _ = 65536 := rfl

theorem paramsOk_cap (p : Params) (h : paramsOk p = true) : capOk p.mfcCap = true := by
  simp only [paramsOk, Bool.and_eq_true] at h
  exact h.1.1.1.1.1.1.1

/-- Everything a SEND can do: refuse a bad message; refuse one with no room, with the error bit on B2A only; store it and
advance the write cursor. -/
theorem State.send_cases (s : State) (c : Chan) (k : Byte) (pl : List Byte) :
    (badMessage s.params k pl.length = true ∧ s.send c k pl = (s, false))
      ∨ (badMessage s.params k pl.length = false ∧ noRoom s.params (s.chan c) pl.length = true
          ∧ s.send c k pl = (if c = .b2a then s.raise .txOverflow else s, false))
      ∨ (badMessage s.params k pl.length = false ∧ noRoom s.params (s.chan c) pl.length = false
          ∧ s.send c k pl =
            ({ s with mem := writeRing (s.ringBase c) s.params.mfcCap (s.chan c).w.toNat (messageBytes k pl) s.mem }.setChan c
              { s.chan c with w := (s.chan c).w + BitVec.ofNat 32 (4 + pl.length) }, true)) := by
  unfold State.send
  split
  · rename_i h; exact .inl ⟨h, rfl⟩
  · rename_i h
    split
    · rename_i h'; refine .inr (.inl ⟨by simpa using h, h', ?_⟩); cases c <;> rfl
    · rename_i h'; exact .inr (.inr ⟨by simpa using h, by simpa using h', rfl⟩)

@[simp] theorem State.send_mode (s : State) (c : Chan) (k : Byte) (pl : List Byte) : (s.send c k pl).1.mode = s.mode := by
  rcases s.send_cases c k pl with ⟨_, h⟩ | ⟨_, _, h⟩ | ⟨_, _, h⟩ <;> rw [h] <;> cases c <;> rfl
@[simp] theorem State.send_bufCount (s : State) (c : Chan) (k : Byte) (pl : List Byte) : (s.send c k pl).1.bufCount = s.bufCount := by
  rcases s.send_cases c k pl with ⟨_, h⟩ | ⟨_, _, h⟩ | ⟨_, _, h⟩ <;> rw [h] <;> cases c <;> rfl
@[simp] theorem State.send_evt (s : State) (c : Chan) (k : Byte) (pl : List Byte) : (s.send c k pl).1.evt = s.evt := by
  rcases s.send_cases c k pl with ⟨_, h⟩ | ⟨_, _, h⟩ | ⟨_, _, h⟩ <;> rw [h] <;> cases c <;> rfl
@[simp] theorem State.send_pfd0 (s : State) (c : Chan) (k : Byte) (pl : List Byte) : (s.send c k pl).1.pfd0 = s.pfd0 := by
  rcases s.send_cases c k pl with ⟨_, h⟩ | ⟨_, _, h⟩ | ⟨_, _, h⟩ <;> rw [h] <;> cases c <;> rfl
@[simp] theorem State.send_pfd1 (s : State) (c : Chan) (k : Byte) (pl : List Byte) : (s.send c k pl).1.pfd1 = s.pfd1 := by
  rcases s.send_cases c k pl with ⟨_, h⟩ | ⟨_, _, h⟩ | ⟨_, _, h⟩ <;> rw [h] <;> cases c <;> rfl
@[simp] theorem State.send_pfd2 (s : State) (c : Chan) (k : Byte) (pl : List Byte) : (s.send c k pl).1.pfd2 = s.pfd2 := by
  rcases s.send_cases c k pl with ⟨_, h⟩ | ⟨_, _, h⟩ | ⟨_, _, h⟩ <;> rw [h] <;> cases c <;> rfl
@[simp] theorem State.send_bpf (s : State) (c : Chan) (k : Byte) (pl : List Byte) : (s.send c k pl).1.bpf = s.bpf := by
  rcases s.send_cases c k pl with ⟨_, h⟩ | ⟨_, _, h⟩ | ⟨_, _, h⟩ <;> rw [h] <;> cases c <;> rfl
@[simp] theorem State.send_fbf (s : State) (c : Chan) (k : Byte) (pl : List Byte) : (s.send c k pl).1.fbf = s.fbf := by
  rcases s.send_cases c k pl with ⟨_, h⟩ | ⟨_, _, h⟩ | ⟨_, _, h⟩ <;> rw [h] <;> cases c <;> rfl
@[simp] theorem State.send_amd (s : State) (c : Chan) (k : Byte) (pl : List Byte) : (s.send c k pl).1.amd = s.amd := by
  rcases s.send_cases c k pl with ⟨_, h⟩ | ⟨_, _, h⟩ | ⟨_, _, h⟩ <;> rw [h] <;> cases c <;> rfl
@[simp] theorem State.send_fmd (s : State) (c : Chan) (k : Byte) (pl : List Byte) : (s.send c k pl).1.fmd = s.fmd := by
  rcases s.send_cases c k pl with ⟨_, h⟩ | ⟨_, _, h⟩ | ⟨_, _, h⟩ <;> rw [h] <;> cases c <;> rfl
@[simp] theorem State.send_str (s : State) (c : Chan) (k : Byte) (pl : List Byte) : (s.send c k pl).1.str = s.str := by
  rcases s.send_cases c k pl with ⟨_, h⟩ | ⟨_, _, h⟩ | ⟨_, _, h⟩ <;> rw [h] <;> cases c <;> rfl
@[simp] theorem State.send_pkt (s : State) (c : Chan) (k : Byte) (pl : List Byte) : (s.send c k pl).1.pkt = s.pkt := by
  rcases s.send_cases c k pl with ⟨_, h⟩ | ⟨_, _, h⟩ | ⟨_, _, h⟩ <;> rw [h] <;> cases c <;> rfl
@[simp] theorem State.send_spc (s : State) (c : Chan) (k : Byte) (pl : List Byte) : (s.send c k pl).1.spc = s.spc := by
  rcases s.send_cases c k pl with ⟨_, h⟩ | ⟨_, _, h⟩ | ⟨_, _, h⟩ <;> rw [h] <;> cases c <;> rfl
@[simp] theorem State.send_slot (s : State) (c : Chan) (k : Byte) (pl : List Byte) : (s.send c k pl).1.slot = s.slot := by
  rcases s.send_cases c k pl with ⟨_, h⟩ | ⟨_, _, h⟩ | ⟨_, _, h⟩ <;> rw [h] <;> cases c <;> rfl
@[simp] theorem State.send_aud (s : State) (c : Chan) (k : Byte) (pl : List Byte) : (s.send c k pl).1.aud = s.aud := by
  rcases s.send_cases c k pl with ⟨_, h⟩ | ⟨_, _, h⟩ | ⟨_, _, h⟩ <;> rw [h] <;> cases c <;> rfl
@[simp] theorem State.send_params (s : State) (c : Chan) (k : Byte) (pl : List Byte) : (s.send c k pl).1.params = s.params := by
  rcases s.send_cases c k pl with ⟨_, h⟩ | ⟨_, _, h⟩ | ⟨_, _, h⟩ <;> rw [h] <;> cases c <;> rfl
@[simp] theorem State.send_agenda (s : State) (c : Chan) (k : Byte) (pl : List Byte) : (s.send c k pl).1.agenda = s.agenda := by
  rcases s.send_cases c k pl with ⟨_, h⟩ | ⟨_, _, h⟩ | ⟨_, _, h⟩ <;> rw [h] <;> cases c <;> rfl
@[simp] theorem State.send_ret (s : State) (c : Chan) (k : Byte) (pl : List Byte) : (s.send c k pl).1.ret = s.ret := by
  rcases s.send_cases c k pl with ⟨_, h⟩ | ⟨_, _, h⟩ | ⟨_, _, h⟩ <;> rw [h] <;> cases c <;> rfl
@[simp] theorem State.send_sink (s : State) (c : Chan) (k : Byte) (pl : List Byte) : (s.send c k pl).1.sink = s.sink := by
  rcases s.send_cases c k pl with ⟨_, h⟩ | ⟨_, _, h⟩ | ⟨_, _, h⟩ <;> rw [h] <;> cases c <;> rfl
@[simp] theorem State.send_draws (s : State) (c : Chan) (k : Byte) (pl : List Byte) : (s.send c k pl).1.draws = s.draws := by
  rcases s.send_cases c k pl with ⟨_, h⟩ | ⟨_, _, h⟩ | ⟨_, _, h⟩ <;> rw [h] <;> cases c <;> rfl

/-- A SEND leaves the other channel's registers alone. -/
theorem State.send_other (s : State) (c d : Chan) (k : Byte) (pl : List Byte) (h : d ≠ c) :
    (s.send c k pl).1.chan d = s.chan d := by
  rcases s.send_cases c k pl with ⟨_, h'⟩ | ⟨_, _, h'⟩ | ⟨_, _, h'⟩ <;> rw [h'] <;> cases c <;> cases d <;>
    first | rfl | exact absurd rfl h

/-- Everything a RECV can do: nothing; latch a malformed header; take the message at the read cursor. -/
theorem State.recv_cases (s : State) (c : Chan) :
    (s.recv c = (s, none) ∧ ((s.chan c).fault = true ∨ (s.chan c).avail < 4
        ∨ badMessage s.params (s.headKind c) (s.headLen c) = false ∧ (s.chan c).avail < 4 + s.headLen c))
      ∨ ((s.chan c).fault = false ∧ 4 ≤ (s.chan c).avail ∧ badMessage s.params (s.headKind c) (s.headLen c) = true
          ∧ s.recv c = (s.rxMalformed c, none))
      ∨ ((s.chan c).fault = false ∧ 4 + s.headLen c ≤ (s.chan c).avail
          ∧ badMessage s.params (s.headKind c) (s.headLen c) = false
          ∧ s.recv c = (s.setChan c { s.chan c with r := (s.chan c).r + BitVec.ofNat 32 (4 + s.headLen c) },
              some (s.headKind c, s.readRing c ((s.chan c).r.toNat + 4) (s.headLen c)))) := by
  unfold State.recv
  dsimp only
  split
  · rename_i h; exact .inl ⟨rfl, .inl h⟩
  · rename_i h0
    split
    · rename_i h; exact .inl ⟨rfl, .inr (.inl h)⟩
    · rename_i h1
      split
      · rename_i h; exact .inr (.inl ⟨by simpa using h0, by omega, h, rfl⟩)
      · rename_i h2
        split
        · rename_i h; exact .inl ⟨rfl, .inr (.inr ⟨by simpa using h2, h⟩)⟩
        · rename_i h3; exact .inr (.inr ⟨by simpa using h0, by omega, by simpa using h2, rfl⟩)

@[simp] theorem State.rxMalformed_mode (s : State) (c : Chan) : (s.rxMalformed c).mode = s.mode := by
  cases c <;> rfl
@[simp] theorem State.recv_mode (s : State) (c : Chan) : (s.recv c).1.mode = s.mode := by
  rcases s.recv_cases c with ⟨h, _⟩ | ⟨_, _, _, h⟩ | ⟨_, _, _, h⟩ <;> rw [h] <;> simp
@[simp] theorem State.rxMalformed_bufCount (s : State) (c : Chan) : (s.rxMalformed c).bufCount = s.bufCount := by
  cases c <;> rfl
@[simp] theorem State.recv_bufCount (s : State) (c : Chan) : (s.recv c).1.bufCount = s.bufCount := by
  rcases s.recv_cases c with ⟨h, _⟩ | ⟨_, _, _, h⟩ | ⟨_, _, _, h⟩ <;> rw [h] <;> simp
@[simp] theorem State.rxMalformed_evt (s : State) (c : Chan) : (s.rxMalformed c).evt = s.evt := by
  cases c <;> rfl
@[simp] theorem State.recv_evt (s : State) (c : Chan) : (s.recv c).1.evt = s.evt := by
  rcases s.recv_cases c with ⟨h, _⟩ | ⟨_, _, _, h⟩ | ⟨_, _, _, h⟩ <;> rw [h] <;> simp
@[simp] theorem State.rxMalformed_mem (s : State) (c : Chan) : (s.rxMalformed c).mem = s.mem := by
  cases c <;> rfl
@[simp] theorem State.recv_mem (s : State) (c : Chan) : (s.recv c).1.mem = s.mem := by
  rcases s.recv_cases c with ⟨h, _⟩ | ⟨_, _, _, h⟩ | ⟨_, _, _, h⟩ <;> rw [h] <;> simp
@[simp] theorem State.rxMalformed_pfd0 (s : State) (c : Chan) : (s.rxMalformed c).pfd0 = s.pfd0 := by
  cases c <;> rfl
@[simp] theorem State.recv_pfd0 (s : State) (c : Chan) : (s.recv c).1.pfd0 = s.pfd0 := by
  rcases s.recv_cases c with ⟨h, _⟩ | ⟨_, _, _, h⟩ | ⟨_, _, _, h⟩ <;> rw [h] <;> simp
@[simp] theorem State.rxMalformed_pfd1 (s : State) (c : Chan) : (s.rxMalformed c).pfd1 = s.pfd1 := by
  cases c <;> rfl
@[simp] theorem State.recv_pfd1 (s : State) (c : Chan) : (s.recv c).1.pfd1 = s.pfd1 := by
  rcases s.recv_cases c with ⟨h, _⟩ | ⟨_, _, _, h⟩ | ⟨_, _, _, h⟩ <;> rw [h] <;> simp
@[simp] theorem State.rxMalformed_pfd2 (s : State) (c : Chan) : (s.rxMalformed c).pfd2 = s.pfd2 := by
  cases c <;> rfl
@[simp] theorem State.recv_pfd2 (s : State) (c : Chan) : (s.recv c).1.pfd2 = s.pfd2 := by
  rcases s.recv_cases c with ⟨h, _⟩ | ⟨_, _, _, h⟩ | ⟨_, _, _, h⟩ <;> rw [h] <;> simp
@[simp] theorem State.rxMalformed_bpf (s : State) (c : Chan) : (s.rxMalformed c).bpf = s.bpf := by
  cases c <;> rfl
@[simp] theorem State.recv_bpf (s : State) (c : Chan) : (s.recv c).1.bpf = s.bpf := by
  rcases s.recv_cases c with ⟨h, _⟩ | ⟨_, _, _, h⟩ | ⟨_, _, _, h⟩ <;> rw [h] <;> simp
@[simp] theorem State.rxMalformed_fbf (s : State) (c : Chan) : (s.rxMalformed c).fbf = s.fbf := by
  cases c <;> rfl
@[simp] theorem State.recv_fbf (s : State) (c : Chan) : (s.recv c).1.fbf = s.fbf := by
  rcases s.recv_cases c with ⟨h, _⟩ | ⟨_, _, _, h⟩ | ⟨_, _, _, h⟩ <;> rw [h] <;> simp
@[simp] theorem State.rxMalformed_amd (s : State) (c : Chan) : (s.rxMalformed c).amd = s.amd := by
  cases c <;> rfl
@[simp] theorem State.recv_amd (s : State) (c : Chan) : (s.recv c).1.amd = s.amd := by
  rcases s.recv_cases c with ⟨h, _⟩ | ⟨_, _, _, h⟩ | ⟨_, _, _, h⟩ <;> rw [h] <;> simp
@[simp] theorem State.rxMalformed_fmd (s : State) (c : Chan) : (s.rxMalformed c).fmd = s.fmd := by
  cases c <;> rfl
@[simp] theorem State.recv_fmd (s : State) (c : Chan) : (s.recv c).1.fmd = s.fmd := by
  rcases s.recv_cases c with ⟨h, _⟩ | ⟨_, _, _, h⟩ | ⟨_, _, _, h⟩ <;> rw [h] <;> simp
@[simp] theorem State.rxMalformed_str (s : State) (c : Chan) : (s.rxMalformed c).str = s.str := by
  cases c <;> rfl
@[simp] theorem State.recv_str (s : State) (c : Chan) : (s.recv c).1.str = s.str := by
  rcases s.recv_cases c with ⟨h, _⟩ | ⟨_, _, _, h⟩ | ⟨_, _, _, h⟩ <;> rw [h] <;> simp
@[simp] theorem State.rxMalformed_pkt (s : State) (c : Chan) : (s.rxMalformed c).pkt = s.pkt := by
  cases c <;> rfl
@[simp] theorem State.recv_pkt (s : State) (c : Chan) : (s.recv c).1.pkt = s.pkt := by
  rcases s.recv_cases c with ⟨h, _⟩ | ⟨_, _, _, h⟩ | ⟨_, _, _, h⟩ <;> rw [h] <;> simp
@[simp] theorem State.rxMalformed_spc (s : State) (c : Chan) : (s.rxMalformed c).spc = s.spc := by
  cases c <;> rfl
@[simp] theorem State.recv_spc (s : State) (c : Chan) : (s.recv c).1.spc = s.spc := by
  rcases s.recv_cases c with ⟨h, _⟩ | ⟨_, _, _, h⟩ | ⟨_, _, _, h⟩ <;> rw [h] <;> simp
@[simp] theorem State.rxMalformed_slot (s : State) (c : Chan) : (s.rxMalformed c).slot = s.slot := by
  cases c <;> rfl
@[simp] theorem State.recv_slot (s : State) (c : Chan) : (s.recv c).1.slot = s.slot := by
  rcases s.recv_cases c with ⟨h, _⟩ | ⟨_, _, _, h⟩ | ⟨_, _, _, h⟩ <;> rw [h] <;> simp
@[simp] theorem State.rxMalformed_aud (s : State) (c : Chan) : (s.rxMalformed c).aud = s.aud := by
  cases c <;> rfl
@[simp] theorem State.recv_aud (s : State) (c : Chan) : (s.recv c).1.aud = s.aud := by
  rcases s.recv_cases c with ⟨h, _⟩ | ⟨_, _, _, h⟩ | ⟨_, _, _, h⟩ <;> rw [h] <;> simp
@[simp] theorem State.rxMalformed_params (s : State) (c : Chan) : (s.rxMalformed c).params = s.params := by
  cases c <;> rfl
@[simp] theorem State.recv_params (s : State) (c : Chan) : (s.recv c).1.params = s.params := by
  rcases s.recv_cases c with ⟨h, _⟩ | ⟨_, _, _, h⟩ | ⟨_, _, _, h⟩ <;> rw [h] <;> simp
@[simp] theorem State.rxMalformed_agenda (s : State) (c : Chan) : (s.rxMalformed c).agenda = s.agenda := by
  cases c <;> rfl
@[simp] theorem State.recv_agenda (s : State) (c : Chan) : (s.recv c).1.agenda = s.agenda := by
  rcases s.recv_cases c with ⟨h, _⟩ | ⟨_, _, _, h⟩ | ⟨_, _, _, h⟩ <;> rw [h] <;> simp
@[simp] theorem State.rxMalformed_ret (s : State) (c : Chan) : (s.rxMalformed c).ret = s.ret := by
  cases c <;> rfl
@[simp] theorem State.recv_ret (s : State) (c : Chan) : (s.recv c).1.ret = s.ret := by
  rcases s.recv_cases c with ⟨h, _⟩ | ⟨_, _, _, h⟩ | ⟨_, _, _, h⟩ <;> rw [h] <;> simp
@[simp] theorem State.rxMalformed_sink (s : State) (c : Chan) : (s.rxMalformed c).sink = s.sink := by
  cases c <;> rfl
@[simp] theorem State.recv_sink (s : State) (c : Chan) : (s.recv c).1.sink = s.sink := by
  rcases s.recv_cases c with ⟨h, _⟩ | ⟨_, _, _, h⟩ | ⟨_, _, _, h⟩ <;> rw [h] <;> simp
@[simp] theorem State.rxMalformed_draws (s : State) (c : Chan) : (s.rxMalformed c).draws = s.draws := by
  cases c <;> rfl
@[simp] theorem State.recv_draws (s : State) (c : Chan) : (s.recv c).1.draws = s.draws := by
  rcases s.recv_cases c with ⟨h, _⟩ | ⟨_, _, _, h⟩ | ⟨_, _, _, h⟩ <;> rw [h] <;> simp

/-- A SYNC moves no cursor and touches no fault. -/
@[simp] theorem ChannelRegs.sync_w (x : ChannelRegs) (sel : SyncSel) : (x.sync sel).w = x.w := by cases sel <;> rfl
@[simp] theorem ChannelRegs.sync_r (x : ChannelRegs) (sel : SyncSel) : (x.sync sel).r = x.r := by cases sel <;> rfl
@[simp] theorem ChannelRegs.sync_fault (x : ChannelRegs) (sel : SyncSel) : (x.sync sel).fault = x.fault := by
  cases sel <;> rfl

end Sys2Proof.Machine
end

