-- ==== Sys2Proof/Laws/Encoding.lean ====
section
/-! SUPPORT. The readers of the decoder undo the writers of the encoder, field by field. -/

namespace Sys2Proof
open Sys2Proof.Machine

/-- A u16 written and read back. -/
theorem u16le_le16 (v : Half) : u16le (BitVec.ofNat 8 v.toNat) (BitVec.ofNat 8 (v.toNat / 256)) = v := by
  apply BitVec.eq_of_toNat_eq
  have := v.isLt
  simp [u16le]; omega

/-- A u32 written and read back. -/
theorem u32le_le32 (v : Word) : u32le (BitVec.ofNat 8 v.toNat) (BitVec.ofNat 8 (v.toNat / 256)) (BitVec.ofNat 8 (v.toNat / 65536)) (BitVec.ofNat 8 (v.toNat / 16777216)) = v := by
  apply BitVec.eq_of_toNat_eq
  have := v.isLt
  simp [u32le]; omega

/-- A u16 field reads as it was written. -/
theorem rdU16_le16 (v : Half) (r : List Byte) : rdU16 (le16 v ++ r) = some (v, r) := by
  show some (u16le _ _, r) = _; rw [u16le_le16]

/-- A u32 field reads as it was written. -/
theorem rdU32_le32 (v : Word) (r : List Byte) : rdU32 (le32 v ++ r) = some (v, r) := by
  show some (u32le _ _ _ _, r) = _; rw [u32le_le32]

/-- A c16 sample reads as it was written. -/
theorem rdC16_wr (x : C16) (r : List Byte) : rdC16 (wrC16 x ++ r) = some (x, r) := by
  show some (C16.mk (u16le _ _) (u16le _ _), r) = _; rw [u16le_le16, u16le_le16]

/-- A c8 sample reads as it was written. -/
theorem rdC8_wr (x : C8) (r : List Byte) : rdC8 (wrC8 x ++ r) = some (x, r) := by
  simp [rdC8, wrC8]

/-- A bit reads as it was written. -/
theorem rdBit_wr (b : Bool) (r : List Byte) : rdBit (wrBit b :: r) = some (b, r) := by
  cases b <;> rfl

/-- A channel reads as it was written. -/
theorem rdChan_wr (b : Chan) (r : List Byte) : rdChan (wrChan b :: r) = some (b, r) := by
  cases b <;> rfl

/-- A SYNC selection reads as it was written. -/
theorem rdSel_wr (b : SyncSel) (r : List Byte) : rdSel (wrSel b :: r) = some (b, r) := by
  cases b <;> rfl

/-- A PFD instance reads as it was written. -/
theorem rdStage_wr (i : Fin 3) (r : List Byte) : rdStage (wrStage i :: r) = some (i, r) := by
  match i with
  | 0 => rfl
  | 1 => rfl
  | 2 => rfl

/-- A run of elements reads as it was written. -/
theorem rdMany_flatMap {α} (rd : List Byte → Option (α × List Byte)) (wr : α → List Byte) (h : ∀ x r, rd (wr x ++ r) = some (x, r))
    (xs : List α) (r : List Byte) : rdMany rd xs.length (xs.flatMap wr ++ r) = some (xs, r) := by
  induction xs generalizing r with
  | nil => rfl
  | cons x xs ih => simp [rdMany, List.append_assoc, h, ih]

/-- A counted run of elements reads as it was written. -/
theorem rdCounted_wr {α} (rd : List Byte → Option (α × List Byte)) (wr : α → List Byte) (h : ∀ x r, rd (wr x ++ r) = some (x, r))
    (xs : List α) (hx : xs.length < 2 ^ 32) (r : List Byte) : rdCounted rd (wrCounted wr xs ++ r) = some (xs, r) := by
  unfold rdCounted wrCounted
  rw [List.append_assoc, rdU32_le32]
  have e : (BitVec.ofNat 32 xs.length).toNat = xs.length := by simpa using hx
  simp only [e, rdMany_flatMap rd wr h]

/-- A c16 buffer reads as it was written. -/
theorem rdBuf16_wr (b : C16Buf) (hb : b.data.length < 2 ^ 32) (r) : rdBuf16 (wrBuf16 b ++ r) = some (b, r) := by
  unfold rdBuf16 wrBuf16
  rw [List.append_assoc, rdU32_le32]
  simp [rdCounted_wr rdC16 wrC16 rdC16_wr _ hb]

/-- An f32 buffer reads as it was written. -/
theorem rdBuf32_wr (b : F32Buf) (hb : b.data.length < 2 ^ 32) (r) : rdBuf32 (wrBuf32 b ++ r) = some (b, r) := by
  unfold rdBuf32 wrBuf32
  rw [List.append_assoc, rdU32_le32]
  simp [rdCounted_wr rdU32 le32 rdU32_le32 _ hb]

/-- A reader that leaves what follows, read with nothing after it. -/
theorem read_nil {α} {f : List Byte → Option (α × List Byte)} {l x} (h : ∀ r, f (l ++ r) = some (x, r)) : f l = some (x, []) := by
  simpa using h []

/-- A run has the number of elements that was asked for. -/
theorem rdMany_length {α} (rd : List Byte → Option (α × List Byte)) : ∀ n r xs r', rdMany rd n r = some (xs, r') → xs.length = n := by
  intro n
  induction n with
  | zero => intro r xs r' h; simp [rdMany] at h; simp [h.1.symm]
  | succ n ih =>
    intro r xs r' h
    unfold rdMany at h
    split at h
    · cases h
    · split at h
      · cases h
      · rename_i e; cases h; simp [ih _ _ _ e]

/-- A counted run has fewer than 2^32 elements. -/
theorem rdCounted_lt {α} (rd : List Byte → Option (α × List Byte)) (r xs r') (h : rdCounted rd r = some (xs, r')) : xs.length < 2^32 := by
  unfold rdCounted at h
  split at h
  · cases h
  · rename_i n r1 _; rw [rdMany_length _ _ _ _ _ h]; exact n.isLt

/-- A c16 buffer has fewer than 2^32 samples. -/
theorem rdBuf16_lt (r b r') (h : rdBuf16 r = some (b, r')) : b.data.length < 2^32 := by
  unfold rdBuf16 at h
  split at h
  · cases h
  · split at h
    · cases h
    · rename_i e; cases h; exact rdCounted_lt _ _ _ _ e

/-- An f32 buffer has fewer than 2^32 samples. -/
theorem rdBuf32_lt (r b r') (h : rdBuf32 r = some (b, r')) : b.data.length < 2^32 := by
  unfold rdBuf32 at h
  split at h
  · cases h
  · split at h
    · cases h
    · rename_i e; cases h; exact rdCounted_lt _ _ _ _ e

/-- A well-formed message decodes by its kind alone (30_encoding.md R111, R112). -/
theorem decode_msgMove (p : Params) (k : Byte) (pl : List Byte) (h : pl.length ≤ payloadMax p) (hk : k ≠ 0) :
    decode p (msgMove k pl) = decodeKind k pl := by
  have h2 : payloadMax p ≤ 252 := by unfold payloadMax; omega
  have : (u16le (BitVec.ofNat 8 pl.length) (BitVec.ofNat 8 (pl.length / 256))).toNat = pl.length := by
    simp [u16le]; omega
  simp only [decode, msgMove, messageBytes, header, List.cons_append, List.nil_append, decodeMsg]
  rw [this, if_neg (not_or.2 ⟨hk, by omega⟩), if_neg (by omega), List.take_length]

end Sys2Proof
end

