-- ==== Sys2Proof/Laws/Fields.lean ====
section
/-! SUPPORT. The fields of the control messages, and what an accepted configuration stores. -/

namespace Sys2Proof.Machine
open Sys2Proof

/-- A run of u16 elements, index by index (R113). -/
theorem halves_eq (l : List Byte) : ∀ n, l.length = 2 * n → halves l = (List.range n).map fun k => halfAt l (2 * k) := by
  intro n
  induction n generalizing l with
  | zero => intro h; simp at h; subst h; rfl
  | succ n ih =>
    intro h
    match l, h with
    | a :: b :: r, h =>
      rw [List.range_succ_eq_map]
      simp only [halves, List.map_cons, List.map_map]
      rw [ih r (by simp at h; omega)]
      congr 1

/-- A run of u32 elements, index by index (R113). -/
theorem words_eq (l : List Byte) : ∀ n, l.length = 4 * n → words l = (List.range n).map fun k => wordAt l (4 * k) := by
  intro n
  induction n generalizing l with
  | zero => intro h; simp at h; subst h; rfl
  | succ n ih =>
    intro h
    match l, h with
    | a :: b :: c :: d :: r, h =>
      rw [List.range_succ_eq_map]
      simp only [words, List.map_cons, List.map_map]
      rw [ih r (by simp at h; omega)]
      congr 1

/-- Tap k is the message's, or 0 from T on (41_fir_filters.md R172). -/
theorem padTaps_getD {w} (n t : Nat) (taps : List (BitVec w)) (k) (h : k < n) : (padTaps n t taps).getD k 0 = if k < t then taps.getD k 0 else 0 := by
  simp [padTaps, h]

/-- Every tap register is written. -/
theorem padTaps_length {w} (n t : Nat) (taps : List (BitVec w)) : (padTaps n t taps).length = n := by simp [padTaps]

/-- The factor test says what R172 says. -/
theorem firLegal_iff (d t : Byte) : firLegal d t = true ↔ factorsLegal d t := by
  simp only [firLegal, factorsLegal, Bool.and_eq_true, decide_eq_true_eq, and_assoc]; rfl

/-- Everything an accepted CFG of a FIR unit does (R172). -/
theorem FirUnit.cfg_configured (f : FirUnit) (d t : Byte) (taps) (h : factorsLegal d t) : FirConfigured f (f.cfg d t taps) d t taps := by
  unfold factorsLegal at h
  refine ⟨?_, ?_, rfl, rfl, padTaps_length _ _ _, fun k hk => padTaps_getD _ _ _ _ hk, rfl, rfl⟩ <;> simp [FirUnit.cfg] <;> omega

/-- The tap count an accepted FBF.CFG stores (R187). -/
theorem BasebandUnit.cfg_t (f : BasebandUnit) (t : Byte) (taps) (h : t.toNat ≤ 32) : (f.cfg t taps).t.toNat = t.toNat := by simp [BasebandUnit.cfg]; omega

/-- The operand test of STR.CFG says what 43_clock_recovery.md R222 says. -/
theorem clockLegal_iff (a b : Word) (g : F32) : clockLegal a b g = true ↔ clockAccepted a b g := by
  have h : f32Exp g = g.toNat / 2^23 % 256 := rfl
  simp [clockLegal, clockAccepted, f32Finite, h, f32One, and_assoc]

/-! The length tests of the result messages say what 30_encoding.md R117 says. -/

theorem statisticsLengthOk_iff (p : Params) (pl : List Byte) :
    statisticsLengthOk pl = true ↔ resultLength p (.resStatistics pl) := by
  simp [statisticsLengthOk, resultLength]

theorem readyLengthOk_iff (p : Params) (pl : List Byte) : readyLengthOk pl = true ↔ resultLength p (.resSpectrumReady pl) := by
  simp [readyLengthOk, resultLength]

theorem packetLengthOk_iff (p : Params) (pl : List Byte) : packetLengthOk p pl = true ↔ resultLength p (.resPacket pl) := by
  unfold packetLengthOk resultLength
  rcases pl with _ | ⟨a, _ | ⟨b, _ | ⟨c, _ | ⟨d, r⟩⟩⟩⟩ <;> simp [u16le, halfAt]
  intro _
  omega

/-- Byte `i` of a message (30_encoding.md R111). -/
theorem messageBytes_getD (k : Byte) (pl : List Byte) (i : Nat) : (messageBytes k pl).getD i 0 = messageByte (k, pl) i := by
  match i with
  | 0 => rfl
  | 1 => rfl
  | 2 =>
    simp only [messageBytes, header, messageByte, List.cons_append, List.getD_cons_succ, List.getD_cons_zero]
    apply BitVec.eq_of_toNat_eq
    simp
  | 3 => simp [messageBytes, header, messageByte]
  | j + 4 => simp [messageBytes, header, messageByte]

theorem packByte_lt : ∀ (n : Nat) (bits : List Bool), packByte n bits < 2 ^ n
  | 0, _ => by simp [packByte]
  | n + 1, [] => by simp [packByte]
  | n + 1, b :: r => by
    have h := packByte_lt n r
    simp only [packByte]
    split <;> omega

/-- Bit `n - 1 - j` of `n` packed bits is the one at index `j`, 0 past their end (R129). -/
theorem packByte_testBit : ∀ (n : Nat) (bits : List Bool) (j : Nat), j < n →
    (packByte n bits).testBit (n - 1 - j) = bits.getD j false
  | 0, _, _, h => by omega
  | n + 1, [], j, _ => by simp [packByte]
  | n + 1, b :: r, 0, _ => by
    have h := packByte_lt n r
    cases b
    · simpa [packByte] using Nat.testBit_lt_two_pow h
    · simpa [packByte, Nat.testBit_two_pow_add_eq] using Nat.testBit_lt_two_pow h
  | n + 1, b :: r, j + 1, h => by
    have ih := packByte_testBit n r j (by omega)
    rw [show n + 1 - 1 - (j + 1) = n - 1 - j by omega]
    cases b
    · simpa [packByte] using ih
    · simpa [packByte, Nat.testBit_two_pow_add_gt (show n - 1 - j < n by omega)] using ih

theorem packBytes_getD : ∀ (n : Nat) (bits : List Bool) (b : Nat), b < n →
    (packBytes n bits).getD b 0 = BitVec.ofNat 8 (packByte 8 (bits.drop (8 * b))) := by
  intro n
  induction n with
  | zero => intro _ b h; omega
  | succ n ih =>
    intro bits b h
    match b with
    | 0 => rfl
    | b + 1 =>
      show (packBytes n (bits.drop 8)).getD b 0 = _
      rw [ih _ _ (by omega), List.drop_drop]
      congr 3
      omega

theorem packBytes_length : ∀ (n : Nat) (bits : List Bool), (packBytes n bits).length = n := by
  intro n
  induction n with
  | zero => intro _; rfl
  | succ n ih => intro bits; simp [packBytes, ih]

/-- The payload BB builds for a packet is the one R129 and 48_top_level.md R328 lay out. -/
theorem packetPayload_bytes (bits : List Bool) : PacketBytes bits (packetPayload bits) := by
  refine ⟨by simp [packetPayload, le16, packBytes_length]; omega, ?_, ?_, rfl, rfl, ?_⟩
  · simp [packetPayload, le16]
  · simp [packetPayload, le16]
    omega
  · intro i hi
    have h : (packetPayload bits).getD (4 + i / 8) 0 = (packBytes ((bits.length + 7) / 8) bits).getD (i / 8) 0 := by
      rw [Nat.add_comm]
      rfl
    rw [h, packBytes_getD _ _ _ hi, BitVec.getLsbD_ofNat]
    have hj : i % 8 < 8 := Nat.mod_lt _ (by decide)
    have := packByte_testBit 8 (bits.drop (8 * (i / 8))) (i % 8) hj
    rw [show 7 - i % 8 = 8 - 1 - i % 8 from rfl, this]
    have e : 8 * (i / 8) + i % 8 = i := Nat.div_add_mod i 8
    simp only [List.getD_eq_getElem?_getD, List.getElem?_drop, e]
    by_cases hl : i < bits.length
    · simp [hl]; omega
    · simp [hl]

/-- The build check says what 00_scope.md R10, 44_packet_builder.md R242 and 93 U7, U13 say. -/
theorem paramsOk_iff (p : Params) : paramsOk p = true ↔ LegalBuild p := by
  have hc : capOk p.mfcCap = true ↔ ∃ k, 4 ≤ k ∧ k ≤ 16 ∧ p.mfcCap = 2 ^ k := by
    simp only [capOk, List.any_eq_true, List.mem_range, beq_iff_eq]
    constructor
    · rintro ⟨k, h, e⟩
      exact ⟨k + 4, by omega, by omega, e⟩
    · rintro ⟨k, h, h2, e⟩
      exact ⟨k - 4, by omega, by rw [e]; congr 1; omega⟩
  unfold paramsOk LegalBuild payloadMax
  simp only [Bool.and_eq_true, hc]
  clear hc
  simp only [decide_eq_true_eq]
  constructor
  · rintro ⟨⟨⟨⟨⟨⟨⟨⟨k, h1, h2, h3⟩, a⟩, b⟩, c⟩, d⟩, e⟩, f⟩, g⟩
    exact ⟨⟨k, h1, h2, h3⟩, a, b, d, e, by omega, f, g⟩
  · rintro ⟨⟨k, h1, h2, h3⟩, a, b, d, e, c, f, g⟩
    exact ⟨⟨⟨⟨⟨⟨⟨⟨k, h1, h2, h3⟩, a⟩, b⟩, by omega⟩, d⟩, e⟩, f⟩, g⟩

end Sys2Proof.Machine
end

