-- ==== Sys2Proof/Laws/Streams.lean ====
section
/-! SUPPORT. The filters as index-by-index formulas over the stream (41_fir_filters.md R174, R188). -/

namespace Sys2Proof.Machine
open Sys2Proof

/-- The past of sample i, newest first, is the stream read backwards (R174). -/
theorem stream_getD {α} (z : α) (hist xs : List α) (i k : Nat) (hi : i < xs.length) :
    ((xs.take (i + 1)).reverse ++ hist).getD k z = streamAt z hist xs i k := by
  unfold streamAt
  have hl : (xs.take (i+1)).reverse.length = i + 1 := by simp; omega
  split
  · rename_i hk
    rw [List.getD_append _ _ _ _ (by omega), List.getD_eq_getElem _ _ (by omega), List.getD_eq_getElem _ _ (by omega)]
    rw [List.getElem_reverse]
    simp
    congr 1
    omega
  · rename_i hk
    rw [List.getD_append_right _ _ _ _ (by omega), hl]
    congr 1

/-- A call keeps the length of the history. -/
theorem nextHist_length {α} (t : Nat) (hist xs : List α) (h : t - 1 ≤ hist.length) : (nextHist t hist xs).length = hist.length := by
  unfold nextHist; simp; omega

/-- The history positions that a call writes (R174). -/
theorem nextHist_lo {α} (z : α) (t : Nat) (hist xs : List α) (h : t - 1 ≤ hist.length) (j : Nat) (h1 : 1 ≤ j) (h2 : j ≤ t - 1) :
    (nextHist t hist xs).getD (j - 1) z = streamAt z hist xs xs.length j := by
  unfold nextHist streamAt
  have e : ((xs.reverse ++ hist).take (t - 1)).length = t - 1 := by simp; omega
  rw [List.getD_append _ _ _ _ (by omega)]
  rw [List.getD_eq_getElem?_getD, List.getElem?_take_of_lt (by omega)]
  split
  · rw [List.getElem?_append_left (by simp; omega), List.getElem?_reverse (by omega), ← List.getD_eq_getElem?_getD]
    congr 1; omega
  · rw [List.getElem?_append_right (by simp; omega), ← List.getD_eq_getElem?_getD]
    congr 1; simp; omega

/-- The history positions that a call leaves alone (R174). -/
theorem nextHist_hi {α} (z : α) (t : Nat) (hist xs : List α) (h : t - 1 ≤ hist.length) (j : Nat) (h1 : 1 ≤ j) (h2 : t ≤ j) :
    (nextHist t hist xs).getD (j - 1) z = hist.getD (j - 1) z := by
  unfold nextHist
  have e : ((xs.reverse ++ hist).take (t - 1)).length = t - 1 := by simp; omega
  rw [List.getD_append_right _ _ _ _ (by omega), e]
  rw [List.getD_eq_getElem?_getD, List.getElem?_drop, ← List.getD_eq_getElem?_getD]
  congr 1; omega

/-- The history after two calls is that after one call on both inputs. -/
theorem nextHist_append {α} (t : Nat) (hist xs ys : List α) (h : t - 1 ≤ hist.length) :
    nextHist t (nextHist t hist xs) ys = nextHist t hist (xs ++ ys) := by
  unfold nextHist
  have e : ((xs.reverse ++ hist).take (t - 1)).length = t - 1 := by simp; omega
  rw [List.drop_append_of_le_length (l₁ := (xs.reverse ++ hist).take (t - 1)) (by omega), List.drop_eq_nil_of_le (as := (xs.reverse ++ hist).take (t - 1)) (by omega), List.nil_append]
  congr 1
  rw [List.reverse_append, List.append_assoc, List.take_append, List.take_append (l₁ := ys.reverse)]
  congr 1
  rw [List.take_append_of_le_length (by rw [e]; omega), List.take_take, Nat.min_eq_left (by omega)]

/-- The accumulated sums of both parts (R174). -/
theorem dot_eq : ∀ (h : List Half) (L : List C16), h.length ≤ L.length →
   (dotC16 h L).1 = ((List.range h.length).map fun k => (h.getD k 0).toInt * (L.getD k C16.zero).re.toInt).sum
   ∧ (dotC16 h L).2 = ((List.range h.length).map fun k => (h.getD k 0).toInt * (L.getD k C16.zero).im.toInt).sum := by
  intro h
  induction h with
  | nil => intro L _; cases L <;> simp [dotC16]
  | cons a h ih =>
    intro L hL
    match L, hL with
    | x :: L, hL =>
      have := ih L (by simpa using hL)
      simp only [dotC16, List.length_cons, List.range_succ_eq_map, List.map_cons, List.map_map, List.sum_cons]
      rw [this.1, this.2]
      exact ⟨rfl, rfl⟩

/-- A filter looks at no more past samples than it has taps. -/
theorem dot_take (h : List Half) : ∀ (L M : List C16), L.take h.length = M.take h.length → dotC16 h L = dotC16 h M := by
  induction h with
  | nil => intro L M _; cases L <;> cases M <;> rfl
  | cons a h ih =>
    intro L M e
    match L, M with
    | [], [] => rfl
    | [], _ :: _ => simp at e
    | _ :: _, [] => simp at e
    | x :: L, y :: M =>
      simp at e
      obtain ⟨rfl, e⟩ := e
      simp only [dotC16, ih L M e]

/-- Output m of a call, from the samples up to the end of its group (R174). -/
theorem firRun_eq (d : Nat) (h : List Half) (xs : List C16) : ∀ pos line, pos < d →
    firRun d h pos line xs = (List.range ((pos + xs.length) / d)).map fun m =>
      firSample h ((xs.take (m * d + d - pos)).reverse ++ line) := by
  induction xs with
  | nil => intro pos line hp; simp [firRun, Nat.div_eq_of_lt hp]
  | cons x xs ih =>
    intro pos line hp
    rw [firRun]
    split
    · rename_i hd
      have e : (pos + (x :: xs).length) / d = xs.length / d + 1 := by
        rw [← Nat.add_div_right _ (by omega)]; congr 1; simp; omega
      rw [e, List.range_succ_eq_map, List.map_cons, List.map_map, ih 0 _ (by omega)]
      congr 1
      · rw [show 0 * d + d - pos = 1 by omega]; simp
      · simp only [Nat.zero_add]
        apply List.map_congr_left
        intro m _
        simp only [Function.comp]
        rw [show (m + 1) * d + d - pos = (m * d + d) + 1 by rw [Nat.add_mul]; omega]
        simp
    · rename_i hd
      rw [ih _ _ (by omega)]
      rw [show pos + (x :: xs).length = pos + 1 + xs.length by simp; omega]
      apply List.map_congr_left
      intro m _
      rw [show m * d + d - pos = (m * d + d - (pos + 1)) + 1 by omega]
      simp

/-- A call cut after a whole group. -/
theorem firRun_append (d : Nat) (h : List Half) (xs ys : List C16) : ∀ pos line, pos < d → d ∣ pos + xs.length →
    firRun d h pos line (xs ++ ys) = firRun d h pos line xs ++ firRun d h 0 (xs.reverse ++ line) ys := by
  induction xs with
  | nil =>
    intro pos line hp hd
    have : pos = 0 := by simpa [Nat.mod_eq_of_lt hp] using Nat.mod_eq_zero_of_dvd hd
    subst this; simp [firRun]
  | cons x xs ih =>
    intro pos line hp hd
    simp only [List.cons_append, firRun]
    split
    · rename_i he
      rw [ih 0 _ (by omega)]
      · simp
      · simp only [List.length_cons] at hd
        rw [show pos + (xs.length + 1) = xs.length + d by omega] at hd
        simpa using (Nat.dvd_add_left (dvd_refl d)).1 hd
    · rw [ih (pos+1) _ (by omega)]
      · simp
      · simpa [Nat.add_assoc, Nat.add_comm 1] using hd

/-- The outputs depend on T-1 past samples only. -/
theorem firRun_line (d : Nat) (h : List Half) (xs : List C16) : ∀ pos L M, L.take (h.length - 1) = M.take (h.length - 1) →
    firRun d h pos L xs = firRun d h pos M xs := by
  induction xs with
  | nil => intros; rfl
  | cons x xs ih =>
    intro pos L M e
    have e2 : (x :: L).take h.length = (x :: M).take h.length := by
      cases h with
      | nil => rfl
      | cons a h => simpa using e
    have e1 : (x :: L).take (h.length - 1) = (x :: M).take (h.length - 1) := by
      have := congrArg (List.take (h.length - 1)) e2
      simpa [List.take_take] using this
    simp only [firRun]
    split
    · rw [ih 0 _ _ e1]; unfold firSample; rw [dot_take h _ _ e2]
    · exact ih _ _ _ e1

/-- A part saturates when it leaves the s16 range. -/
theorem satPart_iff (y : Int) : satPart y = true ↔ ¬ (-32768 ≤ y ∧ y ≤ 32767) := by
  unfold satPart sat16 clamp
  rw [decide_eq_true_iff]; omega

/-- The sums of an output are those of R174. -/
theorem firAcc_eq (f : FirUnit) (hf : f.Ok) (ht : f.t.toNat ≤ 64) (xs : List C16) (i : Nat) (hi : i < xs.length) :
    dotC16 (f.h.take f.t.toNat) ((xs.take (i + 1)).reverse ++ f.hist) =
      (firAcc (fun x => x.re.toInt) f.h f.t.toNat f.hist xs i, firAcc (fun x => x.im.toInt) f.h f.t.toNat f.hist xs i) := by
  have hl : (f.h.take f.t.toNat).length = f.t.toNat := by rw [List.length_take, hf.taps]; omega
  have := dot_eq (f.h.take f.t.toNat) ((xs.take (i + 1)).reverse ++ f.hist) (by rw [hl]; simp [hf.past]; omega)
  rw [Prod.ext_iff, this.1, this.2, hl]
  refine ⟨?_, ?_⟩ <;> unfold firAcc <;> congr 1 <;> apply List.map_congr_left <;> intro k hk <;> rw [stream_getD _ _ _ _ _ hi] <;>
  · have hk : k < f.t.toNat := by simpa using hk
    simp [hk]

/-- Every group is whole. -/
theorem mul_div_lt (d N m : Nat) (hd : 0 < d) (h : m < N / d) : m * d + d - 1 < N := by
  have : (m + 1) * d ≤ N := by
    calc (m+1) * d ≤ (N / d) * d := Nat.mul_le_mul_right _ h
      _ ≤ N := Nat.div_mul_le_self _ _
  rw [Nat.add_mul] at this; omega

/-- Everything EXEC of a FIR unit does (R174). -/
theorem FirUnit.exec_step (f : FirUnit) (hf : f.Ok) (hc : f.configured = true) (b : C16Buf) : FirStep f (f.exec b) b := by
  obtain ⟨d1, d2, t1, t2⟩ := hf.legal hc
  have hrun : firRun f.d.toNat (f.h.take f.t.toNat) 0 f.hist b.data = (List.range (b.data.length / f.d.toNat)).map fun m =>
      (⟨toS16 (sat16 (firRe f b.data m)), toS16 (sat16 (firIm f b.data m))⟩, satPart (firRe f b.data m) || satPart (firIm f b.data m)) := by
    rw [firRun_eq _ _ _ _ _ (by omega), Nat.zero_add]
    apply List.map_congr_left
    intro m hm
    have hm : m < b.data.length / f.d.toNat := by simpa using hm
    have := mul_div_lt _ _ _ (by omega) hm
    unfold firSample
    rw [show m * f.d.toNat + f.d.toNat - 0 = (m * f.d.toNat + f.d.toNat - 1) + 1 by omega]
    rw [firAcc_eq f hf t2 _ _ this]
    rfl
  have hL : f.t.toNat - 1 ≤ f.hist.length := by rw [hf.past]; omega
  unfold FirStep FirUnit.exec
  dsimp only
  rw [hrun]
  refine ⟨?_, rfl, ?_, nextHist_length _ _ _ hL, fun j h1 h2 => nextHist_lo _ _ _ _ hL j h1 h2, fun j h1 h2 => nextHist_hi _ _ _ _ hL j h2 h1, rfl, rfl, rfl, rfl⟩
  · rw [List.map_map]; apply List.map_congr_left; intro m _
    rfl
  · simp only [Bool.or_eq_true, List.any_map, List.any_eq_true, List.mem_range, Function.comp]
    refine or_congr Iff.rfl (exists_congr fun m => and_congr Iff.rfl ?_)
    rw [satPart_iff, satPart_iff]; omega

/-- The accumulation of FBF.EXEC, tap by tap (R188). -/
theorem dotF32_eq : ∀ (h : List F32) (L : List F32) (d : Nat) (acc : F32), h.length ≤ L.length →
   dotF32 d acc h L = (List.range h.length).foldl (fun acc k => f32Add (d + 2 * k + 1) acc (f32Mul (d + 2 * k) (h.getD k 0) (L.getD k 0))) acc := by
  intro h
  induction h with
  | nil => intro L d acc _; cases L <;> rfl
  | cons a h ih =>
    intro L d acc hL
    match L, hL with
    | x :: L, hL =>
      rw [dotF32, ih L _ _ (by simpa using hL), List.length_cons, List.range_succ_eq_map, List.foldl_cons, List.foldl_map]
      simp only [Nat.mul_add, Nat.mul_one, List.getD_cons_succ, List.getD_cons_zero, Nat.mul_zero, Nat.add_zero, Nat.succ_eq_add_one, Nat.mul_zero]
      simp only [show ∀ k, d + 2 + 2 * k = d + (2 * k + 2) by intro k; omega]

/-- Output n of FBF.EXEC (R188). -/
theorem fbfRun_eq (h : List F32) (xs : List F32) : ∀ d line, fbfRun h d line xs = (List.range xs.length).map fun n =>
    dotF32 (d + 2 * h.length * n) 0 h ((xs.take (n + 1)).reverse ++ line) := by
  induction xs with
  | nil => intros; rfl
  | cons x xs ih =>
    intro d line
    rw [fbfRun, ih, List.length_cons, List.range_succ_eq_map, List.map_cons, List.map_map]
    congr 1
    apply List.map_congr_left
    intro n _
    simp only [Function.comp, List.take_succ_cons, List.reverse_cons, List.append_assoc, List.cons_append, List.nil_append]
    congr 1
    rw [Nat.succ_eq_add_one, Nat.mul_add]; omega


end Sys2Proof.Machine
end

