-- ==== Sys2Proof/Laws/Health.lean ====
section
/-! SUPPORT. Every operation of a unit keeps the unit healthy (10_state.md R42 to R63). -/

namespace Sys2Proof.Machine
open Sys2Proof

theorem firLegal_bounds (d t : Byte) (h : firLegal d t = true) :
    1 ≤ d.toNat ∧ d.toNat ≤ 16 ∧ 1 ≤ t.toNat ∧ t.toNat ≤ 64 := by
  have := (firLegal_iff d t).1 h
  exact this

theorem replicate_drop {α : Type} (n k : Nat) (z : α) : ∀ x ∈ (List.replicate n z).drop k, x = z := by
  intro x hx; exact (List.mem_replicate.1 (List.mem_of_mem_drop hx)).2

/-- Beyond the configured taps every tap register is 0. -/
theorem padTaps_drop {w : Nat} (n t : Nat) (taps : List (BitVec w)) : ∀ x ∈ (padTaps n t taps).drop t, x = 0 := by
  intro x hx
  obtain ⟨k, hk, rfl⟩ := List.mem_drop_iff_getElem.1 hx
  simp [padTaps]

/-- The history registers beyond T-1 are not written. -/
theorem nextHist_drop {α : Type} (t : Nat) (hist input : List α) (h : t - 1 ≤ hist.length) :
    (nextHist t hist input).drop (t - 1) = hist.drop (t - 1) := by
  have e : ((input.reverse ++ hist).take (t - 1)).length = t - 1 := by simp; omega
  unfold nextHist
  rw [List.drop_append, e, Nat.sub_self, List.drop_eq_nil_of_le (as := (input.reverse ++ hist).take (t - 1)) (by omega)]
  rfl

/-! ### FIR units -/

theorem FirUnit.Ok.reset {f : FirUnit} : f.reset.Ok :=
  ⟨rfl, rfl, fun h => Bool.noConfusion h, fun _ => ⟨rfl, rfl⟩, replicate_drop _ _ _, replicate_drop _ _ _⟩

theorem FirUnit.Ok.cfg {f : FirUnit} {d t : Byte} (taps : List Half) (h : firLegal d t = true) : (f.cfg d t taps).Ok := by
  obtain ⟨h1, h2, h3, h4⟩ := firLegal_bounds d t h
  have hd : (f.cfg d t taps).d.toNat = d.toNat := by simp [FirUnit.cfg]; omega
  have ht : (f.cfg d t taps).t.toNat = t.toNat := by simp [FirUnit.cfg]; omega
  refine ⟨padTaps_length _ _ _, rfl, fun _ => by omega, fun h => Bool.noConfusion h, ?_, replicate_drop _ _ _⟩
  rw [ht]; exact padTaps_drop _ _ _

theorem FirUnit.Ok.exec {f : FirUnit} (b : C16Buf) (hf : f.Ok) (hc : f.configured = true) : (f.exec b).Ok := by
  have hl := hf.legal hc
  have hL : f.t.toNat - 1 ≤ f.hist.length := by rw [hf.past]; omega
  refine ⟨hf.taps, ?_, fun _ => hl, fun h => ?_, hf.tapsPadded, ?_⟩
  · exact (nextHist_length _ _ _ hL).trans hf.past
  · exact Bool.noConfusion (hc.symm.trans h)
  · show ∀ x ∈ (nextHist f.t.toNat f.hist b.data).drop (f.t.toNat - 1), x = C16.zero
    rw [nextHist_drop _ _ _ hL]; exact hf.pastPadded

theorem FirUnit.Ok.clearSat {f : FirUnit} (hf : f.Ok) : ({ f with sat := false } : FirUnit).Ok :=
  ⟨hf.taps, hf.past, hf.legal, hf.idle, hf.tapsPadded, hf.pastPadded⟩

theorem BasebandUnit.Ok.reset {f : BasebandUnit} : f.reset.Ok :=
  ⟨by simp [BasebandUnit.reset], rfl, rfl, replicate_drop 31 0 _, replicate_drop _ _ _⟩

theorem BasebandUnit.Ok.cfg {f : BasebandUnit} {t : Byte} (taps : List F32) (h : fbfLegal t = true) : (f.cfg t taps).Ok := by
  simp only [fbfLegal, Bool.and_eq_true, decide_eq_true_eq] at h
  have h2 : t.toNat ≤ 32 := h.2
  have ht : (f.cfg t taps).t.toNat = t.toNat := BasebandUnit.cfg_t _ _ _ h2
  refine ⟨by omega, padTaps_length _ _ _, rfl, ?_, replicate_drop _ _ _⟩
  rw [ht]; exact padTaps_drop _ _ _

theorem BasebandUnit.Ok.exec {f : BasebandUnit} (d : Nat) (b : F32Buf) (hf : f.Ok) : (f.exec d b).Ok := by
  have hL : f.t.toNat - 1 ≤ f.hist.length := by rw [hf.past]; have := hf.count; omega
  refine ⟨hf.count, hf.taps, ?_, hf.tapsPadded, ?_⟩
  · exact (nextHist_length _ _ _ hL).trans hf.past
  · show ∀ x ∈ (nextHist f.t.toNat f.hist b.data).drop (f.t.toNat - 1), x = 0
    rw [nextHist_drop _ _ _ hL]; exact hf.pastPadded

/-! ### Clock recovery -/

theorem ClockUnit.Ok.cfg {u : ClockUnit} {a b : Word} {g : F32} (h : clockLegal a b g = true) : (u.cfg a b g).Ok := by
  have hc := h
  simp only [clockLegal, Bool.and_eq_true, decide_eq_true_eq, bne_iff_ne, Bool.not_eq_true'] at h
  obtain ⟨⟨⟨⟨⟨ha, hb⟩, hab⟩, hf⟩, hp⟩, h1⟩ := h
  refine ⟨fun _ => ⟨?_, hab, ?_, hf, hp, h1⟩, fun h => Bool.noConfusion h⟩
  · have : b.toNat ≠ 0 := fun e => hb (BitVec.eq_of_toNat_eq (by simpa using e))
    show 1 ≤ b.toNat
    omega
  · show (BitVec.ofNat 32 (b.toNat * 2 ^ 32 / a.toNat)).toNat = _
    rw [BitVec.toNat_ofNat, Nat.mod_eq_of_lt]; rfl
    have ha' : a.toNat ≠ 0 := fun e => ha (BitVec.eq_of_toNat_eq (by simpa using e))
    rw [Nat.div_lt_iff_lt_mul (by omega)]
    omega

/-- A PUSH changes the phase, the last symbol and the error filter only. -/
theorem ClockUnit.push_fields (u : ClockUnit) (d : Nat) (x : F32) :
    (u.push d x).1.configured = u.configured ∧ (u.push d x).1.sampleRate = u.sampleRate
      ∧ (u.push d x).1.symbolRate = u.symbolRate ∧ (u.push d x).1.inc = u.inc ∧ (u.push d x).1.gain = u.gain := by
  unfold ClockUnit.push; dsimp only; split <;> exact ⟨rfl, rfl, rfl, rfl, rfl⟩

theorem ClockUnit.Ok.push {u : ClockUnit} (d : Nat) (x : F32) (hu : u.Ok) (hc : u.configured = true) : (u.push d x).1.Ok := by
  obtain ⟨h1, h2, h3, h4, h5⟩ := u.push_fields d x
  refine ⟨fun _ => ?_, fun h => ?_⟩
  · rw [h2, h3, h4, h5]; exact hu.legal hc
  · rw [h1, hc] at h; exact Bool.noConfusion h

/-! ### The packet builder -/

theorem PacketUnit.Ok.reset {u : PacketUnit} {p : Params} (hu : u.Ok p) : u.reset.Ok p :=
  ⟨Nat.zero_le _, hu.capacity, Nat.zero_le _⟩

theorem PacketUnit.Ok.push {u : PacketUnit} {p : Params} (bit err : Bool) (hu : u.Ok p) : (u.push p bit err).1.Ok p := by
  have h1 : min Config.pktHist (u.histN + 1) ≤ 64 := Nat.min_le_left _ _
  have h2 := hu.capacity
  have h3 := hu.count
  have ha : ((u.record bit err).append p.pktCap bit).Ok p := by
    unfold PacketUnit.append
    split
    · rename_i h
      exact ⟨h1, by simpa [PacketUnit.record] using h2, h⟩
    · exact ⟨h1, h2, h3⟩
  unfold PacketUnit.push
  dsimp only
  split
  · split
    · exact ⟨ha.history, ha.capacity, ha.count⟩
    · split
      · exact ⟨ha.history, ha.capacity, ha.count⟩
      · exact ha
  · split
    · exact ⟨h1, h2, Nat.zero_le _⟩
    · exact ⟨h1, h2, h3⟩

/-! ### The spectrum collector -/

theorem SpectrumUnit.Ok.start {u : SpectrumUnit} {k : Half} (hu : u.Ok) (hk : k ≠ 0) : (u.start k).Ok := by
  refine ⟨hu.capture, hu.epoch, fun _ => ?_, fun h => Bool.noConfusion h⟩
  have : k.toNat ≠ 0 := fun e => hk (BitVec.eq_of_toNat_eq (by simpa using e))
  show 0 < k.toNat
  omega

theorem SpectrumUnit.Ok.stop {u : SpectrumUnit} (hu : u.Ok) : u.stop.Ok :=
  ⟨hu.capture, hu.epoch, fun h => Bool.noConfusion h, fun _ => ⟨rfl, rfl⟩⟩

theorem SpectrumUnit.keep_fields (u : SpectrumUnit) (rate pass stop : Word) (x : C16) :
    (u.keep rate pass stop x).streaming = u.streaming ∧ (u.keep rate pass stop x).k = u.k
      ∧ (u.keep rate pass stop x).decCount = u.decCount ∧ (u.keep rate pass stop x).cb = u.cb.set u.fill.toNat x
      ∧ ((u.keep rate pass stop x).fb = u.fb ∨ (u.keep rate pass stop x).fb = u.cb.set u.fill.toNat x) := by
  unfold SpectrumUnit.keep; dsimp only
  split
  · split
    · exact ⟨rfl, rfl, rfl, rfl, .inl rfl⟩
    · exact ⟨rfl, rfl, rfl, rfl, .inr rfl⟩
  · exact ⟨rfl, rfl, rfl, rfl, .inl rfl⟩

theorem SpectrumUnit.Ok.feedOne {u : SpectrumUnit} (rate pass stop : Word) (x : C16) (hu : u.Ok) (hs : u.streaming = true) :
    (SpectrumUnit.feedOne rate pass stop u x).Ok ∧ (SpectrumUnit.feedOne rate pass stop u x).streaming = true := by
  obtain ⟨h1, h2, h3, h4, h5⟩ := u.keep_fields rate pass stop x
  have hk := hu.running hs
  have hk2 : (BitVec.ofNat 16 ((u.decCount.toNat + 1) % u.k.toNat)).toNat < u.k.toNat := by
    have := Nat.mod_lt (u.decCount.toNat + 1) (show 0 < u.k.toNat by omega)
    rw [BitVec.toNat_ofNat]
    exact lt_of_le_of_lt (Nat.mod_le _ _) this
  unfold SpectrumUnit.feedOne
  dsimp only
  split
  · refine ⟨⟨?_, ?_, fun _ => ?_, fun h => ?_⟩, h1.trans hs⟩
    · show (u.keep rate pass stop x).cb.length = 256
      rw [h4, List.length_set]; exact hu.capture
    · show (u.keep rate pass stop x).fb.length = 256
      rcases h5 with h5 | h5 <;> rw [h5]
      · exact hu.epoch
      · rw [List.length_set]; exact hu.capture
    · show _ < (u.keep rate pass stop x).k.toNat
      rw [h2]; exact hk2
    · exact Bool.noConfusion ((h1.trans hs).symm.trans h)
  · exact ⟨⟨hu.capture, hu.epoch, fun _ => hk2, fun h => Bool.noConfusion (hs.symm.trans h)⟩, hs⟩

theorem SpectrumUnit.Ok.feed {u : SpectrumUnit} (b : C16Buf) (pass stop : Word) (hu : u.Ok) : (u.feed b pass stop).Ok := by
  unfold SpectrumUnit.feed
  split
  · rename_i hs
    have : ∀ (xs : List C16) (v : SpectrumUnit), v.Ok → v.streaming = true →
        (xs.foldl (SpectrumUnit.feedOne b.rate pass stop) v).Ok := by
      intro xs
      induction xs with
      | nil => intro v hv _; exact hv
      | cons x xs ih => intro v hv hs; exact ih _ (hv.feedOne _ _ _ x hs).1 (hv.feedOne _ _ _ x hs).2
    exact this _ _ hu hs
  · exact hu

theorem spectrumDb_length (fb : List C16) : (spectrumDb fb).length = 256 := by simp [spectrumDb, smooth]

/-! ### Audio -/

theorem AudioUnit.Ok.reset {u : AudioUnit} {p : Params} (hu : u.Ok p) (hp : 1 ≤ p.audBlock) : (u.reset p).Ok p :=
  ⟨hu.cfg, hu.block, hp⟩

theorem AudioUnit.Ok.config {u : AudioUnit} {p : Params} {bytes : List Byte} (hu : u.Ok p) (hb : bytes.length ≤ payloadMax p) :
    (u.config p bytes).Ok p := ⟨hb, hu.block, hu.count⟩

theorem AudioUnit.Ok.step {u : AudioUnit} {p : Params} (d : Nat) (x : F32) (hu : u.Ok p) :
    (u.step p d x).1.Ok p ∧ ∀ b, (u.step p d x).2 = some b → b.length = p.audBlock := by
  have h1 := hu.block
  have h2 := hu.count
  unfold AudioUnit.step
  dsimp only
  split
  · refine ⟨⟨hu.cfg, by simpa using h1, by show 0 < _; omega⟩, ?_⟩
    intro b hb
    cases hb
    simp [h1]
  · exact ⟨⟨hu.cfg, by simpa using h1, by show u.blockN + 1 < _; omega⟩, fun b hb => by cases hb⟩

/-! ### A message channel (R152) -/

theorem ChannelRegs.Ok.sync {x : ChannelRegs} {cap : Nat} (hx : x.Ok cap) (sel : SyncSel) : (x.sync sel).Ok cap := by
  obtain ⟨h1, h2, h3⟩ := hx
  cases sel
  · exact ⟨Nat.le_refl _, Nat.le_refl _, Nat.le_trans h2 h3⟩
  · exact ⟨Nat.le_refl _, h2, h3⟩
  · exact ⟨h1, Nat.le_refl _, Nat.le_trans h2 h3⟩

theorem ChannelRegs.Ok.send {x : ChannelRegs} {cap n : Nat} (hx : x.Ok cap) (hcap : cap ≤ 65536) (hn : n ≤ cap - x.usedSeen) :
    ({ x with w := x.w + BitVec.ofNat 32 n } : ChannelRegs).Ok cap := by
  obtain ⟨h1, h2, h3⟩ := hx
  have e : ∀ a b : Word, (a + BitVec.ofNat 32 n - b).toNat = ((a - b).toNat + n) % 2 ^ 32 := by
    intro a b
    rw [show a + BitVec.ofNat 32 n - b = (a - b) + BitVec.ofNat 32 n by bv_omega]
    simp
  unfold ChannelRegs.avail ChannelRegs.used ChannelRegs.usedSeen at *
  refine ⟨?_, ?_, ?_⟩
  · show (x.wSeen - x.r).toNat ≤ (x.w + BitVec.ofNat 32 n - x.r).toNat
    rw [e]; omega
  · show (x.w + BitVec.ofNat 32 n - x.r).toNat ≤ (x.w + BitVec.ofNat 32 n - x.rSeen).toNat
    rw [e, e]; omega
  · show (x.w + BitVec.ofNat 32 n - x.rSeen).toNat ≤ cap
    rw [e]; omega

theorem ChannelRegs.Ok.recv {x : ChannelRegs} {cap n : Nat} (hx : x.Ok cap) (hn : n ≤ x.avail) :
    ({ x with r := x.r + BitVec.ofNat 32 n } : ChannelRegs).Ok cap := by
  obtain ⟨h1, h2, h3⟩ := hx
  have hlt : x.avail < 2 ^ 32 := (x.wSeen - x.r).isLt
  have e : ∀ a b : Word, n ≤ (a - b).toNat → (a - (b + BitVec.ofNat 32 n)).toNat = (a - b).toNat - n := by
    intro a b h
    bv_omega
  unfold ChannelRegs.avail ChannelRegs.used ChannelRegs.usedSeen at *
  refine ⟨?_, ?_, h3⟩
  · show (x.wSeen - (x.r + BitVec.ofNat 32 n)).toNat ≤ (x.w - (x.r + BitVec.ofNat 32 n)).toNat
    rw [e _ _ hn, e _ _ (by omega)]; omega
  · show (x.w - (x.r + BitVec.ofNat 32 n)).toNat ≤ (x.w - x.rSeen).toNat
    rw [e _ _ (by omega)]; omega

end Sys2Proof.Machine
end

