-- ==== Sys2Proof/Laws/Invariant.lean ====
section
/-! SUPPORT. Every shared operation on the state keeps the invariant of Safety.lean, with what it needs of the state. -/

namespace Sys2Proof.Machine
open Sys2Proof

variable {s : State}

theorem State.Inv.keeps_ret (h : s.Inv) (r : Ret) : ({ s with ret := r } : State).Inv := ⟨h.1, h.2, h.3, h.4, h.5, h.6, h.7, h.8, h.9, h.10, h.11, h.12, h.13, h.14, h.15, h.16, h.17⟩

theorem State.Inv.keeps_draws (h : s.Inv) (r) : ({ s with draws := r } : State).Inv := ⟨h.1, h.2, h.3, h.4, h.5, h.6, h.7, h.8, h.9, h.10, h.11, h.12, h.13, h.14, h.15, h.16, h.17⟩

theorem State.Inv.keeps_agenda (h : s.Inv) (r) : ({ s with agenda := r } : State).Inv := ⟨h.1, h.2, h.3, h.4, h.5, h.6, h.7, h.8, h.9, h.10, h.11, h.12, h.13, h.14, h.15, h.16, h.17⟩

theorem State.Inv.keeps_bufCount (h : s.Inv) (r) : ({ s with bufCount := r } : State).Inv := ⟨h.1, h.2, h.3, h.4, h.5, h.6, h.7, h.8, h.9, h.10, h.11, h.12, h.13, h.14, h.15, h.16, h.17⟩

theorem State.Inv.keeps_mode (h : s.Inv) (r) : ({ s with mode := r } : State).Inv := ⟨h.1, h.2, h.3, h.4, h.5, h.6, h.7, h.8, h.9, h.10, h.11, h.12, h.13, h.14, h.15, h.16, h.17⟩

theorem State.Inv.keeps_amd (h : s.Inv) (r) : ({ s with amd := r } : State).Inv := ⟨h.1, h.2, h.3, h.4, h.5, h.6, h.7, h.8, h.9, h.10, h.11, h.12, h.13, h.14, h.15, h.16, h.17⟩

theorem State.Inv.keeps_fmd (h : s.Inv) (r) : ({ s with fmd := r } : State).Inv := ⟨h.1, h.2, h.3, h.4, h.5, h.6, h.7, h.8, h.9, h.10, h.11, h.12, h.13, h.14, h.15, h.16, h.17⟩

theorem State.Inv.keeps_pkt (h : s.Inv) (r) (hr : r.Ok s.params) : ({ s with pkt := r } : State).Inv := ⟨h.1, h.2, h.3, h.4, h.5, h.6, h.7, h.8, h.9, h.10, h.11, h.12, hr, h.14, h.15, h.16, h.17⟩

theorem State.Inv.keeps_str (h : s.Inv) (r) (hr : r.Ok) : ({ s with str := r } : State).Inv := ⟨h.1, h.2, h.3, h.4, h.5, h.6, h.7, h.8, h.9, h.10, h.11, hr, h.13, h.14, h.15, h.16, h.17⟩

theorem State.Inv.keeps_fbf (h : s.Inv) (r) (hr : r.Ok) : ({ s with fbf := r } : State).Inv := ⟨h.1, h.2, h.3, h.4, h.5, h.6, h.7, h.8, h.9, h.10, hr, h.12, h.13, h.14, h.15, h.16, h.17⟩

theorem State.Inv.keeps_bpf (h : s.Inv) (r) (hr : r.Ok) : ({ s with bpf := r } : State).Inv := ⟨h.1, h.2, h.3, h.4, h.5, h.6, h.7, h.8, h.9, hr, h.11, h.12, h.13, h.14, h.15, h.16, h.17⟩

theorem State.Inv.keeps_spc (h : s.Inv) (r) (hr : r.Ok) : ({ s with spc := r } : State).Inv := ⟨h.1, h.2, h.3, h.4, h.5, h.6, h.7, h.8, h.9, h.10, h.11, h.12, h.13, hr, h.15, h.16, h.17⟩

theorem State.Inv.keeps_aud (h : s.Inv) (r) (hr : r.Ok s.params) : ({ s with aud := r } : State).Inv := ⟨h.1, h.2, h.3, h.4, h.5, h.6, h.7, h.8, h.9, h.10, h.11, h.12, h.13, h.14, h.15, hr, h.17⟩

theorem State.Inv.keeps_setPfd (h : s.Inv) (i : Fin 3) (f : FirUnit) (hf : f.Ok) : (s.setPfd i f).Inv := by
  unfold State.setPfd
  split
  · exact ⟨h.1, h.2, h.3, h.4, h.5, h.6, hf, h.8, h.9, h.10, h.11, h.12, h.13, h.14, h.15, h.16, h.17⟩
  · split
    · exact ⟨h.1, h.2, h.3, h.4, h.5, h.6, h.7, hf, h.9, h.10, h.11, h.12, h.13, h.14, h.15, h.16, h.17⟩
    · exact ⟨h.1, h.2, h.3, h.4, h.5, h.6, h.7, h.8, hf, h.10, h.11, h.12, h.13, h.14, h.15, h.16, h.17⟩

theorem State.Inv.keeps_pfdOk (h : s.Inv) (i : Fin 3) : (s.pfd i).Ok := by
  unfold State.pfd; split; exact h.pfd0; split; exact h.pfd1; exact h.pfd2

theorem State.Inv.keeps_setChan (h : s.Inv) (c : Chan) (x : ChannelRegs) (hx : x.Ok s.params.mfcCap) : (s.setChan c x).Inv := by
  cases c
  · exact ⟨h.1, h.2, h.3, h.4, hx, h.6, h.7, h.8, h.9, h.10, h.11, h.12, h.13, h.14, h.15, h.16, h.17⟩
  · exact ⟨h.1, h.2, h.3, h.4, h.5, hx, h.7, h.8, h.9, h.10, h.11, h.12, h.13, h.14, h.15, h.16, h.17⟩

theorem State.Inv.keeps_chanOk (h : s.Inv) (c : Chan) : (s.chan c).Ok s.params.mfcCap := by cases c; exact h.a2b; exact h.b2a

theorem errBits_lt (e : BitVec 8) (x : ErrCond) (h : e.toNat < 32) : (errBits e x).toNat < 32 := by
  unfold errBits
  rw [BitVec.toNat_or]
  refine Nat.or_lt_two_pow (n := 5) h ?_
  cases x <;> decide

theorem State.Inv.keeps_raise (h : s.Inv) (x : ErrCond) : (s.raise x).Inv := ⟨h.1, h.2, errBits_lt _ _ h.3, h.4, h.5, h.6, h.7, h.8, h.9, h.10, h.11, h.12, h.13, h.14, h.15, h.16, h.17⟩

theorem State.Inv.keeps_memo (h : s.Inv) (m) (hm : Memory.wf s.params m = true) : ({ s with mem := m } : State).Inv := ⟨h.1, hm, h.3, h.4, h.5, h.6, h.7, h.8, h.9, h.10, h.11, h.12, h.13, h.14, h.15, h.16, h.17⟩

theorem State.Inv.keeps_cap (h : s.Inv) : 16 ≤ s.params.mfcCap ∧ s.params.mfcCap ≤ 65536 := by
  have := capOk_bounds _ (paramsOk_cap _ h.params); omega

theorem State.Inv.keeps_send (h : s.Inv) (c : Chan) (k : Byte) (pl : List Byte) : (s.send c k pl).1.Inv := by
  rcases s.send_cases c k pl with ⟨_, e⟩ | ⟨_, _, e⟩ | ⟨hb, hn, e⟩ <;> rw [e]
  · exact h
  · dsimp only; split
    · exact h.keeps_raise _
    · exact h
  · have := h.keeps_cap
    refine State.Inv.keeps_setChan (h.keeps_memo _ (writeRing_wf _ _ (by omega) _ _ _ h.memory)) c _ ?_
    refine (h.keeps_chanOk c).send this.2 ?_
    simp [noRoom] at hn; exact hn

theorem State.Inv.keeps_rx (h : s.Inv) (c : Chan) : (s.rxMalformed c).Inv := by
  cases c
  · refine State.Inv.keeps_raise (h.keeps_setChan .a2b _ ?_) _
    exact ⟨h.a2b.1, h.a2b.2, h.a2b.3⟩
  · refine (h.keeps_setChan .b2a _ ?_)
    exact ⟨h.b2a.1, h.b2a.2, h.b2a.3⟩

theorem State.Inv.keeps_recv (h : s.Inv) (c : Chan) : (s.recv c).1.Inv := by
  rcases s.recv_cases c with ⟨e, _⟩ | ⟨_, _, _, e⟩ | ⟨_, h1, _, e⟩ <;> rw [e]
  · exact h
  · exact h.keeps_rx c
  · exact h.keeps_setChan c _ ((h.keeps_chanOk c).recv h1)

theorem State.Inv.keeps_blk (h : s.Inv) : 1 ≤ s.params.audBlock := by
  have := h.params; simp only [paramsOk, Bool.and_eq_true, decide_eq_true_eq] at this; exact this.1.1.1.1.1.2

theorem State.Inv.keeps_audStep (h : s.Inv) (rate) (x) : (s.audStep rate x).Inv := by
  have := h.aud.step s.draws x
  refine ⟨h.1, h.2, h.3, h.4, h.5, h.6, h.7, h.8, h.9, h.10, h.11, h.12, h.13, h.14, h.15, this.1, ?_⟩
  intro b hb
  simp only [State.audStep] at hb
  cases e : (s.aud.step s.params s.draws x).2 with
  | none => rw [e] at hb; exact h.blocks b hb
  | some l =>
    rw [e] at hb; simp only [emitBlock, List.mem_append, List.mem_singleton] at hb
    rcases hb with hb | hb
    · exact h.blocks b hb
    · subst hb; exact this.2 l e

theorem State.Inv.keeps_audExec (h : s.Inv) (b) : (s.audExec b).Inv := by
  unfold State.audExec
  generalize b.data = xs
  induction xs generalizing s with
  | nil => exact h
  | cons x xs ih => exact ih (h.keeps_audStep _ _)

theorem State.Inv.keeps_pfdCfg (h : s.Inv) (i d t taps) : (s.pfdCfg i d t taps).Inv := by
  unfold State.pfdCfg; split
  · exact h.keeps_setPfd _ _ (.cfg _ ‹_›)
  · exact h.keeps_raise _

theorem State.Inv.keeps_pfdExec (h : s.Inv) (i b) (hc : (s.pfd i).configured = true) : (s.pfdExec i b).Inv := h.keeps_setPfd _ _ (.exec _ (h.keeps_pfdOk i) hc)

theorem State.Inv.keeps_bpfCfg (h : s.Inv) (d t p q taps) : (s.bpfCfg d t p q taps).Inv := by
  unfold State.bpfCfg; split
  · rename_i hh
    simp only [Bool.and_eq_true] at hh
    refine h.keeps_bpf _ ⟨.cfg _ hh.1, fun _ => ?_, fun h => Bool.noConfusion h⟩
    have := hh.2; simp only [edgesLegal, Bool.and_eq_true, decide_eq_true_eq, bne_iff_ne] at this
    have h2 : p.toNat ≠ 0 := fun e => this.1 (BitVec.eq_of_toNat_eq (by simpa using e))
    exact ⟨by show 1 ≤ p.toNat; omega, this.2⟩
  · exact h.keeps_raise _

theorem State.Inv.keeps_bpfExec (h : s.Inv) (b) (hc : s.bpf.fir.configured = true) : (s.bpfExec b).Inv := by
  refine h.keeps_bpf _ ⟨.exec _ h.10.fir hc, h.10.edges, h.10.idle⟩

theorem State.Inv.keeps_fbfCfg (h : s.Inv) (t taps) : (s.fbfCfg t taps).Inv := by
  unfold State.fbfCfg; split
  · exact h.keeps_fbf _ (.cfg _ ‹_›)
  · exact h.keeps_raise _

theorem State.Inv.keeps_fbfExec (h : s.Inv) (b) : (s.fbfExec b).Inv := (h.keeps_fbf (s.fbf.exec s.draws b) (.exec _ _ h.11)).keeps_draws (s.draws + 2 * s.fbf.t.toNat * b.data.length)

theorem State.Inv.keeps_fmdExec (h : s.Inv) (b) : (s.fmdExec b).Inv := (h.keeps_fmd (s.fmd.exec s.draws b)).keeps_draws (s.draws + b.data.length)

theorem State.Inv.keeps_amdExec (h : s.Inv) (b) : (s.amdExec b).Inv := (h.keeps_amd _)

theorem State.Inv.keeps_strCfg (h : s.Inv) (a b g) : (s.strCfg a b g).Inv := by
  unfold State.strCfg; split
  · exact h.keeps_str _ (.cfg ‹_›)
  · exact h.keeps_raise _

theorem State.Inv.keeps_strPush (h : s.Inv) (x) (hc : s.str.configured = true) : (s.strPush x).1.Inv := (h.keeps_str (s.str.push s.draws x).1 (.push _ _ h.12 hc)).keeps_draws (s.draws + 4)

theorem State.Inv.keeps_pktPush (h : s.Inv) (a b) : (s.pktPush a b).1.Inv := by
  unfold State.pktPush; dsimp only
  split
  · exact State.Inv.keeps_pkt (h.keeps_raise _) _ (.push _ _ h.13)
  · exact State.Inv.keeps_pkt h _ (.push _ _ h.13)

theorem State.Inv.keeps_spcStart (h : s.Inv) (k) : (s.spcStart k).1.Inv := by
  unfold State.spcStart; split
  · exact h.keeps_raise _
  · exact h.keeps_spc _ (.start h.14 ‹_›)

theorem State.Inv.keeps_spcFeed (h : s.Inv) (b p q) : (s.spcFeed b p q).Inv := h.keeps_spc _ (.feed _ _ _ h.14)

theorem State.Inv.keeps_spcUpdate (h : s.Inv) : s.spcUpdate.Inv := by
  refine ⟨h.1, h.2, h.3, ?_, h.5, h.6, h.7, h.8, h.9, h.10, h.11, h.12, h.13, ⟨h.14.1, h.14.2, h.14.3, h.14.4⟩, spectrumDb_length _, h.16, h.17⟩
  have := h.event
  show evtWrite (s.evt ||| 1) = 1
  rw [this]; split <;> decide

theorem State.Inv.keeps_spcDrain (h : s.Inv) : s.spcDrain.1.Inv := by
  unfold State.spcDrain
  have := h.event
  split
  · rename_i he
    dsimp only
    split
    · refine ⟨h.1, h.2, h.3, rfl, h.5, h.6, h.7, h.8, h.9, h.10, h.11, h.12, h.13, h.14, h.15, h.16, h.17⟩
    · rename_i hv
      rw [if_neg hv] at this; rw [this] at he; exact absurd he (by decide)
  · exact h

theorem BandpassUnit.Ok.reset (b : BandpassUnit) : BandpassUnit.Ok { fir := b.fir.reset, passHz := 0, stopHz := 0 } := ⟨.reset, fun h => Bool.noConfusion h, fun _ => ⟨rfl, rfl⟩⟩

theorem ClockUnit.Ok.powerOn : ClockUnit.powerOn.Ok := ⟨fun h => Bool.noConfusion h, fun _ => rfl⟩

theorem State.Inv.keeps_teardown (h : s.Inv) : s.teardown.Inv :=
  ⟨h.1, h.2, h.3, h.4, h.5, h.6, .reset, .reset, .reset, BandpassUnit.Ok.reset _, .reset, ClockUnit.Ok.powerOn, .reset h.13, .stop h.14, h.15, .reset h.16 h.keeps_blk, h.17⟩

theorem State.Inv.keeps_handle (h : s.Inv) (k : Byte) (pl : List Byte) (hp : pl.length ≤ payloadMax s.params) : (s.handle k pl).Inv := by
  unfold State.handle
  split
  · unfold State.ctlSetMode; split
    · exact h.keeps_raise _
    · exact h.keeps_teardown.keeps_mode _
  · unfold State.ctlDecimator; split
    · exact h.keeps_raise _
    · split
      · exact h.keeps_pfdCfg _ _ _ _
      · exact h.keeps_raise _
  · unfold State.ctlChannelFilter; split
    · exact h.keeps_raise _
    · exact h.keeps_bpfCfg _ _ _ _ _
  · unfold State.ctlDemod; split
    · exact h.keeps_raise _
    · rename_i f _; exact State.Inv.keeps_fmd (h.keeps_amd (s.amd.cfg f.ssb f.bfoInc)) (s.fmd.cfg f.gain)
  · unfold State.ctlBaseband; split
    · exact h.keeps_raise _
    · exact h.keeps_fbfCfg _ _
  · unfold State.ctlClock; split
    · exact h.keeps_raise _
    · exact h.keeps_strCfg _ _ _
  · exact h.keeps_aud _ (.config h.16 hp)
  · unfold State.ctlSpectrumStart; split
    · exact h.keeps_raise _
    · split
      · exact (h.keeps_spcStart _).keeps_send _ _ _
      · exact h.keeps_spcStart _
  · unfold State.ctlSpectrumStop; split
    · exact h.keeps_spc _ (.stop h.14)
    · exact h.keeps_raise _
  · exact h.keeps_raise _

theorem State.recv_len {c k pl} (e : (s.recv c).2 = some (k, pl)) : pl.length ≤ payloadMax s.params := by
  rcases s.recv_cases c with ⟨e', _⟩ | ⟨_, _, _, e'⟩ | ⟨_, h1, hb, e'⟩ <;> rw [e'] at e
  · cases e
  · cases e
  · cases e; simp [State.readRing]; simp [badMessage] at hb; exact hb.2

theorem State.Inv.keeps_dispatch (h : s.Inv) : s.dispatch.1.Inv := by
  unfold State.dispatch
  have h1 := h.keeps_recv .a2b
  split
  · rename_i e; rw [e] at h1; exact h1
  · rename_i s1 k pl e
    have := State.recv_len (s := s) (c := .a2b) (by rw [e])
    rw [e] at h1
    refine State.Inv.keeps_handle h1 _ _ ?_
    have hp : s1.params = s.params := by have := s.recv_params .a2b; rw [e] at this; exact this
    rw [hp]; exact this

theorem State.Inv.keeps_drain (n) (h : s.Inv) : (s.drainControl n).Inv := by
  induction n generalizing s with
  | zero => exact h
  | succ n ih =>
    unfold State.drainControl
    have := h.keeps_dispatch
    split
    · rename_i e; rw [e] at this; exact this
    · rename_i e; rw [e] at this; exact ih this

theorem State.pktPush_str (a b) : (s.pktPush a b).1.str = s.str := by
  unfold State.pktPush; dsimp only; split <;> rfl

theorem State.Inv.keeps_pushSample (h : s.Inv) (x) (hc : s.str.configured = true) : (s.pushSample x).Inv ∧ (s.pushSample x).str.configured = true := by
  unfold State.pushSample
  have h1 := h.keeps_strPush x hc
  have hc1 : (s.strPush x).1.str.configured = true := (s.str.push_fields _ _).1.trans hc
  cases (s.strPush x).2 with
  | none => exact ⟨h1, hc1⟩
  | some y =>
    unfold State.pushSymbol
    dsimp only
    have h2 := h1.keeps_pktPush (slice y) false
    cases ((s.strPush x).1.pktPush (slice y) false).2 with
    | none =>
      refine ⟨h2, ?_⟩
      exact (congrArg ClockUnit.configured (State.pktPush_str (s := (s.strPush x).1) (slice y) false)).trans hc1
    | some bits =>
      refine ⟨h2.keeps_send _ _ _, ?_⟩
      show ((State.send _ _ _ _).1).str.configured = true
      rw [State.send_str, State.pktPush_str]; exact hc1

theorem State.Inv.keeps_backChain (h : s.Inv) (hc : s.mode = .tpms → s.str.configured = true) : s.backChain.Inv := by
  unfold State.backChain
  split
  · exact h
  · exact (h.keeps_amdExec _).keeps_audExec _
  · exact (h.keeps_fmdExec _).keeps_audExec _
  · rename_i hm
    have hc := hc hm
    dsimp only
    have h1 := (h.keeps_fmdExec s.bpf.fir.out).keeps_fbfExec (s.fmdExec s.bpf.fir.out).fmd.out
    have hc1 : ((s.fmdExec s.bpf.fir.out).fbfExec (s.fmdExec s.bpf.fir.out).fmd.out).str.configured = true := hc
    generalize ((s.fmdExec s.bpf.fir.out).fbfExec (s.fmdExec s.bpf.fir.out).fmd.out) = u at *
    generalize u.fbf.out.data = xs
    induction xs generalizing u with
    | nil => exact h1
    | cons x xs ih => exact ih _ (h1.keeps_pushSample x hc1).1 (h1.keeps_pushSample x hc1).2

theorem State.Inv.keeps_processRaw (h : s.Inv) (raw) (hc : s.configuredFor s.mode = true) : (s.processRaw raw).Inv := by
  have hh : s.pfd0.configured = true ∧ s.pfd1.configured = true ∧ s.pfd2.configured = true ∧ s.bpf.fir.configured = true ∧ (s.mode = .tpms → s.str.configured = true) := by
    cases hm : s.mode <;> rw [hm] at hc <;> simp [State.configuredFor] at hc <;> simp [hc]
  obtain ⟨c0, c1, c2, c3, c4⟩ := hh
  unfold State.processRaw
  dsimp only
  refine State.Inv.keeps_backChain (State.Inv.keeps_spcFeed ?_ _ _ _) c4
  unfold State.frontChain
  dsimp only
  exact (((h.keeps_pfdExec 0 _ c0).keeps_pfdExec 1 _ c1).keeps_pfdExec 2 _ c2).keeps_bpfExec _ c3

theorem State.Inv.keeps_topStats (h : s.Inv) : s.topStats.Inv := by
  unfold State.topStats
  dsimp only
  split
  · have := State.Inv.keeps_send (h.keeps_bufCount (s.bufCount+1)) .b2a 0x81 (State.statsBytes { s with bufCount := s.bufCount + 1 })
    exact ⟨this.1, this.2, this.3, this.4, this.5, this.6, this.7.clearSat, this.8.clearSat, this.9.clearSat, ⟨this.10.fir.clearSat, this.10.edges, this.10.idle⟩, this.11, this.12, this.13, this.14, this.15, this.16, this.17⟩
  · exact h.keeps_bufCount _

theorem State.Inv.keeps_topBuffer (h : s.Inv) (raw) : (s.topBuffer raw).Inv := by
  unfold State.topBuffer
  refine State.Inv.keeps_topStats ?_
  unfold State.consume
  split
  · exact State.Inv.keeps_processRaw (h.keeps_drain _) _ ‹_›
  · exact h.keeps_drain _

theorem FirUnit.Ok.powerOn : FirUnit.powerOn.Ok := ⟨rfl, rfl, (by intro h; cases h), fun _ => ⟨rfl, rfl⟩, replicate_drop _ _ _, replicate_drop _ _ _⟩

theorem State.Inv.keeps_hardReset (h : s.Inv) : s.hardReset.Inv := by
  have ch : ChannelRegs.powerOn.Ok s.params.mfcCap := ⟨(by decide), (by decide), Nat.zero_le _⟩
  exact ⟨h.1, h.2, Nat.zero_lt_succ _, rfl, ch, ch, FirUnit.Ok.powerOn, FirUnit.Ok.powerOn, FirUnit.Ok.powerOn, ⟨FirUnit.Ok.powerOn, fun h => Bool.noConfusion h, fun _ => ⟨rfl, rfl⟩⟩, ⟨⟨Nat.le_refl 1, (by decide : 1 ≤ 32)⟩, rfl, rfl, replicate_drop 31 0 _, replicate_drop _ _ _⟩, ClockUnit.Ok.powerOn, .reset h.13, ⟨List.length_replicate, List.length_replicate, fun h => Bool.noConfusion h, fun _ => ⟨rfl, rfl⟩⟩, List.length_replicate, ⟨Nat.zero_le _, List.length_replicate, h.keeps_blk⟩, h.17⟩

end Sys2Proof.Machine
end

