-- ==== Sys2Proof/Laws/PerInstr.lean ====
section
/-! SUPPORT. Laws said once per operation: its encoding begins with the code that 30_encoding.md R117 or R125 gives it, on
the interface that R110 gives it. -/

namespace Sys2Proof.Laws.encodeHead
open Sys2Proof

/-- The interface and the first byte of an operation, row by row as the opcode table has them. -/
def tableEntry : Instr → Port × Byte
  | .ctlSetMode _ => (.msg, 0x01)
  | .ctlDecimatorConfig _ => (.msg, 0x02)
  | .ctlChannelFilterConfig _ => (.msg, 0x03)
  | .ctlDemodConfig _ => (.msg, 0x04)
  | .ctlBasebandFirConfig _ => (.msg, 0x05)
  | .ctlClockConfig _ => (.msg, 0x06)
  | .ctlAudioConfig _ => (.msg, 0x07)
  | .ctlSpectrumStart _ => (.msg, 0x08)
  | .ctlSpectrumStop _ => (.msg, 0x09)
  | .resStatistics _ => (.msg, 0x81)
  | .resPacket _ => (.msg, 0x82)
  | .resSpectrumReady _ => (.msg, 0x83)
  | .mfcSend _ _ _ => (.cmd, 0x11)
  | .mfcRecv _ => (.cmd, 0x12)
  | .mfcSync _ _ => (.cmd, 0x13)
  | .pfdReset _ => (.cmd, 0x20)
  | .pfdCfg _ _ _ _ => (.cmd, 0x21)
  | .pfdExec _ _ => (.cmd, 0x22)
  | .bpfReset => (.cmd, 0x30)
  | .bpfCfg _ _ _ _ _ => (.cmd, 0x31)
  | .bpfExec _ => (.cmd, 0x32)
  | .fbfReset => (.cmd, 0x40)
  | .fbfCfg _ _ => (.cmd, 0x41)
  | .fbfExec _ => (.cmd, 0x42)
  | .amdReset => (.cmd, 0x50)
  | .amdCfg _ _ => (.cmd, 0x51)
  | .amdExec _ => (.cmd, 0x52)
  | .fmdReset => (.cmd, 0x60)
  | .fmdCfg _ => (.cmd, 0x61)
  | .fmdExec _ => (.cmd, 0x62)
  | .strReset => (.cmd, 0x70)
  | .strCfg _ _ _ => (.cmd, 0x71)
  | .strPush _ => (.cmd, 0x72)
  | .pktReset => (.cmd, 0x80)
  | .pktPush _ _ => (.cmd, 0x82)
  | .spcReset => (.cmd, 0x90)
  | .spcStart _ => (.cmd, 0x91)
  | .spcFeed _ _ _ => (.cmd, 0x92)
  | .spcStop => (.cmd, 0x93)
  | .spcUpdate => (.cmd, 0x94)
  | .spcDrain => (.cmd, 0x95)
  | .audReset => (.cmd, 0xA0)
  | .audCfg _ => (.cmd, 0xA1)
  | .audExec _ => (.cmd, 0xA2)
  | .manDecode _ _ => (.cmd, 0xB2)
  | .topReset => (.cmd, 0xC0)
  | .topDispatch => (.cmd, 0xC1)
  | .topBuffer _ => (.cmd, 0xC2)
  | .topStats => (.cmd, 0xC3)

/-- The encoding of an operation stands on its interface and begins with its code. -/
def Statement (i : Instr) : Prop := ((encode i).port, (encode i).bytes.head?) = ((tableEntry i).1, some (tableEntry i).2)

theorem ctlSetMode (payload : List Byte) : Statement (.ctlSetMode payload) := rfl
theorem ctlDecimatorConfig (payload : List Byte) : Statement (.ctlDecimatorConfig payload) := rfl
theorem ctlChannelFilterConfig (payload : List Byte) : Statement (.ctlChannelFilterConfig payload) := rfl
theorem ctlDemodConfig (payload : List Byte) : Statement (.ctlDemodConfig payload) := rfl
theorem ctlBasebandFirConfig (payload : List Byte) : Statement (.ctlBasebandFirConfig payload) := rfl
theorem ctlClockConfig (payload : List Byte) : Statement (.ctlClockConfig payload) := rfl
theorem ctlAudioConfig (payload : List Byte) : Statement (.ctlAudioConfig payload) := rfl
theorem ctlSpectrumStart (payload : List Byte) : Statement (.ctlSpectrumStart payload) := rfl
theorem ctlSpectrumStop (payload : List Byte) : Statement (.ctlSpectrumStop payload) := rfl
theorem resStatistics (payload : List Byte) : Statement (.resStatistics payload) := rfl
theorem resPacket (payload : List Byte) : Statement (.resPacket payload) := rfl
theorem resSpectrumReady (payload : List Byte) : Statement (.resSpectrumReady payload) := rfl
theorem mfcSend (c : Chan) (kind : Byte) (payload : List Byte) : Statement (.mfcSend c kind payload) := rfl
theorem mfcRecv (c : Chan) : Statement (.mfcRecv c) := rfl
theorem mfcSync (c : Chan) (sel : SyncSel) : Statement (.mfcSync c sel) := rfl
theorem pfdReset (i : Fin 3) : Statement (.pfdReset i) := rfl
theorem pfdCfg (i : Fin 3) (d t : Byte) (taps : List Half) : Statement (.pfdCfg i d t taps) := rfl
theorem pfdExec (i : Fin 3) (input : C16Buf) : Statement (.pfdExec i input) := rfl
theorem bpfReset : Statement (.bpfReset) := rfl
theorem bpfCfg (d t : Byte) (passHz stopHz : Word) (taps : List Half) : Statement (.bpfCfg d t passHz stopHz taps) := rfl
theorem bpfExec (input : C16Buf) : Statement (.bpfExec input) := rfl
theorem fbfReset : Statement (.fbfReset) := rfl
theorem fbfCfg (t : Byte) (taps : List F32) : Statement (.fbfCfg t taps) := rfl
theorem fbfExec (input : F32Buf) : Statement (.fbfExec input) := rfl
theorem amdReset : Statement (.amdReset) := rfl
theorem amdCfg (ssb : Bool) (bfoInc : Word) : Statement (.amdCfg ssb bfoInc) := rfl
theorem amdExec (input : C16Buf) : Statement (.amdExec input) := rfl
theorem fmdReset : Statement (.fmdReset) := rfl
theorem fmdCfg (gain : F32) : Statement (.fmdCfg gain) := rfl
theorem fmdExec (input : C16Buf) : Statement (.fmdExec input) := rfl
theorem strReset : Statement (.strReset) := rfl
theorem strCfg (sampleRate symbolRate : Word) (gain : F32) : Statement (.strCfg sampleRate symbolRate gain) := rfl
theorem strPush (x : F32) : Statement (.strPush x) := rfl
theorem pktReset : Statement (.pktReset) := rfl
theorem pktPush (bit err : Bool) : Statement (.pktPush bit err) := rfl
theorem spcReset : Statement (.spcReset) := rfl
theorem spcStart (k : Half) : Statement (.spcStart k) := rfl
theorem spcFeed (input : C16Buf) (passHz stopHz : Word) : Statement (.spcFeed input passHz stopHz) := rfl
theorem spcStop : Statement (.spcStop) := rfl
theorem spcUpdate : Statement (.spcUpdate) := rfl
theorem spcDrain : Statement (.spcDrain) := rfl
theorem audReset : Statement (.audReset) := rfl
theorem audCfg (bytes : List Byte) : Statement (.audCfg bytes) := rfl
theorem audExec (input : F32Buf) : Statement (.audExec input) := rfl
theorem manDecode (bits : List Bool) (sense : Bool) : Statement (.manDecode bits sense) := rfl
theorem topReset : Statement (.topReset) := rfl
theorem topDispatch : Statement (.topDispatch) := rfl
theorem topBuffer (raw : List C8) : Statement (.topBuffer raw) := rfl
theorem topStats : Statement (.topStats) := rfl

end Sys2Proof.Laws.encodeHead
end

