-- ==== Sys2Proof/Laws/Policies.lean ====
section
/-! SUPPORT. Every PKT_MATCH function of R242 (44_packet_builder.md) is a `MatchTree`, every PKT_LOST and PKT_DONE function a
list of counts: what the data types of Config.lean can say is what R10 lets a build substitute. -/

namespace Sys2Proof.Machine
open Sys2Proof

/-- Any function of the low `k` bits of a word is a tree of tests of them, whatever the leaves may be. -/
theorem tree_of_bits (test : Nat → MatchTree → MatchTree → MatchTree)
    (bit : BitVec 64 → BitVec 64 → Nat → Bool)
    (ht : ∀ b e n i yes no,
      evalMatch b e n (test i yes no) = if bit b e i then evalMatch b e n yes else evalMatch b e n no)
    (leaf : (Nat → Bool) → MatchTree) :
    ∀ k (known : Nat → Bool), ∃ t, ∀ b e n,
      evalMatch b e n t = evalMatch b e n (leaf fun i => if i < k then bit b e i else known i) := by
  intro k
  induction k with
  | zero => intro known; exact ⟨leaf known, fun b e n => by simp⟩
  | succ k ih =>
    intro known
    obtain ⟨yes, hy⟩ := ih fun i => if i = k then true else known i
    obtain ⟨no, hn⟩ := ih fun i => if i = k then false else known i
    refine ⟨test k yes no, fun b e n => ?_⟩
    have key : ∀ v, bit b e k = v →
        (fun i => if i < k then bit b e i else if i = k then v else known i)
          = fun i => if i < k + 1 then bit b e i else known i := by
      intro v hv; funext i
      by_cases h1 : i < k
      · rw [if_pos h1, if_pos (by omega)]
      · by_cases h2 : i = k
        · subst h2; rw [if_neg h1, if_pos rfl, if_pos (by omega), hv]
        · rw [if_neg h1, if_neg h2, if_neg (by omega)]
    rw [ht]
    cases hv : bit b e k with
    | true => rw [if_pos rfl, hy, key true hv]
    | false => rw [if_neg (by simp), hn, key false hv]

/-- Any function of `hist_n`, which never exceeds `m`, is a tree of comparisons. -/
theorem tree_of_count (g : Nat → Bool) :
    ∀ m, ∃ t, ∀ (b e : BitVec 64) n, n ≤ m → evalMatch b e n t = g n := by
  intro m
  induction m with
  | zero => exact ⟨.answer (g 0), fun b e n hn => by rw [Nat.le_zero.1 hn]; rfl⟩
  | succ m ih =>
    obtain ⟨t, h⟩ := ih
    refine ⟨.ifCount (m + 1) (.answer (g (m + 1))) t, fun b e n hn => ?_⟩
    show (if m + 1 ≤ n then g (m + 1) else evalMatch b e n t) = g n
    split
    · rw [show n = m + 1 by omega]
    · exact h b e n (by omega)

/-- A word is its bits. -/
theorem ofBits_eq (b : BitVec 64) :
    (BitVec.ofFnLE fun i : Fin 64 => if i.val < 64 then b.getLsbD i.val else false) = b := by
  ext i hi
  simp

/-- Every PKT_MATCH(hist_bits, hist_err, hist_n) of R242 is a `MatchTree` (`hist_n` is at most 64). -/
theorem matchTree_complete (f : BitVec 64 → BitVec 64 → Nat → Bool) :
    ∃ t, ∀ b e n, n ≤ 64 → evalMatch b e n t = f b e n := by
  choose leaf hleaf using fun w v => tree_of_count (f w v) 64
  let word (k : Nat → Bool) : BitVec 64 := BitVec.ofFnLE fun i : Fin 64 => k i.val
  choose inner hinner using fun w => tree_of_bits .ifErr (fun _ e i => e.getLsbD i)
    (fun _ _ _ _ _ _ => rfl) (fun k => leaf w (word k)) 64 (fun _ => false)
  obtain ⟨t, ht⟩ := tree_of_bits .ifBit (fun b _ i => b.getLsbD i)
    (fun _ _ _ _ _ _ => rfl) (fun k => inner (word k)) 64 (fun _ => false)
  refine ⟨t, fun b e n hn => ?_⟩
  rw [ht, hinner]
  rw [show word (fun i => if i < 64 then b.getLsbD i else false) = b from ofBits_eq b,
    show word (fun i => if i < 64 then e.getLsbD i else false) = e from ofBits_eq e]
  exact hleaf b e b e n hn

/-- Every predicate of `capture_len`, which never exceeds PKT_CAP, is a list of counts (R242). -/
theorem counts_complete (cap : Nat) (g : Nat → Bool) :
    ∃ counts : List Nat, ∀ len, len ≤ cap → counts.contains len = g len := by
  refine ⟨(List.range (cap + 1)).filter g, fun len h => ?_⟩
  have : len < cap + 1 := by omega
  cases hg : g len <;> simp [hg, this]

end Sys2Proof.Machine
end

