-- ==== Sys2Proof/Laws/Rings.lean ====
section
/-! SUPPORT. What the three channel operations do to a ring that holds whole messages (40_message_channel.md R152, R153,
R155, R158, R161). -/

namespace Sys2Proof.Machine
open Sys2Proof

theorem messageBytes_length (k : Byte) (pl : List Byte) : (messageBytes k pl).length = 4 + pl.length := by
  simp [messageBytes, header]; omega

theorem queueBytes_append (a b : List Message) : queueBytes (a ++ b) = queueBytes a ++ queueBytes b := by
  simp [queueBytes]

theorem queueBytes_cons (m : Message) (q : List Message) : queueBytes (m :: q) = messageBytes m.1 m.2 ++ queueBytes q := by
  simp [queueBytes]

theorem queueBytes_one (m : Message) : queueBytes [m] = messageBytes m.1 m.2 := by simp [queueBytes]

/-- The ring index does not see a cursor that wraps at 2^32 (20_memory.md R96). -/
theorem ringOffset_wrap (base cap n i : Nat) (h : cap ∣ 2 ^ 32) : ringOffset base cap (n % 2 ^ 32) i = ringOffset base cap n i := by
  unfold ringOffset
  congr 1
  rw [Nat.add_mod, Nat.mod_mod_of_dvd _ h, ← Nat.add_mod]

theorem State.readRing_congr {s t : State} (c : Chan) (pos n : Nat) (hp : t.params = s.params)
    (h : ∀ i, i < n → t.ringByte (ringOffset (s.ringBase c) s.params.mfcCap pos i)
      = s.ringByte (ringOffset (s.ringBase c) s.params.mfcCap pos i)) : t.readRing c pos n = s.readRing c pos n := by
  unfold State.readRing State.ringBase
  rw [hp]
  apply List.map_congr_left
  intro i hi
  exact h i (List.mem_range.1 hi)

/-- A read in two parts. -/
theorem State.readRing_add (s : State) (c : Chan) (pos m n : Nat) :
    s.readRing c pos (m + n) = s.readRing c pos m ++ s.readRing c (pos + m) n := by
  unfold State.readRing
  rw [List.range_add, List.map_append, List.map_map]
  congr 1
  apply List.map_congr_left
  intro i _
  simp only [Function.comp]
  unfold ringOffset
  rw [Nat.add_assoc]

theorem State.readRing_wrap (s : State) (c : Chan) (pos n : Nat) (h : s.params.mfcCap ∣ 2 ^ 32) :
    s.readRing c (pos % 2 ^ 32) n = s.readRing c pos n := by
  unfold State.readRing
  apply List.map_congr_left
  intro i _
  rw [ringOffset_wrap _ _ _ _ h]

/-- The two rings do not overlap. -/
theorem ringOffset_disjoint (s : State) (c d : Chan) (h : d ≠ c) (hcap : 0 < s.params.mfcCap) (p q i j : Nat) :
    ringOffset (s.ringBase d) s.params.mfcCap p i ≠ ringOffset (s.ringBase c) s.params.mfcCap q j := by
  have h1 := ringOffset_range (s.ringBase d) s.params.mfcCap p i hcap
  have h2 := ringOffset_range (s.ringBase c) s.params.mfcCap q j hcap
  intro e
  rw [e] at h1
  cases c <;> cases d <;> first | exact absurd rfl h | (simp [State.ringBase, Machine.ringBase] at h1 h2; omega)

/-- A message is refused before anything is written exactly when it is malformed. -/
theorem badMessage_false (p : Params) (k : Byte) (n : Nat) :
    badMessage p k n = false ↔ k ≠ 0 ∧ n ≤ min 252 (p.mfcCap - 4) := by
  simp [badMessage, payloadMax]

/-- The room test says that the message fits in the room the sender sees. -/
theorem noRoom_false (p : Params) (x : ChannelRegs) (n : Nat) : noRoom p x n = false ↔ 4 + n ≤ p.mfcCap - x.usedSeen := by
  unfold noRoom
  rw [decide_eq_false_iff_not, Nat.not_lt]

/-- The state after an accepted SEND. -/
def State.sent (s : State) (c : Chan) (k : Byte) (pl : List Byte) : State :=
  { s with mem := writeRing (s.ringBase c) s.params.mfcCap (s.chan c).w.toNat (messageBytes k pl) s.mem }.setChan c
    { s.chan c with w := (s.chan c).w + BitVec.ofNat 32 (4 + pl.length) }

theorem State.send_sent (s : State) (c : Chan) (k : Byte) (pl : List Byte) (hb : badMessage s.params k pl.length = false)
    (hr : noRoom s.params (s.chan c) pl.length = false) : s.send c k pl = (s.sent c k pl, true) := by
  rcases s.send_cases c k pl with ⟨h, _⟩ | ⟨_, h, _⟩ | ⟨_, _, h⟩
  · rw [hb] at h; cases h
  · rw [hr] at h; cases h
  · exact h

@[simp] theorem State.sent_params (s : State) (c : Chan) (k : Byte) (pl : List Byte) : (s.sent c k pl).params = s.params := by
  cases c <;> rfl
@[simp] theorem State.sent_mem (s : State) (c : Chan) (k : Byte) (pl : List Byte) : (s.sent c k pl).mem
    = writeRing (s.ringBase c) s.params.mfcCap (s.chan c).w.toNat (messageBytes k pl) s.mem := by cases c <;> rfl
@[simp] theorem State.sent_chan (s : State) (c : Chan) (k : Byte) (pl : List Byte) : (s.sent c k pl).chan c
    = { s.chan c with w := (s.chan c).w + BitVec.ofNat 32 (4 + pl.length) } := by cases c <;> rfl

/-- The bytes an accepted SEND stores. -/
theorem State.sent_stored (s : State) (c : Chan) (k : Byte) (pl : List Byte) (hl : 4 + pl.length ≤ s.params.mfcCap) (i : Nat)
    (hi : i < 4 + pl.length) :
    (s.sent c k pl).ringByte (ringOffset (s.ringBase c) s.params.mfcCap (s.chan c).w.toNat i) = (messageBytes k pl).getD i 0 := by
  have hm := messageBytes_length k pl
  unfold State.ringByte
  rw [State.sent_mem, memGet_writeRing_in _ _ _ _ _ _ (by omega) (by omega)]
  simp [hm, hi]

/-- The bytes an accepted SEND leaves alone. -/
theorem State.sent_frame (s : State) (c : Chan) (k : Byte) (pl : List Byte) (off : Nat) (h : ¬ s.storedAt c (4 + pl.length) off) :
    (s.sent c k pl).ringByte off = s.ringByte off := by
  unfold State.ringByte
  rw [State.sent_mem, memGet_writeRing_out]
  intro i hi e
  exact h ⟨i, by rw [messageBytes_length] at hi; exact hi, e⟩

/-- An accepted SEND puts its message behind those the ring holds. -/
theorem State.Holds.sent {s : State} {c : Chan} {vis hid : List Message} (hp : paramsOk s.params = true)
    (h : s.Holds c vis hid) (k : Byte) (pl : List Byte) (hb : badMessage s.params k pl.length = false)
    (hr : noRoom s.params (s.chan c) pl.length = false) : (s.sent c k pl).Holds c vis (hid ++ [(k, pl)]) := by
  obtain ⟨hc1, hc2, hdvd⟩ := capOk_bounds _ (paramsOk_cap _ hp)
  obtain ⟨h1, h2, h3, h4, h5, h6, h7⟩ := h
  have hroom : 4 + pl.length ≤ s.params.mfcCap - (s.chan c).usedSeen := (noRoom_false _ _ _).1 hr
  have hm := messageBytes_length k pl
  have e : ∀ a b : Word, (a + BitVec.ofNat 32 (4 + pl.length) - b).toNat = ((a - b).toNat + (4 + pl.length)) % 2 ^ 32 := by
    intro a b
    rw [show a + BitVec.ofNat 32 (4 + pl.length) - b = (a - b) + BitVec.ofNat 32 (4 + pl.length) by bv_omega]
    simp
  have hu : ((s.sent c k pl).chan c).used = (s.chan c).used + (4 + pl.length) := by
    rw [State.sent_chan]; unfold ChannelRegs.used ChannelRegs.usedSeen at *
    show ((s.chan c).w + BitVec.ofNat 32 (4 + pl.length) - (s.chan c).r).toNat = _
    rw [e]; omega
  have hus : ((s.sent c k pl).chan c).usedSeen = (s.chan c).usedSeen + (4 + pl.length) := by
    rw [State.sent_chan]; unfold ChannelRegs.usedSeen at *
    show ((s.chan c).w + BitVec.ofNat 32 (4 + pl.length) - (s.chan c).rSeen).toNat = _
    rw [e]; omega
  have hq : queueBytes (vis ++ (hid ++ [(k, pl)])) = queueBytes (vis ++ hid) ++ messageBytes k pl := by
    rw [← List.append_assoc, queueBytes_append, queueBytes_one]
  have hw : (s.chan c).w.toNat = ((s.chan c).r.toNat + (s.chan c).used) % 2 ^ 32 := by
    unfold ChannelRegs.used; bv_omega
  refine ⟨?_, ?_, ?_, ?_, ?_, ?_, ?_⟩
  · rw [State.sent_chan]; exact h1
  · intro m hm
    rw [State.sent_params]
    rw [← List.append_assoc, List.mem_append, List.mem_singleton] at hm
    rcases hm with hm | rfl
    · exact h2 m hm
    · exact hb
  · rw [State.sent_chan]; exact h3
  · rw [hu, h4, hq, List.length_append, hm]
  · rw [hu, hus]; omega
  · rw [hus, State.sent_params]; omega
  · rw [hu, State.readRing_add, hq]
    have hr' : ((s.sent c k pl).chan c).r = (s.chan c).r := by rw [State.sent_chan]
    rw [hr']
    congr 1
    · rw [← h7]
      apply State.readRing_congr _ _ _ (State.sent_params _ _ _ _)
      intro i hi
      apply State.sent_frame
      rintro ⟨j, hj, ej⟩
      rw [hw, ringOffset_wrap _ _ _ _ hdvd] at ej
      have ej2 : ringOffset (s.ringBase c) s.params.mfcCap (s.chan c).r.toNat i
          = ringOffset (s.ringBase c) s.params.mfcCap (s.chan c).r.toNat ((s.chan c).used + j) := by
        rw [ej]; unfold ringOffset; rw [Nat.add_assoc]
      have := ringOffset_inj _ _ _ _ _ (by omega) (by omega) ej2
      omega
    · apply List.ext_getElem
      · simp [State.readRing, hm]
      · intro i hi1 hi2
        rw [hm] at hi2
        simp only [State.readRing, List.getElem_map, List.getElem_range, State.sent_params]
        have := s.sent_stored c k pl (by omega) i hi2
        rw [hw, ringOffset_wrap _ _ _ _ hdvd] at this
        have hbase : (s.sent c k pl).ringBase c = s.ringBase c := by unfold State.ringBase; rw [State.sent_params]
        rw [hbase, this]
        simp [hm, hi2]

theorem State.Holds.congr {s t : State} {c : Chan} {vis hid : List Message} (h : s.Holds c vis hid) (hp : t.params = s.params)
    (hc : t.chan c = s.chan c) (hm : t.readRing c (s.chan c).r.toNat (s.chan c).used = s.readRing c (s.chan c).r.toNat (s.chan c).used) :
    t.Holds c vis hid := by
  obtain ⟨h1, h2, h3, h4, h5, h6, h7⟩ := h
  exact ⟨by rw [hc]; exact h1, by rw [hp]; exact h2, by rw [hc]; exact h3, by rw [hc]; exact h4, by rw [hc]; exact h5,
    by rw [hc, hp]; exact h6, by rw [hc, hm]; exact h7⟩

/-- A ring does not change with anything but its registers, its bytes and the parameters. -/
theorem State.Holds.of_same {s t : State} {c : Chan} {vis hid : List Message} (h : s.Holds c vis hid) (hp : t.params = s.params)
    (hc : t.chan c = s.chan c) (hm : t.mem = s.mem) : t.Holds c vis hid := by
  refine h.congr hp hc ?_
  apply State.readRing_congr _ _ _ hp
  intro i _
  unfold State.ringByte
  rw [hm]

/-- A SEND on one channel leaves the other's ring alone. -/
theorem State.Holds.sent_other {s : State} {c d : Chan} {vis hid : List Message} (hp : paramsOk s.params = true)
    (h : s.Holds d vis hid) (hd : d ≠ c) (k : Byte) (pl : List Byte) : (s.sent c k pl).Holds d vis hid := by
  obtain ⟨hc1, _, _⟩ := capOk_bounds _ (paramsOk_cap _ hp)
  have hc : (s.sent c k pl).chan d = s.chan d := by
    cases c <;> cases d <;> first | rfl | exact absurd rfl hd
  refine h.congr (State.sent_params _ _ _ _) hc ?_
  apply State.readRing_congr _ _ _ (State.sent_params _ _ _ _)
  intro i _
  apply State.sent_frame
  rintro ⟨j, _, e⟩
  exact ringOffset_disjoint s c d hd (by omega) _ _ _ _ e

/-- The header and the payload of the oldest message. -/
theorem State.Holds.head {s : State} {c : Chan} {k : Byte} {pl : List Byte} {vis hid : List Message}
    (h : s.Holds c ((k, pl) :: vis) hid) :
    s.headKind c = k ∧ s.headLen c = pl.length ∧ s.readRing c ((s.chan c).r.toNat + 4) pl.length = pl
      ∧ 4 + pl.length ≤ (s.chan c).avail ∧ badMessage s.params k pl.length = false := by
  obtain ⟨h1, h2, h3, h4, h5, h6, h7⟩ := h
  have hb := h2 (k, pl) (by simp)
  have hl : pl.length ≤ 252 := by have := (badMessage_false _ _ _).1 hb; simp at this; omega
  have hm := messageBytes_length k pl
  rw [List.cons_append, queueBytes_cons] at h4 h7
  rw [queueBytes_cons, List.length_append, hm] at h3
  rw [List.length_append, hm] at h4
  have e : s.readRing c (s.chan c).r.toNat (4 + (pl.length + (queueBytes (vis ++ hid)).length))
      = messageBytes k pl ++ queueBytes (vis ++ hid) := by
    rw [← h7, h4]; congr 1
    simp [queueBytes_append]
    omega
  rw [State.readRing_add, State.readRing_add] at e
  unfold messageBytes at e
  rw [List.append_assoc] at e
  have e1 := List.append_inj e (by simp [State.readRing, header])
  have e2 := List.append_inj e1.2 (by simp [State.readRing])
  refine ⟨?_, ?_, e2.1, ?_, hb⟩
  · unfold State.headKind; rw [e1.1]; rfl
  · unfold State.headLen; dsimp only; rw [e1.1]; simp [header, u16le]; omega
  · rw [h3]; omega

/-- The state after a RECV of a message with a payload of `n` bytes. -/
def State.received (s : State) (c : Chan) (n : Nat) : State :=
  s.setChan c { s.chan c with r := (s.chan c).r + BitVec.ofNat 32 (4 + n) }

/-- RECV takes the oldest visible message. -/
theorem State.Holds.recv_cons {s : State} {c : Chan} {k : Byte} {pl : List Byte} {vis hid : List Message}
    (h : s.Holds c ((k, pl) :: vis) hid) : s.recv c = (s.received c pl.length, some (k, pl)) := by
  obtain ⟨e1, e2, e3, e4, e5⟩ := h.head
  rcases s.recv_cases c with ⟨_, h'⟩ | ⟨_, _, h', _⟩ | ⟨_, _, _, h'⟩
  · rw [e1, e2, e5] at h'
    rcases h' with h' | h' | ⟨_, h'⟩
    · rw [h.noFault] at h'; cases h'
    · omega
    · omega
  · rw [e1, e2, e5] at h'; cases h'
  · rw [h', e1, e2, e3]; rfl

/-- RECV returns none where no message is visible. -/
theorem State.Holds.recv_nil {s : State} {c : Chan} {hid : List Message} (h : s.Holds c [] hid) : s.recv c = (s, none) := by
  have : (s.chan c).avail = 0 := h.visible
  rcases s.recv_cases c with ⟨h', _⟩ | ⟨_, h', _⟩ | ⟨_, h', _⟩
  · exact h'
  · omega
  · omega

/-- What is left after RECV. -/
theorem State.Holds.received {s : State} {c : Chan} {k : Byte} {pl : List Byte} {vis hid : List Message}
    (hp : paramsOk s.params = true) (h : s.Holds c ((k, pl) :: vis) hid) : (s.received c pl.length).Holds c vis hid := by
  obtain ⟨hc1, hc2, hdvd⟩ := capOk_bounds _ (paramsOk_cap _ hp)
  obtain ⟨_, _, _, ha, _⟩ := h.head
  obtain ⟨h1, h2, h3, h4, h5, h6, h7⟩ := h
  have hm := messageBytes_length k pl
  rw [List.cons_append, queueBytes_cons] at h4 h7
  rw [queueBytes_cons, List.length_append, hm] at h3
  rw [List.length_append, hm] at h4
  have hq : (queueBytes (vis ++ hid)).length = (queueBytes vis).length + (queueBytes hid).length := by
    rw [queueBytes_append, List.length_append]
  have hch : (s.received c pl.length).chan c = { s.chan c with r := (s.chan c).r + BitVec.ofNat 32 (4 + pl.length) } := by
    unfold State.received; exact State.setChan_chan _ _ _
  have hpar : (s.received c pl.length).params = s.params := by unfold State.received; simp
  have e : ∀ a : Word, 4 + pl.length ≤ (a - (s.chan c).r).toNat →
      (a - ((s.chan c).r + BitVec.ofNat 32 (4 + pl.length))).toNat = (a - (s.chan c).r).toNat - (4 + pl.length) := by
    intro a ha
    have := (a - (s.chan c).r).isLt
    bv_omega
  have hu : ((s.received c pl.length).chan c).used = (s.chan c).used - (4 + pl.length) := by
    rw [hch]; unfold ChannelRegs.used at *; exact e (s.chan c).w (by omega)
  have hus : ((s.received c pl.length).chan c).usedSeen = (s.chan c).usedSeen := by rw [hch]; rfl
  refine ⟨?_, ?_, ?_, ?_, ?_, ?_, ?_⟩
  · rw [hch]; exact h1
  · rw [hpar]; intro m hm; exact h2 m (by simp at hm ⊢; tauto)
  · rw [hch]; unfold ChannelRegs.avail at *
    exact (e _ ha).trans (by omega)
  · rw [hu]; omega
  · rw [hu, hus]; omega
  · rw [hus, hpar]; exact h6
  · rw [hu, hch]
    have hsplit : (s.chan c).used = (4 + pl.length) + (queueBytes (vis ++ hid)).length := h4
    rw [hsplit, State.readRing_add] at h7
    have h8 := (List.append_inj h7 (by simp [State.readRing, hm])).2
    rw [hsplit, Nat.add_sub_cancel_left]
    refine Eq.trans ?_ h8
    have hw : ((s.chan c).r + BitVec.ofNat 32 (4 + pl.length)).toNat = ((s.chan c).r.toNat + (4 + pl.length)) % 2 ^ 32 := by simp
    show State.readRing _ _ ((s.chan c).r + BitVec.ofNat 32 (4 + pl.length)).toNat _ = _
    rw [hw, State.readRing_wrap _ _ _ _ (by rw [hpar]; exact hdvd)]
    apply State.readRing_congr _ _ _ hpar
    intro i _
    unfold State.ringByte State.received
    rw [State.setChan_mem]

/-- SYNC of the write cursor makes every stored message visible. -/
theorem State.Holds.sync_w {s : State} {c : Chan} {vis hid : List Message} (h : s.Holds c vis hid) :
    (s.setChan c ((s.chan c).sync .wSeen)).Holds c (vis ++ hid) [] := by
  obtain ⟨h1, h2, h3, h4, h5, h6, h7⟩ := h
  refine ⟨?_, ?_, ?_, ?_, ?_, ?_, ?_⟩ <;>
    simp only [State.setChan_chan, State.setChan_params, List.append_nil, ChannelRegs.sync_fault, ChannelRegs.sync_r]
  · exact h1
  · exact h2
  · exact h4
  · exact h4
  · exact h5
  · exact h6
  · refine Eq.trans ?_ h7
    apply State.readRing_congr _ _ _ (by simp)
    intro i _; unfold State.ringByte; rw [State.setChan_mem]

/-- SYNC of the read cursor changes no message. -/
theorem State.Holds.sync_r {s : State} {c : Chan} {vis hid : List Message} (h : s.Holds c vis hid) :
    (s.setChan c ((s.chan c).sync .rSeen)).Holds c vis hid := by
  obtain ⟨h1, h2, h3, h4, h5, h6, h7⟩ := h
  refine ⟨?_, ?_, ?_, ?_, ?_, ?_, ?_⟩ <;>
    simp only [State.setChan_chan, State.setChan_params, ChannelRegs.sync_fault, ChannelRegs.sync_r]
  · exact h1
  · exact h2
  · exact h3
  · exact h4
  · exact Nat.le_refl _
  · exact Nat.le_trans h5 h6
  · refine Eq.trans ?_ h7
    apply State.readRing_congr _ _ _ (by simp)
    intro i _; unfold State.ringByte; rw [State.setChan_mem]

/-- SYNC of both copies does both. -/
theorem State.Holds.sync_both {s : State} {c : Chan} {vis hid : List Message} (h : s.Holds c vis hid) :
    (s.setChan c ((s.chan c).sync .both)).Holds c (vis ++ hid) [] := by
  have := h.sync_w.sync_r
  refine this.of_same ?_ ?_ ?_ <;> simp [ChannelRegs.sync]

end Sys2Proof.Machine
end

