-- ==== Sys2Proof/Tests/Slice0.lean ====
section
/-! SUPPORT. Tests: ill-formed terms are refused, words written out from the spec decode, single steps against the vectors
of spec/95_test_vectors.md, and for every obligation with hypotheses a concrete case that meets them. -/

namespace Sys2Proof.Tests
open Sys2Proof Sys2Proof.Machine

set_option Elab.async false

/-! ### Helpers -/

/-- The state after an operation that runs. -/
def after (i : Instr) (s : State) : State :=
  match exec i s with
  | .next t => t
  | .fault _ => s
  | .refused _ => s

/-- Is an answer a next state? -/
def isNext (r : Result) : Bool :=
  match r with
  | .next _ => true
  | .fault _ => false
  | .refused _ => false

theorem of_isNext {r : Result} (h : isNext r = true) : ∃ t, r = .next t := by
  cases r with
  | next t => exact ⟨t, rfl⟩
  | fault _ => cases h
  | refused _ => cases h

/-- A build with 16-byte rings, one sample per raw buffer and one per audio block. -/
def tiny : Params := { bufN := 1, mfcCap := 16, pktCap := 64, audBlock := 1 }

/-- The small build right after reset. -/
def base : State := State.powerOn tiny

def c16 (re im : Int) : C16 := ⟨BitVec.ofInt 16 re, BitVec.ofInt 16 im⟩
def half (x : Int) : Half := BitVec.ofInt 16 x

/-- A configured FIR unit. -/
def fir (d t : Byte) (taps : List Half) : FirUnit := FirUnit.powerOn.cfg d t taps

/-- The small build with PFD[0] configured. -/
def withPfd (d t : Byte) (taps : List Half) : State := { base with pfd0 := fir d t taps }

/-- A ring position: the message `09 00 00 00` stored in A2B and seen, `07 00 01 00 55` stored behind it and not seen. -/
def ringed : State :=
  { base with
    a2b := { w := 9, r := 0, rSeen := 0, wSeen := 4, fault := false },
    mem := [(0x200, 9), (0x201, 0), (0x202, 0), (0x203, 0), (0x204, 7), (0x205, 0), (0x206, 1), (0x207, 0), (0x208, 0x55)] }

/-! ### WellFormed: each check refuses an ill-formed term -/

theorem test_wf_message_too_long :
    ([Instr.ctlSetMode, .ctlDecimatorConfig, .ctlChannelFilterConfig, .ctlDemodConfig, .ctlBasebandFirConfig, .ctlClockConfig,
      .ctlAudioConfig, .ctlSpectrumStart, .ctlSpectrumStop, .resStatistics, .resPacket, .resSpectrumReady].map
        fun f => wellFormed Params.default (f (List.replicate 253 0))) = List.replicate 12 false := by decide +kernel
theorem test_wf_statistics_length : wellFormed Params.default (.resStatistics (List.replicate 15 0)) = false := by decide
theorem test_wf_packet_count_above_cap : wellFormed tiny (.resPacket ([65, 0, 0, 0] ++ List.replicate 9 0)) = false := by decide
theorem test_wf_packet_bytes : wellFormed tiny (.resPacket [9, 0, 0, 0, 0xFF]) = false := by decide
theorem test_wf_packet_short : wellFormed tiny (.resPacket [9, 0, 0]) = false := by decide
theorem test_wf_ready_length : wellFormed Params.default (.resSpectrumReady [0]) = false := by decide
theorem test_wf_count : fitsCount (2 ^ 32) = false := by decide
theorem test_wf_pfd_taps : wellFormed Params.default (.pfdCfg 0 1 2 [5]) = false := by decide
theorem test_wf_bpf_taps : wellFormed Params.default (.bpfCfg 1 0 1 2 [5]) = false := by decide
theorem test_wf_fbf_taps : wellFormed Params.default (.fbfCfg 2 [5]) = false := by decide
theorem test_wf_aud_bytes : wellFormed Params.default (.audCfg (List.replicate 253 0)) = false := by decide +kernel
theorem test_wf_man_bits : wellFormed Params.default (.manDecode (List.replicate 513 true) false) = false := by decide +kernel
theorem test_wf_raw_length : wellFormed tiny (.topBuffer []) = false := by decide

/-! ### Decoding: words written out from 30_encoding.md R111, R117, R125 (operand bytes on the command port: log entry 2) -/

theorem test_dec_set_mode : decode tiny ⟨.msg, [0x01, 0, 1, 0, 3]⟩ = .ok (.ctlSetMode [3]) := by decide
theorem test_dec_decimator : decode tiny ⟨.msg, [0x02, 0, 10, 0, 1, 4, 3, 0, 0x64, 0, 0x38, 0xFF, 0x2C, 1]⟩
    = .ok (.ctlDecimatorConfig [1, 4, 3, 0, 0x64, 0, 0x38, 0xFF, 0x2C, 1]) := by decide
theorem test_dec_channel_filter : decode Params.default
      ⟨.msg, [0x03, 0, 14, 0, 2, 1, 0, 0, 0xB8, 0x0B, 0, 0, 0x70, 0x17, 0, 0, 0, 0x40]⟩
    = .ok (.ctlChannelFilterConfig [2, 1, 0, 0, 0xB8, 0x0B, 0, 0, 0x70, 0x17, 0, 0, 0, 0x40]) := by decide
theorem test_dec_demod : decode tiny ⟨.msg, [0x04, 0, 12, 0, 1, 0, 0, 0, 0, 0, 0, 0x10, 0xD1, 0x91, 0x43, 0x40]⟩
    = .ok (.ctlDemodConfig [1, 0, 0, 0, 0, 0, 0, 0x10, 0xD1, 0x91, 0x43, 0x40]) := by decide
theorem test_dec_baseband : decode tiny ⟨.msg, [0x05, 0, 8, 0, 1, 0, 0, 0, 0, 0, 0, 0x3F]⟩
    = .ok (.ctlBasebandFirConfig [1, 0, 0, 0, 0, 0, 0, 0x3F]) := by decide
theorem test_dec_clock : decode tiny ⟨.msg, [0x06, 0, 12, 0, 0x80, 0xBB, 0, 0, 0, 0x4B, 0, 0, 0, 0, 0, 0x3F]⟩
    = .ok (.ctlClockConfig [0x80, 0xBB, 0, 0, 0, 0x4B, 0, 0, 0, 0, 0, 0x3F]) := by decide
theorem test_dec_audio : decode tiny ⟨.msg, [0x07, 0, 3, 0, 1, 2, 3]⟩ = .ok (.ctlAudioConfig [1, 2, 3]) := by decide
theorem test_dec_spectrum_start : decode tiny ⟨.msg, [0x08, 0, 4, 0, 4, 0, 0, 0]⟩ = .ok (.ctlSpectrumStart [4, 0, 0, 0]) := by
  decide
theorem test_dec_spectrum_stop : decode tiny ⟨.msg, [0x09, 0, 0, 0]⟩ = .ok (.ctlSpectrumStop []) := by decide
theorem test_dec_statistics : decode Params.default ⟨.msg, [0x81, 0, 1, 0, 7]⟩ = .ok (.resStatistics [7]) := by decide
theorem test_dec_packet : decode tiny ⟨.msg, [0x82, 0, 5, 0, 3, 0, 0, 0, 0xA0]⟩ = .ok (.resPacket [3, 0, 0, 0, 0xA0]) := by decide
theorem test_dec_ready : decode tiny ⟨.msg, [0x83, 0, 4, 0, 0, 0, 0, 0]⟩ = .ok (.resSpectrumReady [0, 0, 0, 0]) := by decide
theorem test_dec_reserved_header_byte : decode tiny ⟨.msg, [0x09, 0xFF, 0, 0]⟩ = .ok (.ctlSpectrumStop []) := by decide
theorem test_dec_send : decode tiny ⟨.cmd, [0x11, 1, 0x83, 2, 0, 0, 0, 0xAA, 0xBB]⟩ = .ok (.mfcSend .b2a 0x83 [0xAA, 0xBB]) := by
  decide
theorem test_dec_recv : decode tiny ⟨.cmd, [0x12, 0]⟩ = .ok (.mfcRecv .a2b) := by decide
theorem test_dec_sync : decode tiny ⟨.cmd, [0x13, 1, 2]⟩ = .ok (.mfcSync .b2a .rSeen) := by decide
theorem test_dec_pfd_reset : decode tiny ⟨.cmd, [0x20, 2]⟩ = .ok (.pfdReset 2) := by decide
theorem test_dec_pfd_cfg : decode tiny ⟨.cmd, [0x21, 1, 4, 2, 0x64, 0, 0x38, 0xFF]⟩ = .ok (.pfdCfg 1 4 2 [100, half (-200)]) := by
  decide
theorem test_dec_pfd_exec : decode tiny ⟨.cmd, [0x22, 0, 0x80, 0xBB, 0, 0, 1, 0, 0, 0, 0x65, 0, 0x9B, 0xFF]⟩
    = .ok (.pfdExec 0 ⟨48000, [c16 101 (-101)]⟩) := by decide
theorem test_dec_bpf_reset : decode tiny ⟨.cmd, [0x30]⟩ = .ok .bpfReset := by decide
theorem test_dec_bpf_cfg : decode tiny ⟨.cmd, [0x31, 2, 1, 0xB8, 0x0B, 0, 0, 0x70, 0x17, 0, 0, 0, 0x40]⟩
    = .ok (.bpfCfg 2 1 3000 6000 [16384]) := by decide
theorem test_dec_bpf_exec : decode tiny ⟨.cmd, [0x32, 1, 0, 0, 0, 0, 0, 0, 0]⟩ = .ok (.bpfExec ⟨1, []⟩) := by decide
theorem test_dec_fbf_reset : decode tiny ⟨.cmd, [0x40]⟩ = .ok .fbfReset := by decide
theorem test_dec_fbf_cfg : decode tiny ⟨.cmd, [0x41, 1, 0, 0, 0, 0x3F]⟩ = .ok (.fbfCfg 1 [0x3F000000]) := by decide
theorem test_dec_fbf_exec : decode tiny ⟨.cmd, [0x42, 2, 0, 0, 0, 1, 0, 0, 0, 0, 0, 0xC0, 0xBF]⟩
    = .ok (.fbfExec ⟨2, [0xBFC00000]⟩) := by decide
theorem test_dec_amd_reset : decode tiny ⟨.cmd, [0x50]⟩ = .ok .amdReset := by decide
theorem test_dec_amd_cfg : decode tiny ⟨.cmd, [0x51, 1, 0, 0, 0, 0x10]⟩ = .ok (.amdCfg true 0x10000000) := by decide
theorem test_dec_amd_exec : decode tiny ⟨.cmd, [0x52, 1, 0, 0, 0, 1, 0, 0, 0, 3, 0, 4, 0]⟩ = .ok (.amdExec ⟨1, [c16 3 4]⟩) := by
  decide
theorem test_dec_fmd_reset : decode tiny ⟨.cmd, [0x60]⟩ = .ok .fmdReset := by decide
theorem test_dec_fmd_cfg : decode tiny ⟨.cmd, [0x61, 0xD1, 0x91, 0x43, 0x40]⟩ = .ok (.fmdCfg 0x404391D1) := by decide
theorem test_dec_fmd_exec : decode tiny ⟨.cmd, [0x62, 1, 0, 0, 0, 1, 0, 0, 0, 0, 0, 0xE8, 3]⟩ = .ok (.fmdExec ⟨1, [c16 0 1000]⟩) := by
  decide
theorem test_dec_str_reset : decode tiny ⟨.cmd, [0x70]⟩ = .ok .strReset := by decide
theorem test_dec_str_cfg : decode tiny ⟨.cmd, [0x71, 0x80, 0xBB, 0, 0, 0, 0x4B, 0, 0, 0, 0, 0, 0x3F]⟩
    = .ok (.strCfg 48000 19200 0x3F000000) := by decide
theorem test_dec_str_push : decode tiny ⟨.cmd, [0x72, 0, 0, 0x80, 0x3F]⟩ = .ok (.strPush 0x3F800000) := by decide
theorem test_dec_pkt_reset : decode tiny ⟨.cmd, [0x80]⟩ = .ok .pktReset := by decide
theorem test_dec_pkt_push : decode tiny ⟨.cmd, [0x82, 0, 1]⟩ = .ok (.pktPush false true) := by decide
theorem test_dec_spc_reset : decode tiny ⟨.cmd, [0x90]⟩ = .ok .spcReset := by decide
theorem test_dec_spc_start : decode tiny ⟨.cmd, [0x91, 0x34, 0x12]⟩ = .ok (.spcStart 0x1234) := by decide
theorem test_dec_spc_feed : decode tiny ⟨.cmd, [0x92, 3, 0, 0, 0, 0, 0, 0, 0, 1, 0, 0, 0, 2, 0, 0, 0]⟩
    = .ok (.spcFeed ⟨3, []⟩ 1 2) := by decide
theorem test_dec_spc_stop : decode tiny ⟨.cmd, [0x93]⟩ = .ok .spcStop := by decide
theorem test_dec_spc_update : decode tiny ⟨.cmd, [0x94]⟩ = .ok .spcUpdate := by decide
theorem test_dec_spc_drain : decode tiny ⟨.cmd, [0x95]⟩ = .ok .spcDrain := by decide
theorem test_dec_aud_reset : decode tiny ⟨.cmd, [0xA0]⟩ = .ok .audReset := by decide
theorem test_dec_aud_cfg : decode tiny ⟨.cmd, [0xA1, 2, 0, 0, 0, 9, 8]⟩ = .ok (.audCfg [9, 8]) := by decide
theorem test_dec_aud_exec : decode tiny ⟨.cmd, [0xA2, 8, 0, 0, 0, 1, 0, 0, 0, 0, 0, 0, 0x3F]⟩ = .ok (.audExec ⟨8, [0x3F000000]⟩) := by
  decide
theorem test_dec_man_decode : decode tiny ⟨.cmd, [0xB2, 3, 0, 0, 0, 1, 0, 1, 1]⟩ = .ok (.manDecode [true, false, true] true) := by
  decide
theorem test_dec_top_reset : decode tiny ⟨.cmd, [0xC0]⟩ = .ok .topReset := by decide
theorem test_dec_top_dispatch : decode tiny ⟨.cmd, [0xC1]⟩ = .ok .topDispatch := by decide
theorem test_dec_top_buffer : decode tiny ⟨.cmd, [0xC2, 0x7F, 0x80]⟩ = .ok (.topBuffer [⟨0x7F, 0x80⟩]) := by decide
theorem test_dec_top_stats : decode tiny ⟨.cmd, [0xC3]⟩ = .ok .topStats := by decide
theorem test_dec_kind_zero : decode tiny ⟨.msg, [0, 0, 0, 0]⟩ = .reject .malformedMessage := by decide
theorem test_dec_too_long : decode tiny ⟨.msg, [7, 0, 13, 0]⟩ = .reject .malformedMessage := by decide
theorem test_dec_truncated : decode tiny ⟨.msg, [7, 0, 2, 0, 1]⟩ = .reject .truncatedMessage := by decide
theorem test_dec_unassigned : decode tiny ⟨.cmd, [0x81]⟩ = .reject (.unassignedCode 0x81) := by decide
theorem test_dec_no_third_stage : decode tiny ⟨.cmd, [0x20, 3]⟩ = .reject (.badOperands 0x20) := by decide
/-- The opcode table's word 0x82 of 8 bits is PKT.PUSH, of 32 bits RES_PACKET (log entry 3). -/
theorem test_table_words : decodeTableWord 8 0x82 = some (.pktPush false false)
    ∧ decodeTableWord 32 0x82 = some (.resPacket []) ∧ decodeTableWord 8 0x81 = some (.resStatistics []) := by decide +kernel

/-! ### One step each, expected results from spec/95_test_vectors.md (the vector's name) or worked by hand from the rule -/

/-- V-TOP-1, rows 1 and 2. -/
theorem test_set_mode : (after (.ctlSetMode [3]) base).mode = .tpms
    ∧ (after (.ctlSetMode [4]) base).mode = .none ∧ (after (.ctlSetMode [4]) base).errstat = 1 := by decide +kernel
/-- V-TOP-3: the teardown keeps SPC.K and AUD.cfg. -/
theorem test_set_mode_teardown :
    let s := { withPfd 1 1 [5] with spc := { base.spc with streaming := true, k := 1, fill := 9 }, aud := { base.aud with cfg := [9, 9] } }
    let t := after (.ctlSetMode [1]) s
    t.pfd0.configured = false ∧ t.spc.streaming = false ∧ t.spc.k = 1 ∧ t.spc.fill = 0 ∧ t.aud.cfg = [9, 9] := by decide +kernel
/-- V-TOP-1, row 5. -/
theorem test_decimator_message :
    let f := (after (.ctlDecimatorConfig [1, 4, 3, 0, 0x64, 0, 0x38, 0xFF, 0x2C, 1]) base).pfd1
    f.configured = true ∧ f.d = 4 ∧ f.t = 3 ∧ f.h.take 4 = [100, half (-200), 300, 0] := by decide +kernel
/-- V-TOP-1: two taps announced, one present. -/
theorem test_decimator_message_length : (after (.ctlDecimatorConfig [0, 1, 2, 0, 1, 0]) base).errstat = 1 := by decide +kernel
/-- V-TOP-1: pass 3000, stop 6000, and stop = pass. -/
theorem test_channel_filter_message :
    let pl := [2, 2, 0, 0, 0xB8, 0x0B, 0, 0, 0x70, 0x17, 0, 0, 0, 0x40, 0, 0x40]
    let b := (after (.ctlChannelFilterConfig pl) base).bpf
    b.fir.configured = true ∧ b.passHz = 3000 ∧ b.stopHz = 6000 ∧ b.fir.h.take 3 = [16384, 16384, 0]
      ∧ (after (.ctlChannelFilterConfig [1, 0, 0, 0, 0xB8, 0x0B, 0, 0, 0xB8, 0x0B, 0, 0]) base).errstat = 1 := by decide +kernel
/-- V-TOP-1: the reserved bits and bytes are ignored. -/
theorem test_demod_message :
    let t := after (.ctlDemodConfig [0xFF, 1, 2, 3, 5, 0, 0, 0, 0, 0, 0xC0, 0x7F]) base
    t.amd.ssb = true ∧ t.amd.bfoInc = 5 ∧ t.fmd.gain = 0x7FC00000 := by decide +kernel
/-- V-TOP-1: two taps of 0.5, and T = 0. -/
theorem test_baseband_message :
    let f := (after (.ctlBasebandFirConfig [2, 0, 0, 0, 0, 0, 0, 0x3F, 0, 0, 0, 0x3F]) base).fbf
    f.t = 2 ∧ f.h.take 3 = [0x3F000000, 0x3F000000, 0] ∧ (after (.ctlBasebandFirConfig [0, 0, 0, 0]) base).errstat = 1 := by
  decide +kernel
/-- V-TOP-1: 48000, 19200, 0.5. -/
theorem test_clock_message :
    let u := (after (.ctlClockConfig [0x80, 0xBB, 0, 0, 0, 0x4B, 0, 0, 0, 0, 0, 0x3F]) base).str
    u.configured = true ∧ u.inc = 0x66666666 := by decide +kernel
/-- V-TOP-1: any length. -/
theorem test_audio_message : (after (.ctlAudioConfig []) base).aud.cfg = [] ∧ (after (.ctlAudioConfig [1, 2, 3]) base).aud.cfg = [1, 2, 3]
    := by decide +kernel
/-- V-TOP-1: K = 4 with reserved bytes set, RES_SPECTRUM_READY sent; K = 0, nothing sent. -/
theorem test_spectrum_start_message :
    let t := after (.ctlSpectrumStart [4, 0, 0xFF, 0xFF]) base
    t.spc.k = 4 ∧ t.spc.streaming = true ∧ t.b2a.w = 8 ∧ t.readRing .b2a 0 8 = [0x83, 0, 4, 0, 0, 0, 0, 0]
      ∧ (after (.ctlSpectrumStart [0, 0, 0, 0]) base).b2a.w = 0 := by decide +kernel
/-- V-TOP-1: a stop, and a stop of one byte. -/
theorem test_spectrum_stop_message :
    (after (.ctlSpectrumStop []) { base with spc := { base.spc with streaming := true, k := 1, fill := 3 } }).spc.fill = 0
      ∧ (after (.ctlSpectrumStop [0]) base).errstat = 1 := by decide +kernel
/-- R128: a statistics message of 20 bytes does not fit a ring of 16; in the default build it does. -/
theorem test_statistics_message : (after (.resStatistics (List.replicate 16 0)) State.reset).b2a.w = 20
    ∧ (after (.resStatistics (List.replicate 16 0)) base).ret = .bool false := by decide +kernel
/-- R129, R153. -/
theorem test_packet_message :
    let t := after (.resPacket [3, 0, 0, 0, 0xA0]) base
    t.ret = .bool true ∧ t.b2a.w = 9 ∧ t.readRing .b2a 0 9 = [0x82, 0, 5, 0, 3, 0, 0, 0, 0xA0] := by decide +kernel
/-- R328's example, and a count of nine: the ninth bit is the highest of the second byte, the unused bits are 0. -/
theorem test_packet_payload :
    packetPayload [true, true, false, false, true, false, true, false, false, false, true, true, true, true, false, true]
        = [0x10, 0, 0, 0, 0xCA, 0x3D]
      ∧ packetPayload [true, false, false, false, false, false, false, false, true] = [9, 0, 0, 0, 0x80, 0x80] := by decide +kernel
/-- R130; with no room the message is lost (R344). -/
theorem test_ready_message : (after (.resSpectrumReady [0, 0, 0, 0]) base).b2a.w = 8
    ∧ (after (.resSpectrumReady [0, 0, 0, 0]) { base with b2a := { base.b2a with w := 12 } }).errstat = 2 := by decide +kernel
/-- R137: a result message of another length. -/
theorem test_result_length :
    exec (.resStatistics (List.replicate 15 0)) State.reset = .refused (.notEnabled "RES_STATISTICS")
      ∧ exec (.resPacket [9, 0, 0, 0, 0xFF]) base = .refused (.notEnabled "RES_PACKET")
      ∧ exec (.resSpectrumReady []) base = .refused (.notEnabled "RES_SPECTRUM_READY") := ⟨rfl, rfl, rfl⟩
/-- V-MFC-4: a message that straddles the end of the ring. -/
theorem test_send_straddles :
    let s := { base with a2b := { w := 8, r := 8, rSeen := 8, wSeen := 8, fault := false } }
    let t := after (.mfcSend .a2b 7 [0xB1, 0xB2, 0xB3, 0xB4, 0xB5, 0xB6, 0xB7, 0xB8]) s
    t.a2b.w = 20 ∧ t.mem = [(0x200, 0xB5), (0x201, 0xB6), (0x202, 0xB7), (0x203, 0xB8), (0x208, 7), (0x209, 0), (0x20A, 8),
      (0x20B, 0), (0x20C, 0xB1), (0x20D, 0xB2), (0x20E, 0xB3), (0x20F, 0xB4)] := by decide +kernel
/-- V-MFC-2: kind 0 is refused, so is a payload above PAYLOAD_MAX. -/
theorem test_send_refused : (after (.mfcSend .a2b 0 []) base).ret = .bool false
    ∧ (after (.mfcSend .a2b 7 (List.replicate 13 1)) base).a2b.w = 0 := by decide +kernel
/-- R155: only the visible message is returned. -/
theorem test_recv : (after (.mfcRecv .a2b) ringed).ret = .message 9 [] ∧ (after (.mfcRecv .a2b) ringed).a2b.r = 4
    ∧ (after (.mfcRecv .b2a) ringed).ret = .none := by decide +kernel
/-- V-MFC-6: a header of kind 0. -/
theorem test_recv_malformed :
    let s := { base with a2b := { w := 4, r := 0, rSeen := 0, wSeen := 4, fault := false },
                         mem := [(0x200, 0), (0x201, 0), (0x202, 0), (0x203, 0)] }
    let t := after (.mfcRecv .a2b) s
    t.ret = .none ∧ t.a2b.fault = true ∧ t.errstat = 8 ∧ t.a2b.r = 0 := by decide +kernel
/-- R158: one copy or both. -/
theorem test_sync :
    let s := { base with b2a := { w := 9, r := 4, rSeen := 1, wSeen := 2, fault := false } }
    (after (.mfcSync .b2a .wSeen) s).b2a = ⟨9, 4, 1, 9, false⟩ ∧ (after (.mfcSync .b2a .rSeen) s).b2a = ⟨9, 4, 4, 2, false⟩
      ∧ (after (.mfcSync .b2a .both) s).b2a = ⟨9, 4, 4, 9, false⟩ := by decide +kernel
theorem test_pfd_reset : (after (.pfdReset 0) (withPfd 1 1 [5])).pfd0 = FirUnit.powerOn := by decide +kernel
/-- V-FIR-8: D = 17 is rejected, 16 and 64 taps are not. -/
theorem test_pfd_cfg : (after (.pfdCfg 2 17 1 [1]) base).errstat = 1
    ∧ (after (.pfdCfg 2 16 64 (List.replicate 64 1)) base).pfd2.configured = true := by decide +kernel
/-- V-FIR-1. -/
theorem test_pfd_exec :
    let t := after (.pfdExec 0 ⟨48000, [c16 101 (-101), c16 202 (-202), c16 303 (-303), c16 404 (-404), c16 505 (-505),
      c16 606 (-606)]⟩) (withPfd 2 4 [8192, 8192, 8192, 8192])
    t.ret = .buf16 ⟨24000, [c16 75 (-76), c16 252 (-253), c16 454 (-455)]⟩ ∧ t.pfd0.sat = false
      ∧ t.pfd0.hist.take 4 = [c16 606 (-606), c16 505 (-505), c16 404 (-404), c16 0 0] := by decide +kernel
/-- V-FIR-5: saturation. -/
theorem test_pfd_saturates :
    let t := after (.pfdExec 0 ⟨1, [c16 32767 (-32768), c16 32767 (-32768), c16 (-1) 1]⟩) (withPfd 1 2 [32767, 32767])
    t.pfd0.out.data = [c16 32766 (-32767), c16 32767 (-32768), c16 32765 (-32767)] ∧ t.pfd0.sat = true := by decide +kernel
theorem test_bpf_reset :
    (after .bpfReset { base with bpf := { fir := fir 1 1 [5], passHz := 1, stopHz := 2 } }).bpf = BandpassUnit.powerOn := by
  decide +kernel
/-- V-FIR-8: stop equal to pass is rejected. -/
theorem test_bpf_cfg : (after (.bpfCfg 2 2 3000 3000 [1, 1]) base).errstat = 1
    ∧ (after (.bpfCfg 2 2 3000 6000 [1, 1]) base).bpf.stopHz = 6000 := by decide +kernel
/-- Worked by hand from R174: D = 2, two taps of 0.5, an odd number of samples. -/
theorem test_bpf_exec :
    let s := { base with bpf := { fir := fir 2 2 [16384, 16384], passHz := 3000, stopHz := 6000 } }
    let t := after (.bpfExec ⟨1, [c16 10 0, c16 20 0, c16 30 0, c16 40 0, c16 50 0]⟩) s
    t.bpf.fir.out.data = [c16 15 0, c16 35 0] ∧ t.bpf.fir.hist.head? = some (c16 50 0) := by decide +kernel
theorem test_fbf_reset : (after .fbfReset { base with fbf := base.fbf.cfg 2 [1, 2] }).fbf = BasebandUnit.powerOn := by decide +kernel
theorem test_fbf_cfg : (after (.fbfCfg 33 []) base).errstat = 1 ∧ (after (.fbfCfg 32 []) base).fbf.t = 32 := by decide +kernel
/-- V-FBF-2. -/
theorem test_fbf_exec :
    let s := { base with fbf := base.fbf.cfg 2 [0x3F000000, 0x3F000000] }
    (after (.fbfExec ⟨0, [0x3F800000, 0x40400000, 0xC0000000]⟩) s).fbf.out.data = [0x3F000000, 0x40000000, 0x3F000000] := by
  decide +kernel
/-- V-FBF-3: the order of accumulation shows. -/
theorem test_fbf_order :
    let s := { base with fbf := base.fbf.cfg 3 [0x3F800000, 0x3F800000, 0x3F800000] }
    (after (.fbfExec ⟨0, [0x3F800000, 0x33800000, 0x33800000]⟩) s).fbf.out.data = [0x3F800000, 0x3F800000, 0x3F800001] := by
  decide +kernel
theorem test_amd_reset : (after .amdReset { base with amd := { base.amd with ssb := true, bfoInc := 3, bfoPhase := 4 } }).amd
    = AmUnit.powerOn := by decide +kernel
theorem test_amd_cfg : (after (.amdCfg true 7) { base with amd := { base.amd with bfoPhase := 4 } }).amd.bfoPhase = 0 := by decide +kernel
/-- V-AMD-1. -/
theorem test_amd_envelope :
    (after (.amdExec ⟨1, [c16 0 0, c16 3 4, c16 (-300) 400, c16 32767 32767, c16 (-32768) (-32768)]⟩) base).amd.out.data
      = [0, 0x39200000, 0x3C7A0000, 0x3FB50389, 0x3FB504F3] := by decide +kernel
/-- V-AMD-2, first two samples: the phase of a sample is that before it advances. -/
theorem test_amd_product :
    let t := after (.amdExec ⟨1, [c16 10000 0, c16 10000 0]⟩) { base with amd := base.amd.cfg true 0x10000000 }
    t.amd.out.data = [0x3E9C3EC8, 0x3E905A58] ∧ t.amd.bfoPhase = 0x20000000 := by decide +kernel
theorem test_fmd_reset : (after .fmdReset { base with fmd := { base.fmd with gain := 0, zPrev := c16 1 2 } }).fmd = FmUnit.powerOn := by
  decide +kernel
theorem test_fmd_cfg : (after (.fmdCfg 0xBF000000) { base with fmd := { base.fmd with zPrev := c16 1 2 } }).fmd.zPrev = C16.zero := by
  decide +kernel
/-- V-FMD-2. -/
theorem test_fmd_exec :
    let t := after (.fmdExec ⟨1, [c16 1000 0, c16 0 1000, c16 1000 0]⟩) { base with fmd := base.fmd.cfg 0x404391D1 }
    t.fmd.out.data = [0, 0x4099999A, 0xC099999A] ∧ t.fmd.zPrev = c16 1000 0 := by decide +kernel
/-- V-FMD-1: the signs of both quadrant corrections. -/
theorem test_fmd_angle : angle (-1) 1 = 0x40171873 ∧ angle (-2) (-1) = 0xC02B2952 ∧ angle 1 (-2) = 0xBF8D42C8 ∧ angle 0 (-5) = 0xBFC90FDB
    := by decide +kernel
theorem test_str_reset : (after .strReset { base with str := base.str.cfg 8 2 0x3E800000 }).str = ClockUnit.powerOn := by decide +kernel
/-- V-STR-1: more than half the rate, a gain above 1.0, the largest increment. -/
theorem test_str_cfg : (after (.strCfg 3072000 1536001 0x3F000000) base).errstat = 1
    ∧ (after (.strCfg 48000 19200 0x3F800001) base).errstat = 1
    ∧ (after (.strCfg 3072000 1536000 0x3F800000) base).str.inc = 0x80000000 := by decide +kernel
/-- V-STR-2, n = 4: the second symbol. -/
theorem test_str_push_symbol :
    let u : ClockUnit := { ClockUnit.powerOn.cfg 48000 19200 0x3F000000 with phase := 0x9CCCCCCC, last := 0xBF800000, ef := 0x3F000000 }
    let t := after (.strPush 0x3F800000) { base with str := u }
    t.ret = .symbol 0x3F800000 ∧ t.str.phase = 0x06666666 ∧ t.str.ef = 0x3E800000 ∧ t.str.last = 0x3F800000 := by decide +kernel
/-- V-STR-2, n = 5: no symbol, the loop's other registers stay. -/
theorem test_str_push_none :
    let u : ClockUnit := { ClockUnit.powerOn.cfg 48000 19200 0x3F000000 with phase := 0x06666666, last := 0x3F800000, ef := 0x3E800000 }
    let t := after (.strPush 0x3F800000) { base with str := u }
    t.ret = .none ∧ t.str.phase = 0x6E666666 ∧ t.str.ef = 0x3E800000 := by decide +kernel
theorem test_pkt_reset : (after .pktReset { base with pkt := { base.pkt with capturing := true, histBits := 5, histN := 3, captureLen := 2 } }).pkt
    = PacketUnit.powerOn tiny := by decide +kernel
/-- V-PKT-1, the 8th and the 24th push. -/
theorem test_pkt_push :
    (after (.pktPush false false) { base with pkt := { base.pkt with histBits := 0x56, histN := 7 } }).pkt.capturing = true
      ∧ (after (.pktPush true false) { base with pkt := { base.pkt with capturing := true, captureLen := 15 } }).ret
        = .packet (List.replicate 15 false ++ [true]) 16 := by decide +kernel
/-- R347: past capacity the write is refused and ERRSTAT[4] set. -/
theorem test_pkt_overflow :
    let t := after (.pktPush true false) { base with pkt := { base.pkt with capturing := true, captureLen := 64 } }
    t.errstat = 0x10 ∧ t.pkt.captureLen = 64 ∧ t.pkt.payload = base.pkt.payload ∧ t.pkt.histN = 1 := by decide +kernel
theorem test_spc_reset :
    let t := after .spcReset { base with spc := { base.spc with k := 9 }, slot := { base.slot with valid := true }, evt := 1 }
    t.spc = SpectrumUnit.powerOn ∧ t.slot = SlotRegs.powerOn ∧ t.evt = 0 := by decide +kernel
/-- V-SPC-1. -/
theorem test_spc_start : (after (.spcStart 0) base).errstat = 1 ∧ (after (.spcStart 0) base).spc.streaming = false
    ∧ (after (.spcStart 3) base).spc.k = 3 := by decide +kernel
/-- V-SPC-1: the first of every K. -/
theorem test_spc_feed :
    let t := after (.spcFeed ⟨1, (List.range 10).map fun i => c16 (i + 1) 0⟩ 1 2) { base with spc := base.spc.start 3 }
    t.spc.cb.take 5 = [c16 1 0, c16 4 0, c16 7 0, c16 10 0, c16 0 0] ∧ t.spc.fill = 4 ∧ t.spc.decCount = 1 := by decide +kernel
theorem test_spc_stop : (after .spcStop { base with spc := { base.spc.start 3 with fill := 4, decCount := 2 } }).spc
    = { base.spc with k := 3 } := by decide +kernel
/-- V-SPC-4, the first row. -/
theorem test_spc_update :
    let s := { base with spc := { base.spc with fb := List.replicate 256 (c16 1000 0), fbRate := 7, updateRequest := true } }
    let t := after .spcUpdate s
    t.slot.snap.db = 174 :: 166 :: (List.replicate 253 23 ++ [166]) ∧ t.slot.snap.rate = 7 ∧ t.evt = 1
      ∧ t.spc.updateRequest = false := by decide +kernel
/-- V-SPC-3. -/
theorem test_ilog : ilog2q8 3 = 384 ∧ ilog2q8 1023 = 2559 ∧ ilog2q8 123456789 = 6870 ∧ dbOf 7423 = 254 ∧ dbOf 8191 = 255 := by
  decide +kernel
/-- V-SPC-5. -/
theorem test_spc_drain :
    let s := { base with evt := 1, slot := { base.slot with valid := true } }
    (after .spcDrain s).ret = .snapshot base.slot.snap ∧ (after .spcDrain s).evt = 0 ∧ (after .spcDrain s).slot.valid = false
      ∧ (after .spcDrain base).ret = .none := by decide +kernel
theorem test_aud_reset :
    let s := { base with aud := { base.aud with cfg := [1], block := [7] } }
    (after .audReset s).aud = { cfg := [1], fstate := {}, block := [7], blockN := 0 } := by decide +kernel
theorem test_aud_cfg : (after (.audCfg [9, 8]) base).aud.cfg = [9, 8] := by decide +kernel
/-- V-AUD-1 and V-AUD-2 with blocks of one sample. -/
theorem test_aud_exec :
    (after (.audExec ⟨8, [0x3F000000, 0xBE800000, 0x3FC00000, 0xBF800001, 0xB7FFFFFF]⟩) base).sink
      = [⟨8, [16384]⟩, ⟨8, [half (-8192)]⟩, ⟨8, [32767]⟩, ⟨8, [half (-32768)]⟩, ⟨8, [0]⟩] := by decide +kernel
/-- R285, R290, by hand: differences 0.5 and -0.375, halved; 0.25 is not below the threshold, -0.1875 is muted, and the memories
and the history are updated all the same. -/
theorem test_aud_stage :
    let st : AudioStage :=
      { highPass := { output := .sub .input (.mem 0), memory := [.input] },
        deEmphasis := some { output := .mul .input (.const 0x3F000000) },
        squelch := some { level := .input, threshold := .const 0x3E800000 }, history := [.raw, .present] }
    let s := State.powerOn { tiny with audStage := st, audInit := { highPass := [0], history := [0, 0] } }
    let t := after (.audExec ⟨8, [0x3F000000, 0x3E000000]⟩) s
    t.sink = [⟨8, [8192]⟩, ⟨8, [0]⟩] ∧ t.aud.fstate = { highPass := [0x3E000000], history := [0x3E000000, 0] } := by
  decide +kernel
/-- R10, R242: a substituted PKT_MATCH, here "three symbols or more, the newest a 1 without an error". -/
theorem test_match_tree :
    let p := { tiny with pktMatch := .tree (.ifCount 3 (.ifErr 0 (.answer false) (.ifBit 0 (.answer true) (.answer false)))
      (.answer false)) }
    pktMatch p 5 2 3 = true ∧ pktMatch p 5 2 2 = false ∧ pktMatch p 5 1 3 = false ∧ pktMatch p 4 0 64 = false := by decide
/-- V-MAN-3: ten bits, both senses. -/
theorem test_man_decode :
    let bits := [true, false, false, true, true, false, false, true, false, true]
    (after (.manDecode bits false) base).ret = .hex [0x41, 0x30] [0x30, 0x37]
      ∧ (after (.manDecode bits true) base).ret = .hex [0x35, 0x38] [0x30, 0x37] := by decide +kernel
theorem test_top_reset :
    let s := { ringed with mode := .am, errstat := 9, bufCount := 5 }
    after .topReset s = { base with mem := s.mem } := by decide +kernel
/-- R314, and V-TOP-2: an unknown kind is consumed and sets ERRSTAT[2]. -/
theorem test_top_dispatch : (after .topDispatch ringed).ret = .kind 9 ∧ (after .topDispatch ringed).a2b.r = 4
    ∧ (after .topDispatch { ringed with mem := (0x200, 0x0A) :: ringed.mem.tail }).errstat = 4 := by decide +kernel
/-- R315, R316: with no mode the buffer is counted and discarded, after the visible message. -/
theorem test_top_buffer :
    let t := after (.topBuffer [⟨1, 2⟩]) ringed
    t.bufCount = 1 ∧ t.a2b.r = 4 ∧ t.spc = base.spc := by decide +kernel
/-- R317: the period is reached. -/
theorem test_top_stats :
    let s := { State.reset with bufCount := 1499, pfd1 := { FirUnit.powerOn with sat := true } }
    let t := after .topStats s
    t.bufCount = 0 ∧ t.pfd1.sat = false ∧ t.b2a.w = 20 ∧ t.readRing .b2a 0 5 = [0x81, 0, 16, 0, 1] := by decide +kernel
/-- The step that the host asks about: a table word put at the head of the agenda runs. -/
theorem test_step_table_word : (match step (State.reset.withFetchWord 8 0x91) with
    | .next t => t.errstat == 1 && t.agenda == []
    | .fault _ => false
    | .refused _ => false) = true := by decide +kernel
/-- The shared region at the ends of its ranges (20_memory.md R87). -/
theorem test_shared_region :
    let s := { ringed with evt := 1, errstat := 5, slot := { valid := true, snap := { base.slot.snap with rate := 0x01020304, db := List.replicate 255 0 ++ [9] } } }
    s.memRead 0 4 = .ok 9 ∧ s.memRead 0x10 4 = .ok 1 ∧ s.memRead 0x14 4 = .ok 5 ∧ s.memRead 0x20 4 = .ok 1
      ∧ s.memRead 0x24 1 = .ok 4 ∧ s.memRead 0x27 1 = .ok 1 ∧ s.memRead 0x12F 1 = .ok 9 ∧ s.memRead 0x130 4 = .ok 0
      ∧ s.memRead 0x1FF 1 = .ok 0 ∧ s.memRead 0x200 2 = .ok 9 ∧ s.memRead 0x208 1 = .ok 0x55
      ∧ s.memRead 0x220 1 = .error (.noSuchAddress 0x220) := by decide +kernel

/-! ### For every obligation with hypotheses, cases that meet them together, one per clause -/

theorem witness_DecodeEncodeAgree : wellFormed tiny (.ctlSetMode [1]) = true
    ∧ wellFormed tiny (.manDecode (List.replicate 512 true) true) = true ∧ wellFormed tiny (.topBuffer [⟨1, 2⟩]) = true := by
  decide +kernel
theorem witness_MessageWordsAreUnique : decode tiny ⟨.msg, messageBytes 1 [2]⟩ = .ok (.ctlSetMode [2]) ∧ [(2 : Byte)].length < 65536 := by
  decide +kernel
theorem witness_DecodedIsWellFormed : decode tiny ⟨.cmd, [0x20, 2]⟩ = .ok (.pfdReset 2)
    ∧ (∀ pl, Instr.pfdReset 2 ≠ .resStatistics pl ∧ Instr.pfdReset 2 ≠ .resPacket pl ∧ Instr.pfdReset 2 ≠ .resSpectrumReady pl)
    ∧ ∀ bits sense, Instr.pfdReset 2 = .manDecode bits sense → bits.length ≤ 512 :=
  ⟨by decide, fun _ => ⟨nofun, nofun, nofun⟩, nofun⟩
theorem witness_UnassignedCodeDoesNothing : ({ base with agenda := [⟨.cmd, [0x81]⟩] } : State).agenda = ⟨.cmd, 0x81 :: []⟩ :: []
    ∧ (0x81 : Byte).toNat ∉ [0x11, 0x12, 0x13, 0x20, 0x21, 0x22, 0x30, 0x31, 0x32, 0x40, 0x41, 0x42, 0x50, 0x51, 0x52, 0x60,
      0x61, 0x62, 0x70, 0x71, 0x72, 0x80, 0x82, 0x90, 0x91, 0x92, 0x93, 0x94, 0x95, 0xA0, 0xA1, 0xA2, 0xB2, 0xC0, 0xC1, 0xC2,
      0xC3] := ⟨rfl, by decide⟩
/-- An enabled move, and one that is not (SPC.UPDATE with no request). -/
theorem witness_StepRunsDecodedMove :
    decode tiny ⟨.cmd, [0x93]⟩ = .ok .spcStop ∧ (∃ t, exec .spcStop base = .next t)
      ∧ decode tiny ⟨.cmd, [0x94]⟩ = .ok .spcUpdate ∧ exec .spcUpdate base = .refused (.notEnabled "SPC.UPDATE") :=
  ⟨by decide, of_isNext (by decide +kernel), by decide, rfl⟩
theorem witness_HealthyAfterReset : State.build tiny = some base := rfl
/-- PKT_CAP at its bound and one above, PKT_LEN one above PKT_CAP, a capacity that is no power of two, no preamble. -/
theorem witness_HealthyAfterReset_build : LegalBuild { tiny with pktLen := 64 }
    ∧ 8 * min 252 (tiny.mfcCap - 4) < 65 + 32 ∧ ¬ LegalBuild { tiny with pktCap := 65 } ∧ ¬ LegalBuild { tiny with pktLen := 65 }
    ∧ ¬ LegalBuild { tiny with mfcCap := 24 } ∧ ¬ LegalBuild { tiny with pktPreamble := [] } := by
  simp only [← paramsOk_iff]
  decide +kernel

/-- A healthy state: the small build with one message in A2B and a move to come. -/
def healthy : State := { ringed with agenda := [⟨.cmd, [0xC1]⟩] }

theorem witness_inv : healthy.Inv where
  params := by decide
  memory := by decide
  errors := by decide
  event := by decide
  a2b := ⟨by decide, by decide, by decide⟩
  b2a := ⟨by decide, by decide, by decide⟩
  pfd0 := FirUnit.Ok.powerOn
  pfd1 := FirUnit.Ok.powerOn
  pfd2 := FirUnit.Ok.powerOn
  bpf := ⟨FirUnit.Ok.powerOn, nofun, fun _ => ⟨rfl, rfl⟩⟩
  fbf := BasebandUnit.Ok.reset (f := BasebandUnit.powerOn)
  str := ClockUnit.Ok.powerOn
  pkt := ⟨by decide, by decide +kernel, by decide⟩
  spc := ⟨by decide +kernel, by decide +kernel, by decide, by decide⟩
  bins := by decide +kernel
  aud := ⟨by decide, by decide, by decide⟩
  blocks := nofun

theorem witness_holds_a2b : healthy.Holds .a2b [(9, [])] [(7, [0x55])] :=
  ⟨rfl, by decide +kernel, by decide +kernel, by decide +kernel, by decide +kernel, by decide +kernel, by decide +kernel⟩
theorem witness_holds_b2a : healthy.Holds .b2a [] [] :=
  ⟨rfl, by decide +kernel, by decide +kernel, by decide +kernel, by decide +kernel, by decide +kernel, by decide +kernel⟩
theorem witness_whole : healthy.Whole
  | .a2b => ⟨_, _, witness_holds_a2b⟩
  | .b2a => ⟨_, _, witness_holds_b2a⟩
theorem witness_steps : (match step healthy with
    | .next t => t.a2b.r == 4
    | .fault _ => false
    | .refused _ => false) = true := by decide +kernel
theorem witness_StepsKeepHealth : healthy.Inv ∧ ∃ t, step healthy = .next t := ⟨witness_inv, of_isNext (by decide +kernel)⟩
theorem witness_RingsHoldWholeMessages : paramsOk healthy.params = true ∧ healthy.Whole ∧ ∃ t, step healthy = .next t :=
  ⟨by decide, witness_whole, of_isNext (by decide +kernel)⟩
theorem witness_MalformedHeaderUnreachable : paramsOk healthy.params = true ∧ healthy.Whole ∧ (∃ t, step healthy = .next t)
    ∧ healthy.errstat.getLsbD 3 = false := ⟨by decide, witness_whole, of_isNext (by decide +kernel), by decide⟩
theorem witness_ErrorsAreSticky : (∃ t, exec .spcStop { base with errstat := 31 } = .next t) ∧ Instr.spcStop ≠ .topReset
    ∧ ({ base with errstat := 31 } : State).errstat.getLsbD 4 = true := ⟨of_isNext (by decide +kernel), nofun, by decide⟩
theorem witness_EventWriters : (∃ t, exec .fbfReset base = .next t) ∧ Instr.fbfReset ≠ .spcUpdate ∧ Instr.fbfReset ≠ .spcDrain
    ∧ Instr.fbfReset ≠ .spcReset ∧ Instr.fbfReset ≠ .topReset := ⟨of_isNext (by decide +kernel), nofun, nofun, nofun, nofun⟩
theorem witness_RegisterWriters : (∃ t, exec .fbfReset base = .next t) ∧ Instr.fbfReset ≠ .topReset
    ∧ (∀ raw, Instr.fbfReset ≠ .topBuffer raw) ∧ (∀ pl, Instr.fbfReset ≠ .ctlSetMode pl) ∧ Instr.fbfReset ≠ .topDispatch
    ∧ Instr.fbfReset ≠ .topStats ∧ Instr.fbfReset ≠ .strReset ∧ (∀ a b g, Instr.fbfReset ≠ .strCfg a b g)
    ∧ (∀ x, Instr.fbfReset ≠ .strPush x) ∧ ∀ pl, Instr.fbfReset ≠ .ctlClockConfig pl :=
  ⟨of_isNext (by decide +kernel), nofun, fun _ => nofun, fun _ => nofun, nofun, nofun, nofun, fun _ _ _ => nofun, fun _ => nofun, fun _ => nofun⟩
theorem witness_OnlySendsStore : (∃ t, exec (.mfcRecv .a2b) ringed = .next t)
    ∧ (∀ c k pl, Instr.mfcRecv .a2b ≠ .mfcSend c k pl)
    ∧ (∀ pl, Instr.mfcRecv .a2b ≠ .resStatistics pl ∧ Instr.mfcRecv .a2b ≠ .resPacket pl ∧ Instr.mfcRecv .a2b ≠ .resSpectrumReady pl)
    ∧ (∀ pl, Instr.mfcRecv .a2b ≠ .ctlSpectrumStart pl) ∧ Instr.mfcRecv .a2b ≠ .topDispatch
    ∧ (∀ raw, Instr.mfcRecv .a2b ≠ .topBuffer raw) ∧ Instr.mfcRecv .a2b ≠ .topStats :=
  ⟨of_isNext (by decide +kernel), fun _ _ _ => nofun, fun _ => ⟨nofun, nofun, nofun⟩, fun _ => nofun, nofun, fun _ => nofun, nofun⟩
/-- The receiving clause of the same statement: an operation that is no receive. -/
theorem witness_OnlySendsStore_cursors : (∃ t, exec (.mfcSync .a2b .both) ringed = .next t)
    ∧ (∀ c, Instr.mfcSync .a2b .both ≠ .mfcRecv c) ∧ Instr.mfcSync .a2b .both ≠ .topReset
    ∧ Instr.mfcSync .a2b .both ≠ .topDispatch ∧ ∀ raw, Instr.mfcSync .a2b .both ≠ .topBuffer raw :=
  ⟨of_isNext (by decide +kernel), fun _ => nofun, nofun, nofun, fun _ => nofun⟩
/-- The storing clauses: a send on A2B leaves the ring B2A alone, TOP.STATS the ring A2B; both leave the copies alone. -/
theorem witness_OnlySendsStore_rings : (∃ t, exec (.mfcSend .a2b 7 []) base = .next t) ∧ (∃ t, exec .topStats base = .next t)
    ∧ (∀ k pl, Instr.mfcSend .a2b 7 [] ≠ .mfcSend .b2a k pl) ∧ (∀ k pl, Instr.topStats ≠ .mfcSend .a2b k pl)
    ∧ (∀ c sel, Instr.topStats ≠ .mfcSync c sel) ∧ Instr.topStats ≠ .topReset
    ∧ 0x200 ≤ 0x20F ∧ 0x20F < 0x200 + base.params.mfcCap ∧ 0x200 + base.params.mfcCap ≤ 0x210 :=
  ⟨of_isNext (by decide +kernel), of_isNext (by decide +kernel), fun _ _ => nofun, fun _ _ => nofun, fun _ _ => nofun, nofun,
    by decide, by decide, by decide⟩
/-- The ends of the ranges of SharedRegionLayout in the small build. -/
theorem witness_SharedRegionLayout : 255 < 256 ∧ 207 < 208 ∧ 15 < base.params.mfcCap ∧ 0x200 + 2 * base.params.mfcCap ≤ 0x220 := by
  decide
/-- The longest message, in an empty ring: accepted. -/
theorem witness_SendStoresOrRefuses_fits : paramsOk base.params = true ∧ Sendable base (7, List.replicate 12 1)
    ∧ Fits base .b2a (7, List.replicate 12 1) := by
  refine ⟨by decide, ?_, ?_⟩ <;> simp [Sendable, Fits, base, tiny, State.powerOn, ChannelRegs.powerOn, State.chan]
theorem witness_SendStoresOrRefuses_bad : ¬ Sendable base (0, []) ∧ ¬ Sendable base (7, List.replicate 13 1) := by
  constructor <;> simp [Sendable, base, tiny, State.powerOn]
/-- One byte of room too little. -/
theorem witness_SendStoresOrRefuses_full : Sendable ringed (7, [1, 2, 3, 4]) ∧ ¬ Fits ringed .a2b (7, [1, 2, 3, 4])
    ∧ Fits ringed .a2b (7, [1, 2, 3]) := by
  refine ⟨?_, ?_, ?_⟩ <;> simp [Sendable, Fits, ringed, base, tiny, State.powerOn, State.chan]
theorem witness_ResultMessagesAreSent : paramsOk base.params = true ∧ messageOf (.resPacket [8, 0, 0, 0, 1]) = some (0x82, [8, 0, 0, 0, 1])
    ∧ 0x80 ≤ (0x82 : Byte).toNat ∧ resultLength base.params (.resPacket [8, 0, 0, 0, 1]) ∧ Sendable base (0x82, [8, 0, 0, 0, 1]) ∧ Fits base .b2a (0x82, [8, 0, 0, 0, 1]) := by
  refine ⟨by decide, rfl, by decide, by unfold resultLength; decide, ?_, ?_⟩ <;>
    simp [Sendable, Fits, base, tiny, State.powerOn, ChannelRegs.powerOn, State.chan]
/-- A count above PKT_CAP, a byte too many, and a statistics message longer than the ring can hold. -/
theorem witness_ResultMessagesAreSent_bad : ¬ resultLength tiny (.resPacket ([65, 0, 0, 0] ++ List.replicate 9 0))
    ∧ resultLength tiny (.resPacket ([64, 0, 0, 0] ++ List.replicate 8 0)) ∧ ¬ resultLength tiny (.resSpectrumReady [0, 0, 0, 0, 0])
    ∧ resultLength tiny (.resStatistics (List.replicate 16 0)) ∧ ¬ Sendable base (0x81, List.replicate 16 0) := by
  refine ⟨?_, ?_, ?_, ?_, ?_⟩ <;> simp [Sendable, base, tiny, State.powerOn, resultLength, halfAt]
/-- The small build with the ring B2A full. -/
def fullB2a : State := { base with b2a := { base.b2a with w := 13 } }
theorem witness_ResultMessagesAreSent_full : paramsOk fullB2a.params = true
    ∧ resultLength fullB2a.params (.resSpectrumReady [0, 0, 0, 0]) ∧ Sendable fullB2a (0x83, [0, 0, 0, 0])
    ∧ messageOf (.resSpectrumReady [0, 0, 0, 0]) = some (0x83, [0, 0, 0, 0]) ∧ ¬ Fits fullB2a .b2a (0x83, [0, 0, 0, 0]) := by
  refine ⟨by decide, by simp [resultLength], ?_, rfl, ?_⟩ <;> simp [Sendable, Fits, fullB2a, base, tiny, State.powerOn, ChannelRegs.powerOn, State.chan]
/-- One message visible and one not, three bytes of room; and no message at all. -/
theorem witness_RingIsQueue : paramsOk healthy.params = true ∧ healthy.Holds .a2b ((9, []) :: []) [(7, [0x55])]
    ∧ Sendable healthy (7, [1, 2, 3]) ∧ Fits healthy .a2b (7, [1, 2, 3]) ∧ healthy.Holds .b2a [] [] := by
  refine ⟨by decide, witness_holds_a2b, ?_, ?_, witness_holds_b2a⟩ <;>
    simp [Sendable, Fits, healthy, ringed, base, tiny, State.powerOn, State.chan]
theorem witness_FillDrainRefill : paramsOk healthy.params = true ∧ healthy.Holds .b2a [] []
    ∧ (healthy.chan .b2a).rSeen = (healthy.chan .b2a).r ∧ (∀ x ∈ [(7, [1, 2, 3, 4]), (9, []), (9, [])], Sendable healthy x)
    ∧ (queueBytes [(7, [1, 2, 3, 4]), (9, []), (9, [])]).length = healthy.params.mfcCap
    ∧ Sendable healthy (9, List.replicate 12 0) := by
  refine ⟨by decide, witness_holds_b2a, rfl, ?_, by decide, ?_⟩ <;> simp [Sendable, healthy, ringed, base, tiny, State.powerOn]
/-- A header of kind 0, one with a length above PAYLOAD_MAX, a latched fault, and three visible bytes. -/
theorem witness_MalformedHeaderLatches :
    let s := { base with a2b := { w := 4, r := 0, rSeen := 0, wSeen := 4, fault := false },
                         mem := [(0x200, 0), (0x201, 0), (0x202, 0), (0x203, 0)] }
    let u := { s with mem := [(0x200, 7), (0x201, 0), (0x202, 13), (0x203, 0)] }
    (s.a2b.fault = false ∧ 4 ≤ (s.a2b.wSeen - s.a2b.r).toNat ∧ s.headKind .a2b = 0) ∧ u.headKind .a2b = 7 ∧ u.headLen .a2b = 13
      ∧ payloadMax tiny = 12 ∧ ((3 : Word) - 0).toNat < 4 := by decide +kernel
theorem witness_WrongLengthRejected : wrongLength (.ctlSetMode []) ∧ wrongLength (.ctlSetMode [0, 0])
    ∧ wrongLength (.ctlDecimatorConfig [0, 1, 0]) ∧ wrongLength (.ctlDecimatorConfig [0, 1, 1, 0])
    ∧ wrongLength (.ctlChannelFilterConfig (List.replicate 11 0)) ∧ wrongLength (.ctlChannelFilterConfig (List.replicate 13 0))
    ∧ wrongLength (.ctlDemodConfig (List.replicate 13 0)) ∧ wrongLength (.ctlBasebandFirConfig [1, 0, 0, 0])
    ∧ wrongLength (.ctlClockConfig []) ∧ wrongLength (.ctlSpectrumStart [1]) ∧ wrongLength (.ctlSpectrumStop [0]) := by
  simp [wrongLength]
theorem witness_ModeChangeTearsDown : 3 < (4 : Byte).toNat ∧ ((3 : Byte) = 3 ∧ Mode.tpms = Mode.tpms) := by decide
/-- Stage 2, D = 16, T = 1; stage 3; D = 0 and T = 65 (with their lengths). -/
theorem witness_DecimatorMessageConfigures :
    (4 ≤ [(2 : Byte), 16, 1, 0, 5, 0].length ∧ [(2 : Byte), 16, 1, 0, 5, 0].length = 4 + 2 * (1 : Byte).toNat
      ∧ (2 : Byte).toNat = (2 : Fin 3).val ∧ factorsLegal 16 1)
      ∧ 2 < (3 : Byte).toNat ∧ ¬ factorsLegal 0 1 ∧ ¬ factorsLegal 1 65
      ∧ ([(0 : Byte), 1, 65, 0] ++ List.replicate 130 0).length = 4 + 2 * (65 : Byte).toNat := by
  simp [factorsLegal]
theorem witness_ChannelFilterMessageConfigures :
    let pl : List Byte := [16, 1, 0, 0, 1, 0, 0, 0, 2, 0, 0, 0, 5, 0]
    12 ≤ pl.length ∧ pl.length = 12 + 2 * (pl.getD 1 0).toNat ∧ factorsLegal (pl.getD 0 0) (pl.getD 1 0) ∧ wordAt pl 4 ≠ 0
      ∧ (wordAt pl 4).toNat < (wordAt pl 8).toNat ∧ wordAt [1, 1, 0, 0, 0, 0, 0, 0, 2, 0, 0, 0, 5, 0] 4 = 0
      ∧ (wordAt [1, 1, 0, 0, 2, 0, 0, 0, 2, 0, 0, 0, 5, 0] 8).toNat ≤ (wordAt [1, 1, 0, 0, 2, 0, 0, 0, 2, 0, 0, 0, 5, 0] 4).toNat
      ∧ ¬ factorsLegal 17 1 := by
  unfold factorsLegal; decide
theorem witness_DemodAndAudioMessagesConfigure : (List.replicate 12 (1 : Byte)).length = 12 := by decide
theorem witness_BasebandMessageConfigures :
    (4 ≤ ((32 : Byte) :: List.replicate 131 0).length ∧ ((32 : Byte) :: List.replicate 131 0).length = 4 + 4 * (32 : Byte).toNat
      ∧ 1 ≤ (32 : Byte).toNat ∧ (32 : Byte).toNat ≤ 32)
      ∧ ([(0 : Byte), 0, 0, 0].length = 4 + 4 * (0 : Byte).toNat) ∧ 32 < (33 : Byte).toNat
      ∧ ((33 : Byte) :: List.replicate 135 0).length = 4 + 4 * (33 : Byte).toNat := by decide +kernel
theorem witness_SpectrumMessagesStartAndStop : paramsOk base.params = true ∧ [(1 : Byte), 0, 0, 0].length = 4
    ∧ halfAt [1, 0, 0, 0] 0 ≠ 0 ∧ Fits base .b2a (0x83, [0, 0, 0, 0]) ∧ ¬ Fits fullB2a .b2a (0x83, [0, 0, 0, 0])
    ∧ halfAt [0, 0, 0, 0] 0 = 0 := by
  refine ⟨by decide, rfl, by decide, ?_, ?_, by decide⟩ <;>
    simp [Fits, fullB2a, base, tiny, State.powerOn, ChannelRegs.powerOn, State.chan]
theorem witness_DecimatorConfigAndReset : factorsLegal 1 1 ∧ factorsLegal 16 64 ∧ ¬ factorsLegal 17 1 ∧ ¬ factorsLegal 1 0 := by
  unfold factorsLegal; decide
theorem witness_fir_ok : (fir 2 4 [8192, 8192, 8192, 8192]).Ok :=
  FirUnit.Ok.cfg _ (by decide)
theorem witness_fir_idle : FirUnit.powerOn.Ok := FirUnit.Ok.powerOn
theorem witness_DecimatorConvolves : ((withPfd 2 4 [8192, 8192, 8192, 8192]).pfd 0).Ok
    ∧ ((withPfd 2 4 [8192, 8192, 8192, 8192]).pfd 0).configured = true := ⟨witness_fir_ok, rfl⟩
theorem witness_ChannelFilterOperations :
    (factorsLegal 16 64 ∧ (1 : Word) ≠ 0 ∧ (1 : Word).toNat < (2 : Word).toNat) ∧ ¬ factorsLegal 0 1
      ∧ (2 : Word).toNat ≤ (2 : Word).toNat
      ∧ (BandpassUnit.mk (fir 2 4 [8192, 8192, 8192, 8192]) 1 2).Ok :=
  ⟨by unfold factorsLegal; decide, by unfold factorsLegal; decide, by decide, ⟨witness_fir_ok, by decide, nofun⟩⟩
theorem witness_DecimatorStreams : ((withPfd 2 4 [8192, 8192, 8192, 8192]).pfd 0).Ok
    ∧ ((withPfd 2 4 [8192, 8192, 8192, 8192]).pfd 0).configured = true
    ∧ ((withPfd 2 4 [8192, 8192, 8192, 8192]).pfd 0).d.toNat ∣ [c16 1 1, c16 2 2].length
    ∧ (BandpassUnit.mk (fir 2 4 [8192, 8192, 8192, 8192]) 1 2).Ok ∧ (fir 2 4 [8192, 8192, 8192, 8192]).configured = true :=
  ⟨witness_fir_ok, rfl, by decide, ⟨witness_fir_ok, by decide, nofun⟩, rfl⟩
theorem witness_BasebandFilterOperations : (1 ≤ (32 : Byte).toNat ∧ (32 : Byte).toNat ≤ 32) ∧ (0 : Byte).toNat = 0
    ∧ 32 < (33 : Byte).toNat ∧ base.fbf.Ok := ⟨by decide, by decide, by decide, BasebandUnit.Ok.reset (f := BasebandUnit.powerOn)⟩
/-- The fastest accepted rate, a rate above it, and a message for each. -/
theorem witness_ClockConfigAndReset : clockAccepted 2 1 0x3F800000 ∧ ¬ clockAccepted 3 2 0x3F800000
    ∧ clockAccepted (wordAt [2, 0, 0, 0, 1, 0, 0, 0, 0, 0, 0x80, 0x3F] 0) (wordAt [2, 0, 0, 0, 1, 0, 0, 0, 0, 0, 0x80, 0x3F] 4)
      (wordAt [2, 0, 0, 0, 1, 0, 0, 0, 0, 0, 0x80, 0x3F] 8)
    ∧ ¬ clockAccepted (wordAt (List.replicate 12 0) 0) (wordAt (List.replicate 12 0) 4) (wordAt (List.replicate 12 0) 8) := by
  unfold clockAccepted; decide +kernel
/-- A configured unit at phase 0 (no symbol) and at the last phase (a symbol). -/
theorem witness_ClockPushAdvancesPhase :
    let u := ClockUnit.powerOn.cfg 2 1 0x3F800000
    let v := { u with phase := 0xFFFFFFFF }
    u.Ok ∧ u.configured = true ∧ pushSum u 0 0 < 2 ^ 32 ∧ v.Ok ∧ 2 ^ 32 ≤ pushSum v 0 0 :=
  ⟨⟨by decide +kernel, nofun⟩, rfl, by decide +kernel, ⟨by decide +kernel, nofun⟩, by decide +kernel⟩
theorem witness_ZeroInputSymbolCount : clockAccepted 48000 19200 0x3F000000 := by unfold clockAccepted; decide +kernel
/-- Idle with and without a match; capturing with room, at capacity, at a lost sync, at completion and before it. -/
theorem witness_PacketBuilderOperations :
    (base.pkt.capturing = false ∧ pktMatch tiny 0xAC 0 8 = true ∧ pktMatch tiny 0xAC 0 7 = false)
      ∧ 63 < tiny.pktCap ∧ tiny.pktCap ≤ 64 ∧ pktLost tiny 16 = false
      ∧ pktLost { tiny with pktLost := .atCounts [64] } 64 = true ∧ pktDone tiny 16 = true ∧ pktDone tiny 15 = false := by
  decide +kernel
/-- Each policy at a count where it holds and one where it does not. -/
theorem witness_PacketBuilderOperations_policies :
    (tiny.pktDone = .fixedCount ∧ pktDone { tiny with pktLen := 5 } 5 = true ∧ pktDone { tiny with pktLen := 5 } 6 = false)
      ∧ tiny.pktLost = .never ∧ pktDone { tiny with pktDone := .atCounts [3, 9] } 9 = true
      ∧ pktDone { tiny with pktDone := .atCounts [3, 9] } 16 = false ∧ pktLost { tiny with pktLost := .atCounts [2] } 2 = true := by
  decide
theorem witness_PreambleMatcher : tiny.pktMatch = .pattern := rfl
theorem witness_PreambleThenPayload : (List.replicate 16 true).length = 16 ∧ State.reset.params = Params.default
    ∧ State.reset.pkt.Ok State.reset.params := ⟨by decide, rfl, by decide, by decide +kernel, by decide⟩
theorem witness_SpectrumControlOperations : (1 : Half) ≠ 0 ∧ (0 : Half) = 0 := by decide
/-- Streaming inside a group, 255 samples collected and one more kept, so that an epoch completes, with no request pending and
with one; the same with one sample fewer; not streaming. -/
theorem witness_SpectrumFeedKeepsFirstOfK :
    let u := { base.spc.start 3 with fill := 255, decCount := 2 }
    let kept := fun v : SpectrumUnit => v.cb.take v.fill.toNat ++ keptSamples v.k.toNat v.decCount.toNat [c16 1 1, c16 2 2, c16 3 3]
    let v := { u with updateRequest := true }
    let w := { u with fill := 254 }
    (u.Ok ∧ u.streaming = true ∧ u.updateRequest = false ∧ (kept u).length = 256 ∧ (kept u).getD 255 C16.zero = c16 2 2)
      ∧ (v.Ok ∧ v.streaming = true ∧ v.updateRequest = true ∧ (kept v).length = 256)
      ∧ (w.Ok ∧ w.streaming = true ∧ (kept w).length = 255) ∧ base.spc.streaming = false :=
  ⟨⟨⟨by decide +kernel, by decide +kernel, by decide +kernel, nofun⟩, rfl, rfl, by decide +kernel, by decide +kernel⟩,
    ⟨⟨by decide +kernel, by decide +kernel, by decide +kernel, nofun⟩, rfl, rfl, by decide +kernel⟩,
    ⟨⟨by decide +kernel, by decide +kernel, by decide +kernel, nofun⟩, rfl, by decide +kernel⟩, rfl⟩
theorem witness_EpochIsHandedOver : base.spc.Ok ∧ (1 : Half) ≠ 0 ∧ base.spc.updateRequest = false
    ∧ (List.replicate 256 (c16 1 1)).length = 256 * (1 : Half).toNat :=
  ⟨⟨by decide +kernel, by decide +kernel, nofun, by decide⟩, by decide, rfl, by decide +kernel⟩
theorem witness_SpectrumUpdatePosts : ({ base.spc with updateRequest := true } : SpectrumUnit).updateRequest = true := rfl
theorem witness_DisabledOperationsHaveNoStep : (base.pfd 2).configured = false ∧ base.bpf.fir.configured = false
    ∧ base.str.configured = false ∧ base.spc.updateRequest = false ∧ 512 < (List.replicate 513 true).length
    ∧ ([] : List C8).length ≠ base.params.bufN := ⟨rfl, rfl, rfl, rfl, by decide +kernel, by decide⟩
theorem witness_DrainConsumesOnce :
    let s := { base with evt := 1, slot := { base.slot with valid := true } }
    (s.evt = (if s.slot.valid then 1 else 0) ∧ s.evt = 1) ∧ base.evt = (if base.slot.valid then 1 else 0) ∧ base.evt = 0 := by decide
/-- The last pair of the last block of the first stage and of the last stage. -/
theorem witness_FftStageButterflies : (List.replicate 256 ((1, 1) : Cplx)).length = 256 ∧ (0 < 8 ∧ 127 < 128 / 2 ^ 0 ∧ 0 < 2 ^ 0)
    ∧ (7 < 8 ∧ 0 < 128 / 2 ^ 7 ∧ 127 < 2 ^ 7) ∧ 255 < 256 := by decide +kernel
theorem witness_LogarithmIsMonotone : 2 ^ 9 ≤ 1023 ∧ 1023 < 2 ^ (9 + 1) ∧ 2 ^ 10 ≤ 1024 ∧ 1024 < 2 ^ (10 + 1) ∧ 1023 ≤ 1024 := by decide
theorem witness_AudioChainConserves : base.aud.Ok base.params ∧ base.params.audStage = {} :=
  ⟨⟨by decide, by decide, by decide⟩, rfl⟩
theorem witness_ManchesterDecodes : (List.replicate 512 true).length ≤ 512 := by decide +kernel
theorem witness_ManchesterRoundTrip : (List.replicate 256 true).length ≤ 256 ∧ (List.replicate 256 true).length % 4 = 0
    ∧ 511 < 2 * (List.replicate 256 true).length ∧ (List.replicate 252 true).length < 256 ∧ (List.replicate 252 true).length % 4 = 0 := by
  decide +kernel
/-- A visible control message (kind 9); a visible message of the first unknown kind above it; none visible. -/
theorem witness_DispatchHandlesOldest : paramsOk healthy.params = true ∧ healthy.Holds .a2b ((9, []) :: []) [(7, [0x55])]
    ∧ messageOf (.ctlSpectrumStop []) = some (9, []) ∧ (9 : Byte).toNat ≤ 9 ∧ 9 < (10 : Byte).toNat :=
  ⟨by decide, witness_holds_a2b, rfl, by decide, by decide⟩
theorem witness_DispatchHandlesOldest_unknown :
    let s := { ringed with mem := (0x200, 0x0A) :: ringed.mem.tail }
    paramsOk s.params = true ∧ s.Holds .a2b ((10, []) :: []) [(7, [0x55])] :=
  ⟨by decide, rfl, by decide +kernel, by decide +kernel, by decide +kernel, by decide +kernel, by decide +kernel, by decide +kernel⟩
theorem witness_DispatchHandlesOldest_empty : paramsOk base.params = true ∧ base.Holds .a2b [] [] :=
  ⟨by decide, rfl, by decide +kernel, by decide +kernel, by decide +kernel, by decide +kernel, by decide +kernel, by decide +kernel⟩
theorem witness_MessagesBeforeBuffer : paramsOk healthy.params = true ∧ healthy.Holds .a2b [(9, [])] [(7, [0x55])]
    ∧ [((9 : Byte), ([] : List Byte))] ≠ [] ∧ [(⟨1, 2⟩ : C8)].length = healthy.params.bufN ∧ ∃ t, exec .topDispatch healthy = .next t :=
  ⟨by decide, witness_holds_a2b, by decide, rfl, of_isNext (by decide +kernel)⟩
/-- No message visible and no mode; a latched fault. -/
theorem witness_UnconfiguredDiscards : [(⟨1, 2⟩ : C8)].length = base.params.bufN ∧ (base.a2b.wSeen - base.a2b.r).toNat < 4 ∧ ¬ Ready base
    ∧ ({ base with a2b := { base.a2b with fault := true } } : State).a2b.fault = true :=
  ⟨rfl, by decide, fun h => h.1 rfl, rfl⟩
/-- A payload of the form ConfiguredChainRuns names, a byte and a bit long. -/
theorem witness_ConfiguredChainRuns_packet :
    PacketBytes [true, false, false, false, false, false, false, false, true] [9, 0, 0, 0, 0x80, 0x80] :=
  test_packet_payload.2 ▸ packetPayload_bytes _
/-- A configured build in the mode TPMS, the one with the longest predicate. -/
theorem witness_ConfiguredChainRuns :
    let f := fir 1 1 [32767]
    let s := { base with mode := .tpms, pfd0 := f, pfd1 := f, pfd2 := f, bpf := { fir := f, passHz := 1, stopHz := 2 },
                         str := ClockUnit.powerOn.cfg 2 1 0x3F800000 }
    [(⟨1, 2⟩ : C8)].length = s.params.bufN ∧ (s.a2b.wSeen - s.a2b.r).toNat < 4 ∧ Ready s :=
  ⟨rfl, by decide, by decide, rfl, rfl, rfl, rfl, fun _ => rfl⟩
/-- One buffer before the period, at the period, and with the statistics disabled. -/
theorem witness_StatisticsPeriod : ((1498 : Word) + 1).toNat < State.reset.params.statPeriod.toNat
    ∧ State.reset.params.statPeriod ≠ 0 ∧ State.reset.params.statPeriod.toNat ≤ ((1499 : Word) + 1).toNat
    ∧ (State.powerOn { statPeriod := 0 }).params.statPeriod = 0 := by decide +kernel
/-- Finite numbers of both signs, the zeros, the infinities and a NaN: together they meet each hypothesis of the five laws. -/
theorem witness_FloatArithmeticLaws : IsFinite 0xBF800000 ∧ IsFinite 0x3F800000 ∧ IsFinite 0x7F7FFFFF ∧ IsFinite (zeroOf true)
    ∧ f32Value 0x3F800000 = 1 ∧ f32Value 0xBF800000 = -1 ∧ f32Value (zeroOf true) = 0
    ∧ IsNaN 0xFF800001 ∧ ¬ IsNaN (infinity true) ∧ ¬ IsFinite (infinity true) ∧ infinity true ≠ infinity (!true)
    ∧ ∀ m, infinity true ≠ zeroOf m := by
  have h : (0x3F800000 : F32).toNat = 0x3F800000 ∧ (0xBF800000 : F32).toNat = 0xBF800000 ∧ (zeroOf true).toNat = 0x80000000 := by
    decide
  refine ⟨by unfold IsFinite; decide, by unfold IsFinite; decide, by unfold IsFinite; decide, by unfold IsFinite; decide, ?_, ?_, ?_,
    by unfold IsNaN; decide, by unfold IsNaN; decide, by unfold IsFinite; decide, by decide, by decide⟩ <;>
    norm_num [f32Value, h]

end Sys2Proof.Tests
end

/-! A step runs the move it decodes (00_scope.md R17, R20); an operation that is not enabled is refused. -/

namespace Sys2Proof.Machine
open Sys2Proof

/-! ### Steps and refusals -/

/-- A step decodes the first move and runs it with the move taken off the agenda. -/
theorem step_cons (s : State) (m : Move) (rest : List Move) (h : s.agenda = m :: rest) :
    step s = runDecoded (decode s.params m) { s with agenda := rest } := by
  simp only [step, stepAgenda, h, State.taken, List.tail_cons]

/-- With no move left every agent is idle (60_exceptions.md R364). -/
theorem step_nil (s : State) (h : s.agenda = []) : step s = .next s := by
  simp only [step, stepAgenda, h]

/-- An operation that has a next state is run. -/
theorem runInstr_of_next (i : Instr) (s t : State) (h : exec i s = .next t) : runInstr i s = .next t := by
  simp only [runInstr, h]

/-- An operation that is not enabled is passed over (log entry 11). -/
theorem runInstr_of_notEnabled (i : Instr) (s : State) (name : String) (h : exec i s = .refused (.notEnabled name)) :
    runInstr i s = .next s := by
  simp only [runInstr, h]

/-- Settles O6. -/
theorem stepRunsDecodedMove : Obligations.StepRunsDecodedMove := by
  refine ⟨fun s m rest i hagenda hdecode => ?_, step_nil⟩
  have hstep : step s = runInstr i { s with agenda := rest } := by
    rw [step_cons s m rest hagenda, hdecode, runDecoded]
  exact ⟨fun t ht => hstep.trans (runInstr_of_next i _ t ht),
    fun n hn => hstep.trans (runInstr_of_notEnabled i _ n hn)⟩

/-- Settles O57: each operation of the six tests its precondition first. -/
theorem disabledOperationsHaveNoStep : Obligations.DisabledOperationsHaveNoStep := by
  refine ⟨fun s i b h => ?pfd, fun s b h => ?bpf, fun s x h => ?str, fun s h => ?spc, fun s bits sense h => ?man,
    fun s raw h => ?top⟩
  case pfd => simp only [exec, execPfdExec, h, Bool.false_eq_true, if_false]
  case bpf => simp only [exec, execBpfExec, h, Bool.false_eq_true, if_false]
  case str => simp only [exec, execStrPush, h, Bool.false_eq_true, if_false]
  case spc => simp only [exec, execSpcUpdate, h, Bool.false_eq_true, if_false]
  case man => simp only [exec, execManDecode, Config.manBitsMax, Nat.not_le.2 h, if_false]
  case top => simp only [exec, execTopBuffer, h, if_false]

end Sys2Proof.Machine

/-! The operations of Float32.lean are IEEE 754's (00_scope.md R15, log entry 20). -/

namespace Sys2Proof.Machine
open Sys2Proof

/-! ### Views of the zeros, the infinities and the NaNs -/

/-- A packed magnitude of 0 is a zero. -/
theorem pack_zero (n : Bool) : f32Pack n 0 = zeroOf n := by cases n <;> rfl

/-- `f32Inf` and the statements' `infinity` are one pattern. -/
theorem f32Inf_eq (n : Bool) : f32Inf n = infinity n := by cases n <;> rfl

@[simp] theorem view_infinity (n : Bool) : f32View (infinity n) = .inf n := (view_inf _ n).2 rfl

@[simp] theorem view_zeroOf (n : Bool) : f32View (zeroOf n) = .fin n 0 (-149) := by cases n <;> decide

/-- The two zeros are the only patterns without a significand. -/
theorem eq_zeroOf_of_view (x : F32) (s : Bool) (e : ℤ) (h : f32View x = .fin s 0 e) : x = zeroOf s := by
  have hlt := x.isLt
  have hzero : (zeroOf s).toNat = if s then 2 ^ 31 else 0 := by cases s <;> rfl
  unfold f32View at h
  split at h
  · split at h <;> cases h
  · rename_i hexp
    split at h
    · rename_i hexp0
      injection h with hs hm _
      unfold f32Exp at hexp0
      unfold f32Frac at hm
      apply BitVec.eq_of_toNat_eq
      rw [hzero, ← hs]
      simp only [f32Sign, decide_eq_true_eq]
      split <;> omega
    · injection h with _ hm _
      omega

/-- An infinity has its sign bit. -/
theorem negative_of_view_inf (x : F32) (n : Bool) (h : f32View x = .inf n) : negative x = n := by
  rw [(view_inf x n).1 h]; cases n <;> decide

/-- A drawn NaN is quiet. -/
theorem f32NaN_isQuietNaN (d : Nat) : IsQuietNaN (f32NaN d) := by
  unfold IsQuietNaN f32NaN
  simp only [f32Pack, BitVec.toNat_ofNat]
  constructor <;> split <;> omega

/-- `f32_neg` keeps all bits but the sign. -/
theorem f32Neg_bits (a : F32) : negative (f32Neg a) = !negative a ∧ (f32Neg a).toNat % 2 ^ 31 = a.toNat % 2 ^ 31 := by
  unfold negative f32Neg
  constructor
  · rw [BitVec.getLsbD_xor, show (0x80000000 : F32).getLsbD 31 = true by decide, Bool.xor_true]
  · rw [BitVec.toNat_xor, Nat.xor_mod_two_pow]
    exact Nat.xor_zero _

/-! ### The sign and the significand of an exact result -/

/-- The value of a number from its signed significand. -/
theorem value_signed (x : F32) (s : Bool) (m : ℕ) (e : ℤ) (h : f32View x = .fin s m e) :
    f32Value x = (signed s m : ℚ) * 2 ^ e := by
  obtain ⟨_, _, hv, _⟩ := view_fin x s m e h
  rw [hv]; cases s <;> simp [signed]

/-- A significand moved to a lower place. -/
theorem signed_shift (s : Bool) (m : ℕ) (e g : ℤ) (h : g ≤ e) :
    (signed s (m * 2 ^ (e - g).toNat) : ℚ) * 2 ^ g = (signed s m : ℚ) * 2 ^ e := by
  obtain ⟨j, rfl⟩ : ∃ j : ℕ, e = g + j := ⟨(e - g).toNat, by omega⟩
  rw [show (g + (j : ℤ) - g).toNat = j by omega, zpow_add₀ (by norm_num), zpow_natCast]
  cases s <;> simp [signed] <;> ring

/-- A signed significand is rounded once, with the sign of the number. -/
theorem f32Round_int (i : ℤ) (e : ℤ) :
    IsRounded (((i : ℚ) * 2 ^ e : ℚ) : ℝ) (decide (i < 0)) (f32Round (decide (i < 0)) i.natAbs e false) := by
  apply f32Round_exact
  have habs : (i : ℚ) = (if decide (i < 0) then -1 else 1) * (i.natAbs : ℚ) := by
    by_cases h : i < 0
    · have : (i.natAbs : ℤ) = -i := by omega
      have : (i.natAbs : ℚ) = -i := by rw [← Int.cast_natCast, this, Int.cast_neg]
      rw [this]; simp [h]
    · have : (i.natAbs : ℤ) = i := by omega
      have : (i.natAbs : ℚ) = i := by rw [← Int.cast_natCast, this]
      rw [this]; simp [h]
  rw [← mul_assoc, ← habs]

/-- A zero is the number 0 rounded, with either sign. -/
theorem zeroOf_isRounded (n : Bool) : IsRounded ((0 : ℚ) : ℝ) n (zeroOf n) := by
  rw [← pack_zero]
  exact f32Round_exact n 0 0 0 (by simp)

/-! ### Addition -/

/-- A NaN operand makes a sum a NaN. -/
theorem f32Add_of_nan (d : Nat) (a b : F32) (h : f32View a = .nan ∨ f32View b = .nan) : f32Add d a b = f32NaN d := by
  unfold f32Add
  rcases h with h | h
  · rw [h]
  · rw [h]; cases f32View a <;> rfl

/-- Two unlike infinities have no sum. -/
theorem f32Add_unlike_infinities (d : Nat) (n : Bool) : f32Add d (infinity n) (infinity (!n)) = f32NaN d := by
  unfold f32Add
  cases n <;> simp

/-- An infinity plus anything but a NaN and the other infinity is that infinity. -/
theorem f32Add_infinity (d : Nat) (n : Bool) (b : F32) (hnan : f32View b ≠ .nan) (hinf : f32View b ≠ .inf (!n)) :
    f32Add d (infinity n) b = infinity n := by
  unfold f32Add
  rw [view_infinity]
  cases hb : f32View b with
  | nan => exact absurd hb hnan
  | inf t =>
    have : n = t := by
      rw [hb] at hinf
      cases n <;> cases t <;> simp_all
    simp only [this, if_true, f32Inf_eq]
  | fin t m e => exact f32Inf_eq n

/-- Addition commutes, drawn values included. -/
theorem f32Add_comm (d : Nat) (a b : F32) : f32Add d a b = f32Add d b a := by
  unfold f32Add
  cases f32View a <;> cases f32View b
  case inf.inf s t =>
    by_cases h : s = t
    · simp [h]
    · simp [h, Ne.symm h]
  case fin.fin s m e t n f => simp only [min_comm e f, add_comm (signed s _), Bool.and_comm s]
  all_goals rfl

/-- The sum of two numbers is correctly rounded; an exact 0 is `-0` only as the sum of two negative zeros. -/
theorem f32Add_isRounded (d : Nat) (a b : F32) (ha : IsFinite a) (hb : IsFinite b) :
    IsRounded ((f32Value a + f32Value b : ℚ) : ℝ) (signOf (negative a && negative b) (f32Value a + f32Value b))
      (f32Add d a b) := by
  obtain ⟨s, m, e, hva⟩ := view_of_finite a ha
  obtain ⟨t, n, f, hvb⟩ := view_of_finite b hb
  obtain ⟨_, hsa, _, _⟩ := view_fin a s m e hva
  obtain ⟨_, hsb, _, _⟩ := view_fin b t n f hvb
  obtain ⟨sum, hsum⟩ : ∃ sum : ℤ, sum = signed s (m * 2 ^ (e - min e f).toNat) + signed t (n * 2 ^ (f - min e f).toNat) :=
    ⟨_, rfl⟩
  have hvalue : f32Value a + f32Value b = (sum : ℚ) * 2 ^ min e f := by
    rw [value_signed a s m e hva, value_signed b t n f hvb, hsum, ← signed_shift s m e _ (min_le_left e f),
      ← signed_shift t n f _ (min_le_right e f)]
    push_cast; ring
  have hadd : f32Add d a b = if sum = 0 then f32Pack (s && t) 0 else f32Round (decide (sum < 0)) sum.natAbs (min e f) false := by
    unfold f32Add; rw [hva, hvb, hsum]
  have hplace : (0 : ℚ) < 2 ^ min e f := by positivity
  rw [hadd, hvalue, hsa, hsb]
  by_cases h0 : sum = 0
  · rw [if_pos h0, h0, pack_zero]
    simp only [Int.cast_zero, zero_mul, signOf, if_true]
    exact zeroOf_isRounded (s && t)
  · have hv0 : (sum : ℚ) * 2 ^ min e f ≠ 0 := mul_ne_zero (by exact_mod_cast h0) hplace.ne'
    have hsign : signOf (s && t) ((sum : ℚ) * 2 ^ min e f) = decide (sum < 0) := by
      rw [signOf, if_neg hv0]
      congr 1
      rw [← zero_mul ((2 : ℚ) ^ min e f), mul_lt_mul_iff_left₀ hplace, Int.cast_lt_zero]
    rw [if_neg h0, hsign]
    exact f32Round_int sum _

/-- R15's addition: the finite operands, then the NaN results, then the infinite ones. -/
theorem f32Add_additionLaw (d : Nat) (a b : F32) : AdditionLaw d a b := by
  refine ⟨f32Add_isRounded d a b, ?_, ?_, f32Add_comm d a b, rfl⟩
  · rintro (h | h | ⟨n, rfl, rfl⟩)
    · exact f32Add_of_nan d a b (.inl ((view_nan a).2 h))
    · exact f32Add_of_nan d a b (.inr ((view_nan b).2 h))
    · exact f32Add_unlike_infinities d n
  · rintro n rfl hnan hinf
    exact f32Add_infinity d n b (mt (view_nan b).1 hnan) (mt (view_inf b _).1 hinf)

/-! ### Multiplication -/

/-- A NaN factor makes a product a NaN. -/
theorem f32Mul_of_nan (d : Nat) (a b : F32) (h : f32View a = .nan ∨ f32View b = .nan) : f32Mul d a b = f32NaN d := by
  rcases h with h | h
  · exact mul_nan d a b h
  · unfold f32Mul; rw [h]; cases f32View a <;> rfl

/-- An infinity times a zero is a NaN. -/
theorem f32Mul_infinity_zeroOf (d : Nat) (n m : Bool) : f32Mul d (infinity n) (zeroOf m) = f32NaN d := by
  unfold f32Mul
  rw [view_infinity, view_zeroOf]
  exact if_pos rfl

/-- An infinity times anything but a NaN and a zero is infinite. -/
theorem f32Mul_infinity (d : Nat) (n : Bool) (b : F32) (hnan : f32View b ≠ .nan) (hzero : ∀ m, b ≠ zeroOf m) :
    f32Mul d (infinity n) b = infinity (n != negative b) := by
  unfold f32Mul
  rw [view_infinity]
  cases hb : f32View b with
  | nan => exact absurd hb hnan
  | inf t => rw [negative_of_view_inf b t hb]; exact f32Inf_eq _
  | fin t m e =>
    obtain ⟨_, hs, _, _⟩ := view_fin b t m e hb
    have hm : m ≠ 0 := by
      rintro rfl
      exact hzero t (eq_zeroOf_of_view b t e hb)
    rw [hs]
    simp only [hm, if_false, f32Inf_eq]

/-- Multiplication commutes, drawn values included. -/
theorem f32Mul_comm (d : Nat) (a b : F32) : f32Mul d a b = f32Mul d b a := by
  have hxor : ∀ s t : Bool, (s != t) = (t != s) := Bool.xor_comm
  unfold f32Mul
  cases f32View a <;> cases f32View b
  case inf.inf s t => simp only [hxor s t]
  case inf.fin s t m e => simp only [hxor s t]
  case fin.inf s m e t => simp only [hxor s t]
  case fin.fin s m e t n f => simp only [hxor s t, Nat.mul_comm m n, add_comm e f]
  all_goals rfl

/-- The product of two numbers is correctly rounded. -/
theorem f32Mul_isRounded (d : Nat) (a b : F32) (ha : IsFinite a) (hb : IsFinite b) :
    IsRounded ((f32Value a * f32Value b : ℚ) : ℝ) (negative a != negative b) (f32Mul d a b) := by
  obtain ⟨s, m, e, hva⟩ := view_of_finite a ha
  obtain ⟨t, n, f, hvb⟩ := view_of_finite b hb
  obtain ⟨_, hsa, hfa, _⟩ := view_fin a s m e hva
  obtain ⟨_, hsb, hfb, _⟩ := view_fin b t n f hvb
  have hmul : f32Mul d a b = f32Round (s != t) (m * n) (e + f) false := by unfold f32Mul; rw [hva, hvb]
  rw [hmul, hsa, hsb]
  apply f32Round_exact
  rw [hfa, hfb, zpow_add₀ (by norm_num)]
  push_cast
  cases s <;> cases t <;> simp <;> ring

/-- R15's multiplication; that it commutes gives the cases with the infinity on the right. -/
theorem f32Mul_productLaw (d : Nat) (a b : F32) : ProductLaw d a b := by
  refine ⟨f32Mul_isRounded d a b, ?_, ?_, f32Mul_comm d a b⟩
  · rintro (h | h | ⟨n, m, rfl, rfl⟩)
    · exact f32Mul_of_nan d a b (.inl ((view_nan a).2 h))
    · exact f32Mul_of_nan d a b (.inr ((view_nan b).2 h))
    · exact f32Mul_infinity_zeroOf d n m
  · rintro n rfl hnan hzero
    exact f32Mul_infinity d n b (mt (view_nan b).1 hnan) hzero

/-! ### Division -/

/-- A NaN operand makes a quotient a NaN. -/
theorem f32Div_of_nan (d : Nat) (a b : F32) (h : f32View a = .nan ∨ f32View b = .nan) : f32Div d a b = f32NaN d := by
  unfold f32Div
  rcases h with h | h
  · rw [h]
  · rw [h]; cases f32View a <;> rfl

/-- A nonzero number by a zero is infinite. -/
theorem f32Div_zeroOf (d : Nat) (m : Bool) (a : F32) (ha : IsFinite a) (h0 : f32Value a ≠ 0) :
    f32Div d a (zeroOf m) = infinity (negative a != m) := by
  obtain ⟨s, n, e, hva⟩ := view_of_finite a ha
  obtain ⟨_, hsa, _, _⟩ := view_fin a s n e hva
  have hn : n ≠ 0 := mt (fin_zero a s n e hva).2 h0
  unfold f32Div
  rw [hva, view_zeroOf, hsa]
  simp only [if_true, hn, if_false, f32Inf_eq]

/-- An infinity by a number is infinite. -/
theorem f32Div_infinity_left (d : Nat) (n : Bool) (b : F32) (hb : IsFinite b) :
    f32Div d (infinity n) b = infinity (n != negative b) := by
  obtain ⟨t, m, e, hvb⟩ := view_of_finite b hb
  obtain ⟨_, hsb, _, _⟩ := view_fin b t m e hvb
  unfold f32Div
  rw [view_infinity, hvb, hsb]
  exact f32Inf_eq _

/-- A number by an infinity is a zero. -/
theorem f32Div_infinity_right (d : Nat) (m : Bool) (a : F32) (ha : IsFinite a) :
    f32Div d a (infinity m) = zeroOf (negative a != m) := by
  obtain ⟨s, n, e, hva⟩ := view_of_finite a ha
  obtain ⟨_, hsa, _, _⟩ := view_fin a s n e hva
  unfold f32Div
  rw [hva, view_infinity, hsa]
  exact pack_zero _

/-- A quotient of natural numbers lies between its floor and the next, and is its floor exactly if nothing remains. -/
theorem div_bounds (m n : ℕ) (hn : n ≠ 0) :
    ((m / n : ℕ) : ℝ) ≤ m / n ∧ (m : ℝ) / n < ((m / n : ℕ) : ℝ) + 1 ∧ (m % n = 0 ↔ (m : ℝ) / n = ((m / n : ℕ) : ℝ)) := by
  have hn' : (0 : ℝ) < n := by exact_mod_cast Nat.pos_of_ne_zero hn
  refine ⟨Nat.cast_div_le, ?_, fun h => ?_, fun h => ?_⟩
  · rw [div_lt_iff₀ hn']
    exact_mod_cast Nat.lt_mul_of_div_lt (Nat.lt_succ_self (m / n)) (Nat.pos_of_ne_zero hn)
  · exact (Nat.cast_div (Nat.dvd_of_mod_eq_zero h) hn'.ne').symm
  · rw [div_eq_iff hn'.ne'] at h
    have h' : m = m / n * n := by exact_mod_cast h
    rw [h']; exact Nat.mul_mod_left _ _

/-- The quotient of two numbers is correctly rounded: the 50 further bits leave at least 24 bits above the sticky bit. -/
theorem f32Div_isRounded (d : Nat) (a b : F32) (ha : IsFinite a) (hb : IsFinite b) (h0 : f32Value b ≠ 0) :
    IsRounded ((f32Value a / f32Value b : ℚ) : ℝ) (negative a != negative b) (f32Div d a b) := by
  obtain ⟨s, m, e, hva⟩ := view_of_finite a ha
  obtain ⟨t, n, f, hvb⟩ := view_of_finite b hb
  obtain ⟨_, hsa, hfa, _⟩ := view_fin a s m e hva
  obtain ⟨_, hsb, hfb, hn24⟩ := view_fin b t n f hvb
  have hn : n ≠ 0 := mt (fin_zero b t n f hvb).2 h0
  have hn' : (n : ℝ) ≠ 0 := by exact_mod_cast hn
  have hdiv : f32Div d a b = f32Round (s != t) (m * 2 ^ 50 / n) (e - f - 50) (decide (m * 2 ^ 50 % n ≠ 0)) := by
    unfold f32Div; rw [hva, hvb]; exact if_neg hn
  obtain ⟨low, high, hexact⟩ := div_bounds (m * 2 ^ 50) n hn
  have hplace : (0 : ℝ) < 2 ^ (e - f - 50) := by positivity
  have hvalue : ((f32Value a / f32Value b : ℚ) : ℝ)
      = if (s != t) then -(((m * 2 ^ 50 : ℕ) : ℝ) / n * 2 ^ (e - f - 50)) else ((m * 2 ^ 50 : ℕ) : ℝ) / n * 2 ^ (e - f - 50) := by
    rw [hfa, hfb, zpow_sub₀ (by norm_num), zpow_sub₀ (by norm_num)]
    push_cast
    cases s <;> cases t <;> simp <;> field_simp <;> norm_num
  rw [hdiv, hsa, hsb, hvalue]
  apply f32Round_isRounded
  · exact mul_le_mul_of_nonneg_right low hplace.le
  · exact mul_lt_mul_of_pos_right high hplace
  · intro hsticky
    have hrem : m * 2 ^ 50 % n = 0 := by simpa using hsticky
    rw [hexact.1 hrem]
  · intro hsticky
    have hrem : m * 2 ^ 50 % n ≠ 0 := by simpa using hsticky
    refine ⟨fun h => hrem (hexact.2 (mul_right_cancel₀ hplace.ne' h)), ?_⟩
    have hm : 1 ≤ m := Nat.one_le_iff_ne_zero.2 (by rintro rfl; simp at hrem)
    rw [Nat.le_div_iff_mul_le (Nat.pos_of_ne_zero hn)]
    omega

/-- R15's division, by the kinds of its operands. -/
theorem f32Div_quotientLaw (d : Nat) (a b : F32) : QuotientLaw d a b := by
  refine ⟨f32Div_isRounded d a b, ?_, ?_, ?_, ?_⟩
  · rintro (h | h | ⟨n, m, rfl, rfl⟩ | ⟨n, m, rfl, rfl⟩)
    · exact f32Div_of_nan d a b (.inl ((view_nan a).2 h))
    · exact f32Div_of_nan d a b (.inr ((view_nan b).2 h))
    · unfold f32Div; rw [view_infinity, view_infinity]
    · unfold f32Div; rw [view_zeroOf, view_zeroOf]; rfl
  · rintro m ha h0 rfl
    exact f32Div_zeroOf d m a ha h0
  · rintro n rfl hb
    exact f32Div_infinity_left d n b hb
  · rintro m ha rfl
    exact f32Div_infinity_right d m a ha

/-! ### The square root -/

/-- With the bits from `k` up found, `isqrtFrom` finds the rest. -/
theorem isqrtFrom_spec (n : ℕ) : ∀ k r, r * r ≤ n → n < (r + 2 ^ k) * (r + 2 ^ k) →
    isqrtFrom k n r * isqrtFrom k n r ≤ n ∧ n < (isqrtFrom k n r + 1) * (isqrtFrom k n r + 1) := by
  intro k
  induction k with
  | zero => exact fun r hlow hhigh => ⟨hlow, hhigh⟩
  | succ k ih =>
    intro r hlow hhigh
    rw [isqrtFrom]
    split
    · rename_i hbit
      exact ih _ hbit (by rwa [Nat.add_assoc, ← Nat.two_mul, ← Nat.pow_succ'])
    · rename_i hbit
      exact ih r hlow (Nat.lt_of_not_le hbit)

/-- `isqrt` is the floor of the square root. -/
theorem isqrt_eq_sqrt (n : ℕ) (h : n < 2 ^ 80) : isqrt n = Nat.sqrt n := by
  obtain ⟨low, high⟩ := isqrtFrom_spec n 40 0 (Nat.zero_le n) (by rw [Nat.zero_add, ← Nat.pow_add]; exact h)
  exact Nat.eq_sqrt.2 ⟨low, high⟩

/-- The root of a positive number, significand and place apart: the exponent is even once `k` further bits are taken. -/
theorem sqrt_value (m k : ℕ) (e : ℤ) (heven : (e - k) % 2 = 0) :
    Real.sqrt ((m : ℝ) * 2 ^ e) = Real.sqrt ((m * 2 ^ k : ℕ) : ℝ) * 2 ^ ((e - k) / 2) := by
  obtain ⟨j, hj⟩ : ∃ j : ℤ, e = k + (j + j) := ⟨(e - k) / 2, by omega⟩
  have hhalf : (e - k) / 2 = j := by omega
  have hplace : (0 : ℝ) ≤ 2 ^ j := by positivity
  rw [hhalf, hj, zpow_add₀ (by norm_num), zpow_natCast, zpow_add₀ (by norm_num), ← mul_assoc,
    Real.sqrt_mul (by positivity), Real.sqrt_mul_self hplace]
  push_cast; rfl

/-- The root of a positive number is correctly rounded: the further bits leave at least 24 bits above the sticky bit. -/
theorem f32Round_isqrt (m k : ℕ) (e : ℤ) (hm : m ≠ 0) (hm24 : m < 2 ^ 24) (hk : 52 ≤ k ∧ k ≤ 53) (heven : (e - k) % 2 = 0) :
    IsRounded (Real.sqrt ((m : ℝ) * 2 ^ e)) false
      (f32Round false (isqrt (m * 2 ^ k)) ((e - k) / 2) (decide (isqrt (m * 2 ^ k) * isqrt (m * 2 ^ k) ≠ m * 2 ^ k))) := by
  obtain ⟨n, hn⟩ : ∃ n, n = m * 2 ^ k := ⟨_, rfl⟩
  have hlow : 2 ^ 52 ≤ n := by
    rw [hn]
    calc 2 ^ 52 ≤ 2 ^ k := Nat.pow_le_pow_right (by norm_num) hk.1
      _ ≤ m * 2 ^ k := Nat.le_mul_of_pos_left _ (Nat.pos_of_ne_zero hm)
  have hhigh : n < 2 ^ 80 := by
    rw [hn]
    calc m * 2 ^ k < 2 ^ 24 * 2 ^ k := Nat.mul_lt_mul_of_pos_right hm24 (by positivity)
      _ ≤ 2 ^ 24 * 2 ^ 53 := Nat.mul_le_mul_left _ (Nat.pow_le_pow_right (by norm_num) hk.2)
      _ ≤ 2 ^ 80 := by norm_num
  rw [sqrt_value m k e heven, ← hn, isqrt_eq_sqrt n hhigh]
  have hplace : (0 : ℝ) < 2 ^ ((e - k) / 2) := by positivity
  have hsquare : Nat.sqrt n * Nat.sqrt n = n ↔ Real.sqrt n = (Nat.sqrt n : ℝ) := by
    rw [Real.sqrt_eq_iff_mul_self_eq (Nat.cast_nonneg n) (Nat.cast_nonneg _)]
    exact_mod_cast eq_comm
  apply f32Round_isRounded false
  · exact mul_le_mul_of_nonneg_right Real.nat_sqrt_le_real_sqrt hplace.le
  · exact mul_lt_mul_of_pos_right Real.real_sqrt_lt_nat_sqrt_succ hplace
  · intro hsticky
    have h : Nat.sqrt n * Nat.sqrt n = n := by simpa using hsticky
    rw [hsquare.1 h]
  · intro hsticky
    have h : Nat.sqrt n * Nat.sqrt n ≠ n := by simpa using hsticky
    refine ⟨fun heq => h (hsquare.2 (mul_right_cancel₀ hplace.ne' heq)), ?_⟩
    exact Nat.le_sqrt.2 (le_trans (by norm_num) hlow)

/-- The root of a number from 0 up is correctly rounded, and a zero keeps its sign. -/
theorem f32Sqrt_isRounded (d : Nat) (a : F32) (ha : IsFinite a) (h0 : 0 ≤ f32Value a) :
    IsRounded (Real.sqrt (f32Value a : ℝ)) (negative a) (f32Sqrt d a) := by
  obtain ⟨s, m, e, hva⟩ := view_of_finite a ha
  obtain ⟨_, hsa, hfa, hm24⟩ := view_fin a s m e hva
  have hplace : (0 : ℚ) < 2 ^ e := by positivity
  unfold f32Sqrt
  rw [hva, hsa]
  dsimp only
  by_cases hm : m = 0
  · rw [if_pos hm, (fin_zero a s m e hva).2 hm, pack_zero, Rat.cast_zero, Real.sqrt_zero]
    simpa using zeroOf_isRounded s
  · have hpos : s = false := by
      cases s with
      | false => rfl
      | true =>
        have : (0 : ℚ) < m := by exact_mod_cast Nat.pos_of_ne_zero hm
        have : (0 : ℚ) < m * 2 ^ e := mul_pos this hplace
        rw [hfa, if_pos rfl] at h0
        linarith
    subst hpos
    have hv : (f32Value a : ℝ) = (m : ℝ) * 2 ^ e := by rw [hfa]; simp
    rw [if_neg hm, hv]
    simp only [Bool.false_eq_true, if_false]
    exact f32Round_isqrt m (if e % 2 = 0 then 52 else 53) e hm hm24 (by split <;> omega) (by split <;> push_cast <;> omega)

/-- R15's square root: what is below zero has a sign bit and a significand, or is an infinity. -/
theorem f32Sqrt_rootLaw (d : Nat) (a : F32) : RootLaw d a := by
  refine ⟨f32Sqrt_isRounded d a, ?_, ?_⟩
  · rintro (h | ⟨hneg, ha⟩ | rfl)
    · unfold f32Sqrt; rw [(view_nan a).2 h]
    · obtain ⟨s, m, e, hva⟩ := view_of_finite a ha
      obtain ⟨_, _, hfa, _⟩ := view_fin a s m e hva
      have hm : m ≠ 0 := mt (fin_zero a s m e hva).2 hneg.ne
      have hs : s = true := by
        cases s with
        | true => rfl
        | false =>
          have : (0 : ℚ) ≤ m * 2 ^ e := by positivity
          rw [hfa, if_neg Bool.false_ne_true] at hneg
          linarith
      unfold f32Sqrt
      rw [hva]
      simp only [hm, hs, if_true, if_false]
    · unfold f32Sqrt; rw [view_infinity]; rfl
  · rintro rfl
    unfold f32Sqrt; rw [view_infinity]; exact f32Inf_eq false

/-! ### The order -/

/-- The number of the pattern with magnitude bits `n`, the exponent field running on past its end. -/
def magnitudeValue (n : ℕ) : ℚ :=
  if n / 2 ^ 23 = 0 then (n : ℚ) * 2 ^ (-149 : ℤ) else ((2 ^ 23 + n % 2 ^ 23 : ℕ) : ℚ) * 2 ^ (((n / 2 ^ 23 : ℕ) : ℤ) - 150)

/-- A larger magnitude is a larger number: the next pattern is one last place up, over a change of exponent too. -/
theorem magnitudeValue_strictMono : StrictMono magnitudeValue := by
  refine strictMono_nat_of_lt_succ fun n => ?_
  have hdouble : ∀ p : ℤ, (2 : ℚ) ^ (p + 1) = 2 * 2 ^ p := fun p => by rw [zpow_add_one₀ (by norm_num)]; ring
  unfold magnitudeValue
  by_cases hsub : n / 2 ^ 23 = 0
  · rw [if_pos hsub]
    by_cases hcarry : (n + 1) / 2 ^ 23 = 0
    · rw [if_pos hcarry]
      exact mul_lt_mul_of_pos_right (by push_cast; linarith) (by positivity)
    · have hn : n = 2 ^ 23 - 1 := by omega
      rw [if_neg hcarry, hn]
      norm_num
  · rw [if_neg hsub, if_neg (by omega)]
    by_cases hcarry : (n + 1) / 2 ^ 23 = n / 2 ^ 23
    · rw [hcarry]
      have : 2 ^ 23 + n % 2 ^ 23 < 2 ^ 23 + (n + 1) % 2 ^ 23 := by omega
      exact mul_lt_mul_of_pos_right (by exact_mod_cast this) (by positivity)
    · have h1 : (n + 1) / 2 ^ 23 = n / 2 ^ 23 + 1 := by omega
      have h2 : (n + 1) % 2 ^ 23 = 0 := by omega
      have h3 : n % 2 ^ 23 = 2 ^ 23 - 1 := by omega
      rw [h1, h2, h3, show ((n / 2 ^ 23 + 1 : ℕ) : ℤ) - 150 = ((n / 2 ^ 23 : ℕ) : ℤ) - 150 + 1 by push_cast; ring, hdouble]
      have : (0 : ℚ) < 2 ^ (((n / 2 ^ 23 : ℕ) : ℤ) - 150) := by positivity
      norm_num at this ⊢
      linarith

/-- The number of a key of `f32Key`. -/
def keyValue (k : ℤ) : ℚ := if k < 0 then -magnitudeValue k.natAbs else magnitudeValue k.natAbs

/-- The numbers are in the order of their keys. -/
theorem keyValue_strictMono : StrictMono keyValue := by
  refine strictMono_int_of_lt_succ fun k => ?_
  unfold keyValue
  by_cases hneg : k < 0
  · have hstep : magnitudeValue (k + 1).natAbs < magnitudeValue k.natAbs := magnitudeValue_strictMono (by omega)
    rw [if_pos hneg]
    split
    · linarith
    · have hlast : (k + 1).natAbs = 0 := by omega
      rw [hlast] at hstep ⊢
      have : magnitudeValue 0 = 0 := by norm_num [magnitudeValue]
      linarith
  · rw [if_neg hneg, if_neg (by omega)]
    exact magnitudeValue_strictMono (by omega)

/-- A signed magnitude gives the value of its key; both zeros have the key 0. -/
theorem keyValue_signed (s : Bool) (n : ℕ) : keyValue (signed s n) = (if s then -1 else 1) * magnitudeValue n := by
  have hzero : magnitudeValue 0 = 0 := by norm_num [magnitudeValue]
  unfold keyValue signed
  cases s with
  | false => simp
  | true =>
    by_cases h : n = 0
    · simp [h, hzero]
    · simp [Nat.pos_of_ne_zero h]

/-- The key of a pattern gives the number it stands for. -/
theorem f32Value_eq_keyValue (x : F32) : f32Value x = keyValue (f32Key x) := by
  have hlt := x.isLt
  have hexp : f32Mag x / 2 ^ 23 = x.toNat / 2 ^ 23 % 256 := by unfold f32Mag; omega
  have hfrac : f32Mag x % 2 ^ 23 = x.toNat % 2 ^ 23 := by unfold f32Mag; omega
  have hsign : (x.toNat / 2 ^ 31 = 0) ↔ f32Sign x = false := by
    unfold f32Sign; rw [decide_eq_false_iff_not]; omega
  have hmag : magnitudeValue (f32Mag x) = if x.toNat / 2 ^ 23 % 256 = 0 then ((x.toNat % 2 ^ 23 : ℕ) : ℚ) * 2 ^ (-149 : ℤ)
      else ((2 ^ 23 + x.toNat % 2 ^ 23 : ℕ) : ℚ) * 2 ^ (((x.toNat / 2 ^ 23 % 256 : ℕ) : ℤ) - 150) := by
    unfold magnitudeValue
    rw [hexp, hfrac]
    split
    · rw [show f32Mag x = x.toNat % 2 ^ 23 by omega]
    · rfl
  unfold f32Key
  rw [keyValue_signed, hmag]
  unfold f32Value
  simp only [hsign]
  cases f32Sign x <;> rfl

/-- Where a key stands among the numbers and the two infinities. -/
def keyPlace (k : ℤ) : WithBot (WithTop ℚ) :=
  if k ≤ -0x7F800000 then ⊥ else if 0x7F800000 ≤ k then ((⊤ : WithTop ℚ) : WithBot (WithTop ℚ))
  else ((keyValue k : WithTop ℚ) : WithBot (WithTop ℚ))

/-- Up to the infinities the places are in the order of the keys. -/
theorem keyPlace_strictMonoOn : StrictMonoOn keyPlace (Set.Icc (-0x7F800000) 0x7F800000) := by
  rintro j ⟨hjlow, _⟩ k ⟨_, hkhigh⟩ hjk
  have hj : ¬ 0x7F800000 ≤ j := by omega
  have hk : ¬ k ≤ -0x7F800000 := by omega
  unfold keyPlace
  rw [if_neg hk, if_neg hj]
  by_cases hbot : j ≤ -0x7F800000
  · rw [if_pos hbot]
    split <;> exact WithBot.bot_lt_coe _
  · rw [if_neg hbot]
    split
    · exact WithBot.coe_lt_coe.2 (WithTop.coe_lt_top _)
    · exact WithBot.coe_lt_coe.2 (WithTop.coe_lt_coe.2 (keyValue_strictMono hjk))

/-- A pattern that is no NaN has its key between those of the infinities and stands where its key does. -/
theorem f32Place_eq_keyPlace (x : F32) (h : ¬ IsNaN x) :
    f32Key x ∈ Set.Icc (-0x7F800000) 0x7F800000 ∧ f32Place x = keyPlace (f32Key x) := by
  have hlt := x.isLt
  unfold f32Place keyPlace
  by_cases hfin : x.toNat / 2 ^ 23 % 256 = 255
  · have hfrac : x.toNat % 2 ^ 23 = 0 := by
      by_contra hne
      exact h ⟨hfin, hne⟩
    have hmag : f32Mag x = 0x7F800000 := by unfold f32Mag; omega
    rw [if_neg (not_not.2 hfin), negative_eq]
    unfold f32Key
    rw [hmag]
    cases f32Sign x <;> simp [signed]
  · have hmag : f32Mag x < 0x7F800000 := by unfold f32Mag; omega
    have hkey : -0x7F800000 < f32Key x ∧ f32Key x < 0x7F800000 := by
      unfold f32Key signed; split <;> omega
    rw [if_pos hfin, if_neg (not_le.2 hkey.1), if_neg (not_le.2 hkey.2), f32Value_eq_keyValue]
    exact ⟨⟨hkey.1.le, hkey.2.le⟩, rfl⟩

/-- `f32IsNaN` answers whether the pattern is a NaN. -/
theorem f32IsNaN_iff (x : F32) : f32IsNaN x = true ↔ IsNaN x := by
  simp [f32IsNaN, IsNaN, f32Exp, f32Frac]

/-- The comparisons order the keys, and the keys the numbers and the infinities. -/
theorem f32Compare_orderLaw (a b : F32) : OrderLaw a b := by
  refine ⟨fun h => ?_, fun ha hb => ?_⟩
  · unfold f32Lt f32Ge
    rcases h with h | h <;> rw [(f32IsNaN_iff _).2 h] <;> simp
  · obtain ⟨hka, hpa⟩ := f32Place_eq_keyPlace a ha
    obtain ⟨hkb, hpb⟩ := f32Place_eq_keyPlace b hb
    have hna : f32IsNaN a = false := Bool.eq_false_iff.2 (mt (f32IsNaN_iff a).1 ha)
    have hnb : f32IsNaN b = false := Bool.eq_false_iff.2 (mt (f32IsNaN_iff b).1 hb)
    rw [hpa, hpb, keyPlace_strictMonoOn.lt_iff_lt hka hkb, keyPlace_strictMonoOn.le_iff_le hkb hka]
    simp [f32Lt, f32Ge, hna, hnb]

/-! ### Conversions -/

/-- `int_to_f32` is correctly rounded. -/
theorem intToF32_isRounded (i : ℤ) : IsRounded (i : ℝ) (decide (i < 0)) (intToF32 i) := by
  simpa [intToF32] using f32Round_int i 0

/-- The magnitude of a truncated number: the bits below place 0 are cut off. -/
theorem floor_significand (m : ℕ) (e : ℤ) :
    ⌊(m : ℚ) * 2 ^ e⌋ = ((if 0 ≤ e then m * 2 ^ e.toNat else m / 2 ^ (-e).toNat : ℕ) : ℤ) := by
  split
  · obtain ⟨j, rfl⟩ : ∃ j : ℕ, e = j := ⟨e.toNat, by omega⟩
    rw [zpow_natCast, Int.toNat_natCast, Int.floor_eq_iff]
    push_cast
    constructor <;> linarith
  · obtain ⟨j, rfl⟩ : ∃ j : ℕ, e = -j := ⟨(-e).toNat, by omega⟩
    rw [zpow_neg, zpow_natCast, neg_neg, Int.toNat_natCast, ← div_eq_mul_inv]
    exact_mod_cast Rat.floor_natCast_div_natCast m (2 ^ j)

/-- Truncation is toward zero for either sign. -/
theorem truncate_signed (s : Bool) (v : ℚ) (h : 0 ≤ v) : truncate ((if s then -1 else 1) * v) = if s then -⌊v⌋ else ⌊v⌋ := by
  unfold truncate
  cases s with
  | false => simp [h]
  | true =>
    simp only [if_true, neg_one_mul]
    split
    · have : v = 0 := by linarith
      simp [this]
    · exact Int.ceil_neg

/-- `f32_to_s32_rtz_sat` of a number truncates and saturates. -/
theorem f32ToS32_of_finite (a : F32) (ha : IsFinite a) :
    f32ToS32 a = min 2147483647 (max (-2147483648) (truncate (f32Value a))) := by
  obtain ⟨s, m, e, hva⟩ := view_of_finite a ha
  obtain ⟨_, _, hfa, _⟩ := view_fin a s m e hva
  have htrunc : truncate (f32Value a) = truncFin s m e := by
    rw [hfa, truncate_signed s _ (by positivity), floor_significand]
    rfl
  unfold f32ToS32
  rw [hva, htrunc]

/-- The conversions between integers and floats. -/
theorem f32Convert_conversionLaw (i : Int) (a : F32) : ConversionLaw i a := by
  refine ⟨intToF32_isRounded i, by decide, f32ToS32_of_finite a, fun h => ?_, by decide, by decide⟩
  unfold f32ToS32
  rw [(view_nan a).2 h]

/-- Settles O60: law by law, from what the view of each operand says. -/
theorem floatArithmeticLaws : Obligations.FloatArithmeticLaws := fun d i a b =>
  ⟨f32NaN_isQuietNaN d, f32Add_additionLaw d a b, f32Mul_productLaw d a b, f32Div_quotientLaw d a b,
    f32Sqrt_rootLaw d a, f32Neg_bits a, f32Compare_orderLaw a b, f32Convert_conversionLaw i a⟩

end Sys2Proof.Machine

/-! A decoded operation carries at most PAYLOAD_MAX configuration bytes (30_encoding.md R112, 46_audio_output.md R287). -/

namespace Sys2Proof
open Sys2Proof.Machine

/-! ### The configuration bytes of a decoded operation -/

/-- The configuration bytes an operation carries: the payload of a control message, the operand of AUD.CFG (R115, R287). -/
def Instr.configBytes : Instr → List Byte
  | .ctlSetMode pl | .ctlDecimatorConfig pl | .ctlChannelFilterConfig pl | .ctlDemodConfig pl | .ctlBasebandFirConfig pl
  | .ctlClockConfig pl | .ctlAudioConfig pl | .ctlSpectrumStart pl | .ctlSpectrumStop pl => pl
  | .audCfg bytes => bytes
  | _ => []

/-- Operands read from the command port: the configuration bytes of the operation are at most PAYLOAD_MAX. -/
def OperandsFit (p : Params) (o : Option Instr) : Prop := ∀ i, o = some i → i.configBytes.length ≤ payloadMax p

theorem operandsFit_some {p : Params} {i : Instr} (h : i.configBytes.length ≤ payloadMax p) : OperandsFit p (some i) :=
  fun _ hi => Option.some.inj hi ▸ h

/-- An operation without configuration bytes fits. -/
theorem operandsFit_pure {p : Params} {i : Instr} (h : i.configBytes = []) : OperandsFit p (pure i) :=
  operandsFit_some (by simp [h])

/-- Reading one more operand first does not matter. -/
theorem operandsFit_bind {p : Params} {α : Type} {o : Option α} {f : α → Option Instr} (h : ∀ x, OperandsFit p (f x)) :
    OperandsFit p (o >>= f) := fun i hi => by
  obtain ⟨x, -, hx⟩ := Option.bind_eq_some_iff.1 hi
  exact h x i hx

/-- AUD.CFG is the one unit operation with configuration bytes, and its reader refuses more than PAYLOAD_MAX (R287). -/
theorem operandsFit_opAudCfg (p : Params) (r : List Byte) : OperandsFit p (opAudCfg p r) := by
  refine operandsFit_bind fun ⟨bytes, _⟩ => ?_
  dsimp only
  split
  · exact operandsFit_some ‹_›
  · intro _ hi; cases hi

/-- Apart from AUD.CFG, the codes of R125 name operations without configuration bytes; an unassigned code names none. -/
theorem decodeCode_configBytes_le (p : Params) (code : Byte) (r : List Byte) (i : Instr) (h : decodeCode p code r = .ok i) :
    i.configBytes.length ≤ payloadMax p := by
  have bare : ∀ j : Instr, j.configBytes = [] → Decoded.ok j = .ok i → i.configBytes.length ≤ payloadMax p :=
    fun j hj e => Decoded.ok.inj e ▸ by simp [hj]
  have read : ∀ o, OperandsFit p o → withOperands code o = .ok i → i.configBytes.length ≤ payloadMax p := by
    rintro (_ | j) hj e
    · cases e
    · exact hj i (congrArg some (Decoded.ok.inj e))
  revert h
  unfold decodeCode
  split
  case h_38 => exact fun e => Decoded.noConfusion e
  any_goals exact bare _ rfl
  all_goals refine read _ ?_
  any_goals exact operandsFit_opAudCfg p r
  all_goals repeat refine operandsFit_bind fun _ => ?_
  all_goals exact operandsFit_pure rfl

/-- The operation of a message kind carries no more than the payload. -/
theorem decodeKind_configBytes_le (kind : Byte) (payload : List Byte) (i : Instr) (h : decodeKind kind payload = .ok i) :
    i.configBytes.length ≤ payload.length := by
  unfold decodeKind at h
  split at h <;> cases h <;> simp [Instr.configBytes]

/-- No decoded operation carries more configuration bytes than PAYLOAD_MAX (R112, R287). -/
theorem decode_configBytes_le (p : Params) (m : Move) (i : Instr) (h : decode p m = .ok i) :
    i.configBytes.length ≤ payloadMax p := by
  unfold decode at h
  split at h
  · unfold decodeCmd at h
    split at h
    · cases h
    · exact decodeCode_configBytes_le p _ _ i h
  · unfold decodeMsg at h
    split at h
    · cases h
    · dsimp only at h
      split at h
      · cases h
      · rename_i hlen
        split at h
        · cases h
        · have hpayload := decodeKind_configBytes_le _ _ i h
          rw [List.length_take] at hpayload
          omega
    · cases h
end Sys2Proof

/-! Every step keeps the block healthy (10_state.md R42 to R63; 40_message_channel.md R152; 45_spectrum_collector.md R274). -/

namespace Sys2Proof.Machine
open Sys2Proof

/-! ### What a step can do -/

/-- An operation with a precondition has a next state only where the precondition holds (00_scope.md R17). -/
theorem guarded_next_iff (c : Prop) [Decidable c] (a : Result) (r : Refusal) (t : State) :
    (if c then a else .refused r) = .next t ↔ c ∧ a = .next t := by
  by_cases hc : c <;> simp [hc]

/-- A decoded operation is run, or passed over where it is not enabled (log entry 11). -/
theorem runInstr_next_cases {i : Instr} {s t : State} (h : runInstr i s = .next t) : t = s ∨ exec i s = .next t := by
  unfold runInstr at h
  split at h
  · exact .inl (by cases h; rfl)
  · rename_i he
    exact .inr (he.trans h)
  · cases h
  · cases h

/-- Bytes that are no operation at most raise UnknownKind (30_encoding.md R131, 48_top_level.md R327). -/
theorem runRejected_next_cases {e : DecodeError} {s t : State} (h : runRejected e s = .next t) :
    t = s ∨ t = s.raise .unknownKind := by
  cases e with
  | unassignedCode => exact .inl (by cases h; rfl)
  | unknownKind => exact .inr (by cases h; rfl)
  | empty | malformedMessage | truncatedMessage | badOperands => cases h

/-- Everything a step can do: idle, pass a move over, raise UnknownKind for it, or run the operation it decodes to. -/
theorem step_cases {s t : State} (h : step s = .next t) :
    t = s ∨ ∃ m rest, s.agenda = m :: rest ∧
      (t = { s with agenda := rest } ∨ t = ({ s with agenda := rest } : State).raise .unknownKind
        ∨ ∃ i, decode s.params m = .ok i ∧ exec i { s with agenda := rest } = .next t) := by
  cases hagenda : s.agenda with
  | nil =>
    rw [step_nil s hagenda] at h
    exact .inl (by cases h; rfl)
  | cons m rest =>
    rw [step_cons s m rest hagenda] at h
    refine .inr ⟨m, rest, rfl, ?_⟩
    cases hdecode : decode s.params m with
    | ok i =>
      rw [hdecode] at h
      exact (runInstr_next_cases h).imp_right fun he => .inr ⟨i, rfl, he⟩
    | reject e =>
      rw [hdecode] at h
      exact (runRejected_next_cases h).imp_right .inl

/-! ### Every operation keeps the invariant -/

theorem State.Inv.of_done {s t : State} {r : Ret} (h : s.Inv) (hdone : done r s = .next t) : t.Inv := by
  rw [(done_next_iff r s t).1 hdone]
  exact h.keeps_ret r

theorem State.Inv.of_guarded {s t : State} {c : Prop} [Decidable c] {r : Ret} {refusal : Refusal} (h : c → s.Inv)
    (hnext : (if c then done r s else .refused refusal) = .next t) : t.Inv := by
  obtain ⟨hc, hdone⟩ := (guarded_next_iff _ _ _ _).1 hnext
  exact (h hc).of_done hdone

/-- SPC.RESET clears the slot's valid bit and EVT together (R256). -/
theorem State.Inv.keeps_spcReset {s : State} (h : s.Inv) :
    ({ s with spc := SpectrumUnit.powerOn, slot := SlotRegs.powerOn, evt := 0 } : State).Inv :=
  { h with
    event := rfl
    spc := ⟨List.length_replicate, List.length_replicate, fun hs => Bool.noConfusion hs, fun _ => ⟨rfl, rfl⟩⟩
    bins := List.length_replicate }

/-- The meaning of each operation keeps the invariant, where the bytes it is to store fit PAYLOAD_MAX. -/
theorem exec_keeps_inv {i : Instr} {s t : State} (h : s.Inv) (hfit : i.configBytes.length ≤ payloadMax s.params)
    (hexec : exec i s = .next t) : t.Inv := by
  cases i with
  | ctlSetMode pl => exact (h.keeps_handle 0x01 pl hfit).of_done hexec
  | ctlDecimatorConfig pl => exact (h.keeps_handle 0x02 pl hfit).of_done hexec
  | ctlChannelFilterConfig pl => exact (h.keeps_handle 0x03 pl hfit).of_done hexec
  | ctlDemodConfig pl => exact (h.keeps_handle 0x04 pl hfit).of_done hexec
  | ctlBasebandFirConfig pl => exact (h.keeps_handle 0x05 pl hfit).of_done hexec
  | ctlClockConfig pl => exact (h.keeps_handle 0x06 pl hfit).of_done hexec
  | ctlAudioConfig pl => exact (h.keeps_handle 0x07 pl hfit).of_done hexec
  | ctlSpectrumStart pl => exact (h.keeps_handle 0x08 pl hfit).of_done hexec
  | ctlSpectrumStop pl => exact (h.keeps_handle 0x09 pl hfit).of_done hexec
  | resStatistics pl => exact .of_guarded (fun _ => h.keeps_send .b2a 0x81 pl) hexec
  | resPacket pl => exact .of_guarded (fun _ => h.keeps_send .b2a 0x82 pl) hexec
  | resSpectrumReady pl => exact .of_guarded (fun _ => h.keeps_send .b2a 0x83 pl) hexec
  | mfcSend c kind pl => exact (h.keeps_send c kind pl).of_done hexec
  | mfcRecv c => exact (h.keeps_recv c).of_done hexec
  | mfcSync c sel => exact (h.keeps_setChan c _ ((h.keeps_chanOk c).sync sel)).of_done hexec
  | pfdReset n => exact (h.keeps_setPfd n _ .reset).of_done hexec
  | pfdCfg n d t taps => exact (h.keeps_pfdCfg n d t taps).of_done hexec
  | pfdExec n b => exact .of_guarded (h.keeps_pfdExec n b) hexec
  | bpfReset => exact (h.keeps_bpf _ (.reset s.bpf)).of_done hexec
  | bpfCfg d t pass stop taps => exact (h.keeps_bpfCfg d t pass stop taps).of_done hexec
  | bpfExec b => exact .of_guarded (h.keeps_bpfExec b) hexec
  | fbfReset => exact (h.keeps_fbf _ .reset).of_done hexec
  | fbfCfg t taps => exact (h.keeps_fbfCfg t taps).of_done hexec
  | fbfExec b => exact (h.keeps_fbfExec b).of_done hexec
  | amdReset | amdCfg => exact (h.keeps_amd _).of_done hexec
  | amdExec b => exact (h.keeps_amdExec b).of_done hexec
  | fmdReset | fmdCfg => exact (h.keeps_fmd _).of_done hexec
  | fmdExec b => exact (h.keeps_fmdExec b).of_done hexec
  | strReset => exact (h.keeps_str _ .powerOn).of_done hexec
  | strCfg sr sy g => exact (h.keeps_strCfg sr sy g).of_done hexec
  | strPush x => exact .of_guarded (h.keeps_strPush x) hexec
  | pktReset => exact (h.keeps_pkt _ (.reset h.pkt)).of_done hexec
  | pktPush bit err => exact (h.keeps_pktPush bit err).of_done hexec
  | spcReset => exact h.keeps_spcReset.of_done hexec
  | spcStart k => exact (h.keeps_spcStart k).of_done hexec
  | spcFeed b pass stop => exact (h.keeps_spcFeed b pass stop).of_done hexec
  | spcStop => exact (h.keeps_spc _ (.stop h.spc)).of_done hexec
  | spcUpdate => exact .of_guarded (fun _ => h.keeps_spcUpdate) hexec
  | spcDrain => exact h.keeps_spcDrain.of_done hexec
  | audReset => exact (h.keeps_aud _ (.reset h.aud h.keeps_blk)).of_done hexec
  | audCfg bytes => exact (h.keeps_aud _ (.config h.aud hfit)).of_done hexec
  | audExec b => exact (h.keeps_audExec b).of_done hexec
  | manDecode bits sense => exact .of_guarded (fun _ => h) hexec
  | topReset => exact h.keeps_hardReset.of_done hexec
  | topDispatch => exact h.keeps_dispatch.of_done hexec
  | topBuffer raw => exact .of_guarded (fun _ => h.keeps_topBuffer raw) hexec
  | topStats => exact h.keeps_topStats.of_done hexec

/-- Settles O8, case by case of what a step can do. -/
theorem stepsKeepHealth : Obligations.StepsKeepHealth := by
  intro s t h hstep
  obtain rfl | ⟨m, rest, -, rfl | rfl | ⟨i, hdecode, hexec⟩⟩ := step_cases hstep
  · exact h
  · exact h.keeps_agenda rest
  · exact (h.keeps_agenda rest).keeps_raise .unknownKind
  · exact exec_keeps_inv (h.keeps_agenda rest) (decode_configBytes_le s.params m i hdecode) hexec

end Sys2Proof.Machine

/-! Which control registers an operation may write, and that no operation but the reset input clears an ERRSTAT bit
(10_state.md R43, R44, R70; 60_exceptions.md R356). -/

namespace Sys2Proof.Machine
open Sys2Proof

/-- The control registers whose writers 10_state.md R43 and R70 name: TOP.mode, TOP.buf_count, and the registers of STR. -/
inductive ControlReg
  | mode
  | bufCount
  | str

/-- From `s` to `t` no ERRSTAT bit is cleared, and of the control registers at most those in `w` are written. -/
structure State.Frame (w : Set ControlReg) (s t : State) : Prop where
  errors : ∀ k, s.errstat.getLsbD k = true → t.errstat.getLsbD k = true
  mode : .mode ∉ w → t.mode = s.mode
  bufCount : .bufCount ∉ w → t.bufCount = s.bufCount
  str : .str ∉ w → t.str = s.str

namespace State.Frame

variable {w v : Set ControlReg} {s t u : State}

/-! ### Composing frames -/

theorem refl (s : State) : Frame w s s := ⟨fun _ h => h, fun _ => rfl, fun _ => rfl, fun _ => rfl⟩

theorem trans (h : Frame w s t) (h' : Frame w t u) : Frame w s u :=
  ⟨fun k hk => h'.errors k (h.errors k hk), fun hw => (h'.mode hw).trans (h.mode hw),
    fun hw => (h'.bufCount hw).trans (h.bufCount hw), fun hw => (h'.str hw).trans (h.str hw)⟩

theorem mono (h : Frame v s t) (hvw : v ⊆ w) : Frame w s t :=
  ⟨h.errors, fun hw => h.mode fun hv => hw (hvw hv), fun hw => h.bufCount fun hv => hw (hvw hv),
    fun hw => h.str fun hv => hw (hvw hv)⟩

theorem of_eq (errstat : t.errstat = s.errstat) (mode : t.mode = s.mode) (bufCount : t.bufCount = s.bufCount)
    (str : t.str = s.str) : Frame w s t :=
  ⟨fun _ hk => errstat.symm ▸ hk, fun _ => mode, fun _ => bufCount, fun _ => str⟩

theorem foldl {α : Type} {f : State → α → State} (hf : ∀ s x, Frame w s (f s x)) (xs : List α) (s : State) :
    Frame w s (xs.foldl f s) := by
  induction xs generalizing s with
  | nil => exact refl s
  | cons x xs ih => exact (hf s x).trans (ih _)

theorem of_done {r : Ret} (h : Frame w s t) (hdone : done r t = .next u) : Frame w s u := by
  rw [(done_next_iff r t u).1 hdone]
  exact h.trans (of_eq rfl rfl rfl rfl)

theorem of_guarded {c : Prop} [Decidable c] {r : Ret} {refusal : Refusal} (h : Frame w s t)
    (hnext : (if c then done r t else .refused refusal) = .next u) : Frame w s u :=
  h.of_done ((guarded_next_iff _ _ _ _).1 hnext).2

/-! ### The shared operations -/

/-- The error entry sets a bit and clears none (60_exceptions.md R341, R356). -/
theorem raise (s : State) (x : ErrCond) : Frame w s (s.raise x) :=
  ⟨fun k hk => by simp [errBits, hk], fun _ => rfl, fun _ => rfl, fun _ => rfl⟩

theorem setChan (s : State) (c : Chan) (x : ChannelRegs) : Frame w s (s.setChan c x) :=
  of_eq (by simp) (by simp) (by simp) (by simp)

theorem setPfd (s : State) (i : Fin 3) (f : FirUnit) : Frame w s (s.setPfd i f) :=
  of_eq (by simp) (by simp) (by simp) (by simp)

theorem send (s : State) (c : Chan) (kind : Byte) (pl : List Byte) : Frame w s (s.send c kind pl).1 := by
  rcases s.send_cases c kind pl with ⟨_, e⟩ | ⟨_, _, e⟩ | ⟨_, _, e⟩ <;> rw [e]
  · exact refl s
  · dsimp only
    split
    · exact raise s _
    · exact refl s
  · refine trans ?_ (setChan _ c _)
    exact of_eq rfl rfl rfl rfl

theorem rxMalformed (s : State) (c : Chan) : Frame w s (s.rxMalformed c) := by
  cases c with
  | a2b => exact (setChan s .a2b _).trans (raise _ _)
  | b2a => exact setChan s .b2a _

theorem recv (s : State) (c : Chan) : Frame w s (s.recv c).1 := by
  rcases s.recv_cases c with ⟨e, _⟩ | ⟨_, _, _, e⟩ | ⟨_, _, _, e⟩ <;> rw [e]
  · exact refl s
  · exact rxMalformed s c
  · exact setChan s c _

/-! ### The units -/

/-- A configuration is stored, or rejected with its error bit (60_exceptions.md R343). -/
theorem ite_raise {c : Prop} [Decidable c] {x : ErrCond} (h : Frame w s t) : Frame w s (if c then t else s.raise x) := by
  split
  · exact h
  · exact raise s x

theorem pfdCfg (s : State) (i : Fin 3) (d t : Byte) (taps : List Half) : Frame w s (s.pfdCfg i d t taps) :=
  ite_raise (setPfd s i _)

theorem pfdExec (s : State) (i : Fin 3) (b : C16Buf) : Frame w s (s.pfdExec i b) := setPfd s i _

theorem bpfCfg (s : State) (d t : Byte) (pass stop : Word) (taps : List Half) : Frame w s (s.bpfCfg d t pass stop taps) :=
  ite_raise (of_eq rfl rfl rfl rfl)

theorem bpfExec (s : State) (b : C16Buf) : Frame w s (s.bpfExec b) := of_eq rfl rfl rfl rfl

theorem fbfCfg (s : State) (t : Byte) (taps : List F32) : Frame w s (s.fbfCfg t taps) := ite_raise (of_eq rfl rfl rfl rfl)

theorem fbfExec (s : State) (b : F32Buf) : Frame w s (s.fbfExec b) := of_eq rfl rfl rfl rfl

theorem amdExec (s : State) (b : C16Buf) : Frame w s (s.amdExec b) := of_eq rfl rfl rfl rfl

theorem fmdExec (s : State) (b : C16Buf) : Frame w s (s.fmdExec b) := of_eq rfl rfl rfl rfl

/-- An operation of STR writes STR only. -/
theorem writesStr (s : State) (x : ClockUnit) (d : Nat) : Frame {.str} s { s with str := x, draws := d } :=
  ⟨fun _ hk => hk, fun _ => rfl, fun _ => rfl, fun hw => absurd rfl hw⟩

theorem strCfg (s : State) (sr sy : Word) (g : F32) : Frame {.str} s (s.strCfg sr sy g) := ite_raise (writesStr s _ s.draws)

theorem strPush (s : State) (x : F32) : Frame {.str} s (s.strPush x).1 := writesStr s _ _

theorem pktPush (s : State) (bit err : Bool) : Frame w s (s.pktPush bit err).1 := by
  unfold State.pktPush
  dsimp only
  split
  · exact (raise s _).trans (of_eq rfl rfl rfl rfl)
  · exact of_eq rfl rfl rfl rfl

theorem spcStart (s : State) (k : Half) : Frame w s (s.spcStart k).1 := by
  unfold State.spcStart
  split
  · exact raise s _
  · exact of_eq rfl rfl rfl rfl

theorem spcFeed (s : State) (b : C16Buf) (pass stop : Word) : Frame w s (s.spcFeed b pass stop) := of_eq rfl rfl rfl rfl

theorem spcUpdate (s : State) : Frame w s s.spcUpdate := of_eq rfl rfl rfl rfl

theorem spcDrain (s : State) : Frame w s s.spcDrain.1 := by
  unfold State.spcDrain
  split
  · dsimp only
    split <;> exact of_eq rfl rfl rfl rfl
  · exact refl s

theorem audStep (rate : Word) (s : State) (x : F32) : Frame w s (s.audStep rate x) := of_eq rfl rfl rfl rfl

theorem audExec (s : State) (b : F32Buf) : Frame w s (s.audExec b) :=
  foldl (audStep b.rate) b.data s

/-! ### The control messages -/

/-- A mode change installs the mode and resets the units, STR among them (48_top_level.md R312). -/
theorem ctlSetMode (s : State) (pl : List Byte) : Frame {.mode, .str} s (s.ctlSetMode pl) := by
  unfold State.ctlSetMode
  split
  · exact raise s _
  · exact ⟨fun _ hk => hk, fun hw => absurd (by simp) hw, fun _ => rfl, fun hw => absurd (by simp) hw⟩

theorem ctlDecimator (s : State) (pl : List Byte) : Frame w s (s.ctlDecimator pl) := by
  unfold State.ctlDecimator
  split
  · exact raise s _
  · split
    · exact pfdCfg s _ _ _ _
    · exact raise s _

theorem ctlChannelFilter (s : State) (pl : List Byte) : Frame w s (s.ctlChannelFilter pl) := by
  unfold State.ctlChannelFilter
  split
  · exact raise s _
  · exact bpfCfg s _ _ _ _ _

theorem ctlDemod (s : State) (pl : List Byte) : Frame w s (s.ctlDemod pl) := by
  unfold State.ctlDemod
  split
  · exact raise s _
  · exact of_eq rfl rfl rfl rfl

theorem ctlBaseband (s : State) (pl : List Byte) : Frame w s (s.ctlBaseband pl) := by
  unfold State.ctlBaseband
  split
  · exact raise s _
  · exact fbfCfg s _ _

theorem ctlClock (s : State) (pl : List Byte) : Frame {.str} s (s.ctlClock pl) := by
  unfold State.ctlClock
  split
  · exact raise s _
  · exact strCfg s _ _ _

theorem ctlAudio (s : State) (pl : List Byte) : Frame w s (s.ctlAudio pl) := of_eq rfl rfl rfl rfl

theorem ctlSpectrumStart (s : State) (pl : List Byte) : Frame w s (s.ctlSpectrumStart pl) := by
  unfold State.ctlSpectrumStart
  split
  · exact raise s _
  · rename_i k _
    split
    · exact (spcStart s k).trans (send _ _ _ _)
    · exact spcStart s k

theorem ctlSpectrumStop (s : State) (pl : List Byte) : Frame w s (s.ctlSpectrumStop pl) := ite_raise (of_eq rfl rfl rfl rfl)

/-- Of the control messages only CTL_SET_MODE and CTL_CLOCK_CONFIG write control registers. -/
theorem handle (s : State) (kind : Byte) (pl : List Byte) : Frame {.mode, .str} s (s.handle kind pl) := by
  unfold State.handle
  split
  · exact ctlSetMode s pl
  · exact ctlDecimator s pl
  · exact ctlChannelFilter s pl
  · exact ctlDemod s pl
  · exact ctlBaseband s pl
  · exact (ctlClock s pl).mono (by simp)
  · exact ctlAudio s pl
  · exact ctlSpectrumStart s pl
  · exact ctlSpectrumStop s pl
  · exact raise s _

/-! ### The top level -/

theorem dispatch (s : State) : Frame {.mode, .str} s s.dispatch.1 := by
  have hrecv : Frame {.mode, .str} s (s.recv .a2b).1 := recv s .a2b
  unfold State.dispatch
  split <;> rename_i e <;> rw [e] at hrecv
  · exact hrecv
  · exact hrecv.trans (handle _ _ _)

theorem drainControl (n : Nat) (s : State) : Frame {.mode, .str} s (s.drainControl n) := by
  induction n generalizing s with
  | zero => exact refl s
  | succ n ih =>
    have hdispatch := dispatch s
    unfold State.drainControl
    split <;> rename_i e <;> rw [e] at hdispatch
    · exact hdispatch
    · exact hdispatch.trans (ih _)

theorem frontChain (s : State) (raw : List C8) : Frame w s (s.frontChain raw) :=
  (((pfdExec s 0 _).trans (pfdExec _ 1 _)).trans (pfdExec _ 2 _)).trans (bpfExec _ _)

theorem sendPacket (s : State) (o : Option (List Bool)) : Frame w s (s.sendPacket o) := by
  cases o with
  | none => exact refl s
  | some bits => exact send s _ _ _

theorem pushSymbol (s : State) (o : Option F32) : Frame w s (s.pushSymbol o) := by
  cases o with
  | none => exact refl s
  | some x => exact (pktPush s (slice x) false).trans (sendPacket _ _)

theorem pushSample (s : State) (x : F32) : Frame {.str} s (s.pushSample x) := (strPush s x).trans (pushSymbol _ _)

theorem backChain (s : State) : Frame {.str} s s.backChain := by
  unfold State.backChain
  split
  · exact refl s
  · exact (amdExec s _).trans (audExec _ _)
  · exact (fmdExec s _).trans (audExec _ _)
  · exact ((fmdExec s _).trans (fbfExec _ _)).trans (foldl pushSample _ _)

theorem processRaw (s : State) (raw : List C8) : Frame {.str} s (s.processRaw raw) :=
  ((frontChain s raw).trans (spcFeed _ _ _ _)).trans (backChain _)

theorem consume (s : State) (raw : List C8) : Frame {.str} s (s.consume raw) := by
  unfold State.consume
  split
  · exact processRaw s raw
  · exact refl s

/-- TOP.STATS writes TOP.buf_count, and a send that finds no room adds TxOverflow (48_top_level.md R317). -/
theorem topStats (s : State) : Frame {.bufCount} s s.topStats := by
  have count : ∀ (t : State) (n : Word), Frame {.bufCount} t { t with bufCount := n } := fun t n =>
    ⟨fun _ hk => hk, fun _ => rfl, fun hw => absurd rfl hw, fun _ => rfl⟩
  unfold State.topStats
  dsimp only
  split
  · exact (((count s _).trans (send _ .b2a _ _)).trans (count _ 0)).trans (of_eq rfl rfl rfl rfl)
  · exact count s _

theorem topBuffer (s : State) (raw : List C8) : Frame {.mode, .bufCount, .str} s (s.topBuffer raw) :=
  (((drainControl _ s).mono (by simp)).trans ((consume _ raw).mono (by simp))).trans ((topStats _).mono (by simp))

end State.Frame

/-! ### Every operation but the reset input -/

/-- The operations other than TOP.RESET that may write a control register (R43, R70; 48_top_level.md R312 to R317). -/
def MayWrite (i : Instr) : ControlReg → Prop
  | .mode => (∃ pl, i = .ctlSetMode pl) ∨ i = .topDispatch ∨ ∃ raw, i = .topBuffer raw
  | .bufCount => i = .topStats ∨ ∃ raw, i = .topBuffer raw
  | .str =>
    i = .strReset ∨ (∃ sr sy g, i = .strCfg sr sy g) ∨ (∃ x, i = .strPush x) ∨ (∃ pl, i = .ctlSetMode pl)
      ∨ (∃ pl, i = .ctlClockConfig pl) ∨ i = .topDispatch ∨ ∃ raw, i = .topBuffer raw

/-- The frame of each operation's meaning: the ERRSTAT bits grow, and of the control registers it writes at most its own. -/
theorem exec_frame {i : Instr} {s t : State} (hexec : exec i s = .next t) (hreset : i ≠ .topReset) :
    State.Frame {r | MayWrite i r} s t := by
  cases i with
  | ctlSetMode pl => exact ((State.Frame.ctlSetMode s pl).mono (by simp [Set.insert_subset_iff, MayWrite])).of_done hexec
  | ctlDecimatorConfig pl => exact (State.Frame.ctlDecimator s pl).of_done hexec
  | ctlChannelFilterConfig pl => exact (State.Frame.ctlChannelFilter s pl).of_done hexec
  | ctlDemodConfig pl => exact (State.Frame.ctlDemod s pl).of_done hexec
  | ctlBasebandFirConfig pl => exact (State.Frame.ctlBaseband s pl).of_done hexec
  | ctlClockConfig pl => exact ((State.Frame.ctlClock s pl).mono (by simp [MayWrite])).of_done hexec
  | ctlAudioConfig pl => exact (State.Frame.ctlAudio s pl).of_done hexec
  | ctlSpectrumStart pl => exact (State.Frame.ctlSpectrumStart s pl).of_done hexec
  | ctlSpectrumStop pl => exact (State.Frame.ctlSpectrumStop s pl).of_done hexec
  | resStatistics pl => exact (State.Frame.send s .b2a 0x81 pl).of_guarded hexec
  | resPacket pl => exact (State.Frame.send s .b2a 0x82 pl).of_guarded hexec
  | resSpectrumReady pl => exact (State.Frame.send s .b2a 0x83 pl).of_guarded hexec
  | mfcSend c kind pl => exact (State.Frame.send s c kind pl).of_done hexec
  | mfcRecv c => exact (State.Frame.recv s c).of_done hexec
  | mfcSync c sel => exact (State.Frame.setChan s c _).of_done hexec
  | pfdReset n => exact (State.Frame.setPfd s n _).of_done hexec
  | pfdCfg n d t taps => exact (State.Frame.pfdCfg s n d t taps).of_done hexec
  | pfdExec n b => exact (State.Frame.pfdExec s n b).of_guarded hexec
  | bpfCfg d t pass stop taps => exact (State.Frame.bpfCfg s d t pass stop taps).of_done hexec
  | bpfExec b => exact (State.Frame.bpfExec s b).of_guarded hexec
  | fbfCfg t taps => exact (State.Frame.fbfCfg s t taps).of_done hexec
  | fbfExec b => exact (State.Frame.fbfExec s b).of_done hexec
  | amdExec b => exact (State.Frame.amdExec s b).of_done hexec
  | fmdExec b => exact (State.Frame.fmdExec s b).of_done hexec
  | strReset => exact ((State.Frame.writesStr s _ s.draws).mono (by simp [MayWrite])).of_done hexec
  | strCfg sr sy g => exact ((State.Frame.strCfg s sr sy g).mono (by simp [MayWrite])).of_done hexec
  | strPush x => exact ((State.Frame.strPush s x).mono (by simp [MayWrite])).of_guarded hexec
  | pktPush bit err => exact (State.Frame.pktPush s bit err).of_done hexec
  | spcStart k => exact (State.Frame.spcStart s k).of_done hexec
  | spcFeed b pass stop => exact (State.Frame.spcFeed s b pass stop).of_done hexec
  | spcUpdate => exact (State.Frame.spcUpdate s).of_guarded hexec
  | spcDrain => exact (State.Frame.spcDrain s).of_done hexec
  | audExec b => exact (State.Frame.audExec s b).of_done hexec
  | manDecode bits sense => exact (State.Frame.refl s).of_guarded hexec
  | bpfReset | fbfReset | amdReset | amdCfg | fmdReset | fmdCfg | pktReset | spcReset | spcStop | audReset | audCfg =>
    refine State.Frame.of_done ?_ hexec
    exact .of_eq rfl rfl rfl rfl
  | topReset => exact absurd rfl hreset
  | topDispatch => exact ((State.Frame.dispatch s).mono (by simp [Set.insert_subset_iff, MayWrite])).of_done hexec
  | topBuffer raw => exact ((State.Frame.topBuffer s raw).mono (by simp [Set.insert_subset_iff, MayWrite])).of_guarded hexec
  | topStats => exact ((State.Frame.topStats s).mono (by simp [MayWrite])).of_done hexec

/-- Settles O11. -/
theorem errorsAreSticky : Obligations.ErrorsAreSticky :=
  fun _ _ _ hexec hreset => (exec_frame hexec hreset).errors

/-- Settles O13: each clause shuts out the operations that may write its register. -/
theorem registerWriters : Obligations.RegisterWriters := by
  intro i s t hexec hreset hbuffer
  have hframe := exec_frame hexec hreset
  refine ⟨fun hset hdispatch => hframe.mode ?mode, fun hstats => hframe.bufCount ?count,
    fun hstr hcfg hpush hset hclock hdispatch => hframe.str ?str⟩
  case mode =>
    rintro (⟨pl, e⟩ | e | ⟨raw, e⟩)
    exacts [hset pl e, hdispatch e, hbuffer raw e]
  case count =>
    rintro (e | ⟨raw, e⟩)
    exacts [hstats e, hbuffer raw e]
  case str =>
    rintro (e | ⟨sr, sy, g, e⟩ | ⟨x, e⟩ | ⟨pl, e⟩ | ⟨pl, e⟩ | e | ⟨raw, e⟩)
    exacts [hstr e, hcfg sr sy g e, hpush x e, hset pl e, hclock pl e, hdispatch e, hbuffer raw e]

end Sys2Proof.Machine

/-! A ring that holds whole messages is a queue (20_memory.md R91; 40_message_channel.md R155, R158, R161). -/

namespace Sys2Proof.Machine
open Sys2Proof

/-! ### What the operations of MFC answer on such a ring -/

/-- What an operation returns is no part of a ring. -/
theorem State.Holds.with_ret {s : State} {c : Chan} {vis hid : List Message} (h : s.Holds c vis hid) (r : Ret) :
    ({ s with ret := r } : State).Holds c vis hid :=
  h.of_same rfl (by cases c <;> rfl) rfl

/-- MFC.SEND of a well-formed message that fits is accepted (R153). -/
theorem exec_mfcSend_accepted {s : State} {c : Chan} {kind : Byte} {payload : List Byte} (hsend : Sendable s (kind, payload))
    (hfits : Fits s c (kind, payload)) :
    exec (.mfcSend c kind payload) s = .next { s.sent c kind payload with ret := .bool true } := by
  have haccept := s.send_sent c kind payload ((badMessage_false _ _ _).2 hsend) ((noRoom_false _ _ _).2 hfits)
  show done (.bool (s.send c kind payload).2) (s.send c kind payload).1 = _
  rw [haccept, done]

/-- MFC.RECV takes the oldest visible message and moves the read cursor past it (R155). -/
theorem exec_mfcRecv_cons {s : State} {c : Chan} {kind : Byte} {payload : List Byte} {vis hid : List Message}
    (h : s.Holds c ((kind, payload) :: vis) hid) :
    exec (.mfcRecv c) s = .next { s.received c payload.length with ret := .message kind payload } := by
  show done (recvRet (s.recv c).2) (s.recv c).1 = _
  rw [h.recv_cons, done, recvRet]

/-- MFC.RECV returns none where no message is visible (R155). -/
theorem exec_mfcRecv_nil {s : State} {c : Chan} {hid : List Message} (h : s.Holds c [] hid) :
    exec (.mfcRecv c) s = .next { s with ret := .none } := by
  show done (recvRet (s.recv c).2) (s.recv c).1 = _
  rw [h.recv_nil, done, recvRet]

/-- Settles O18: each clause is what its operation does to a ring that holds `vis` and `hid`. -/
theorem ringIsQueue : Obligations.RingIsQueue := by
  intro s c vis hid hparams h
  refine ⟨fun kind payload hsend hfits => ?send, fun kind payload vis' hvis => ?recv, fun hvis => ?empty,
    ⟨_, rfl, h.sync_both.with_ret _⟩, ⟨_, rfl, h.sync_w.with_ret _⟩, ⟨_, rfl, h.sync_r.with_ret _⟩⟩
  case send =>
    have hholds := h.sent hparams kind payload ((badMessage_false _ _ _).2 hsend) ((noRoom_false _ _ _).2 hfits)
    exact ⟨_, exec_mfcSend_accepted hsend hfits, rfl, hholds.with_ret _⟩
  case recv =>
    subst hvis
    exact ⟨_, exec_mfcRecv_cons h, rfl, (h.received hparams).with_ret _, rfl⟩
  case empty =>
    subst hvis
    exact exec_mfcRecv_nil h

end Sys2Proof.Machine

/-! The shared region as APP reads it (20_memory.md R80, R87). -/

namespace Sys2Proof.Machine
open Sys2Proof

/-! ### Reading bytes and words -/

/-- One byte. -/
theorem State.memRead_one {s : State} {off : Nat} {b : Byte} (h : s.shmByte off = some b) :
    s.memRead off 1 = .ok b.toNat := by
  simp [State.memRead, h]

/-- A byte outside the region (log entry 14). -/
theorem State.memRead_outside {s : State} {off : Nat} (h : s.shmByte off = none) :
    s.memRead off 1 = .error (.noSuchAddress off) := by
  simp [State.memRead, h]

/-- A run of zero bytes. -/
theorem State.memRead_zeros {s : State} (n : Nat) : ∀ off, (∀ i, i < n → s.shmByte (off + i) = some 0) →
    s.memRead off n = .ok 0 := by
  induction n with
  | zero => exact fun _ _ => rfl
  | succ n ih =>
    intro off h
    have hfirst : s.shmByte off = some 0 := h 0 (Nat.succ_pos n)
    have hrest : s.memRead (off + 1) n = .ok 0 := ih (off + 1) fun i hi => by
      rw [Nat.add_right_comm]
      exact h (i + 1) (Nat.succ_lt_succ hi)
    simp [State.memRead, hfirst, hrest]

/-- The bytes of a word, the lowest first, make up the word (R80). -/
theorem sum_wordByte (v : Word) :
    (wordByte v 0).toNat + 256 * ((wordByte v 1).toNat + 256 * ((wordByte v 2).toNat + 256 * (wordByte v 3).toNat))
      = v.toNat := by
  have := v.isLt
  simp only [wordByte, BitVec.toNat_ofNat]
  omega

/-- Four bytes that are those of a word read as the word (R80). -/
theorem State.memRead_word {s : State} {off : Nat} {v : Word} (h : ∀ i, i < 4 → s.shmByte (off + i) = some (wordByte v i)) :
    s.memRead off 4 = .ok v.toNat := by
  have h0 : s.shmByte off = _ := h 0 (by decide)
  have h1 := h 1 (by decide)
  have h2 := h 2 (by decide)
  have h3 := h 3 (by decide)
  simp [State.memRead, h0, h1, h2, h3, sum_wordByte, Nat.add_assoc]

/-! ### The ranges of R87 -/

section
variable (s : State)

theorem State.memRead_ctlWord (k : Nat) (hk : k < 6) : s.memRead (4 * k) 4 = .ok (s.ctlWord k).toNat := by
  refine State.memRead_word fun i hi => ?_
  have hword : (4 * k + i) / 4 = k := by omega
  have hbyte : (4 * k + i) % 4 = i := by omega
  rw [State.shmByte, if_pos (by omega), hword, hbyte]

theorem State.memRead_slotWord (k : Nat) (hk : k < 4) : s.memRead (0x20 + 4 * k) 4 = .ok (s.slotWord k).toNat := by
  refine State.memRead_word fun i hi => ?_
  have hword : (0x20 + 4 * k + i) / 4 - 8 = k := by omega
  have hbyte : (0x20 + 4 * k + i) % 4 = i := by omega
  rw [State.shmByte, if_neg (by omega), if_neg (by omega), if_pos (by omega), hword, hbyte]

theorem State.shmByte_reservedLow (i : Nat) (hi : i < 8) : s.shmByte (0x18 + i) = some 0 := by
  rw [State.shmByte, if_neg (by omega), if_pos (by omega)]

theorem State.shmByte_bin (k : Nat) (hk : k < 256) : s.shmByte (0x30 + k) = some (s.slot.snap.db.getD k 0) := by
  rw [State.shmByte, if_neg (by omega), if_neg (by omega), if_neg (by omega), if_pos (by omega), Nat.add_sub_cancel_left]

theorem State.shmByte_reservedHigh (k : Nat) (hk : k < 208) : s.shmByte (0x130 + k) = some 0 := by
  rw [State.shmByte, if_neg (by omega), if_neg (by omega), if_neg (by omega), if_neg (by omega), if_pos (by omega)]

theorem State.shmByte_ring (off : Nat) (hlow : 0x200 ≤ off) (hhigh : off < shmSize s.params) :
    s.shmByte off = some (s.ringByte off) := by
  rw [State.shmByte, if_neg (by omega), if_neg (by omega), if_neg (by omega), if_neg (by omega), if_neg (by omega),
    if_pos hhigh]

theorem State.shmByte_outside (off : Nat) (h : shmSize s.params ≤ off) : s.shmByte off = none := by
  have : 0x200 ≤ shmSize s.params := Nat.le_add_right _ _
  rw [State.shmByte, if_neg (by omega), if_neg (by omega), if_neg (by omega), if_neg (by omega), if_neg (by omega),
    if_neg (by omega)]

/-- ERRSTAT is the low byte of its word (10_state.md R44). -/
theorem State.ctlWord_errstat : (s.ctlWord 5).toNat = s.errstat.toNat := by
  have := s.errstat.isLt
  show (s.errstat.setWidth 32).toNat = _
  rw [BitVec.toNat_setWidth]
  omega

/-- SLOT.valid is bit 0 of its word (10_state.md R62). -/
theorem State.slotWord_valid : (s.slotWord 0).toNat = if s.slot.valid then 1 else 0 := by
  show (if s.slot.valid then (1 : Word) else 0).toNat = _
  split <;> rfl

end

/-- Settles O15: range by range. -/
theorem sharedRegionLayout : Obligations.SharedRegionLayout := by
  intro s
  have hsize : shmSize s.params = 0x200 + 2 * s.params.mfcCap := rfl
  have herrstat := s.memRead_ctlWord 5 (by decide)
  have hvalid := s.memRead_slotWord 0 (by decide)
  rw [s.ctlWord_errstat] at herrstat
  rw [s.slotWord_valid] at hvalid
  refine ⟨s.memRead_ctlWord 0 (by decide), s.memRead_ctlWord 1 (by decide), s.memRead_ctlWord 2 (by decide),
    s.memRead_ctlWord 3 (by decide), s.memRead_ctlWord 4 (by decide), herrstat,
    State.memRead_zeros 8 0x18 s.shmByte_reservedLow, hvalid, s.memRead_slotWord 1 (by decide),
    s.memRead_slotWord 2 (by decide), s.memRead_slotWord 3 (by decide),
    fun k hk => State.memRead_one (s.shmByte_bin k hk), fun k hk => State.memRead_one (s.shmByte_reservedHigh k hk),
    fun k hk => ⟨State.memRead_one (s.shmByte_ring _ ?a2bLow ?a2bHigh), State.memRead_one (s.shmByte_ring _ ?b2aLow ?b2aHigh)⟩,
    fun off hoff => State.memRead_outside (s.shmByte_outside off hoff)⟩
  all_goals omega

end Sys2Proof.Machine

/-! Who writes the shared region: each side only its own cursor, and the ring bytes and the spectrum slot only those whose
rule says so (20_memory.md R83, R90, R94; 10_state.md R42, R45, R62). -/

namespace Sys2Proof.Machine
open Sys2Proof

/-! ### What the agents share -/

/-- What no unit but MFC and SPC writes by itself: the shared region but for ERRSTAT (R87), the build, and the agenda. -/
structure SharedState where
  evt : Word
  slot : SlotRegs
  a2b : ChannelRegs
  b2a : ChannelRegs
  mem : Memory
  params : Params
  agenda : List Move

namespace State

/-- The shared part of a state. -/
def shared (s : State) : SharedState := ⟨s.evt, s.slot, s.a2b, s.b2a, s.mem, s.params, s.agenda⟩

/-- A choice between two states that share the same shares it. -/
theorem shared_ite {c : Prop} [Decidable c] {s t u : State} (ht : t.shared = s.shared) (hu : u.shared = s.shared) :
    (if c then t else u).shared = s.shared := by
  split
  · exact ht
  · exact hu

section
variable (s : State)

@[simp] theorem raise_shared (x : ErrCond) : (s.raise x).shared = s.shared := rfl

@[simp] theorem setPfd_shared (i : Fin 3) (f : FirUnit) : (s.setPfd i f).shared = s.shared := by simp [shared]

@[simp] theorem pfdCfg_shared (i : Fin 3) (d t : Byte) (taps : List Half) : (s.pfdCfg i d t taps).shared = s.shared :=
  shared_ite (s.setPfd_shared i _) rfl

@[simp] theorem pfdExec_shared (i : Fin 3) (b : C16Buf) : (s.pfdExec i b).shared = s.shared := s.setPfd_shared i _

@[simp] theorem bpfCfg_shared (d t : Byte) (pass stop : Word) (taps : List Half) :
    (s.bpfCfg d t pass stop taps).shared = s.shared := shared_ite rfl rfl

@[simp] theorem bpfExec_shared (b : C16Buf) : (s.bpfExec b).shared = s.shared := rfl

@[simp] theorem fbfCfg_shared (t : Byte) (taps : List F32) : (s.fbfCfg t taps).shared = s.shared := shared_ite rfl rfl

@[simp] theorem fbfExec_shared (b : F32Buf) : (s.fbfExec b).shared = s.shared := rfl

@[simp] theorem amdExec_shared (b : C16Buf) : (s.amdExec b).shared = s.shared := rfl

@[simp] theorem fmdExec_shared (b : C16Buf) : (s.fmdExec b).shared = s.shared := rfl

@[simp] theorem strCfg_shared (sr sy : Word) (g : F32) : (s.strCfg sr sy g).shared = s.shared := shared_ite rfl rfl

@[simp] theorem strPush_shared (x : F32) : (s.strPush x).1.shared = s.shared := rfl

@[simp] theorem pktPush_shared (bit err : Bool) : (s.pktPush bit err).1.shared = s.shared := by
  unfold pktPush
  dsimp only
  split <;> rfl

@[simp] theorem spcStart_shared (k : Half) : (s.spcStart k).1.shared = s.shared := by
  unfold spcStart
  split <;> rfl

@[simp] theorem spcFeed_shared (b : C16Buf) (pass stop : Word) : (s.spcFeed b pass stop).shared = s.shared := rfl

@[simp] theorem audExec_shared (b : F32Buf) : (s.audExec b).shared = s.shared := by
  unfold audExec
  induction b.data generalizing s with
  | nil => rfl
  | cons x xs ih => exact ih (s.audStep b.rate x)

@[simp] theorem frontChain_shared (raw : List C8) : (s.frontChain raw).shared = s.shared := by simp [frontChain]

/-! ### The control messages that configure or tear down units -/

@[simp] theorem ctlSetMode_shared (pl : List Byte) : (s.ctlSetMode pl).shared = s.shared := by
  unfold ctlSetMode
  split <;> rfl

@[simp] theorem ctlDecimator_shared (pl : List Byte) : (s.ctlDecimator pl).shared = s.shared := by
  unfold ctlDecimator
  split
  · rfl
  · split
    · exact s.pfdCfg_shared _ _ _ _
    · rfl

@[simp] theorem ctlChannelFilter_shared (pl : List Byte) : (s.ctlChannelFilter pl).shared = s.shared := by
  unfold ctlChannelFilter
  split
  · rfl
  · exact s.bpfCfg_shared _ _ _ _ _

@[simp] theorem ctlDemod_shared (pl : List Byte) : (s.ctlDemod pl).shared = s.shared := by
  unfold ctlDemod
  split <;> rfl

@[simp] theorem ctlBaseband_shared (pl : List Byte) : (s.ctlBaseband pl).shared = s.shared := by
  unfold ctlBaseband
  split
  · rfl
  · exact s.fbfCfg_shared _ _

@[simp] theorem ctlClock_shared (pl : List Byte) : (s.ctlClock pl).shared = s.shared := by
  unfold ctlClock
  split
  · rfl
  · exact s.strCfg_shared _ _ _

@[simp] theorem ctlAudio_shared (pl : List Byte) : (s.ctlAudio pl).shared = s.shared := rfl

@[simp] theorem ctlSpectrumStop_shared (pl : List Byte) : (s.ctlSpectrumStop pl).shared = s.shared := shared_ite rfl rfl

end

end State

/-! ### Frames of the shared region -/

/-- The parts of the shared region that R83, R90 and R94 give a writer, channel by channel. -/
inductive SharedReg
  | ring (c : Chan)
  | writeCursor (c : Chan)
  | readCursor (c : Chan)
  | copies (c : Chan)
  /-- EVT and the slot. -/
  | spectrum

/-- The offset lies in the ring storage of a channel (R87). -/
def State.InRing (s : State) (c : Chan) (off : Nat) : Prop :=
  s.ringBase c ≤ off ∧ off < s.ringBase c + s.params.mfcCap

/-- What a send on a channel may write (40_message_channel.md R153). -/
def sendRegs (c : Chan) : Set SharedReg := {.ring c, .writeCursor c}

/-- From `s` to `t` at most the parts of the shared region in `w` are written; the build and the agenda are not. -/
structure State.SharedFrame (w : Set SharedReg) (s t : State) : Prop where
  params : t.params = s.params
  agenda : t.agenda = s.agenda
  bytes : ∀ off, (∀ c, .ring c ∈ w → ¬ s.InRing c off) → t.ringByte off = s.ringByte off
  writeCursor : ∀ c, .writeCursor c ∉ w → (t.chan c).w = (s.chan c).w
  readCursor : ∀ c, .readCursor c ∉ w → (t.chan c).r = (s.chan c).r
  copies : ∀ c, .copies c ∉ w → (t.chan c).wSeen = (s.chan c).wSeen ∧ (t.chan c).rSeen = (s.chan c).rSeen
  spectrum : .spectrum ∉ w → t.evt = s.evt ∧ t.slot = s.slot

namespace State.SharedFrame

variable {w : Set SharedReg} {s t u : State}

/-! ### Composing frames -/

/-- A state with the same shared part. -/
theorem of_shared (h : t.shared = s.shared) : SharedFrame w s t := by
  simp only [State.shared, SharedState.mk.injEq] at h
  obtain ⟨hevt, hslot, ha2b, hb2a, hmem, hparams, hagenda⟩ := h
  have hchan : ∀ c, t.chan c = s.chan c
    | .a2b => ha2b
    | .b2a => hb2a
  exact ⟨hparams, hagenda, fun off _ => by rw [ringByte, hmem, ← ringByte], fun c _ => by rw [hchan], fun c _ => by rw [hchan],
    fun c _ => by rw [hchan]; exact ⟨rfl, rfl⟩, fun _ => ⟨hevt, hslot⟩⟩

theorem trans (h : SharedFrame w s t) (h' : SharedFrame w t u) : SharedFrame w s u where
  params := h'.params.trans h.params
  agenda := h'.agenda.trans h.agenda
  bytes off hoff := by
    refine (h'.bytes off fun c hc => ?_).trans (h.bytes off hoff)
    rw [State.InRing, State.ringBase, h.params]
    exact hoff c hc
  writeCursor c hc := (h'.writeCursor c hc).trans (h.writeCursor c hc)
  readCursor c hc := (h'.readCursor c hc).trans (h.readCursor c hc)
  copies c hc := ⟨(h'.copies c hc).1.trans (h.copies c hc).1, (h'.copies c hc).2.trans (h.copies c hc).2⟩
  spectrum hw := ⟨(h'.spectrum hw).1.trans (h.spectrum hw).1, (h'.spectrum hw).2.trans (h.spectrum hw).2⟩

theorem foldl {α : Type} {f : State → α → State} (hf : ∀ s x, SharedFrame w s (f s x)) (xs : List α) (s : State) :
    SharedFrame w s (xs.foldl f s) := by
  induction xs generalizing s with
  | nil => exact of_shared rfl
  | cons x xs ih => exact (hf s x).trans (ih _)

theorem of_done {r : Ret} (h : SharedFrame w s t) (hdone : done r t = .next u) : SharedFrame w s u := by
  rw [(done_next_iff r t u).1 hdone]
  exact h.trans (of_shared rfl)

theorem of_guarded {c : Prop} [Decidable c] {r : Ret} {refusal : Refusal} (h : SharedFrame w s t)
    (hnext : (if c then done r t else .refused refusal) = .next u) : SharedFrame w s u :=
  h.of_done ((guarded_next_iff _ _ _ _).1 hnext).2

/-! ### The message channel -/

/-- The registers of a channel are written, each of them only where it is in `w`. -/
theorem setChan (s : State) (c : Chan) (x : ChannelRegs) (hwrite : .writeCursor c ∉ w → x.w = (s.chan c).w)
    (hread : .readCursor c ∉ w → x.r = (s.chan c).r)
    (hcopies : .copies c ∉ w → x.wSeen = (s.chan c).wSeen ∧ x.rSeen = (s.chan c).rSeen) :
    SharedFrame w s (s.setChan c x) := by
  have hchan : ∀ d, (d = c ∧ (s.setChan c x).chan d = x) ∨ (s.setChan c x).chan d = s.chan d := fun d => by
    by_cases hd : d = c
    · exact .inl ⟨hd, hd ▸ s.setChan_chan c x⟩
    · exact .inr (s.setChan_other c d x hd)
  refine ⟨by simp, by simp, fun off _ => by simp [ringByte], fun d hd => ?_, fun d hd => ?_, fun d hd => ?_, fun _ => by simp⟩
  all_goals
    obtain ⟨rfl, e⟩ | e := hchan d
    all_goals rw [e]
  exacts [hwrite hd, hread hd, hcopies hd, ⟨rfl, rfl⟩]

/-- A message is stored within its ring (20_memory.md R96). -/
theorem writesRing (s : State) (c : Chan) (pos : Nat) (bs : List Byte) (hcap : 0 < s.params.mfcCap) (hw : .ring c ∈ w) :
    SharedFrame w s { s with mem := writeRing (s.ringBase c) s.params.mfcCap pos bs s.mem } := by
  refine ⟨rfl, rfl, fun off hoff => ?_, fun c _ => by cases c <;> rfl, fun c _ => by cases c <;> rfl,
    fun c _ => by cases c <;> exact ⟨rfl, rfl⟩, fun _ => ⟨rfl, rfl⟩⟩
  rw [ringByte, memGet_writeRing_out, ← ringByte]
  exact fun i _ e => hoff c hw (e ▸ ringOffset_range _ _ _ _ hcap)

/-- MFC.SEND writes its ring and its write cursor (40_message_channel.md R153). -/
theorem send (s : State) (c : Chan) (kind : Byte) (pl : List Byte) (hw : sendRegs c ⊆ w) :
    SharedFrame w s (s.send c kind pl).1 := by
  rcases s.send_cases c kind pl with ⟨_, e⟩ | ⟨_, _, e⟩ | ⟨_, hroom, e⟩ <;> rw [e]
  · exact of_shared rfl
  · exact of_shared (shared_ite rfl rfl)
  · have hfits := (noRoom_false _ _ _).1 hroom
    refine (writesRing s c _ _ (by omega) (hw (by simp [sendRegs]))).trans (setChan _ c _ ?_ ?_ ?_)
    · exact fun h => absurd (hw (by simp [sendRegs])) h
    · exact fun _ => by cases c <;> rfl
    · exact fun _ => by cases c <;> exact ⟨rfl, rfl⟩

/-- MFC.RECV writes its read cursor (R155); the latched fault of R157 is none of the parts. -/
theorem recv (s : State) (c : Chan) (hw : .readCursor c ∈ w) : SharedFrame w s (s.recv c).1 := by
  rcases s.recv_cases c with ⟨e, _⟩ | ⟨_, _, _, e⟩ | ⟨_, _, _, e⟩ <;> rw [e]
  · exact of_shared rfl
  · have hlatch : SharedFrame w s (s.setChan c { s.chan c with fault := true }) :=
      setChan s c _ (fun _ => rfl) (fun _ => rfl) fun _ => ⟨rfl, rfl⟩
    cases c with
    | a2b => exact hlatch.trans (of_shared rfl)
    | b2a => exact hlatch
  · exact setChan s c _ (fun _ => rfl) (fun h => absurd hw h) fun _ => ⟨rfl, rfl⟩

/-- MFC.SYNC writes the copies of its channel (R158). -/
theorem sync (s : State) (c : Chan) (sel : SyncSel) (hw : .copies c ∈ w) :
    SharedFrame w s (s.setChan c ((s.chan c).sync sel)) :=
  setChan s c _ (fun _ => ChannelRegs.sync_w _ sel) (fun _ => ChannelRegs.sync_r _ sel) fun h => absurd hw h

/-! ### What BB issues: sends on B2A, receives from A2B -/

/-- CTL_SPECTRUM_START sends RES_SPECTRUM_READY (48_top_level.md R325, R329). -/
theorem ctlSpectrumStart (s : State) (pl : List Byte) (hw : sendRegs .b2a ⊆ w) : SharedFrame w s (s.ctlSpectrumStart pl) := by
  unfold State.ctlSpectrumStart
  split
  · exact of_shared rfl
  · rename_i k _
    have hstart : SharedFrame w s (s.spcStart k).1 := of_shared (s.spcStart_shared k)
    split
    · exact hstart.trans (send _ _ _ _ hw)
    · exact hstart

theorem handle (s : State) (kind : Byte) (pl : List Byte) (hw : sendRegs .b2a ⊆ w) : SharedFrame w s (s.handle kind pl) := by
  unfold State.handle
  split
  case h_8 => exact ctlSpectrumStart s pl hw
  all_goals exact of_shared (by simp)

theorem dispatch (s : State) (hsend : sendRegs .b2a ⊆ w) (hrecv : .readCursor .a2b ∈ w) : SharedFrame w s s.dispatch.1 := by
  have hframe := recv s .a2b hrecv
  unfold State.dispatch
  split <;> rename_i e <;> rw [e] at hframe
  · exact hframe
  · exact hframe.trans (handle _ _ _ hsend)

theorem drainControl (n : Nat) (s : State) (hsend : sendRegs .b2a ⊆ w) (hrecv : .readCursor .a2b ∈ w) :
    SharedFrame w s (s.drainControl n) := by
  induction n generalizing s with
  | zero => exact of_shared rfl
  | succ n ih =>
    have hframe := dispatch s hsend hrecv
    unfold State.drainControl
    split <;> rename_i e <;> rw [e] at hframe
    · exact hframe
    · exact hframe.trans (ih _)

/-- A sample of the TPMS chain sends a packet when it completes one (R316). -/
theorem pushSample (s : State) (x : F32) (hw : sendRegs .b2a ⊆ w) : SharedFrame w s (s.pushSample x) := by
  have packet : ∀ (s : State) (o : Option (List Bool)), SharedFrame w s (s.sendPacket o) := fun s o => by
    cases o with
    | none => exact of_shared rfl
    | some bits => exact send s _ _ _ hw
  have symbol : ∀ (s : State) (o : Option F32), SharedFrame w s (s.pushSymbol o) := fun s o => by
    cases o with
    | none => exact of_shared rfl
    | some y => exact (of_shared (s.pktPush_shared (slice y) false)).trans (packet _ _)
  exact (of_shared (s.strPush_shared x)).trans (symbol _ _)

theorem backChain (s : State) (hw : sendRegs .b2a ⊆ w) : SharedFrame w s s.backChain := by
  unfold State.backChain
  split
  case h_4 => exact (of_shared (by simp)).trans (foldl (fun s x => pushSample s x hw) _ _)
  all_goals exact of_shared (by simp)

theorem consume (s : State) (raw : List C8) (hw : sendRegs .b2a ⊆ w) : SharedFrame w s (s.consume raw) := by
  unfold State.consume
  split
  · exact (of_shared (by simp)).trans (backChain _ hw)
  · exact of_shared rfl

theorem topStats (s : State) (hw : sendRegs .b2a ⊆ w) : SharedFrame w s s.topStats := by
  unfold State.topStats
  dsimp only
  split
  · have hcount : SharedFrame w s { s with bufCount := s.bufCount + 1 } := of_shared rfl
    exact (hcount.trans (send _ .b2a 0x81 _ hw)).trans (of_shared rfl)
  · exact of_shared rfl

theorem topBuffer (s : State) (raw : List C8) (hsend : sendRegs .b2a ⊆ w) (hrecv : .readCursor .a2b ∈ w) :
    SharedFrame w s (s.topBuffer raw) :=
  ((drainControl _ s hsend hrecv).trans (consume _ raw hsend)).trans (topStats _ hsend)

/-! ### The spectrum slot and the reset input -/

/-- EVT and the slot are written (10_state.md R42, R62). -/
theorem writesSpectrum (s : State) (x : SpectrumUnit) (slot : SlotRegs) (evt : Word) (hw : .spectrum ∈ w) :
    SharedFrame w s { s with spc := x, slot := slot, evt := evt } :=
  ⟨rfl, rfl, fun _ _ => rfl, fun c _ => by cases c <;> rfl, fun c _ => by cases c <;> rfl,
    fun c _ => by cases c <;> exact ⟨rfl, rfl⟩, fun h => absurd hw h⟩

theorem spcDrain (s : State) (hw : .spectrum ∈ w) : SharedFrame w s s.spcDrain.1 := by
  unfold State.spcDrain
  split
  · dsimp only
    split <;> exact writesSpectrum s s.spc _ _ hw
  · exact of_shared rfl

/-- The reset input clears cursors, copies and the slot; it writes no ring byte (10_state.md R45; log entry 16). -/
theorem hardReset (s : State) (hw : ∀ r, (∀ c, r ≠ .ring c) → r ∈ w) : SharedFrame w s s.hardReset :=
  ⟨rfl, rfl, fun _ _ => rfl, fun _ h => (h (hw _ nofun)).elim, fun _ h => (h (hw _ nofun)).elim,
    fun _ h => (h (hw _ nofun)).elim, fun h => (h (hw _ nofun)).elim⟩

end State.SharedFrame

/-! ### Every operation -/

/-- The operations that are or issue a send on a channel (40_message_channel.md R153; 48_top_level.md R316, R317, R325). -/
def SendsOn : Chan → Instr → Prop
  | .a2b, i => ∃ k pl, i = .mfcSend .a2b k pl
  | .b2a, i => (∃ k pl, i = .mfcSend .b2a k pl)
      ∨ (∃ pl, i = .resStatistics pl ∨ i = .resPacket pl ∨ i = .resSpectrumReady pl ∨ i = .ctlSpectrumStart pl)
      ∨ i = .topDispatch ∨ (∃ raw, i = .topBuffer raw) ∨ i = .topStats

/-- The operations that are or issue a receive from a channel (R155; 48_top_level.md R314, R316). -/
def ReceivesFrom : Chan → Instr → Prop
  | .a2b, i => i = .mfcRecv .a2b ∨ i = .topDispatch ∨ ∃ raw, i = .topBuffer raw
  | .b2a, i => i = .mfcRecv .b2a

/-- The operations that may write a part of the shared region. -/
def MayWriteShared (i : Instr) : SharedReg → Prop
  | .ring c => SendsOn c i
  | .writeCursor c => SendsOn c i ∨ i = .topReset
  | .readCursor c => ReceivesFrom c i ∨ i = .topReset
  | .copies c => (∃ sel, i = .mfcSync c sel) ∨ i = .topReset
  | .spectrum => i = .spcUpdate ∨ i = .spcDrain ∨ i = .spcReset ∨ i = .topReset

/-- A sender may write what its send writes. -/
theorem sendRegs_subset {c : Chan} {i : Instr} (h : SendsOn c i) : sendRegs c ⊆ {r | MayWriteShared i r} := by
  rintro r (rfl | rfl)
  · exact h
  · exact .inl h

/-- The frame of each operation's meaning: of the shared region it writes at most its own parts. -/
theorem exec_sharedFrame {i : Instr} {s t : State} (hexec : exec i s = .next t) :
    State.SharedFrame {r | MayWriteShared i r} s t := by
  cases i with
  | mfcSend c kind pl =>
    have hsends : SendsOn c (.mfcSend c kind pl) := by cases c <;> simp [SendsOn]
    exact (State.SharedFrame.send s c kind pl (sendRegs_subset hsends)).of_done hexec
  | mfcRecv c =>
    have hreceives : ReceivesFrom c (.mfcRecv c) := by cases c <;> simp [ReceivesFrom]
    exact (State.SharedFrame.recv s c (.inl hreceives)).of_done hexec
  | mfcSync c sel => exact (State.SharedFrame.sync s c sel (.inl ⟨sel, rfl⟩)).of_done hexec
  | resStatistics pl =>
    exact (State.SharedFrame.send s .b2a 0x81 pl (sendRegs_subset (by simp [SendsOn]))).of_guarded hexec
  | resPacket pl =>
    exact (State.SharedFrame.send s .b2a 0x82 pl (sendRegs_subset (by simp [SendsOn]))).of_guarded hexec
  | resSpectrumReady pl =>
    exact (State.SharedFrame.send s .b2a 0x83 pl (sendRegs_subset (by simp [SendsOn]))).of_guarded hexec
  | ctlSpectrumStart pl =>
    exact (State.SharedFrame.ctlSpectrumStart s pl (sendRegs_subset (by simp [SendsOn]))).of_done hexec
  | topDispatch =>
    exact (State.SharedFrame.dispatch s (sendRegs_subset (by simp [SendsOn])) (.inl (.inr (.inl rfl)))).of_done hexec
  | topBuffer raw =>
    exact (State.SharedFrame.topBuffer s raw (sendRegs_subset (by simp [SendsOn]))
      (.inl (.inr (.inr ⟨raw, rfl⟩)))).of_guarded hexec
  | topStats => exact (State.SharedFrame.topStats s (sendRegs_subset (by simp [SendsOn]))).of_done hexec
  | spcReset => exact (State.SharedFrame.writesSpectrum s _ _ _ (by simp [MayWriteShared])).of_done hexec
  | spcUpdate => exact (State.SharedFrame.writesSpectrum s _ _ _ (by simp [MayWriteShared])).of_guarded hexec
  | spcDrain => exact (State.SharedFrame.spcDrain s (by simp [MayWriteShared])).of_done hexec
  | topReset =>
    refine (State.SharedFrame.hardReset s fun r hr => ?_).of_done hexec
    cases r with
    | ring c => exact absurd rfl (hr c)
    | writeCursor | readCursor | copies | spectrum => simp [MayWriteShared]
  | pfdExec | bpfExec | strPush | manDecode =>
    refine State.SharedFrame.of_guarded ?_ hexec
    exact .of_shared (by simp)
  | ctlSetMode | ctlDecimatorConfig | ctlChannelFilterConfig | ctlDemodConfig | ctlBasebandFirConfig | ctlClockConfig
  | ctlAudioConfig | ctlSpectrumStop | pfdReset | pfdCfg | bpfCfg | fbfCfg | fbfExec | amdExec | fmdExec | strCfg | pktPush
  | spcStart | spcFeed | audExec =>
    refine State.SharedFrame.of_done ?_ hexec
    exact .of_shared (by simp)
  | bpfReset | fbfReset | amdReset | amdCfg | fmdReset | fmdCfg | strReset | pktReset | spcStop | audReset | audCfg =>
    refine State.SharedFrame.of_done ?_ hexec
    exact .of_shared rfl

/-- Settles O12. -/
theorem eventWriters : Obligations.EventWriters := by
  intro i s t hexec hupdate hdrain hspcReset hreset
  refine (exec_sharedFrame hexec).spectrum ?_
  rintro (e | e | e | e)
  exacts [hupdate e, hdrain e, hspcReset e, hreset e]

/-- Settles O14: each clause shuts out the operations that may write its part of the shared region; a byte of one ring is
in the storage of no other. -/
theorem onlySendsStore : Obligations.OnlySendsStore := by
  intro i s t hexec
  have hframe := exec_sharedFrame hexec
  refine ⟨hframe.params, hframe.agenda, fun ha hb off => hframe.bytes off ?none,
    fun ha off hlow hhigh => hframe.bytes off ?a2b, fun hb off hlow => hframe.bytes off ?b2a,
    fun ha hreset => hframe.writeCursor .a2b (not_or.2 ⟨ha, hreset⟩),
    fun hb hreset => hframe.writeCursor .b2a (not_or.2 ⟨hb, hreset⟩),
    fun hrecv hreset hdispatch hbuffer => hframe.readCursor .a2b ?read,
    fun hrecv hreset => hframe.readCursor .b2a (not_or.2 ⟨hrecv, hreset⟩),
    fun c hsync hreset => hframe.copies c (not_or.2 ⟨not_exists.2 hsync, hreset⟩)⟩
  case none =>
    rintro (_ | _) hsends
    exacts [absurd hsends ha, absurd hsends hb]
  case a2b =>
    rintro (_ | _) hsends ⟨hbase, _⟩
    · exact ha hsends
    · simp [State.ringBase, ringBase] at hbase
      omega
  case b2a =>
    rintro (_ | _) hsends ⟨_, hend⟩
    · simp [State.ringBase, ringBase] at hend
      omega
    · exact hb hsends
  case read =>
    rintro ((e | e | ⟨raw, e⟩) | e)
    exacts [hrecv e, hdispatch e, hbuffer raw e, hreset e]

end Sys2Proof.Machine

/-! The decoder undoes the encoder, operation by operation (30_encoding.md R110, R111, R125; log entry 2). -/

namespace Sys2Proof
open Sys2Proof.Machine

/-! ### The operands of each unit operation read as they were written -/

theorem fitsCount_iff (n : Nat) : fitsCount n = true ↔ n < 2 ^ 32 := decide_eq_true_iff

/-- A u8 reads as it was written. -/
theorem rdU8_wr (b : Byte) (r : List Byte) : rdU8 ([b] ++ r) = some (b, r) := rfl

theorem opSend_wr (c : Chan) (kind : Byte) (pl : List Byte) (h : pl.length < 2 ^ 32) :
    opSend (wrChan c :: kind :: wrCounted (fun b => [b]) pl) = some (.mfcSend c kind pl) := by
  simp [opSend, rdChan_wr, rdU8, read_nil (rdCounted_wr rdU8 _ rdU8_wr pl h)]

theorem opRecv_wr (c : Chan) : opRecv [wrChan c] = some (.mfcRecv c) := by
  simp [opRecv, rdChan_wr]

theorem opSync_wr (c : Chan) (sel : SyncSel) : opSync [wrChan c, wrSel sel] = some (.mfcSync c sel) := by
  simp [opSync, rdChan_wr, rdSel_wr]

theorem opPfdReset_wr (i : Fin 3) : opPfdReset [wrStage i] = some (.pfdReset i) := by
  simp [opPfdReset, rdStage_wr]

theorem opPfdCfg_wr (i : Fin 3) (d t : Byte) (taps : List Half) (h : taps.length = t.toNat) :
    opPfdCfg (wrStage i :: d :: t :: taps.flatMap le16) = some (.pfdCfg i d t taps) := by
  simp [opPfdCfg, rdStage_wr, rdU8, ← h, read_nil (rdMany_flatMap rdU16 le16 rdU16_le16 taps)]

theorem opPfdExec_wr (i : Fin 3) (b : C16Buf) (h : b.data.length < 2 ^ 32) :
    opPfdExec (wrStage i :: wrBuf16 b) = some (.pfdExec i b) := by
  simp [opPfdExec, rdStage_wr, read_nil (rdBuf16_wr b h)]

theorem opBpfCfg_wr (d t : Byte) (pass stop : Word) (taps : List Half) (h : taps.length = t.toNat) :
    opBpfCfg (d :: t :: (le32 pass ++ le32 stop ++ taps.flatMap le16)) = some (.bpfCfg d t pass stop taps) := by
  simp [opBpfCfg, rdU8, rdU32_le32, ← h, read_nil (rdMany_flatMap rdU16 le16 rdU16_le16 taps)]

theorem opBpfExec_wr (b : C16Buf) (h : b.data.length < 2 ^ 32) : opBpfExec (wrBuf16 b) = some (.bpfExec b) := by
  simp [opBpfExec, read_nil (rdBuf16_wr b h)]

theorem opFbfCfg_wr (t : Byte) (taps : List F32) (h : taps.length = t.toNat) :
    opFbfCfg (t :: taps.flatMap le32) = some (.fbfCfg t taps) := by
  simp [opFbfCfg, rdU8, ← h, read_nil (rdMany_flatMap rdU32 le32 rdU32_le32 taps)]

theorem opFbfExec_wr (b : F32Buf) (h : b.data.length < 2 ^ 32) : opFbfExec (wrBuf32 b) = some (.fbfExec b) := by
  simp [opFbfExec, read_nil (rdBuf32_wr b h)]

theorem opAmdCfg_wr (ssb : Bool) (inc : Word) : opAmdCfg (wrBit ssb :: le32 inc) = some (.amdCfg ssb inc) := by
  simp [opAmdCfg, rdBit_wr, read_nil (rdU32_le32 inc)]

theorem opAmdExec_wr (b : C16Buf) (h : b.data.length < 2 ^ 32) : opAmdExec (wrBuf16 b) = some (.amdExec b) := by
  simp [opAmdExec, read_nil (rdBuf16_wr b h)]

theorem opFmdCfg_wr (g : F32) : opFmdCfg (le32 g) = some (.fmdCfg g) := by
  simp [opFmdCfg, read_nil (rdU32_le32 g)]

theorem opFmdExec_wr (b : C16Buf) (h : b.data.length < 2 ^ 32) : opFmdExec (wrBuf16 b) = some (.fmdExec b) := by
  simp [opFmdExec, read_nil (rdBuf16_wr b h)]

theorem opStrCfg_wr (sr sy : Word) (g : F32) : opStrCfg (le32 sr ++ le32 sy ++ le32 g) = some (.strCfg sr sy g) := by
  simp [opStrCfg, rdU32_le32, read_nil (rdU32_le32 g)]

theorem opStrPush_wr (x : F32) : opStrPush (le32 x) = some (.strPush x) := by
  simp [opStrPush, read_nil (rdU32_le32 x)]

theorem opPktPush_wr (bit err : Bool) : opPktPush [wrBit bit, wrBit err] = some (.pktPush bit err) := by
  simp [opPktPush, rdBit_wr]

theorem opSpcStart_wr (k : Half) : opSpcStart (le16 k) = some (.spcStart k) := by
  simp [opSpcStart, read_nil (rdU16_le16 k)]

theorem opSpcFeed_wr (b : C16Buf) (pass stop : Word) (h : b.data.length < 2 ^ 32) :
    opSpcFeed (wrBuf16 b ++ le32 pass ++ le32 stop) = some (.spcFeed b pass stop) := by
  simp [opSpcFeed, rdBuf16_wr b h, rdU32_le32, read_nil (rdU32_le32 stop)]

theorem payloadMax_lt (p : Params) : payloadMax p < 2 ^ 32 := by unfold payloadMax; omega

theorem opAudCfg_wr (p : Params) (bytes : List Byte) (h : bytes.length ≤ payloadMax p) :
    opAudCfg p (wrCounted (fun b => [b]) bytes) = some (.audCfg bytes) := by
  simp [opAudCfg, h, read_nil (rdCounted_wr rdU8 _ rdU8_wr bytes (h.trans_lt (payloadMax_lt p)))]

theorem opAudExec_wr (b : F32Buf) (h : b.data.length < 2 ^ 32) : opAudExec (wrBuf32 b) = some (.audExec b) := by
  simp [opAudExec, read_nil (rdBuf32_wr b h)]

theorem opManDecode_wr (bits : List Bool) (sense : Bool) (h : bits.length < 2 ^ 32) :
    opManDecode (wrCounted (fun b => [wrBit b]) bits ++ [wrBit sense]) = some (.manDecode bits sense) := by
  simp [opManDecode, rdCounted_wr rdBit (fun b => [wrBit b]) rdBit_wr bits h, rdBit_wr]

theorem opTopBuffer_wr (p : Params) (raw : List C8) (h : raw.length = p.bufN) :
    opTopBuffer p (raw.flatMap wrC8) = some (.topBuffer raw) := by
  simp [opTopBuffer, ← h, read_nil (rdMany_flatMap rdC8 wrC8 rdC8_wr raw)]

/-! ### Every operation -/

/-- A command decodes to the operation that the reader of its code's operands answers (R125). -/
theorem decode_cmdMove {p : Params} {code : Byte} {operands : List Byte} {o : Option Instr} {i : Instr}
    (hcode : decodeCode p code operands = withOperands code o) (hread : o = some i) :
    decode p (cmdMove code operands) = .ok i := by
  subst hread
  exact hcode

/-- A message decodes to the operation of its kind (R111, R117). -/
theorem decode_msgMove_ok {p : Params} {kind : Byte} {payload : List Byte} {i : Instr} (hlen : payload.length ≤ payloadMax p)
    (hzero : kind ≠ 0) (hkind : decodeKind kind payload = .ok i) : decode p (msgMove kind payload) = .ok i :=
  (decode_msgMove p kind payload hlen hzero).trans hkind

/-- Settles O1: a message by its kind, a command by its code and the operands read back. -/
theorem decodeEncodeAgree : Obligations.DecodeEncodeAgree := by
  intro p i hwf
  cases i with
  | ctlSetMode | ctlDecimatorConfig | ctlChannelFilterConfig | ctlDemodConfig | ctlBasebandFirConfig | ctlClockConfig
  | ctlAudioConfig | ctlSpectrumStart | ctlSpectrumStop => exact decode_msgMove_ok (of_decide_eq_true hwf) (by decide) rfl
  | resStatistics | resPacket | resSpectrumReady =>
    exact decode_msgMove_ok (of_decide_eq_true (Bool.and_eq_true_iff.1 hwf).1) (by decide) rfl
  | bpfReset | fbfReset | amdReset | fmdReset | strReset | pktReset | spcReset | spcStop | spcUpdate | spcDrain | audReset
  | topReset | topDispatch | topStats => rfl
  | mfcSend c kind pl => exact decode_cmdMove rfl (opSend_wr c kind pl ((fitsCount_iff _).1 hwf))
  | mfcRecv c => exact decode_cmdMove rfl (opRecv_wr c)
  | mfcSync c sel => exact decode_cmdMove rfl (opSync_wr c sel)
  | pfdReset n => exact decode_cmdMove rfl (opPfdReset_wr n)
  | pfdCfg n d t taps => exact decode_cmdMove rfl (opPfdCfg_wr n d t taps (of_decide_eq_true hwf))
  | pfdExec n b => exact decode_cmdMove rfl (opPfdExec_wr n b ((fitsCount_iff _).1 hwf))
  | bpfCfg d t pass stop taps => exact decode_cmdMove rfl (opBpfCfg_wr d t pass stop taps (of_decide_eq_true hwf))
  | bpfExec b => exact decode_cmdMove rfl (opBpfExec_wr b ((fitsCount_iff _).1 hwf))
  | fbfCfg t taps => exact decode_cmdMove rfl (opFbfCfg_wr t taps (of_decide_eq_true hwf))
  | fbfExec b => exact decode_cmdMove rfl (opFbfExec_wr b ((fitsCount_iff _).1 hwf))
  | amdCfg ssb inc => exact decode_cmdMove rfl (opAmdCfg_wr ssb inc)
  | amdExec b => exact decode_cmdMove rfl (opAmdExec_wr b ((fitsCount_iff _).1 hwf))
  | fmdCfg g => exact decode_cmdMove rfl (opFmdCfg_wr g)
  | fmdExec b => exact decode_cmdMove rfl (opFmdExec_wr b ((fitsCount_iff _).1 hwf))
  | strCfg sr sy g => exact decode_cmdMove rfl (opStrCfg_wr sr sy g)
  | strPush x => exact decode_cmdMove rfl (opStrPush_wr x)
  | pktPush bit err => exact decode_cmdMove rfl (opPktPush_wr bit err)
  | spcStart k => exact decode_cmdMove rfl (opSpcStart_wr k)
  | spcFeed b pass stop => exact decode_cmdMove rfl (opSpcFeed_wr b pass stop ((fitsCount_iff _).1 hwf))
  | audCfg bytes => exact decode_cmdMove rfl (opAudCfg_wr p bytes (of_decide_eq_true hwf))
  | audExec b => exact decode_cmdMove rfl (opAudExec_wr b ((fitsCount_iff _).1 hwf))
  | manDecode bits sense =>
    have hbits : bits.length ≤ 512 := of_decide_eq_true hwf
    exact decode_cmdMove rfl (opManDecode_wr bits sense (by omega))
  | topBuffer raw => exact decode_cmdMove rfl (opTopBuffer_wr p raw (of_decide_eq_true hwf))

end Sys2Proof

/-! A message names one operation and an operation one message (30_encoding.md R111, R113, R117). -/

namespace Sys2Proof
open Sys2Proof.Machine

/-- A message whose payload a u16 length can count is read as its own kind and payload: the header reads back as it was
written (R111, R112). -/
theorem decodeKind_of_decode {p : Params} {kind : Byte} {payload : List Byte} {i : Instr} (hlen : payload.length < 65536)
    (h : decode p (msgMove kind payload) = .ok i) : decodeKind kind payload = .ok i := by
  have hread : (u16le (BitVec.ofNat 8 payload.length) (BitVec.ofNat 8 (payload.length / 256))).toNat = payload.length := by
    simp only [u16le, BitVec.toNat_ofNat]
    omega
  simp only [decode, msgMove, messageBytes, header, List.cons_append, List.nil_append, decodeMsg, hread, lt_irrefl, if_false,
    List.take_length] at h
  split at h
  · cases h
  · exact h

/-- The operation of an assigned kind is the message of that kind and payload (R117). -/
theorem messageOf_of_decodeKind {kind : Byte} {payload : List Byte} {i : Instr} (h : decodeKind kind payload = .ok i) :
    messageOf i = some (kind, payload) := by
  unfold decodeKind at h
  split at h
  case h_13 => cases h
  all_goals
    rename_i hkind
    cases h
    exact congrArg (fun k => some (k, payload)) (BitVec.eq_of_toNat_eq hkind).symm

/-- The encoding of a message is its bytes (R111). -/
theorem encode_of_messageOf {i : Instr} {kind : Byte} {payload : List Byte} (h : messageOf i = some (kind, payload)) :
    encode i = msgMove kind payload := by
  cases i <;> cases h <;> rfl

/-- Settles O2. -/
theorem messageWordsAreUnique : Obligations.MessageWordsAreUnique := by
  intro p kind payload i hdecode hlen
  have hmessage := messageOf_of_decodeKind (decodeKind_of_decode hlen hdecode)
  exact ⟨encode_of_messageOf hmessage, hmessage⟩

end Sys2Proof

/-! What decodes is well-formed (30_encoding.md R115, R125). -/

namespace Sys2Proof
open Sys2Proof.Machine

/-! ### Operands read from the command port -/

/-- The operation that a reader of operands answers, if it answers one, is well-formed, but for the bound on the bits of
MAN.DECODE, which its exec tests and not its decoder (47_manchester_decoder.md R296; log entry 15). -/
def OperandsWellFormed (p : Params) (o : Option Instr) : Prop :=
  ∀ i, o = some i → (∀ bits sense, i = .manDecode bits sense → bits.length ≤ Config.manBitsMax) → wellFormed p i = true

theorem operandsWellFormed_some {p : Params} {i : Instr}
    (h : (∀ bits sense, i = .manDecode bits sense → bits.length ≤ Config.manBitsMax) → wellFormed p i = true) :
    OperandsWellFormed p (some i) := by
  rintro _ ⟨⟩
  exact h

/-- An operation whose reader answers it in the operand ranges of its rule. -/
theorem operandsWellFormed_pure {p : Params} {i : Instr} (h : wellFormed p i = true) : OperandsWellFormed p (pure i) :=
  operandsWellFormed_some fun _ => h

/-- What one field read as is known of the fields read after it. -/
theorem operandsWellFormed_bind {p : Params} {α : Type} {o : Option α} {f : α → Option Instr}
    (h : ∀ x, o = some x → OperandsWellFormed p (f x)) : OperandsWellFormed p (o >>= f) := fun i hi => by
  obtain ⟨x, ho, hx⟩ := Option.bind_eq_some_iff.1 hi
  exact h x ho i hx

/-- What was read as a c16 buffer has a count that a u32 holds. -/
theorem fitsCount_rdBuf16 {r : List Byte} {x : C16Buf × List Byte} (h : rdBuf16 r = some x) : fitsCount x.1.data.length = true :=
  (fitsCount_iff _).2 (rdBuf16_lt r x.1 x.2 h)

/-- What was read as an f32 buffer has a count that a u32 holds. -/
theorem fitsCount_rdBuf32 {r : List Byte} {x : F32Buf × List Byte} (h : rdBuf32 r = some x) : fitsCount x.1.data.length = true :=
  (fitsCount_iff _).2 (rdBuf32_lt r x.1 x.2 h)

section readers
variable (p : Params) (r : List Byte)

theorem opSend_wellFormed : OperandsWellFormed p (opSend r) :=
  operandsWellFormed_bind fun _ _ => operandsWellFormed_bind fun _ _ => operandsWellFormed_bind fun _ hpl =>
    operandsWellFormed_pure ((fitsCount_iff _).2 (rdCounted_lt _ _ _ _ hpl))

theorem opPfdCfg_wellFormed : OperandsWellFormed p (opPfdCfg r) :=
  operandsWellFormed_bind fun _ _ => operandsWellFormed_bind fun _ _ => operandsWellFormed_bind fun _ _ =>
    operandsWellFormed_bind fun _ htaps => operandsWellFormed_pure (decide_eq_true (rdMany_length _ _ _ _ _ htaps))

theorem opPfdExec_wellFormed : OperandsWellFormed p (opPfdExec r) :=
  operandsWellFormed_bind fun _ _ => operandsWellFormed_bind fun _ hb => operandsWellFormed_pure (fitsCount_rdBuf16 hb)

theorem opBpfCfg_wellFormed : OperandsWellFormed p (opBpfCfg r) :=
  operandsWellFormed_bind fun _ _ => operandsWellFormed_bind fun _ _ => operandsWellFormed_bind fun _ _ =>
    operandsWellFormed_bind fun _ _ => operandsWellFormed_bind fun _ htaps =>
      operandsWellFormed_pure (decide_eq_true (rdMany_length _ _ _ _ _ htaps))

theorem opBpfExec_wellFormed : OperandsWellFormed p (opBpfExec r) :=
  operandsWellFormed_bind fun _ hb => operandsWellFormed_pure (fitsCount_rdBuf16 hb)

theorem opFbfCfg_wellFormed : OperandsWellFormed p (opFbfCfg r) :=
  operandsWellFormed_bind fun _ _ => operandsWellFormed_bind fun _ htaps =>
    operandsWellFormed_pure (decide_eq_true (rdMany_length _ _ _ _ _ htaps))

theorem opFbfExec_wellFormed : OperandsWellFormed p (opFbfExec r) :=
  operandsWellFormed_bind fun _ hb => operandsWellFormed_pure (fitsCount_rdBuf32 hb)

theorem opAmdExec_wellFormed : OperandsWellFormed p (opAmdExec r) :=
  operandsWellFormed_bind fun _ hb => operandsWellFormed_pure (fitsCount_rdBuf16 hb)

theorem opFmdExec_wellFormed : OperandsWellFormed p (opFmdExec r) :=
  operandsWellFormed_bind fun _ hb => operandsWellFormed_pure (fitsCount_rdBuf16 hb)

theorem opSpcFeed_wellFormed : OperandsWellFormed p (opSpcFeed r) :=
  operandsWellFormed_bind fun _ hb => operandsWellFormed_bind fun _ _ => operandsWellFormed_bind fun _ _ =>
    operandsWellFormed_pure (fitsCount_rdBuf16 hb)

/-- AUD.CFG's reader is the one that tests a length itself (R287). -/
theorem opAudCfg_wellFormed : OperandsWellFormed p (opAudCfg p r) := by
  refine operandsWellFormed_bind fun ⟨bytes, _⟩ _ => ?_
  dsimp only
  split
  · exact operandsWellFormed_pure (decide_eq_true ‹_›)
  · intro _ hi
    cases hi

theorem opAudExec_wellFormed : OperandsWellFormed p (opAudExec r) :=
  operandsWellFormed_bind fun _ hb => operandsWellFormed_pure (fitsCount_rdBuf32 hb)

/-- MAN.DECODE is the one operation whose bound is left to its exec. -/
theorem opManDecode_wellFormed : OperandsWellFormed p (opManDecode r) :=
  operandsWellFormed_bind fun _ _ => operandsWellFormed_bind fun _ _ =>
    operandsWellFormed_some fun hbound => decide_eq_true (hbound _ _ rfl)

theorem opTopBuffer_wellFormed : OperandsWellFormed p (opTopBuffer p r) :=
  operandsWellFormed_bind fun _ hraw => operandsWellFormed_pure (decide_eq_true (rdMany_length _ _ _ _ _ hraw))

end readers

/-! ### Both interfaces -/

/-- The operation of an assigned code is well-formed: the code has no operands, or its reader keeps them in range; an
unassigned code names no operation. -/
theorem decodeCode_wellFormed {p : Params} {code : Byte} {r : List Byte} {i : Instr} (h : decodeCode p code r = .ok i)
    (hbits : ∀ bits sense, i = .manDecode bits sense → bits.length ≤ Config.manBitsMax) : wellFormed p i = true := by
  have bare : ∀ j : Instr, wellFormed p j = true → Decoded.ok j = .ok i → wellFormed p i = true :=
    fun j hj e => Decoded.ok.inj e ▸ hj
  have read : ∀ o, OperandsWellFormed p o → withOperands code o = .ok i → wellFormed p i = true := by
    rintro (_ | j) hj e
    · cases e
    · exact hj i (congrArg some (Decoded.ok.inj e)) hbits
  revert h
  unfold decodeCode
  split
  case h_38 => exact fun e => Decoded.noConfusion e
  case h_1 => exact read _ (opSend_wellFormed p r)
  case h_5 => exact read _ (opPfdCfg_wellFormed p r)
  case h_6 => exact read _ (opPfdExec_wellFormed p r)
  case h_8 => exact read _ (opBpfCfg_wellFormed p r)
  case h_9 => exact read _ (opBpfExec_wellFormed p r)
  case h_11 => exact read _ (opFbfCfg_wellFormed p r)
  case h_12 => exact read _ (opFbfExec_wellFormed p r)
  case h_15 => exact read _ (opAmdExec_wellFormed p r)
  case h_18 => exact read _ (opFmdExec_wellFormed p r)
  case h_26 => exact read _ (opSpcFeed_wellFormed p r)
  case h_31 => exact read _ (opAudCfg_wellFormed p r)
  case h_32 => exact read _ (opAudExec_wellFormed p r)
  case h_33 => exact read _ (opManDecode_wellFormed p r)
  case h_36 => exact read _ (opTopBuffer_wellFormed p r)
  any_goals exact bare _ rfl
  -- what is left reads fields of a fixed size, and every value of them is an operand
  all_goals
    refine read _ ?_
    repeat refine operandsWellFormed_bind fun _ _ => ?_
    exact operandsWellFormed_pure rfl

/-- The message of an assigned kind is well-formed if its payload is within PAYLOAD_MAX; the length of a result message is
tested by its exec (R137; log entry 12). -/
theorem decodeKind_wellFormed {p : Params} {kind : Byte} {payload : List Byte} {i : Instr} (h : decodeKind kind payload = .ok i)
    (hlen : payload.length ≤ payloadMax p)
    (hresult : ∀ pl, i ≠ .resStatistics pl ∧ i ≠ .resPacket pl ∧ i ≠ .resSpectrumReady pl) : wellFormed p i = true := by
  unfold decodeKind at h
  split at h <;> cases h
  case h_10 | h_11 | h_12 => simp at hresult
  all_goals exact decide_eq_true hlen

/-- Bytes that decode on the message port are a message of an assigned kind, with a payload within PAYLOAD_MAX (R112). -/
theorem decodeMsg_ok {p : Params} {bytes : List Byte} {i : Instr} (h : decodeMsg p bytes = .ok i) :
    ∃ kind payload, payload.length ≤ payloadMax p ∧ decodeKind kind payload = .ok i := by
  unfold decodeMsg at h
  split at h
  case h_2 kind _ l0 l1 r =>
    dsimp only at h
    split at h
    · cases h
    · rename_i hmalformed
      split at h
      · cases h
      · exact ⟨kind, _, (List.length_take_le _ _).trans (not_lt.1 (not_or.1 hmalformed).2), h⟩
  all_goals cases h

/-- Settles O3: the code's operands on the command port, the kind's payload on the message port. -/
theorem decodedIsWellFormed : Obligations.DecodedIsWellFormed := by
  rintro p ⟨port, bytes⟩ i hdecode hresult hbits
  cases port with
  | cmd =>
    cases bytes with
    | nil => cases hdecode
    | cons code r => exact decodeCode_wellFormed hdecode hbits
  | msg =>
    obtain ⟨kind, payload, hlen, hkind⟩ := decodeMsg_ok hdecode
    exact decodeKind_wellFormed hkind hlen hresult

end Sys2Proof

/-! A unit does nothing on a code that is not assigned (30_encoding.md R125, R131). -/

namespace Sys2Proof.Machine
open Sys2Proof

/-- The unit operation codes of R125. -/
def unitCodes : List Nat :=
  [0x11, 0x12, 0x13, 0x20, 0x21, 0x22, 0x30, 0x31, 0x32, 0x40, 0x41, 0x42, 0x50, 0x51, 0x52, 0x60, 0x61, 0x62, 0x70, 0x71,
    0x72, 0x80, 0x82, 0x90, 0x91, 0x92, 0x93, 0x94, 0x95, 0xA0, 0xA1, 0xA2, 0xB2, 0xC0, 0xC1, 0xC2, 0xC3]

/-- The decoder names a code outside R125 as such, whatever follows it. -/
theorem decodeCode_unassigned (p : Params) {code : Byte} (operands : List Byte) (h : code.toNat ∉ unitCodes) :
    decodeCode p code operands = .reject (.unassignedCode code) := by
  unfold decodeCode
  split
  case h_38 => rfl
  all_goals
    rename_i hcode
    exact absurd (hcode ▸ by decide) h

/-- Settles O5. -/
theorem unassignedCodeDoesNothing : Obligations.UnassignedCodeDoesNothing := by
  intro s code operands rest hagenda hcode
  have hdecode : decode s.params ⟨.cmd, code :: operands⟩ = .reject (.unassignedCode code) :=
    decodeCode_unassigned s.params operands hcode
  rw [step_cons s _ rest hagenda, hdecode, runDecoded, runRejected]

end Sys2Proof.Machine

/-! A control message of the wrong length is rejected whole (30_encoding.md R115; 60_exceptions.md R343). -/

namespace Sys2Proof.Machine
open Sys2Proof

/-! ### The fields are cut only from a payload of the right length -/

theorem cutSetMode_wrongLength {pl : List Byte} (h : wrongLength (.ctlSetMode pl)) : cutSetMode pl = none := by
  unfold cutSetMode
  split
  · exact absurd rfl h
  · rfl

theorem cutDecimator_wrongLength {pl : List Byte} (h : wrongLength (.ctlDecimatorConfig pl)) : cutDecimator pl = none := by
  unfold cutDecimator
  split
  · refine if_neg fun hr => ?_
    simp [wrongLength, hr] at h
    omega
  · rfl

theorem cutChannelFilter_wrongLength {pl : List Byte} (h : wrongLength (.ctlChannelFilterConfig pl)) :
    cutChannelFilter pl = none := by
  unfold cutChannelFilter
  split
  · refine if_neg fun hr => ?_
    simp [wrongLength, hr] at h
    omega
  · rfl

theorem cutDemod_wrongLength {pl : List Byte} (h : wrongLength (.ctlDemodConfig pl)) : cutDemod pl = none := by
  unfold cutDemod
  split
  · exact absurd rfl h
  · rfl

theorem cutBaseband_wrongLength {pl : List Byte} (h : wrongLength (.ctlBasebandFirConfig pl)) : cutBaseband pl = none := by
  unfold cutBaseband
  split
  · refine if_neg fun hr => ?_
    simp [wrongLength, hr] at h
    omega
  · rfl

theorem cutClock_wrongLength {pl : List Byte} (h : wrongLength (.ctlClockConfig pl)) : cutClock pl = none := by
  unfold cutClock
  split
  · exact absurd rfl h
  · rfl

theorem cutSpectrumStart_wrongLength {pl : List Byte} (h : wrongLength (.ctlSpectrumStart pl)) : cutSpectrumStart pl = none := by
  unfold cutSpectrumStart
  split
  · exact absurd rfl h
  · rfl

/-! ### What BB does then -/

/-- ConfigRejected sets ERRSTAT[0] and changes nothing else (R341, R343). -/
theorem done_configRejected (s : State) :
    done .none (s.raise .configRejected) = .next { s with errstat := s.errstat ||| 1, ret := .none } := rfl

/-- A control message of the wrong length raises ConfigRejected (R314: the length is checked first). -/
theorem exec_wrongLength (s : State) {i : Instr} (h : wrongLength i) : exec i s = done .none (s.raise .configRejected) := by
  cases i with
  | ctlSetMode pl => simp only [exec, execCtlSetMode, State.ctlSetMode, cutSetMode_wrongLength h, Option.bind_none]
  | ctlDecimatorConfig pl =>
    simp only [exec, execCtlDecimatorConfig, State.ctlDecimator, cutDecimator_wrongLength h]
  | ctlChannelFilterConfig pl =>
    simp only [exec, execCtlChannelFilterConfig, State.ctlChannelFilter, cutChannelFilter_wrongLength h]
  | ctlDemodConfig pl => simp only [exec, execCtlDemodConfig, State.ctlDemod, cutDemod_wrongLength h]
  | ctlBasebandFirConfig pl =>
    simp only [exec, execCtlBasebandFirConfig, State.ctlBaseband, cutBaseband_wrongLength h]
  | ctlClockConfig pl => simp only [exec, execCtlClockConfig, State.ctlClock, cutClock_wrongLength h]
  | ctlSpectrumStart pl =>
    simp only [exec, execCtlSpectrumStart, State.ctlSpectrumStart, cutSpectrumStart_wrongLength h]
  | ctlSpectrumStop pl => exact congrArg (done .none) (if_neg h)
  | _ => exact h.elim

/-- Settles O22. -/
theorem wrongLengthRejected : Obligations.WrongLengthRejected :=
  fun s _ h => (exec_wrongLength s h).trans (done_configRejected s)

end Sys2Proof.Machine

/-! The result messages are sends on B2A (30_encoding.md R117, R137; 48_top_level.md R317, R328, R329). -/

namespace Sys2Proof.Machine
open Sys2Proof

/-! ### What a send answers -/

/-- The state after an accepted send is the one R153 describes. -/
theorem State.sendAccepted_sent {s : State} {c : Chan} {kind : Byte} {payload : List Byte} (hfits : Fits s c (kind, payload)) :
    SendAccepted s (s.sent c kind payload) c (kind, payload) := by
  have hroom : 4 + payload.length ≤ s.params.mfcCap := le_trans hfits (Nat.sub_le _ _)
  refine ⟨by cases c <;> rfl, fun i hi => ?_, fun off hoff => s.sent_frame c kind payload off hoff⟩
  rw [s.sent_stored c kind payload hroom i hi, messageBytes_getD]

/-- MFC.SEND of a malformed or oversized message changes nothing (R112, R153). -/
theorem exec_mfcSend_malformed {s : State} {c : Chan} {kind : Byte} {payload : List Byte} (h : ¬ Sendable s (kind, payload)) :
    exec (.mfcSend c kind payload) s = .next { s with ret := .bool false } := by
  have hbad : badMessage s.params kind payload.length = true :=
    Bool.eq_true_of_not_eq_false (mt (badMessage_false _ _ _).1 h)
  simp only [exec, execMfcSend, State.send, hbad, if_true, done]

/-- MFC.SEND of a message that does not fit loses it, with ERRSTAT[1] on B2A only (R153; 60_exceptions.md R344). -/
theorem exec_mfcSend_noRoom {s : State} {c : Chan} {kind : Byte} {payload : List Byte} (hsend : Sendable s (kind, payload))
    (hfull : ¬ Fits s c (kind, payload)) :
    exec (.mfcSend c kind payload) s
      = .next { s with errstat := (if c = .b2a then s.errstat ||| 2 else s.errstat), ret := .bool false } := by
  have hgood : badMessage s.params kind payload.length = false := (badMessage_false _ _ _).2 hsend
  have hnoRoom : noRoom s.params (s.chan c) payload.length = true :=
    Bool.eq_true_of_not_eq_false (mt (noRoom_false _ _ _).1 hfull)
  simp only [exec, execMfcSend, State.send, hgood, hnoRoom, if_true, Bool.false_eq_true, if_false, done]
  cases c <;> rfl

/-! ### A result message is such a send, if it has its row's length -/

/-- The messages of a kind from 0x80 on are the three result messages (R117). -/
theorem resultMessage_cases {i : Instr} {kind : Byte} {payload : List Byte} (hmessage : messageOf i = some (kind, payload))
    (hkind : 0x80 ≤ kind.toNat) :
    (i = .resStatistics payload ∧ kind = 0x81) ∨ (i = .resPacket payload ∧ kind = 0x82)
      ∨ (i = .resSpectrumReady payload ∧ kind = 0x83) := by
  cases i <;> cases hmessage
  case resStatistics => exact .inl ⟨rfl, rfl⟩
  case resPacket => exact .inr (.inl ⟨rfl, rfl⟩)
  case resSpectrumReady => exact .inr (.inr ⟨rfl, rfl⟩)
  all_goals exact absurd hkind (by decide)

/-- A result message of its row's length is MFC[B2A].SEND of its kind and payload (R117, R137). -/
theorem exec_resultMessage {s : State} {i : Instr} {kind : Byte} {payload : List Byte} (hmessage : messageOf i = some (kind, payload))
    (hkind : 0x80 ≤ kind.toNat) (hlen : resultLength s.params i) : exec i s = exec (.mfcSend .b2a kind payload) s := by
  obtain ⟨rfl, rfl⟩ | ⟨rfl, rfl⟩ | ⟨rfl, rfl⟩ := resultMessage_cases hmessage hkind
  · exact if_pos ((statisticsLengthOk_iff s.params payload).2 hlen)
  · exact if_pos ((packetLengthOk_iff s.params payload).2 hlen)
  · exact if_pos ((readyLengthOk_iff s.params payload).2 hlen)

/-- A result message of another length has no step (log entries 11 and 12). -/
theorem exec_resultMessage_refused {s : State} {i : Instr} {kind : Byte} {payload : List Byte}
    (hmessage : messageOf i = some (kind, payload)) (hkind : 0x80 ≤ kind.toNat) (hlen : ¬ resultLength s.params i) :
    ∃ name, exec i s = .refused (.notEnabled name)
      ∧ (kind = 0x81 ∧ name = "RES_STATISTICS" ∨ kind = 0x82 ∧ name = "RES_PACKET"
          ∨ kind = 0x83 ∧ name = "RES_SPECTRUM_READY") := by
  obtain ⟨rfl, rfl⟩ | ⟨rfl, rfl⟩ | ⟨rfl, rfl⟩ := resultMessage_cases hmessage hkind
  · exact ⟨_, if_neg (mt (statisticsLengthOk_iff s.params payload).1 hlen), .inl ⟨rfl, rfl⟩⟩
  · exact ⟨_, if_neg (mt (packetLengthOk_iff s.params payload).1 hlen), .inr (.inl ⟨rfl, rfl⟩)⟩
  · exact ⟨_, if_neg (mt (readyLengthOk_iff s.params payload).1 hlen), .inr (.inr ⟨rfl, rfl⟩)⟩

/-- Settles O17: each clause is what the send answers. -/
theorem resultMessagesAreSent : Obligations.ResultMessagesAreSent := by
  intro s i kind payload _ hmessage hkind
  refine ⟨fun hlen hsend hfits => ?accepted, fun hlen hsend hfull => ?full, fun hlen hbad => ?malformed, fun hlen => ?refused⟩
  case accepted =>
    exact ⟨s.sent .b2a kind payload, (exec_resultMessage hmessage hkind hlen).trans (exec_mfcSend_accepted hsend hfits),
      State.sendAccepted_sent hfits⟩
  case full => exact (exec_resultMessage hmessage hkind hlen).trans (exec_mfcSend_noRoom hsend hfull)
  case malformed => exact (exec_resultMessage hmessage hkind hlen).trans (exec_mfcSend_malformed hbad)
  case refused => exact exec_resultMessage_refused hmessage hkind hlen

end Sys2Proof.Machine

/-! What MFC's operations do to a channel: SEND stores or refuses, RECV latches a malformed header, SYNC refreshes the copies
(40_message_channel.md R153, R155, R157, R158). -/

namespace Sys2Proof.Machine
open Sys2Proof

/-- Settles O21. -/
theorem syncRefreshesCopies : Obligations.SyncRefreshesCopies :=
  fun _ _ => ⟨rfl, rfl, rfl⟩

/-- Settles O16: each clause is one answer of MFC.SEND. -/
theorem sendStoresOrRefuses : Obligations.SendStoresOrRefuses := by
  intro s c kind payload
  refine ⟨fun _ hsend hfits => ?accepted, fun hbad => exec_mfcSend_malformed hbad,
    fun hsend hfull => exec_mfcSend_noRoom hsend hfull⟩
  case accepted =>
    exact ⟨s.sent c kind payload, exec_mfcSend_accepted hsend hfits, State.sendAccepted_sent hfits⟩

/-- A receive that sees four bytes and a malformed header latches the fault (R157). -/
theorem State.recv_malformed {s : State} {c : Chan} (hfault : (s.chan c).fault = false) (havail : 4 ≤ (s.chan c).avail)
    (hbad : badMessage s.params (s.headKind c) (s.headLen c) = true) : s.recv c = (s.rxMalformed c, none) := by
  simp only [State.recv, hfault, Bool.false_eq_true, if_false, Nat.not_lt.2 havail, hbad, if_true]

/-- A receive from a faulted channel, or one that shows no whole header, does nothing (R155, R157). -/
theorem State.recv_idle {s : State} {c : Chan} (h : (s.chan c).fault = true ∨ (s.chan c).avail < 4) :
    s.recv c = (s, none) := by
  unfold State.recv
  dsimp only
  split
  · rfl
  · rename_i hfault
    exact if_pos (h.resolve_left hfault)

/-- MFC.RECV answers with what the receive took (R155). -/
theorem exec_mfcRecv_of_recv {s t : State} {c : Chan} {o : Option (Byte × List Byte)} (h : s.recv c = (t, o)) :
    exec (.mfcRecv c) s = .next { t with ret := recvRet o } := by
  show done (recvRet (s.recv c).2) (s.recv c).1 = _
  rw [h, done]

/-- The error entry of a malformed header (R157; 60_exceptions.md R340, R341). -/
theorem State.rxMalformed_eq (s : State) (c : Chan) :
    s.rxMalformed c = { (s.setChan c { s.chan c with fault := true }) with
      errstat := (if c = .a2b then s.errstat ||| 8 else s.errstat) } := by
  cases c <;> rfl

/-- A header is malformed if no message with its kind and its length is sendable (R112, R157). -/
theorem badMessage_head_iff (s : State) (c : Chan) :
    badMessage s.params (s.headKind c) (s.headLen c) = true ↔ ¬ Sendable s (s.headKind c, List.replicate (s.headLen c) 0) := by
  rw [← Bool.not_eq_false, badMessage_false, Sendable, List.length_replicate]

/-- Settles O20: the receive latches the fault, or does nothing. -/
theorem malformedHeaderLatches : Obligations.MalformedHeaderLatches := by
  refine fun s c => ⟨fun hfault havail hbad => ?latch, fun hidle => exec_mfcRecv_of_recv (State.recv_idle hidle)⟩
  case latch =>
    have hrecv := State.recv_malformed hfault havail ((badMessage_head_iff s c).2 hbad)
    rw [exec_mfcRecv_of_recv hrecv, s.rxMalformed_eq, recvRet]

end Sys2Proof.Machine

/-! A ring that is filled exactly, drained and filled again (40_message_channel.md R162). -/

namespace Sys2Proof.Machine
open Sys2Proof

/-- A message that can be sent is sendable in every state of the same block. -/
theorem Sendable.of_params {s t : State} {m : Message} (h : Sendable s m) (hparams : t.params = s.params) : Sendable t m := by
  rwa [Sendable, hparams]

/-- With `r_seen` current the sender sees exactly the stored bytes in use (R152). -/
theorem State.Holds.fits_iff {s : State} {c : Chan} {vis hid : List Message} (h : s.Holds c vis hid)
    (hcurrent : (s.chan c).rSeen = (s.chan c).r) (m : Message) :
    Fits s c m ↔ 4 + m.2.length ≤ s.params.mfcCap - (queueBytes (vis ++ hid)).length := by
  rw [Fits, hcurrent, ← h.stored, ChannelRegs.used]

/-- A message fits behind those stored as long as all of them together do. -/
theorem State.Holds.fits_of_queueBytes_le {s : State} {c : Chan} {hid q : List Message} {m : Message} (h : s.Holds c [] hid)
    (hcurrent : (s.chan c).rSeen = (s.chan c).r) (hlen : (queueBytes (hid ++ m :: q)).length ≤ s.params.mfcCap) :
    Fits s c m := by
  rw [h.fits_iff hcurrent, List.nil_append]
  rw [queueBytes_append, queueBytes_cons, List.length_append, List.length_append, messageBytes_length] at hlen
  omega

/-- MFC.SEND of a message that fits puts it behind those stored, and leaves `r_seen` and `r` alone (R153). -/
theorem exists_send_accepted {s : State} {c : Chan} {m : Message} {vis hid : List Message} (hparams : paramsOk s.params = true)
    (h : s.Holds c vis hid) (hsend : Sendable s m) (hfits : Fits s c m) :
    ∃ t, exec (.mfcSend c m.1 m.2) s = .next t ∧ t.ret = .bool true ∧ t.params = s.params
      ∧ t.Holds c vis (hid ++ [m]) ∧ (t.chan c).rSeen = (s.chan c).rSeen ∧ (t.chan c).r = (s.chan c).r := by
  have hsent := h.sent hparams m.1 m.2 ((badMessage_false _ _ _).2 hsend) ((noRoom_false _ _ _).2 hfits)
  exact ⟨_, exec_mfcSend_accepted hsend hfits, rfl, s.sent_params c m.1 m.2, hsent.with_ret _, by cases c <;> rfl,
    by cases c <;> rfl⟩

/-- Sends of messages for which there is room all succeed, one behind the other. -/
theorem exists_sendAll {c : Chan} (q : List Message) : ∀ (s : State) (hid : List Message), paramsOk s.params = true →
    s.Holds c [] hid → (s.chan c).rSeen = (s.chan c).r → (∀ m ∈ q, Sendable s m) →
    (queueBytes (hid ++ q)).length ≤ s.params.mfcCap →
    ∃ t, SendAll c q s t ∧ t.params = s.params ∧ t.Holds c [] (hid ++ q) ∧ (t.chan c).rSeen = (t.chan c).r := by
  induction q with
  | nil =>
    intro s hid _ hholds hcurrent _ _
    exact ⟨s, rfl, rfl, by rwa [List.append_nil], hcurrent⟩
  | cons m q ih =>
    intro s hid hparams hholds hcurrent hsend hlen
    obtain ⟨u, hexec, hret, hu, huHolds, huSeen, hur⟩ := exists_send_accepted hparams hholds (hsend m List.mem_cons_self)
      (hholds.fits_of_queueBytes_le hcurrent hlen)
    have hrest : ∀ x ∈ q, Sendable u x := fun x hx => (hsend x (List.mem_cons_of_mem m hx)).of_params hu
    rw [List.append_cons] at hlen ⊢
    obtain ⟨t, hall, ht, htHolds, htCurrent⟩ :=
      ih u (hid ++ [m]) (hu ▸ hparams) huHolds ((huSeen.trans hcurrent).trans hur.symm) hrest (hu ▸ hlen)
    exact ⟨t, ⟨u, hexec, hret, hall⟩, ht.trans hu, htHolds, htCurrent⟩

/-- Receives return the visible messages in order and then none. -/
theorem exists_recvAll {c : Chan} (q : List Message) : ∀ s : State, paramsOk s.params = true → s.Holds c q [] →
    ∃ t, RecvAll c q s t ∧ t.params = s.params ∧ t.Holds c [] [] := by
  induction q with
  | nil =>
    intro s _ hholds
    exact ⟨_, ⟨exec_mfcRecv_nil hholds, rfl⟩, rfl, hholds.with_ret _⟩
  | cons m q ih =>
    intro s hparams hholds
    have hu : (s.received c m.2.length).params = s.params := s.setChan_params c _
    obtain ⟨t, hall, ht, htHolds⟩ := ih _ (hu ▸ hparams) ((hholds.received hparams).with_ret (.message m.1 m.2))
    exact ⟨t, ⟨_, exec_mfcRecv_cons hholds, rfl, hall⟩, ht.trans hu, htHolds⟩

/-- MFC.SYNC of both copies shows every stored message and leaves `r_seen` current (R158). -/
theorem exists_sync_both {s : State} {c : Chan} {vis hid : List Message} (h : s.Holds c vis hid) :
    ∃ t, exec (.mfcSync c .both) s = .next t ∧ t.params = s.params ∧ t.Holds c (vis ++ hid) []
      ∧ (t.chan c).rSeen = (t.chan c).r :=
  ⟨_, rfl, State.setChan_params s c _, h.sync_both.with_ret _, by cases c <;> rfl⟩

/-- MFC.SEND to a ring with no room changes no ring (R153). -/
theorem exists_send_refused {s : State} {c : Chan} {m : Message} {vis hid : List Message} (h : s.Holds c vis hid)
    (hsend : Sendable s m) (hfull : ¬ Fits s c m) :
    ∃ t, exec (.mfcSend c m.1 m.2) s = .next t ∧ t.ret = .bool false ∧ t.params = s.params ∧ t.Holds c vis hid :=
  ⟨_, exec_mfcSend_noRoom hsend hfull, rfl, rfl, h.of_same rfl (by cases c <;> rfl) rfl⟩

/-- Settles O19: fill, refuse, show, drain, and send again. -/
theorem fillDrainRefill : Obligations.FillDrainRefill := by
  intro s c q m hparams hempty hcurrent hq hlen hm
  have hcap := (capOk_bounds _ (paramsOk_cap _ hparams)).1
  obtain ⟨full, hfill, hfull, hfullHolds, hfullCurrent⟩ := exists_sendAll q s [] hparams hempty hcurrent hq hlen.le
  have hnoRoom : ¬ Fits full c m := by
    rw [hfullHolds.fits_iff hfullCurrent, List.nil_append, List.nil_append, hlen, hfull]
    omega
  obtain ⟨refused, hsend, hret, hrefused, hrefusedHolds⟩ :=
    exists_send_refused hfullHolds (hm.of_params hfull) hnoRoom
  obtain ⟨shown, hshow, hshown, hshownHolds, _⟩ := exists_sync_both hrefusedHolds
  have hshown : shown.params = s.params := hshown.trans (hrefused.trans hfull)
  obtain ⟨drained, hdrain, hdrained, hdrainedHolds⟩ := exists_recvAll q shown (hshown ▸ hparams) hshownHolds
  obtain ⟨ready, hsync, hready, hreadyHolds, hreadyCurrent⟩ := exists_sync_both hdrainedHolds
  have hready : ready.params = s.params := hready.trans (hdrained.trans hshown)
  have hfits : Fits ready c m := by
    obtain ⟨_, hmax⟩ := hm
    rw [hreadyHolds.fits_iff hreadyCurrent, hready]
    show 4 + m.2.length ≤ s.params.mfcCap - 0
    omega
  exact ⟨full, refused, shown, drained, ready, _, hfill, hsend, hret, hshow, hdrain, hsync, hreadyHolds, hreadyCurrent,
    exec_mfcSend_accepted (hm.of_params hready) hfits, rfl⟩

end Sys2Proof.Machine

/-! Every step keeps whole messages in both rings, so that no receive meets a malformed header (40_message_channel.md R153,
R155, R157, R160, R161). -/

namespace Sys2Proof.Machine
open Sys2Proof

/-! ### ERRSTAT[3] -/

namespace State

/-- ERRSTAT[3], RxMalformed (60_exceptions.md R340). -/
def malformedSeen (s : State) : Bool := errSet s.errstat .rxMalformed

theorem malformedSeen_ite {c : Prop} [Decidable c] {s t u : State} (ht : t.malformedSeen = s.malformedSeen)
    (hu : u.malformedSeen = s.malformedSeen) : (if c then t else u).malformedSeen = s.malformedSeen := by
  split
  · exact ht
  · exact hu

section
variable (s : State)

/-- Another condition sets another bit (60_exceptions.md R340). -/
theorem raise_malformedSeen {x : ErrCond} (hx : x ≠ .rxMalformed) : (s.raise x).malformedSeen = s.malformedSeen := by
  cases x with
  | rxMalformed => exact absurd rfl hx
  | configRejected | txOverflow | unknownKind | captureOverflow => simp [malformedSeen, errSet, errBits, errCode]

/-- A configuration is stored, or rejected with ERRSTAT[0] (60_exceptions.md R343). -/
theorem malformedSeen_rejected : (s.raise .configRejected).malformedSeen = s.malformedSeen := s.raise_malformedSeen (by decide)

@[simp] theorem setPfd_malformedSeen (i : Fin 3) (f : FirUnit) : (s.setPfd i f).malformedSeen = s.malformedSeen := by
  simp [malformedSeen]

@[simp] theorem pfdCfg_malformedSeen (i : Fin 3) (d t : Byte) (taps : List Half) :
    (s.pfdCfg i d t taps).malformedSeen = s.malformedSeen :=
  malformedSeen_ite (s.setPfd_malformedSeen i _) s.malformedSeen_rejected

@[simp] theorem pfdExec_malformedSeen (i : Fin 3) (b : C16Buf) : (s.pfdExec i b).malformedSeen = s.malformedSeen :=
  s.setPfd_malformedSeen i _

@[simp] theorem bpfCfg_malformedSeen (d t : Byte) (pass stop : Word) (taps : List Half) :
    (s.bpfCfg d t pass stop taps).malformedSeen = s.malformedSeen := malformedSeen_ite rfl s.malformedSeen_rejected

@[simp] theorem bpfExec_malformedSeen (b : C16Buf) : (s.bpfExec b).malformedSeen = s.malformedSeen := rfl

@[simp] theorem fbfCfg_malformedSeen (t : Byte) (taps : List F32) : (s.fbfCfg t taps).malformedSeen = s.malformedSeen :=
  malformedSeen_ite rfl s.malformedSeen_rejected

@[simp] theorem fbfExec_malformedSeen (b : F32Buf) : (s.fbfExec b).malformedSeen = s.malformedSeen := rfl

@[simp] theorem amdExec_malformedSeen (b : C16Buf) : (s.amdExec b).malformedSeen = s.malformedSeen := rfl

@[simp] theorem fmdExec_malformedSeen (b : C16Buf) : (s.fmdExec b).malformedSeen = s.malformedSeen := rfl

@[simp] theorem strCfg_malformedSeen (sr sy : Word) (g : F32) : (s.strCfg sr sy g).malformedSeen = s.malformedSeen :=
  malformedSeen_ite rfl s.malformedSeen_rejected

@[simp] theorem strPush_malformedSeen (x : F32) : (s.strPush x).1.malformedSeen = s.malformedSeen := rfl

/-- PKT.PUSH at most raises CaptureOverflow (44_packet_builder.md R243). -/
@[simp] theorem pktPush_malformedSeen (bit err : Bool) : (s.pktPush bit err).1.malformedSeen = s.malformedSeen := by
  unfold pktPush
  dsimp only
  split
  · exact s.raise_malformedSeen (x := .captureOverflow) (by decide)
  · rfl

@[simp] theorem spcStart_malformedSeen (k : Half) : (s.spcStart k).1.malformedSeen = s.malformedSeen := by
  unfold spcStart
  split
  · exact s.malformedSeen_rejected
  · rfl

@[simp] theorem spcFeed_malformedSeen (b : C16Buf) (pass stop : Word) : (s.spcFeed b pass stop).malformedSeen = s.malformedSeen :=
  rfl

@[simp] theorem audExec_malformedSeen (b : F32Buf) : (s.audExec b).malformedSeen = s.malformedSeen := by
  unfold audExec
  induction b.data generalizing s with
  | nil => rfl
  | cons x xs ih => exact ih (s.audStep b.rate x)

@[simp] theorem frontChain_malformedSeen (raw : List C8) : (s.frontChain raw).malformedSeen = s.malformedSeen := by
  simp [frontChain]

@[simp] theorem ctlSetMode_malformedSeen (pl : List Byte) : (s.ctlSetMode pl).malformedSeen = s.malformedSeen := by
  unfold ctlSetMode
  split
  · exact s.malformedSeen_rejected
  · rfl

@[simp] theorem ctlDecimator_malformedSeen (pl : List Byte) : (s.ctlDecimator pl).malformedSeen = s.malformedSeen := by
  unfold ctlDecimator
  split
  · exact s.malformedSeen_rejected
  · split
    · exact s.pfdCfg_malformedSeen _ _ _ _
    · exact s.malformedSeen_rejected

@[simp] theorem ctlChannelFilter_malformedSeen (pl : List Byte) : (s.ctlChannelFilter pl).malformedSeen = s.malformedSeen := by
  unfold ctlChannelFilter
  split
  · exact s.malformedSeen_rejected
  · exact s.bpfCfg_malformedSeen _ _ _ _ _

@[simp] theorem ctlDemod_malformedSeen (pl : List Byte) : (s.ctlDemod pl).malformedSeen = s.malformedSeen := by
  unfold ctlDemod
  split
  · exact s.malformedSeen_rejected
  · rfl

@[simp] theorem ctlBaseband_malformedSeen (pl : List Byte) : (s.ctlBaseband pl).malformedSeen = s.malformedSeen := by
  unfold ctlBaseband
  split
  · exact s.malformedSeen_rejected
  · exact s.fbfCfg_malformedSeen _ _

@[simp] theorem ctlClock_malformedSeen (pl : List Byte) : (s.ctlClock pl).malformedSeen = s.malformedSeen := by
  unfold ctlClock
  split
  · exact s.malformedSeen_rejected
  · exact s.strCfg_malformedSeen _ _ _

@[simp] theorem ctlAudio_malformedSeen (pl : List Byte) : (s.ctlAudio pl).malformedSeen = s.malformedSeen := rfl

@[simp] theorem ctlSpectrumStop_malformedSeen (pl : List Byte) : (s.ctlSpectrumStop pl).malformedSeen = s.malformedSeen :=
  malformedSeen_ite rfl s.malformedSeen_rejected

end

end State

/-! ### The invariant -/

/-- A channel at power-on holds no message (10_state.md R45). -/
theorem State.holds_nil_of_powerOn {s : State} {c : Chan} (h : s.chan c = ChannelRegs.powerOn) : s.Holds c [] [] := by
  have hused : (s.chan c).used = 0 := by rw [h]; decide
  have havail : (s.chan c).avail = 0 := by rw [h]; decide
  have hseen : (s.chan c).usedSeen = 0 := by rw [h]; decide
  exact ⟨by rw [h]; rfl, nofun, havail, hused, by rw [hused, hseen], by rw [hseen]; exact Nat.zero_le _, by rw [hused]; rfl⟩

/-- The parameters are legal and both rings hold whole messages; and, where `clear` holds, ERRSTAT[3] = 0. -/
structure State.RingsSound (clear : Prop) (s : State) : Prop where
  legal : paramsOk s.params = true
  whole : s.Whole
  unraised : clear → s.malformedSeen = false

namespace State.RingsSound

variable {clear : Prop} {s t : State}

/-- A state with the same parameters, cursors, bytes and ERRSTAT[3]. -/
theorem of_same (h : s.RingsSound clear) (hparams : t.params = s.params) (hchan : ∀ c, t.chan c = s.chan c)
    (hmem : t.mem = s.mem) (hbit : t.malformedSeen = s.malformedSeen) : t.RingsSound clear := by
  refine ⟨hparams ▸ h.legal, fun c => ?_, fun hclear => hbit.trans (h.unraised hclear)⟩
  obtain ⟨vis, hid, hholds⟩ := h.whole c
  exact ⟨vis, hid, hholds.of_same hparams (hchan c) hmem⟩

/-- A state with the same shared region and the same ERRSTAT[3]. -/
theorem of_shared (h : s.RingsSound clear) (hshared : t.shared = s.shared) (hbit : t.malformedSeen = s.malformedSeen) :
    t.RingsSound clear := by
  simp only [State.shared, SharedState.mk.injEq] at hshared
  obtain ⟨-, -, ha2b, hb2a, hmem, hparams, -⟩ := hshared
  exact h.of_same hparams (fun | .a2b => ha2b | .b2a => hb2a) hmem hbit

theorem foldl {α : Type} {f : State → α → State} (hf : ∀ s x, s.RingsSound clear → (f s x).RingsSound clear)
    (xs : List α) (s : State) (h : s.RingsSound clear) : (xs.foldl f s).RingsSound clear := by
  induction xs generalizing s with
  | nil => exact h
  | cons x xs ih => exact ih _ (hf s x h)

theorem of_done {r : Ret} (h : s.RingsSound clear) (hdone : done r s = .next t) : t.RingsSound clear := by
  rw [(done_next_iff r s t).1 hdone]
  exact h.of_shared rfl rfl

theorem of_guarded {c : Prop} [Decidable c] {r : Ret} {refusal : Refusal} (h : s.RingsSound clear)
    (hnext : (if c then done r s else .refused refusal) = .next t) : t.RingsSound clear :=
  h.of_done ((guarded_next_iff _ _ _ _).1 hnext).2

theorem raise (h : s.RingsSound clear) {x : ErrCond} (hx : x ≠ .rxMalformed) : (s.raise x).RingsSound clear :=
  h.of_shared rfl (s.raise_malformedSeen hx)

/-! ### The message channel -/

/-- The registers of one channel are written, so that its ring still holds whole messages; the other's does then too. -/
theorem setChan (h : s.RingsSound clear) (c : Chan) (x : ChannelRegs) (hc : ∃ vis hid, (s.setChan c x).Holds c vis hid) :
    (s.setChan c x).RingsSound clear := by
  refine ⟨by rw [State.setChan_params]; exact h.legal, fun d => ?_, fun hclear => ?_⟩
  · by_cases hd : d = c
    · rwa [hd]
    · obtain ⟨vis, hid, hholds⟩ := h.whole d
      exact ⟨vis, hid, hholds.of_same (by simp) (s.setChan_other c d x hd) (by simp)⟩
  · rw [malformedSeen, State.setChan_errstat]
    exact h.unraised hclear

/-- An accepted message stands whole behind those of its ring, and in no other ring (R153). -/
theorem sent (h : s.RingsSound clear) (c : Chan) (kind : Byte) (pl : List Byte)
    (hgood : badMessage s.params kind pl.length = false) (hroom : noRoom s.params (s.chan c) pl.length = false) :
    (s.sent c kind pl).RingsSound clear := by
  refine ⟨by rw [State.sent_params]; exact h.legal, fun d => ?_, fun hclear => ?_⟩
  · obtain ⟨vis, hid, hholds⟩ := h.whole d
    by_cases hd : d = c
    · subst hd
      exact ⟨vis, _, hholds.sent h.legal kind pl hgood hroom⟩
    · exact ⟨vis, hid, hholds.sent_other h.legal hd kind pl⟩
  · rw [malformedSeen, State.sent, State.setChan_errstat]
    exact h.unraised hclear

theorem send (h : s.RingsSound clear) (c : Chan) (kind : Byte) (pl : List Byte) : (s.send c kind pl).1.RingsSound clear := by
  rcases s.send_cases c kind pl with ⟨_, e⟩ | ⟨_, _, e⟩ | ⟨hgood, hroom, _⟩
  · rw [e]
    exact h
  · rw [e]
    dsimp only
    split
    · exact h.raise (by decide)
    · exact h
  · rw [s.send_sent c kind pl hgood hroom]
    exact h.sent c kind pl hgood hroom

/-- A receive takes the oldest visible message or nothing; its header is never malformed (R155, R161). -/
theorem recv (h : s.RingsSound clear) (c : Chan) : (s.recv c).1.RingsSound clear := by
  obtain ⟨vis, hid, hholds⟩ := h.whole c
  cases vis with
  | nil =>
    rw [hholds.recv_nil]
    exact h
  | cons m vis =>
    rw [hholds.recv_cons]
    exact h.setChan c _ ⟨vis, hid, hholds.received h.legal⟩

theorem sync (h : s.RingsSound clear) (c : Chan) (sel : SyncSel) :
    (s.setChan c ((s.chan c).sync sel)).RingsSound clear := by
  obtain ⟨vis, hid, hholds⟩ := h.whole c
  refine h.setChan c _ ?_
  cases sel with
  | both => exact ⟨_, _, hholds.sync_both⟩
  | wSeen => exact ⟨_, _, hholds.sync_w⟩
  | rSeen => exact ⟨_, _, hholds.sync_r⟩

/-! ### What BB issues -/

theorem ctlSpectrumStart (h : s.RingsSound clear) (pl : List Byte) : (s.ctlSpectrumStart pl).RingsSound clear := by
  unfold State.ctlSpectrumStart
  split
  · exact h.raise (by decide)
  · rename_i k _
    have hstart : (s.spcStart k).1.RingsSound clear := h.of_shared (by simp) (by simp)
    split
    · exact hstart.send _ _ _
    · exact hstart

theorem handle (h : s.RingsSound clear) (kind : Byte) (pl : List Byte) : (s.handle kind pl).RingsSound clear := by
  unfold State.handle
  split
  case h_8 => exact h.ctlSpectrumStart pl
  case h_10 => exact h.raise (by decide)
  all_goals exact h.of_shared (by simp) (by simp)

theorem dispatch (h : s.RingsSound clear) : s.dispatch.1.RingsSound clear := by
  have hrecv := h.recv .a2b
  unfold State.dispatch
  split <;> rename_i e <;> rw [e] at hrecv
  · exact hrecv
  · exact hrecv.handle _ _

theorem drainControl (n : Nat) (h : s.RingsSound clear) : (s.drainControl n).RingsSound clear := by
  induction n generalizing s with
  | zero => exact h
  | succ n ih =>
    have hdispatch := h.dispatch
    unfold State.drainControl
    split <;> rename_i e <;> rw [e] at hdispatch
    · exact hdispatch
    · exact ih hdispatch

theorem sendPacket (h : s.RingsSound clear) (o : Option (List Bool)) : (s.sendPacket o).RingsSound clear := by
  cases o with
  | none => exact h
  | some bits => exact h.send _ _ _

theorem pushSymbol (h : s.RingsSound clear) (o : Option F32) : (s.pushSymbol o).RingsSound clear := by
  cases o with
  | none => exact h
  | some y => exact sendPacket (h.of_shared (by simp) (by simp)) _

theorem pushSample (h : s.RingsSound clear) (x : F32) : (s.pushSample x).RingsSound clear :=
  pushSymbol (h.of_shared (by simp) (by simp)) _

theorem backChain (h : s.RingsSound clear) : s.backChain.RingsSound clear := by
  unfold State.backChain
  split
  case h_4 => exact foldl (fun _ x h => h.pushSample x) _ _ (h.of_shared (by simp) (by simp))
  all_goals exact h.of_shared (by simp) (by simp)

theorem consume (h : s.RingsSound clear) (raw : List C8) : (s.consume raw).RingsSound clear := by
  unfold State.consume
  split
  · exact backChain (h.of_shared (by simp) (by simp))
  · exact h

theorem topStats (h : s.RingsSound clear) : s.topStats.RingsSound clear := by
  have hcount : ({ s with bufCount := s.bufCount + 1 } : State).RingsSound clear := h.of_shared rfl rfl
  unfold State.topStats
  dsimp only
  split
  · exact (hcount.send .b2a 0x81 _).of_shared rfl rfl
  · exact hcount

theorem topBuffer (h : s.RingsSound clear) (raw : List C8) : (s.topBuffer raw).RingsSound clear :=
  ((h.drainControl _).consume raw).topStats

/-! ### The spectrum slot and the reset input -/

theorem writesSpectrum (h : s.RingsSound clear) (x : SpectrumUnit) (slot : SlotRegs) (evt : Word) :
    ({ s with spc := x, slot := slot, evt := evt } : State).RingsSound clear :=
  h.of_same rfl (fun c => by cases c <;> rfl) rfl rfl

theorem spcDrain (h : s.RingsSound clear) : s.spcDrain.1.RingsSound clear := by
  unfold State.spcDrain
  split
  · dsimp only
    split <;> exact h.writesSpectrum s.spc _ _
  · exact h

/-- After the reset input both rings are empty and ERRSTAT is clear (10_state.md R44, R45). -/
theorem hardReset (h : s.RingsSound clear) : s.hardReset.RingsSound clear := by
  refine ⟨h.legal, fun c => ⟨[], [], State.holds_nil_of_powerOn (by cases c <;> rfl)⟩, fun _ => ?_⟩
  show errSet 0 .rxMalformed = false
  decide

/-! ### Every operation and every step -/

/-- No operation leaves a ring with part of a message or raises RxMalformed. -/
theorem of_exec (h : s.RingsSound clear) {i : Instr} (hexec : exec i s = .next t) : t.RingsSound clear := by
  cases i with
  | mfcSend c kind pl => exact (h.send c kind pl).of_done hexec
  | mfcRecv c => exact (h.recv c).of_done hexec
  | mfcSync c sel => exact (h.sync c sel).of_done hexec
  | resStatistics pl => exact (h.send .b2a 0x81 pl).of_guarded hexec
  | resPacket pl => exact (h.send .b2a 0x82 pl).of_guarded hexec
  | resSpectrumReady pl => exact (h.send .b2a 0x83 pl).of_guarded hexec
  | ctlSpectrumStart pl => exact (h.ctlSpectrumStart pl).of_done hexec
  | topDispatch => exact h.dispatch.of_done hexec
  | topBuffer raw => exact (h.topBuffer raw).of_guarded hexec
  | topStats => exact h.topStats.of_done hexec
  | topReset => exact h.hardReset.of_done hexec
  | spcReset => exact (h.writesSpectrum _ _ _).of_done hexec
  | spcUpdate => exact (h.writesSpectrum _ _ _).of_guarded hexec
  | spcDrain => exact h.spcDrain.of_done hexec
  | pfdExec | bpfExec | strPush | manDecode =>
    refine of_guarded ?_ hexec
    exact h.of_shared (by simp) (by simp)
  | ctlSetMode | ctlDecimatorConfig | ctlChannelFilterConfig | ctlDemodConfig | ctlBasebandFirConfig | ctlClockConfig
  | ctlAudioConfig | ctlSpectrumStop | pfdReset | pfdCfg | bpfCfg | fbfCfg | fbfExec | amdExec | fmdExec | strCfg | pktPush
  | spcStart | spcFeed | audExec =>
    refine of_done ?_ hexec
    exact h.of_shared (by simp) (by simp)
  | bpfReset | fbfReset | amdReset | amdCfg | fmdReset | fmdCfg | strReset | pktReset | spcStop | audReset | audCfg =>
    refine of_done ?_ hexec
    exact h.of_shared rfl rfl

theorem of_step (h : s.RingsSound clear) (hstep : step s = .next t) : t.RingsSound clear := by
  have htaken : ∀ rest, ({ s with agenda := rest } : State).RingsSound clear := fun rest =>
    h.of_same rfl (fun c => by cases c <;> rfl) rfl rfl
  obtain rfl | ⟨m, rest, -, rfl | rfl | ⟨i, -, hexec⟩⟩ := step_cases hstep
  · exact h
  · exact htaken rest
  · exact (htaken rest).raise (by decide)
  · exact (htaken rest).of_exec hexec

end State.RingsSound

/-- Settles O9: the rings are sound before and after the step, whatever ERRSTAT[3] is. -/
theorem ringsHoldWholeMessages : Obligations.RingsHoldWholeMessages := by
  intro s t hparams hwhole hstep
  have hsound : s.RingsSound False := ⟨hparams, hwhole, False.elim⟩
  exact (hsound.of_step hstep).whole

/-- Settles O10: rings that hold whole messages have no fault, and no step from one raises ERRSTAT[3]. -/
theorem malformedHeaderUnreachable : Obligations.MalformedHeaderUnreachable := by
  intro s t hparams hwhole hstep hclear
  have hsound : s.RingsSound True := ⟨hparams, hwhole, fun _ => hclear⟩
  have hafter := hsound.of_step hstep
  obtain ⟨_, _, ha2b⟩ := hafter.whole .a2b
  obtain ⟨_, _, hb2a⟩ := hafter.whole .b2a
  exact ⟨hafter.unraised trivial, ha2b.noFault, hb2a.noFault⟩

end Sys2Proof.Machine

/-! The fixed-point FIR units PFD and BPF (41_fir_filters.md R171 to R182). -/

namespace Sys2Proof.Machine
open Sys2Proof

/-! ### The streaming filter that PFD and BPF share -/

/-- RESET zeroes every register of a FIR unit (R171). -/
theorem FirUnit.reset_cleared (f : FirUnit) : FirCleared f f.reset := rfl

/-- EXEC keeps the configuration (R174). -/
theorem FirUnit.exec_configured (f : FirUnit) (b : C16Buf) : (f.exec b).configured = f.configured := rfl

/-- The T-1 past samples a filter looks at are the last of the stream, in the history as in the samples themselves. -/
theorem nextHist_take {α : Type} (t : Nat) (hist input : List α) (h : t - 1 ≤ hist.length) :
    (nextHist t hist input).take (t - 1) = (input.reverse ++ hist).take (t - 1) := by
  have hnew : ((input.reverse ++ hist).take (t - 1)).length = t - 1 := by simp; omega
  rw [nextHist, List.take_left' hnew]

/-- The outputs of a call cut after a whole group are those of two calls, the second one starting from the history that the
first one leaves (R174). -/
theorem firRun_append_nextHist {d t : Nat} {taps : List Half} {hist xs : List C16} (ys : List C16) (hd : 0 < d)
    (hcut : d ∣ xs.length) (htaps : taps.length = t) (hpast : t - 1 ≤ hist.length) :
    firRun d taps 0 hist (xs ++ ys) = firRun d taps 0 hist xs ++ firRun d taps 0 (nextHist t hist xs) ys := by
  have hsame : (nextHist t hist xs).take (taps.length - 1) = (xs.reverse ++ hist).take (taps.length - 1) :=
    htaps.symm ▸ nextHist_take t hist xs hpast
  rw [firRun_append d taps xs ys 0 hist hd (by simpa using hcut), firRun_line d taps ys 0 _ _ hsame]

section Streaming
variable {f : FirUnit} {xs : List C16} (rate : Word) (ys : List C16) (hf : f.Ok) (hc : f.configured = true)
include hf hc

/-- The history of a configured unit holds the T-1 past samples. -/
theorem FirUnit.Ok.past_le : f.t.toNat - 1 ≤ f.hist.length := by
  obtain ⟨_, _, _, ht⟩ := hf.legal hc
  rw [hf.past]; omega

/-- One call on both parts yields what the two calls yield, one after the other. -/
theorem FirUnit.firRun_cut (hcut : f.d.toNat ∣ xs.length) :
    firRun f.d.toNat (f.h.take f.t.toNat) 0 f.hist (xs ++ ys)
      = firRun f.d.toNat (f.h.take f.t.toNat) 0 f.hist xs
        ++ firRun f.d.toNat (f.h.take f.t.toNat) 0 (nextHist f.t.toNat f.hist xs) ys := by
  obtain ⟨hd, _, _, ht⟩ := hf.legal hc
  exact firRun_append_nextHist ys hd hcut (by rw [List.length_take, hf.taps]; omega) (hf.past_le hc)

/-- The samples of one call are those of the two calls together. -/
theorem FirUnit.exec_append_out (hcut : f.d.toNat ∣ xs.length) :
    (f.exec ⟨rate, xs ++ ys⟩).out.data = (f.exec ⟨rate, xs⟩).out.data ++ ((f.exec ⟨rate, xs⟩).exec ⟨rate, ys⟩).out.data := by
  simp only [FirUnit.exec, f.firRun_cut ys hf hc hcut, List.map_append]

/-- The history after one call is that after the two calls, wherever the cut is. -/
theorem FirUnit.exec_append_hist :
    (f.exec ⟨rate, xs ++ ys⟩).hist = ((f.exec ⟨rate, xs⟩).exec ⟨rate, ys⟩).hist :=
  (nextHist_append f.t.toNat f.hist xs ys (hf.past_le hc)).symm

/-- The saturation flag after one call is that after the two calls. -/
theorem FirUnit.exec_append_sat (hcut : f.d.toNat ∣ xs.length) :
    (f.exec ⟨rate, xs ++ ys⟩).sat = ((f.exec ⟨rate, xs⟩).exec ⟨rate, ys⟩).sat := by
  simp only [FirUnit.exec, f.firRun_cut ys hf hc hcut, List.any_append, Bool.or_assoc]

end Streaming

/-! ### What the operations of PFD answer -/

theorem exec_pfdCfg_accepted (s : State) (i : Fin 3) {d t : Byte} (taps : List Half) (h : factorsLegal d t) :
    exec (.pfdCfg i d t taps) s = .next { s.setPfd i ((s.pfd i).cfg d t taps) with ret := .none } :=
  congrArg (done .none) (if_pos ((firLegal_iff d t).2 h))

theorem exec_pfdCfg_rejected (s : State) (i : Fin 3) {d t : Byte} (taps : List Half) (h : ¬ factorsLegal d t) :
    exec (.pfdCfg i d t taps) s = .next { s with errstat := s.errstat ||| 1, ret := .none } :=
  (congrArg (done .none) (if_neg (mt (firLegal_iff d t).1 h))).trans (done_configRejected s)

theorem exec_pfdReset (s : State) (i : Fin 3) :
    exec (.pfdReset i) s = .next { s.setPfd i (s.pfd i).reset with ret := .none } := rfl

theorem exec_pfdExec (s : State) (i : Fin 3) (b : C16Buf) (h : (s.pfd i).configured = true) :
    exec (.pfdExec i b) s = .next { s.setPfd i ((s.pfd i).exec b) with ret := .buf16 ((s.pfd i).exec b).out } :=
  if_pos h

/-- The result of an operation is no register of PFD. -/
theorem State.pfd_ret (s : State) (r : Ret) (i : Fin 3) : ({ s with ret := r } : State).pfd i = s.pfd i := rfl

/-- Settles O29. -/
theorem decimatorConfigAndReset : Obligations.DecimatorConfigAndReset := by
  intro s i d t taps
  refine ⟨fun hlegal => ?accepted, fun hillegal => exec_pfdCfg_rejected s i taps hillegal, ?reset⟩
  case accepted => exact ⟨_, exec_pfdCfg_accepted s i taps hlegal, (s.pfd i).cfg_configured d t taps hlegal⟩
  case reset => exact ⟨_, exec_pfdReset s i, (s.pfd i).reset_cleared⟩

/-- Settles O30: `FirUnit.exec_step` is the convolution. -/
theorem decimatorConvolves : Obligations.DecimatorConvolves := by
  intro s i b hok hconfigured
  exact ⟨_, exec_pfdExec s i b hconfigured, (s.pfd i).exec_step hok hconfigured b⟩

/-! ### What the operations of BPF answer -/

/-- The operand test of BPF.CFG says what R181 says. -/
theorem bpfLegal_iff {d t : Byte} {pass stop : Word} :
    (firLegal d t && edgesLegal pass stop) = true ↔ factorsLegal d t ∧ pass ≠ 0 ∧ pass.toNat < stop.toNat := by
  simp only [edgesLegal, Bool.and_eq_true, firLegal_iff, bne_iff_ne, decide_eq_true_eq]

theorem exec_bpfCfg_accepted (s : State) {d t : Byte} {pass stop : Word} (taps : List Half) (hfactors : factorsLegal d t)
    (hedges : pass ≠ 0 ∧ pass.toNat < stop.toNat) :
    exec (.bpfCfg d t pass stop taps) s
      = .next { s with bpf := { fir := s.bpf.fir.cfg d t taps, passHz := pass, stopHz := stop }, ret := .none } :=
  congrArg (done .none) (if_pos (bpfLegal_iff.2 ⟨hfactors, hedges⟩))

theorem exec_bpfCfg_rejected (s : State) {d t : Byte} {pass stop : Word} (taps : List Half)
    (h : ¬ (factorsLegal d t ∧ pass ≠ 0 ∧ pass.toNat < stop.toNat)) :
    exec (.bpfCfg d t pass stop taps) s = .next { s with errstat := s.errstat ||| 1, ret := .none } :=
  (congrArg (done .none) (if_neg (mt bpfLegal_iff.1 h))).trans (done_configRejected s)

theorem exec_bpfReset (s : State) :
    exec .bpfReset s = .next { s with bpf := { fir := s.bpf.fir.reset, passHz := 0, stopHz := 0 }, ret := .none } := rfl

theorem exec_bpfExec (s : State) (b : C16Buf) (h : s.bpf.fir.configured = true) :
    exec (.bpfExec b) s
      = .next { s with bpf := { s.bpf with fir := s.bpf.fir.exec b }, ret := .buf16 (s.bpf.fir.exec b).out } :=
  if_pos h

/-- Settles O31. -/
theorem channelFilterOperations : Obligations.ChannelFilterOperations := by
  intro s d t pass stop taps b
  refine ⟨fun hfactors hpass hstop => ?accepted, fun hillegal => ?rejected, ?reset, fun hok hconfigured => ?exec⟩
  case accepted =>
    exact ⟨_, exec_bpfCfg_accepted s taps hfactors ⟨hpass, hstop⟩, s.bpf.fir.cfg_configured d t taps hfactors⟩
  case rejected =>
    refine exec_bpfCfg_rejected s taps ?_
    rintro ⟨hfactors, hpass, hstop⟩
    obtain h | h | h := hillegal
    · exact h hfactors
    · exact hpass h
    · exact absurd hstop (Nat.not_lt.2 h)
  case reset => exact ⟨_, exec_bpfReset s, s.bpf.fir.reset_cleared⟩
  case exec => exact ⟨_, exec_bpfExec s b hconfigured, s.bpf.fir.exec_step hok.fir hconfigured b⟩

/-! ### Two calls and one call -/

/-- Settles O32: both units are the same streaming filter. -/
theorem decimatorStreams : Obligations.DecimatorStreams := by
  intro s rate xs ys
  refine ⟨fun i hok hconfigured hcut => ?pfd, fun hok hconfigured hcut => ?bpf⟩
  case pfd =>
    refine ⟨_, _, _, exec_pfdExec s i _ hconfigured, exec_pfdExec _ i _ ?_, exec_pfdExec s i _ hconfigured, ?_⟩
    · simpa only [State.pfd_ret, State.setPfd_pfd, FirUnit.exec_configured] using hconfigured
    · simp only [State.pfd_ret, State.setPfd_pfd]
      exact ⟨FirUnit.exec_append_out rate ys hok hconfigured hcut, FirUnit.exec_append_hist rate ys hok hconfigured,
        FirUnit.exec_append_sat rate ys hok hconfigured hcut⟩
  case bpf =>
    exact ⟨_, _, _, exec_bpfExec s _ hconfigured, exec_bpfExec _ _ hconfigured, exec_bpfExec s _ hconfigured,
      FirUnit.exec_append_out rate ys hok.fir hconfigured hcut, FirUnit.exec_append_hist rate ys hok.fir hconfigured,
      FirUnit.exec_append_sat rate ys hok.fir hconfigured hcut⟩

end Sys2Proof.Machine

/-! The real-valued filter FBF (41_fir_filters.md R186 to R188). -/

namespace Sys2Proof.Machine
open Sys2Proof

/-- The count test says what R187 says. -/
theorem fbfLegal_iff (t : Byte) : fbfLegal t = true ↔ 1 ≤ t.toNat ∧ t.toNat ≤ 32 := by
  simp only [fbfLegal, Bool.and_eq_true, decide_eq_true_eq]; rfl

/-! ### The outputs and the history of a healthy unit -/

section Healthy
variable {f : BasebandUnit} (hf : f.Ok)
include hf

/-- The first T of the 32 tap registers are in use. -/
theorem BasebandUnit.Ok.take_length : (f.h.take f.t.toNat).length = f.t.toNat := by
  obtain ⟨_, ht⟩ := hf.count
  rw [List.length_take, hf.taps, Nat.min_eq_left ht]

/-- The history holds the T-1 past samples. -/
theorem BasebandUnit.Ok.past_le : f.t.toNat - 1 ≤ f.hist.length := by
  obtain ⟨_, ht⟩ := hf.count
  rw [hf.past]; omega

/-- The accumulation over the past of sample n, newest first, is that of R188. -/
theorem BasebandUnit.Ok.dotF32_eq_fbfAcc (d : Nat) (input : List F32) {n : Nat} (hn : n < input.length) :
    dotF32 (d + 2 * f.t.toNat * n) 0 (f.h.take f.t.toNat) ((input.take (n + 1)).reverse ++ f.hist) = fbfAcc f d input n := by
  have hpast := hf.past_le
  rw [dotF32_eq _ _ _ _ (by simp [hf.take_length]; omega), hf.take_length, fbfAcc]
  refine List.foldl_ext _ _ _ fun acc k hk => ?_
  have htap : (f.h.take f.t.toNat).getD k 0 = f.h.getD k 0 := by simp [List.mem_range.1 hk]
  rw [htap, stream_getD 0 f.hist input n k hn]

/-- One output for each input, each the sum of R188. -/
theorem BasebandUnit.Ok.exec_out (d : Nat) (b : F32Buf) :
    (f.exec d b).out.data = (List.range b.data.length).map (fbfAcc f d b.data) := by
  simp only [BasebandUnit.exec, fbfRun_eq, hf.take_length]
  exact List.map_congr_left fun n hn => hf.dotF32_eq_fbfAcc d b.data (List.mem_range.1 hn)

/-- Below T the history is shifted by the inputs, and from T on it is kept (R188). -/
theorem BasebandUnit.Ok.exec_hist (d : Nat) (b : F32Buf) {j : Nat} (hj : 1 ≤ j) :
    (f.exec d b).hist.getD (j - 1) 0
      = if j < f.t.toNat then streamAt 0 f.hist b.data b.data.length j else f.hist.getD (j - 1) 0 := by
  split
  case isTrue hlo => exact nextHist_lo 0 _ _ _ hf.past_le j hj (by omega)
  case isFalse hhi => exact nextHist_hi 0 _ _ _ hf.past_le j hj (by omega)

end Healthy

/-! ### What the operations of FBF answer -/

theorem exec_fbfCfg_accepted (s : State) {t : Byte} (taps : List F32) (h : 1 ≤ t.toNat ∧ t.toNat ≤ 32) :
    exec (.fbfCfg t taps) s = .next { s with fbf := s.fbf.cfg t taps, ret := .none } :=
  congrArg (done .none) (if_pos ((fbfLegal_iff t).2 h))

theorem exec_fbfCfg_rejected (s : State) {t : Byte} (taps : List F32) (h : ¬ (1 ≤ t.toNat ∧ t.toNat ≤ 32)) :
    exec (.fbfCfg t taps) s = .next { s with errstat := s.errstat ||| 1, ret := .none } :=
  (congrArg (done .none) (if_neg (mt (fbfLegal_iff t).1 h))).trans (done_configRejected s)

theorem exec_fbfReset (s : State) : exec .fbfReset s = .next { s with fbf := s.fbf.reset, ret := .none } := rfl

theorem exec_fbfExec (s : State) (b : F32Buf) :
    exec (.fbfExec b) s
      = .next { s with fbf := s.fbf.exec s.draws b, draws := s.draws + 2 * s.fbf.t.toNat * b.data.length,
                       ret := .buf32 (s.fbf.exec s.draws b).out } := rfl

/-- Settles O33. -/
theorem basebandFilterOperations : Obligations.BasebandFilterOperations := by
  intro s t taps b
  refine ⟨fun hlo hhi => ?accepted, fun hillegal => ?rejected, exec_fbfReset s, fun hok => ?exec⟩
  case accepted =>
    exact ⟨_, exec_fbfCfg_accepted s taps ⟨hlo, hhi⟩, s.fbf.cfg_t t taps hhi, padTaps_length _ _ _,
      fun k hk => padTaps_getD _ _ _ k hk, rfl, rfl⟩
  case rejected => exact exec_fbfCfg_rejected s taps (by omega)
  case exec =>
    exact ⟨_, _, exec_fbfExec s b, rfl, hok.exec_out s.draws b, rfl, rfl, (hok.exec s.draws b).past,
      fun j hj _ => hok.exec_hist s.draws b hj⟩

end Sys2Proof.Machine

/-! The demodulators AMD and FMD (42_demodulators.md R201 to R213). -/

namespace Sys2Proof.Machine
open Sys2Proof

/-! ### What the operations of AMD answer -/

theorem exec_amdReset (s : State) : exec .amdReset s = .next { s with amd := s.amd.reset, ret := .none } := rfl

theorem exec_amdCfg (s : State) (ssb : Bool) (inc : Word) :
    exec (.amdCfg ssb inc) s = .next { s with amd := s.amd.cfg ssb inc, ret := .none } := rfl

theorem exec_amdExec (s : State) (b : C16Buf) :
    exec (.amdExec b) s = .next { s with amd := s.amd.exec b, ret := .buf32 (s.amd.exec b).out } := rfl

/-! ### The outputs and the phase of AMD -/

theorem AmUnit.exec_of_envelope {u : AmUnit} (h : u.ssb = false) (b : C16Buf) :
    u.exec b = { u with out := ⟨b.rate, b.data.map envelope⟩ } := by
  simp [AmUnit.exec, h]

theorem AmUnit.exec_of_product {u : AmUnit} (h : u.ssb = true) (b : C16Buf) :
    u.exec b = { u with bfoPhase := u.bfoPhase + BitVec.ofNat 32 b.data.length * u.bfoInc,
                        out := ⟨b.rate, productRun u.bfoInc u.bfoPhase b.data⟩ } :=
  if_pos h

/-- PRODUCT draws no free value (R205). -/
theorem product_draw (d : Nat) (phase : Word) (x : C16) :
    f32Mul d (intToF32 (carrierProduct phase x)) 0x30800000 = product phase x :=
  mul_draw d 0 _ _ (int_notnan _) false 0x800000 (-53) (by decide) (by decide)

/-- Only the phase advances, and only in product mode. -/
theorem AmUnit.exec_eq (u : AmUnit) (b : C16Buf) :
    u.exec b = { u with
      bfoPhase := if u.ssb then u.bfoPhase + BitVec.ofNat 32 b.data.length * u.bfoInc else u.bfoPhase,
      out := (u.exec b).out } := by
  cases h : u.ssb with
  | false => simp [AmUnit.exec_of_envelope h, h]
  | true => simp [AmUnit.exec_of_product h, h]

@[simp] theorem AmUnit.exec_out_rate (u : AmUnit) (b : C16Buf) : (u.exec b).out.rate = b.rate := by
  cases h : u.ssb with
  | false => rw [AmUnit.exec_of_envelope h]
  | true => rw [AmUnit.exec_of_product h]

/-- One output for each input (R212). -/
theorem AmUnit.exec_out_length (u : AmUnit) (b : C16Buf) : (u.exec b).out.data.length = b.data.length := by
  cases h : u.ssb with
  | false => rw [AmUnit.exec_of_envelope h]; exact List.length_map _
  | true => rw [AmUnit.exec_of_product h]; exact productRun_length _ _ _

/-- Output n is ENVELOPE of sample n, or its PRODUCT at the phase n increments on. -/
theorem AmUnit.exec_out_getD (u : AmUnit) (b : C16Buf) {n : Nat} (hn : n < b.data.length) :
    (u.exec b).out.data.getD n 0
      = if u.ssb then product (u.bfoPhase + BitVec.ofNat 32 n * u.bfoInc) (b.data.getD n C16.zero)
        else envelope (b.data.getD n C16.zero) := by
  cases h : u.ssb with
  | false => simp [AmUnit.exec_of_envelope h, hn]
  | true => rw [AmUnit.exec_of_product h, if_pos rfl]; exact productRun_getD _ _ _ n hn

/-- One call on both parts is the two calls, but for the buffer it returns. -/
theorem AmUnit.exec_append (u : AmUnit) (rate : Word) (xs ys : List C16) :
    u.exec ⟨rate, xs ++ ys⟩
      = { (u.exec ⟨rate, xs⟩).exec ⟨rate, ys⟩ with
          out := ⟨rate, (u.exec ⟨rate, xs⟩).out.data ++ ((u.exec ⟨rate, xs⟩).exec ⟨rate, ys⟩).out.data⟩ } := by
  cases h : u.ssb with
  | false => simp [AmUnit.exec, h]
  | true =>
    simp [AmUnit.exec, h, productRun_append, BitVec.ofNat_add, BitVec.add_mul, BitVec.add_assoc]

/-- Settles O34: neither detector draws a free value. -/
theorem amDemodulatorOperations : Obligations.AmDemodulatorOperations := by
  intro s ssb inc b d1 d2
  refine ⟨exec_amdReset s, exec_amdCfg s ssb inc, (s.amd.exec b).out, s.amd.exec_out_rate b, ?next,
    s.amd.exec_out_length b, fun n hn => ?outputs⟩
  case next => rw [exec_amdExec, ← AmUnit.exec_eq]
  case outputs =>
    rw [s.amd.exec_out_getD b hn, ← product_draw d1, ← envelope_draw d1 d2]
    rfl

/-! ### What the operations of FMD answer -/

theorem exec_fmdReset (s : State) : exec .fmdReset s = .next { s with fmd := s.fmd.reset, ret := .none } := rfl

theorem exec_fmdCfg (s : State) (gain : F32) :
    exec (.fmdCfg gain) s = .next { s with fmd := s.fmd.cfg gain, ret := .none } := rfl

theorem exec_fmdExec (s : State) (b : C16Buf) :
    exec (.fmdExec b) s
      = .next { s with fmd := s.fmd.exec s.draws b, draws := s.draws + b.data.length,
                       ret := .buf32 (s.fmd.exec s.draws b).out } := rfl

/-! ### The operands of ANGLE -/

/-- The product of two 16-bit integers has at most 31 bits. -/
theorem natAbs_mul_half_le (x y : Half) : (x.toInt * y.toInt).natAbs ≤ 2 ^ 30 := by
  have bound : ∀ z : Half, z.toInt.natAbs ≤ 2 ^ 15 := fun z => by
    have := z.le_toInt
    have := z.toInt_lt
    omega
  calc (x.toInt * y.toInt).natAbs = x.toInt.natAbs * y.toInt.natAbs := Int.natAbs_mul _ _
    _ ≤ 2 ^ 15 * 2 ^ 15 := Nat.mul_le_mul (bound x) (bound y)

theorem natAbs_conjRe_le (s z : C16) : (conjRe s z).natAbs ≤ 2 ^ 31 := by
  have := natAbs_mul_half_le s.re z.re
  have := natAbs_mul_half_le s.im z.im
  unfold conjRe
  omega

theorem natAbs_conjIm_le (s z : C16) : (conjIm s z).natAbs ≤ 2 ^ 31 := by
  have := natAbs_mul_half_le s.im z.re
  have := natAbs_mul_half_le s.re z.im
  unfold conjIm
  omega

/-- ANGLE of a conjugate product draws no free value (R208, R209). -/
theorem angle_conj_draw (d : Nat) (s z : C16) :
    angle (conjRe s z) (conjIm s z) = angleAt d (conjRe s z) (conjIm s z) :=
  angle_draw d _ _ ((natAbs_conjRe_le s z).trans (by decide)) ((natAbs_conjIm_le s z).trans (by decide))

/-! ### The outputs and the past sample of FMD -/

/-- The sample before a buffer stays the past sample if the buffer is empty; else the last of the buffer becomes it. -/
theorem getLast_cons_eq_getD (z : C16) (xs : List C16) :
    (z :: xs).getLast (by simp) = if xs.length = 0 then z else xs.getD (xs.length - 1) C16.zero := by
  cases xs with
  | nil => rfl
  | cons x xs => simp [List.getLast_eq_getElem]

/-- Output n is the gain times ANGLE of sample n against the conjugate of the one before it (R209). -/
theorem FmUnit.exec_out_getD (u : FmUnit) (d d' : Nat) (b : C16Buf) {n : Nat} (hn : n < b.data.length) :
    (u.exec d b).out.data.getD n 0 =
      let x := b.data.getD n C16.zero
      let z := if n = 0 then u.zPrev else b.data.getD (n - 1) C16.zero
      f32Mul (d + n) (angleAt d' (conjRe x z) (conjIm x z)) u.gain := by
  simp only [← angle_conj_draw]
  exact fmdRun_getD u.gain b.data d u.zPrev n hn

/-- One call on both parts is the two calls, but for the buffer it returns. -/
theorem FmUnit.exec_append (u : FmUnit) (d : Nat) (rate : Word) (xs ys : List C16) :
    u.exec d ⟨rate, xs ++ ys⟩
      = { (u.exec d ⟨rate, xs⟩).exec (d + xs.length) ⟨rate, ys⟩ with
          out := ⟨rate, (u.exec d ⟨rate, xs⟩).out.data
            ++ ((u.exec d ⟨rate, xs⟩).exec (d + xs.length) ⟨rate, ys⟩).out.data⟩ } := by
  have hlast : (u.zPrev :: (xs ++ ys)).getLast (by simp)
      = ((u.zPrev :: xs).getLast (by simp) :: ys).getLast (by simp) := by
    cases ys with
    | nil => simp
    | cons y ys => simp [List.getLast_cons]
  simp only [FmUnit.exec, fmdRun_append, hlast]

/-- Settles O35: ANGLE draws no free value, so its check values are those of the model's `angle`. -/
theorem fmDemodulatorOperations : Obligations.FmDemodulatorOperations := by
  refine ⟨fun s gain b d => ?operations, fun d => ?values⟩
  case operations =>
    refine ⟨exec_fmdReset s, exec_fmdCfg s gain, (s.fmd.exec s.draws b).out, s.draws + b.data.length, rfl, ?next,
      fmdRun_length _ _ _ _, fun n hn => s.fmd.exec_out_getD s.draws d b hn⟩
    case next => rw [exec_fmdExec, ← getLast_cons_eq_getD]; rfl
  case values =>
    simp (disch := decide) only [← angle_draw]
    decide +kernel

/-! ### Two calls and one call -/

/-- Settles O36: the phase and the past sample carry all that the second call needs. -/
theorem demodulatorsAreBlockIndependent : Obligations.DemodulatorsAreBlockIndependent := by
  intro s rate xs ys
  refine ⟨⟨_, _, _, exec_amdExec s _, exec_amdExec _ _, exec_amdExec s _, ?amd⟩,
    ⟨_, _, _, exec_fmdExec s _, exec_fmdExec _ _, exec_fmdExec s _, ?fmd⟩⟩
  case amd => rw [AmUnit.exec_append]
  case fmd => rw [FmUnit.exec_append, List.length_append, ← Nat.add_assoc]

end Sys2Proof.Machine

/-! Clock recovery, STR (43_clock_recovery.md R221 to R229; 48_top_level.md R323). -/

namespace Sys2Proof.Machine
open Sys2Proof

/-! ### What the configuration operations of STR answer -/

theorem exec_strCfg_accepted (s : State) {a b : Word} {gain : F32} (h : clockAccepted a b gain) :
    exec (.strCfg a b gain) s = .next { s with str := clockConfigured a b gain, ret := .none } :=
  congrArg (done .none) (if_pos ((clockLegal_iff a b gain).2 h))

theorem exec_strCfg_rejected (s : State) {a b : Word} {gain : F32} (h : ¬ clockAccepted a b gain) :
    exec (.strCfg a b gain) s = .next { s with errstat := s.errstat ||| 1, ret := .none } :=
  (congrArg (done .none) (if_neg (mt (clockLegal_iff a b gain).1 h))).trans (done_configRejected s)

/-- Three little-endian words are cut from a payload of 12 bytes (30_encoding.md R113, R123). -/
theorem cutClock_eq {pl : List Byte} (h : pl.length = 12) :
    cutClock pl = some ⟨wordAt pl 0, wordAt pl 4, wordAt pl 8⟩ := by
  match pl, h with
  | [_, _, _, _, _, _, _, _, _, _, _, _], _ => rfl

/-- A message of the right length is STR.CFG with its fields (R323). -/
theorem exec_ctlClockConfig (s : State) {pl : List Byte} (h : pl.length = 12) :
    exec (.ctlClockConfig pl) s = exec (.strCfg (wordAt pl 0) (wordAt pl 4) (wordAt pl 8)) s := by
  simp only [exec, execCtlClockConfig, State.ctlClock, cutClock_eq h, execStrCfg]

/-! ### The phase increment -/

namespace ClockUnit.Ok

variable {u : ClockUnit}

/-- At least one symbol in 2^32 samples: the sample rate is below 2^32 (R222). -/
theorem inc_pos (h : u.Ok) (hconfigured : u.configured = true) : 1 ≤ u.inc.toNat := by
  obtain ⟨hsymbol, hrates, hinc, _⟩ := h.legal hconfigured
  have := u.sampleRate.isLt
  rw [hinc, Nat.one_le_div_iff (by omega)]
  omega

/-- At most one symbol in two samples (R222). -/
theorem inc_le (h : u.Ok) (hconfigured : u.configured = true) : u.inc.toNat ≤ 2 ^ 31 := by
  obtain ⟨hsymbol, hrates, hinc, _⟩ := h.legal hconfigured
  rw [hinc]
  refine Nat.div_le_of_le_mul ?_
  omega

end ClockUnit.Ok

/-- An accepted configuration is a legal unit. -/
theorem clockConfigured_ok {a b : Word} {gain : F32} (h : clockAccepted a b gain) : (clockConfigured a b gain).Ok :=
  ClockUnit.Ok.cfg (u := ClockUnit.powerOn) ((clockLegal_iff a b gain).2 h)

/-- Settles O37: CTL_CLOCK_CONFIG is STR.CFG on the fields of the message. -/
theorem clockConfigAndReset : Obligations.ClockConfigAndReset := by
  intro s a b gain pl
  refine ⟨fun haccepted => ?accepted, exec_strCfg_rejected s, fun hlen haccepted => ?message,
    fun hlen hrejected => ?rejectedMessage, rfl⟩
  case accepted =>
    have hok := clockConfigured_ok haccepted
    obtain ⟨_, _, hinc, _⟩ := hok.legal rfl
    exact ⟨exec_strCfg_accepted s haccepted, hok.inc_pos rfl, hok.inc_le rfl, hinc⟩
  case message => exact (exec_ctlClockConfig s hlen).trans (exec_strCfg_accepted s haccepted)
  case rejectedMessage => exact (exec_ctlClockConfig s hlen).trans (exec_strCfg_rejected s hrejected)

/-! ### What STR.PUSH answers -/

theorem exec_strPush (s : State) (x : F32) (h : s.str.configured = true) :
    exec (.strPush x) s
      = .next { s with str := (s.str.push s.draws x).1, draws := s.draws + 4,
                       ret := symbolRet (s.str.push s.draws x).2 } :=
  if_pos h

/-- The sum of a PUSH does not show what a NaN in `adj` drew (R225). -/
theorem pushSum_eq (u : ClockUnit) (d1 d2 : Nat) : pushSum u d1 d2 = phaseSum u := by
  simp only [pushSum, phaseSum, adj, clamp, toS32_mul2 d1 d2 0 0, loopK]

namespace ClockUnit

/-- Below a symbol boundary only the phase changes (R224). -/
theorem push_of_lt {u : ClockUnit} (h : phaseSum u < 2 ^ 32) (d : Nat) (x : F32) :
    u.push d x = ({ u with phase := BitVec.ofInt 32 (phaseSum u) }, none) := by
  have hwraps : phaseWraps u = false := decide_eq_false (not_le.2 h)
  simp [push, hwraps]

/-- At a symbol boundary the sample is the symbol (R224). -/
theorem push_of_ge {u : ClockUnit} (h : 2 ^ 32 ≤ phaseSum u) (d : Nat) (x : F32) :
    u.push d x = (pushedSymbol u d (phaseSum u) x, some x) := by
  have hwraps : phaseWraps u = true := decide_eq_true h
  have hphase : BitVec.ofInt 32 (phaseSum u % 2 ^ 32) = BitVec.ofInt 32 (phaseSum u) :=
    BitVec.eq_of_toNat_eq (by simp [BitVec.toNat_ofInt])
  rw [push, if_pos hwraps, pushedSymbol, hphase]
  rfl

/-- The adjustment is at most half an increment either way (R225). -/
theorem adj_bounds (ef : F32) (inc : Word) :
    -((inc.toNat / 2 : Nat) : Int) ≤ adj ef inc ∧ adj ef inc ≤ ((inc.toNat / 2 : Nat) : Int) := by
  unfold adj clamp
  dsimp only
  omega

/-- The phase always moves forward, and crosses at most one symbol boundary (R224). -/
theorem Ok.phaseSum_bounds {u : ClockUnit} (h : u.Ok) (hconfigured : u.configured = true) :
    0 < phaseSum u ∧ phaseSum u < 2 ^ 33 := by
  have hlow := h.inc_pos hconfigured
  have hhigh := h.inc_le hconfigured
  obtain ⟨hadjLow, hadjHigh⟩ := adj_bounds u.ef u.inc
  have := u.phase.isLt
  unfold phaseSum
  omega

end ClockUnit

/-- Settles O38: a PUSH below the boundary and one that reaches it. -/
theorem clockPushAdvancesPhase : Obligations.ClockPushAdvancesPhase := by
  intro s x d1 d2 hok hconfigured
  rw [pushSum_eq]
  obtain ⟨hpos, hlt⟩ := hok.phaseSum_bounds hconfigured
  refine ⟨hpos, hlt, s.draws + 4, fun hbelow => ?below, fun hreached => ?reached⟩
  case below => rw [exec_strPush s x hconfigured, ClockUnit.push_of_lt hbelow]; rfl
  case reached => rw [exec_strPush s x hconfigured, ClockUnit.push_of_ge hreached]; rfl

/-! ### The loop filter on zeros -/

/-- A product with +0.0 converts to 0: it is a zero of either sign, or the NaN of an infinity times 0. -/
theorem f32ToS32_zero_mul (d : Nat) (c : F32) : f32ToS32 (f32Mul d 0 c) = 0 := by
  have hzero : f32View (0 : F32) = .fin false 0 (-149) := view_zeroOf false
  have hnan : f32ToS32 (f32NaN d) = 0 := by unfold f32ToS32; rw [nan_view]
  have hsigned : ∀ n, f32ToS32 (zeroOf n) = 0 := by decide
  unfold f32Mul
  rw [hzero]
  cases f32View c with
  | nan => exact hnan
  | inf t => exact hnan
  | fin t n f =>
    dsimp only
    rw [Nat.zero_mul]
    exact (congrArg f32ToS32 (pack_zero _)).trans (hsigned _)

/-- A clear error filter adjusts nothing (R229). -/
theorem adj_zero (inc : Word) : adj 0 inc = 0 := by
  have hproduct : f32Mul 0 0 loopK = 0 := by decide
  unfold adj clamp
  rw [hproduct, f32ToS32_zero_mul]
  dsimp only
  omega

/-- A number times +0.0 is a zero. -/
theorem f32Mul_zero_right (d : Nat) {x : F32} (hx : IsFinite x) : ∃ n, f32Mul d x 0 = zeroOf n := by
  have hzero : f32View (0 : F32) = .fin false 0 (-149) := view_zeroOf false
  obtain ⟨s, m, e, hview⟩ := view_of_finite x hx
  refine ⟨s != false, ?_⟩
  unfold f32Mul
  rw [hview, hzero]
  exact pack_zero _

/-- +0.0 plus a zero of either sign is +0.0. -/
theorem f32Add_zero_zeroOf (d : Nat) (n : Bool) : f32Add d 0 (zeroOf n) = 0 := by
  cases n <;> rfl

theorem timingError_zero (d : Nat) : timingError d 0 0 = 0 := rfl

/-- A clear error filter stays clear on a clear error (R229). -/
theorem filterError_zero (d : Nat) {gain : F32} (h : IsFinite gain) : filterError d gain 0 0 = 0 := by
  have hdiff : f32Sub d 0 0 = 0 := rfl
  obtain ⟨n, hmul⟩ := f32Mul_zero_right (d + 1) h
  rw [filterError, hdiff, hmul, f32Add_zero_zeroOf]

/-! ### The unit on zeros -/

namespace ClockUnit

/-- A configured unit whose loop has met no signal: the state an accepted STR.CFG leaves, at any phase. -/
structure AtRest (u : ClockUnit) : Prop where
  configured : u.configured = true
  gain : IsFinite u.gain
  last : u.last = 0
  ef : u.ef = 0

/-- The unit `n` increments on. -/
def advanced (u : ClockUnit) (n : Nat) : ClockUnit := { u with phase := u.phase + BitVec.ofNat 32 n * u.inc }

theorem AtRest.advanced {u : ClockUnit} (h : u.AtRest) (n : Nat) : (u.advanced n).AtRest :=
  ⟨h.configured, h.gain, h.last, h.ef⟩

theorem advanced_zero (u : ClockUnit) : u.advanced 0 = u := by simp [advanced]

theorem advanced_add (u : ClockUnit) (n m : Nat) : (u.advanced n).advanced m = u.advanced (n + m) := by
  simp [advanced, BitVec.ofNat_add, BitVec.add_mul, BitVec.add_assoc]

theorem advanced_phase_toNat (u : ClockUnit) (n : Nat) :
    (u.advanced n).phase.toNat = (u.phase.toNat + n * u.inc.toNat) % 2 ^ 32 := by
  simp [advanced, Nat.add_mod, Nat.mul_mod]

theorem AtRest.phaseSum_eq {u : ClockUnit} (h : u.AtRest) :
    phaseSum u = ((u.phase.toNat + u.inc.toNat : Nat) : Int) := by
  rw [phaseSum, h.ef, adj_zero]
  push_cast
  ring

/-- A zero only advances the phase, by the increment; it is a symbol at each boundary (R224, R229). -/
theorem AtRest.push_zero {u : ClockUnit} (h : u.AtRest) (d : Nat) :
    u.push d 0 = (u.advanced 1, if 2 ^ 32 ≤ u.phase.toNat + u.inc.toNat then some 0 else none) := by
  have hsum := h.phaseSum_eq
  have hphase : BitVec.ofInt 32 (phaseSum u) = u.phase + 1#32 * u.inc := by
    rw [hsum, BitVec.ofInt_natCast, BitVec.ofNat_add, BitVec.one_mul]
    simp
  have hwraps : phaseWraps u = decide (2 ^ 32 ≤ u.phase.toNat + u.inc.toNat) := by
    rw [phaseWraps, hsum]
    exact decide_eq_decide.2 (by omega)
  simp only [push, hwraps, hphase, decide_eq_true_eq, ClockUnit.advanced, h.last, h.ef, timingError_zero,
    filterError_zero _ h.gain]
  split <;> rfl

end ClockUnit

/-- At rest, STR.PUSH of a zero returns a zero at each boundary, and only advances the phase. -/
theorem exec_strPush_zero (s : State) (h : s.str.AtRest) :
    exec (.strPush 0) s
      = .next { s with str := s.str.advanced 1, draws := s.draws + 4,
                       ret := if 2 ^ 32 ≤ s.str.phase.toNat + s.str.inc.toNat then .symbol 0 else .none } := by
  rw [exec_strPush s 0 h.configured, h.push_zero]
  split <;> rfl

/-- The symbols of `n` zeros are the boundaries that `n` increments cross (R229). -/
theorem pushes_zero (s : State) (h : s.str.AtRest) (n : Nat) :
    ∃ t, Pushes 0 n ((s.str.phase.toNat + n * s.str.inc.toNat) / 2 ^ 32) s t ∧ t.str = s.str.advanced n := by
  induction n with
  | zero =>
    have := s.str.phase.isLt
    exact ⟨s, ⟨by omega, rfl⟩, s.str.advanced_zero.symm⟩
  | succ n ih =>
    obtain ⟨u, hpushes, hstr⟩ := ih
    have hrest : u.str.AtRest := hstr ▸ h.advanced n
    have hphase : u.str.phase.toNat = (s.str.phase.toNat + n * s.str.inc.toNat) % 2 ^ 32 := by
      rw [hstr, ClockUnit.advanced_phase_toNat]
    have hinc : u.str.inc = s.str.inc := by rw [hstr]; rfl
    have hincLt := s.str.inc.isLt
    refine ⟨_, ⟨_, u, hpushes, exec_strPush_zero u hrest, ?count⟩, ?unit⟩
    case unit => rw [hstr, ClockUnit.advanced_add]
    case count =>
      rw [Nat.succ_mul]
      by_cases hwraps : 2 ^ 32 ≤ u.str.phase.toNat + u.str.inc.toNat
      · refine .inr ⟨if_pos hwraps, ?_⟩
        rw [hphase, hinc] at hwraps
        omega
      · refine .inl ⟨if_neg hwraps, ?_⟩
        rw [hphase, hinc] at hwraps
        omega

/-- An accepted configuration leaves the loop at rest (R222). -/
theorem clockConfigured_atRest {a b : Word} {gain : F32} (h : clockAccepted a b gain) :
    (clockConfigured a b gain).AtRest := by
  obtain ⟨_, _, _, hgain, _⟩ := h
  exact ⟨rfl, hgain, rfl, rfl⟩

/-- Settles O39: the configured unit starts at rest, at phase 0. -/
theorem zeroInputSymbolCount : Obligations.ZeroInputSymbolCount := by
  intro s a b gain n haccepted
  have hrest := clockConfigured_atRest haccepted
  obtain ⟨t, hpushes, hstr⟩ :=
    pushes_zero { s with str := clockConfigured a b gain, ret := .none } hrest n
  have hphase : (clockConfigured a b gain).phase.toNat = 0 := rfl
  rw [hphase, Nat.zero_add] at hpushes
  refine ⟨_, t, exec_strCfg_accepted s haccepted, hpushes, ?_⟩
  rw [hstr]
  exact (hrest.advanced n).ef

end Sys2Proof.Machine

/-! The packet builder, PKT (44_packet_builder.md R241 to R248; 60_exceptions.md R347). -/

namespace Sys2Proof.Machine
open Sys2Proof

/-! ### The unit: PKT.PUSH case by case -/

namespace PacketUnit

variable (u : PacketUnit) (p : Params) (bit err : Bool)

/-- The unit after a symbol of a capture is recorded and appended, before lost sync and completion are tested (R243). -/
def extend : PacketUnit := (u.record bit err).append p.pktCap bit

/-- Past the history, only the payload and its count change (R243). -/
theorem extend_eq :
    u.extend p bit err
      = { u.record bit err with payload := (u.extend p bit err).payload,
                                captureLen := (u.extend p bit err).captureLen } := by
  unfold extend append
  split <;> rfl

variable {u p}

theorem extend_of_lt (h : u.captureLen < p.pktCap) :
    u.extend p bit err
      = { u.record bit err with payload := u.payload.set u.captureLen bit, captureLen := u.captureLen + 1 } :=
  if_pos h

theorem extend_of_ge (h : p.pktCap ≤ u.captureLen) : u.extend p bit err = u.record bit err :=
  if_neg (not_lt.2 h)

theorem push_of_idle (h : u.capturing = false) :
    u.push p bit err
      = if pktMatch p (shiftIn u.histBits bit) (shiftIn u.histErr err) (min 64 (u.histN + 1)) then
          ({ u.record bit err with capturing := true, captureLen := 0 }, none)
        else (u.record bit err, none) := by
  rw [push, h]
  rfl

theorem push_of_capturing (h : u.capturing = true) :
    u.push p bit err
      = if pktLost p (u.extend p bit err).captureLen then ({ u.extend p bit err with capturing := false }, none)
        else if pktDone p (u.extend p bit err).captureLen then
          ({ u.extend p bit err with capturing := false }, some (u.extend p bit err).captured)
        else (u.extend p bit err, none) := by
  rw [push, h]
  rfl

end PacketUnit

/-! ### The default and the substituted predicates -/

theorem pktDone_fixedCount {p : Params} (h : p.pktDone = .fixedCount) (n : Nat) :
    pktDone p n = true ↔ n = p.pktLen := by
  rw [pktDone, h]
  exact beq_iff_eq

theorem pktLost_never {p : Params} (h : p.pktLost = .never) (n : Nat) : pktLost p n = false := by
  rw [pktLost, h]

theorem pktDone_atCounts {p : Params} {counts : List Nat} (h : p.pktDone = .atCounts counts) (n : Nat) :
    pktDone p n = true ↔ n ∈ counts := by
  rw [pktDone, h]
  exact List.contains_iff_mem

theorem pktLost_atCounts {p : Params} {counts : List Nat} (h : p.pktLost = .atCounts counts) (n : Nat) :
    pktLost p n = true ↔ n ∈ counts := by
  rw [pktLost, h]
  exact List.contains_iff_mem

/-! ### What the operations of PKT answer -/

/-- ERRSTAT after PKT.PUSH: a capture at capacity raises CaptureOverflow (60_exceptions.md R347). -/
def State.pktErrstat (s : State) : BitVec 8 := if s.pkt.overflows s.params then s.errstat ||| 16 else s.errstat

theorem State.pktErrstat_of_idle {s : State} (h : s.pkt.capturing = false) : s.pktErrstat = s.errstat := by
  rw [pktErrstat, PacketUnit.overflows, h]
  rfl

theorem State.pktErrstat_of_lt {s : State} (h : s.pkt.captureLen < s.params.pktCap) : s.pktErrstat = s.errstat := by
  simp [pktErrstat, PacketUnit.overflows, h]

theorem State.pktErrstat_of_ge {s : State} (hcapturing : s.pkt.capturing = true)
    (h : s.params.pktCap ≤ s.pkt.captureLen) : s.pktErrstat = s.errstat ||| 16 := by
  simp [pktErrstat, PacketUnit.overflows, hcapturing, h]

theorem exec_pktReset (s : State) :
    exec .pktReset s
      = .next { s with
          pkt := { s.pkt with capturing := false, histBits := 0, histErr := 0, histN := 0, captureLen := 0 },
          ret := .none } :=
  rfl

theorem exec_pktPush (s : State) (bit err : Bool) :
    exec (.pktPush bit err) s
      = .next { s with pkt := (s.pkt.push s.params bit err).1, errstat := s.pktErrstat,
                       ret := packetRet (s.pkt.push s.params bit err).2 } := by
  show execPktPush bit err s = _
  unfold execPktPush State.pktPush State.pktErrstat
  dsimp only
  split <;> rfl

section

variable {s : State} (bit err : Bool)

theorem exec_pktPush_match (h : s.pkt.capturing = false)
    (hmatch : pktMatch s.params (shiftIn s.pkt.histBits bit) (shiftIn s.pkt.histErr err)
      (min 64 (s.pkt.histN + 1)) = true) :
    exec (.pktPush bit err) s
      = .next { s with pkt := { s.pkt.record bit err with capturing := true, captureLen := 0 }, ret := .none } := by
  rw [exec_pktPush, PacketUnit.push_of_idle bit err h, if_pos hmatch, State.pktErrstat_of_idle h]
  rfl

theorem exec_pktPush_noMatch (h : s.pkt.capturing = false)
    (hmatch : pktMatch s.params (shiftIn s.pkt.histBits bit) (shiftIn s.pkt.histErr err)
      (min 64 (s.pkt.histN + 1)) = false) :
    exec (.pktPush bit err) s = .next { s with pkt := s.pkt.record bit err, ret := .none } := by
  rw [exec_pktPush, PacketUnit.push_of_idle bit err h, if_neg (ne_true_of_eq_false hmatch), State.pktErrstat_of_idle h]
  rfl

theorem exec_pktPush_lost (h : s.pkt.capturing = true)
    (hlost : pktLost s.params (s.pkt.extend s.params bit err).captureLen = true) :
    exec (.pktPush bit err) s
      = .next { s with pkt := { s.pkt.extend s.params bit err with capturing := false }, errstat := s.pktErrstat,
                       ret := .none } := by
  rw [exec_pktPush, PacketUnit.push_of_capturing bit err h, if_pos hlost]
  rfl

theorem exec_pktPush_done (h : s.pkt.capturing = true)
    (hlost : pktLost s.params (s.pkt.extend s.params bit err).captureLen = false)
    (hdone : pktDone s.params (s.pkt.extend s.params bit err).captureLen = true) :
    exec (.pktPush bit err) s
      = .next { s with pkt := { s.pkt.extend s.params bit err with capturing := false }, errstat := s.pktErrstat,
                       ret := .packet (s.pkt.extend s.params bit err).captured
                         (s.pkt.extend s.params bit err).captured.length } := by
  rw [exec_pktPush, PacketUnit.push_of_capturing bit err h, if_neg (ne_true_of_eq_false hlost), if_pos hdone]
  rfl

theorem exec_pktPush_more (h : s.pkt.capturing = true)
    (hlost : pktLost s.params (s.pkt.extend s.params bit err).captureLen = false)
    (hdone : pktDone s.params (s.pkt.extend s.params bit err).captureLen = false) :
    exec (.pktPush bit err) s
      = .next { s with pkt := s.pkt.extend s.params bit err, errstat := s.pktErrstat, ret := .none } := by
  rw [exec_pktPush, PacketUnit.push_of_capturing bit err h, if_neg (ne_true_of_eq_false hlost),
    if_neg (ne_true_of_eq_false hdone)]
  rfl

end

/-- Settles O40: a PUSH that captures extends the unit, and then tests lost sync before completion. -/
theorem packetBuilderOperations : Obligations.PacketBuilderOperations := by
  refine ⟨fun s bit err => ⟨exec_pktReset s, exec_pktPush_match bit err, exec_pktPush_noMatch bit err,
      fun hcapturing => ?capturing⟩,
    fun p n => ⟨(pktDone_fixedCount · n), (pktLost_never · n), fun _ => (pktDone_atCounts · n),
      fun _ => (pktLost_atCounts · n)⟩⟩
  case capturing =>
    have hextend := s.pkt.extend_eq s.params bit err
    refine ⟨(s.pkt.extend s.params bit err).payload, (s.pkt.extend s.params bit err).captureLen, s.pktErrstat,
      fun hroom => ?room, fun hfull => ?full, fun hlost => ?lost, fun hlost hdone => ?done, fun hlost hdone => ?more⟩
    case room => rw [PacketUnit.extend_of_lt bit err hroom]; exact ⟨rfl, rfl, State.pktErrstat_of_lt hroom⟩
    case full =>
      rw [PacketUnit.extend_of_ge bit err hfull]
      exact ⟨rfl, rfl, State.pktErrstat_of_ge hcapturing hfull⟩
    case lost => rw [exec_pktPush_lost bit err hcapturing hlost, hextend]; rfl
    case done => rw [exec_pktPush_done bit err hcapturing hlost hdone, hextend]; rfl
    case more => rw [exec_pktPush_more bit err hcapturing hlost hdone, hextend]; rfl

/-! ### The default matcher (R245) -/

/-- `good[i]` of R245. -/
def preambleGoodBit (p : Params) (bits errs : BitVec 64) (i : Nat) : Bool :=
  (bits.getLsbD i == p.pktPreamble.getD (p.pktPreamble.length - 1 - i) false) && !errs.getLsbD i

theorem preambleGoodBit_iff (p : Params) (bits errs : BitVec 64) (i : Nat) :
    preambleGoodBit p bits errs i = true ↔ preambleGood p bits errs i := by
  simp [preambleGoodBit, preambleGood]

theorem goodList_eq_map (p : Params) (bits errs : BitVec 64) :
    goodList p.pktPreamble bits errs = (List.range p.pktPreamble.length).map (preambleGoodBit p bits errs) :=
  rfl

/-- The positions of the preamble that are inverted or erased, the least first. -/
def badPositions (p : Params) (bits errs : BitVec 64) : List Nat :=
  (List.range p.pktPreamble.length).filter fun i => !preambleGoodBit p bits errs i

theorem mem_badPositions {p : Params} {bits errs : BitVec 64} {i : Nat} :
    i ∈ badPositions p bits errs ↔ i < p.pktPreamble.length ∧ ¬ preambleGood p bits errs i := by
  rw [← preambleGoodBit_iff]
  simp [badPositions]

theorem badPositions_nodup (p : Params) (bits errs : BitVec 64) : (badPositions p bits errs).Nodup :=
  List.nodup_range.filter _

/-- `bad` of R245. -/
theorem countP_goodList (p : Params) (bits errs : BitVec 64) :
    (goodList p.pktPreamble bits errs).countP (fun g => !g) = (badPositions p bits errs).length := by
  rw [goodList_eq_map, List.countP_map, List.countP_eq_length_filter]
  rfl

/-- A count of bad positions is bounded exactly when they fit a list of that length. -/
theorem length_badPositions_le_iff (p : Params) (bits errs : BitVec 64) (m : Nat) :
    (badPositions p bits errs).length ≤ m
      ↔ ∃ bad : List Nat, bad.Nodup ∧ bad.length ≤ m
          ∧ ∀ i, i < p.pktPreamble.length → ¬ preambleGood p bits errs i → i ∈ bad := by
  constructor
  · intro hle
    exact ⟨_, badPositions_nodup p bits errs, hle, fun i hi hbad => mem_badPositions.2 ⟨hi, hbad⟩⟩
  · rintro ⟨bad, -, hle, hcovers⟩
    have hsub : badPositions p bits errs ⊆ bad := fun i hi => by
      obtain ⟨hlt, hbad⟩ := mem_badPositions.1 hi
      exact hcovers i hlt hbad
    exact ((badPositions_nodup p bits errs).subperm hsub).length_le.trans hle

/-- A leading run reaches `n` exactly when the first `n` entries pass. -/
theorem le_length_takeWhile_iff {α : Type} (q : α → Bool) (l : List α) (n : Nat) :
    n ≤ (l.takeWhile q).length ↔ n ≤ l.length ∧ ∀ x ∈ l.take n, q x = true := by
  induction l generalizing n with
  | nil => simp
  | cons a l ih =>
    cases n with
    | zero => simp
    | succ n => cases ha : q a <;> simp [ha, ih]

/-- `run` of R245. -/
theorem le_run_iff (p : Params) (bits errs : BitVec 64) (n : Nat) :
    n ≤ ((goodList p.pktPreamble bits errs).takeWhile id).length
      ↔ n ≤ p.pktPreamble.length ∧ ∀ i, i < n → preambleGood p bits errs i := by
  rw [le_length_takeWhile_iff, goodList_eq_map, List.length_map, List.length_range]
  refine and_congr_right fun hle => ?_
  simp only [← List.map_take, List.take_range, min_eq_left hle, List.forall_mem_map, List.mem_range, id_eq,
    preambleGoodBit_iff]

theorem pktMatch_pattern {p : Params} (h : p.pktMatch = .pattern) (bits errs : BitVec 64) (n : Nat) :
    pktMatch p bits errs n = matchPattern p bits errs n := by
  rw [pktMatch, h]

/-- Settles O41: the three tests of R245, one by one. -/
theorem preambleMatcher : Obligations.PreambleMatcher := by
  intro p bits errs n hpattern
  rw [pktMatch_pattern hpattern, ← length_badPositions_le_iff, ← le_run_iff, ← countP_goodList]
  simp [matchPattern, and_assoc]

/-! ### Runs of pushes (R248) -/

/-- Two runs, one after the other. -/
theorem PacketsOf.append {as bs : List Bool} {ps qs : List (List Bool)} {s u t : State} (h : PacketsOf as ps s u)
    (h' : PacketsOf bs qs u t) : PacketsOf (as ++ bs) (ps ++ qs) s t := by
  induction as generalizing ps s with
  | nil =>
    obtain ⟨rfl, rfl⟩ := h
    exact h'
  | cons a as ih =>
    obtain ⟨v, hexec, ⟨hnone, hrest⟩ | ⟨bits, ps', hpacket, rfl, hrest⟩⟩ := h
    · exact ⟨v, hexec, .inl ⟨hnone, ih hrest⟩⟩
    · exact ⟨v, hexec, .inr ⟨bits, ps' ++ qs, hpacket, rfl, ih hrest⟩⟩

/-- The unit after error-free symbols that start no capture. -/
def PacketUnit.recordAll (u : PacketUnit) (bits : List Bool) : PacketUnit :=
  bits.foldl (fun v b => v.record b false) u

/-- With fewer symbols in the history than the preamble has, the default matcher finds nothing (R245). -/
theorem packetsOf_short {s : State} {bits : List Bool} (hpattern : s.params.pktMatch = .pattern)
    (hidle : s.pkt.capturing = false) (hshort : s.pkt.histN + bits.length < s.params.pktPreamble.length) :
    ∃ t, PacketsOf bits [] s t ∧ t.params = s.params ∧ t.pkt = s.pkt.recordAll bits := by
  induction bits generalizing s with
  | nil => exact ⟨s, ⟨rfl, rfl⟩, rfl, rfl⟩
  | cons b bits ih =>
    rw [List.length_cons] at hshort
    have hnoMatch : pktMatch s.params (shiftIn s.pkt.histBits b) (shiftIn s.pkt.histErr false)
        (min 64 (s.pkt.histN + 1)) = false := by
      have hfew : ¬ s.params.pktPreamble.length ≤ min 64 (s.pkt.histN + 1) := by omega
      simp [pktMatch_pattern hpattern, matchPattern, hfew]
    have hshort' : (s.pkt.record b false).histN + bits.length < s.params.pktPreamble.length := by
      show min 64 (s.pkt.histN + 1) + bits.length < _
      omega
    obtain ⟨t, hrest, hparams, hpkt⟩ :=
      ih (s := { s with pkt := s.pkt.record b false, ret := .none }) hpattern hidle hshort'
    exact ⟨t, ⟨_, exec_pktPush_noMatch b false hidle hnoMatch, .inl ⟨rfl, hrest⟩⟩, hparams, hpkt⟩

/-- An appended bit is the newest captured one. -/
theorem PacketUnit.captured_extend {u : PacketUnit} {p : Params} (bit err : Bool) (hroom : u.captureLen < p.pktCap)
    (hcapacity : u.payload.length = p.pktCap) : (u.extend p bit err).captured = u.captured ++ [bit] := by
  rw [PacketUnit.extend_of_lt bit err hroom]
  show (u.payload.set u.captureLen bit).take (u.captureLen + 1) = u.payload.take u.captureLen ++ [bit]
  rw [List.take_add_one, List.take_set_of_le (le_refl _), List.getElem?_set_self (hcapacity ▸ hroom)]
  rfl

/-- A capture in progress under the default predicates, `left` symbols short of PKT_LEN. -/
structure State.Awaits (s : State) (left : Nat) : Prop where
  lost : s.params.pktLost = .never
  done : s.params.pktDone = .fixedCount
  fits : s.params.pktLen ≤ s.params.pktCap
  capacity : s.pkt.payload.length = s.params.pktCap
  capturing : s.pkt.capturing = true
  count : s.pkt.captureLen + left = s.params.pktLen

namespace State.Awaits

variable {s : State} {n : Nat} (bit err : Bool)

theorem room (h : s.Awaits (n + 1)) : s.pkt.captureLen < s.params.pktCap := by
  have hfits := h.fits
  have hcount := h.count
  omega

theorem extend (h : s.Awaits (n + 1)) :
    s.pkt.extend s.params bit err
      = { s.pkt.record bit err with payload := s.pkt.payload.set s.pkt.captureLen bit,
                                    captureLen := s.pkt.captureLen + 1 } :=
  PacketUnit.extend_of_lt bit err h.room

/-- The last symbol completes the packet. -/
theorem push_last (h : s.Awaits 1) :
    ∃ t, exec (.pktPush bit err) s = .next t
      ∧ t.ret = .packet (s.pkt.captured ++ [bit]) (s.pkt.captured ++ [bit]).length := by
  have hdone : pktDone s.params (s.pkt.extend s.params bit err).captureLen = true := by
    rw [pktDone_fixedCount h.done, h.extend]
    exact h.count
  rw [← PacketUnit.captured_extend bit err h.room h.capacity]
  exact ⟨_, exec_pktPush_done bit err h.capturing (pktLost_never h.lost _) hdone, rfl⟩

/-- A symbol before the last one is captured, and the capture goes on. -/
theorem push_more (h : s.Awaits (n + 2)) :
    ∃ t, exec (.pktPush bit err) s = .next t ∧ t.ret = .none ∧ t.Awaits (n + 1)
      ∧ t.pkt.captured = s.pkt.captured ++ [bit] := by
  have hcount := h.count
  have hopen : pktDone s.params (s.pkt.extend s.params bit err).captureLen = false := by
    rw [← Bool.not_eq_true, pktDone_fixedCount h.done, h.extend]
    show s.pkt.captureLen + 1 ≠ s.params.pktLen
    omega
  refine ⟨_, exec_pktPush_more bit err h.capturing (pktLost_never h.lost _) hopen, rfl, ?awaits,
    PacketUnit.captured_extend bit err h.room h.capacity⟩
  case awaits =>
    rw [h.extend]
    refine ⟨h.lost, h.done, h.fits, List.length_set.trans h.capacity, h.capturing, ?_⟩
    show s.pkt.captureLen + 1 + (n + 1) = s.params.pktLen
    omega

/-- The symbols that a capture lacks complete it, at the last push and not before (R243). -/
theorem packetsOf {bits : List Bool} (h : s.Awaits (n + 1)) (hbits : bits.length = n + 1) :
    ∃ t, PacketsOf bits [s.pkt.captured ++ bits] s t
      ∧ t.ret = .packet (s.pkt.captured ++ bits) (s.pkt.captured ++ bits).length := by
  induction n generalizing s bits with
  | zero =>
    obtain ⟨bit, rfl⟩ := List.length_eq_one_iff.1 hbits
    obtain ⟨t, hexec, hret⟩ := h.push_last bit false
    exact ⟨t, ⟨t, hexec, .inr ⟨_, [], hret, rfl, rfl, rfl⟩⟩, hret⟩
  | succ n ih =>
    obtain ⟨bit, rest, rfl⟩ := List.exists_cons_of_length_eq_add_one hbits
    obtain ⟨u, hexec, hnone, hawaits, hcaptured⟩ := h.push_more bit false
    obtain ⟨t, hrest, hret⟩ := ih hawaits (Nat.succ.inj hbits)
    rw [hcaptured, List.append_assoc, List.singleton_append] at hrest hret
    exact ⟨t, ⟨u, hexec, .inl ⟨hnone, hrest⟩⟩, hret⟩

end State.Awaits

/-- The history of the preamble matches by default at its 8th symbol, whatever its oldest one is (R245, R248). -/
theorem default_match_preamble (first : Bool) :
    let v := (PacketUnit.powerOn Params.default).recordAll [first, false, true, false, true, true, false]
    pktMatch Params.default (shiftIn v.histBits false) (shiftIn v.histErr false) (min 64 (v.histN + 1)) = true := by
  cases first <;> decide

/-- After PKT.RESET the 8 symbols return nothing, and a capture of 16 symbols is open. -/
theorem packetsOf_preamble {s : State} (first : Bool) (hparams : s.params = Params.default) (hok : s.pkt.Ok s.params) :
    ∃ t, PacketsOf [first, false, true, false, true, true, false, false] []
        { s with pkt := s.pkt.reset, ret := .none } t
      ∧ t.Awaits 16 ∧ t.pkt.captured = [] := by
  obtain ⟨u, hshort, huparams, hupkt⟩ :=
    packetsOf_short (s := { s with pkt := s.pkt.reset, ret := .none })
      (bits := [first, false, true, false, true, true, false]) (by rw [hparams]; rfl) rfl
      (by rw [hparams]; exact Nat.lt_succ_self 7)
  have hudefault : u.params = Params.default := huparams.trans hparams
  have hidle : u.pkt.capturing = false := by rw [hupkt]; rfl
  have hmatch : pktMatch u.params (shiftIn u.pkt.histBits false) (shiftIn u.pkt.histErr false)
      (min 64 (u.pkt.histN + 1)) = true := by
    rw [hudefault, hupkt]
    exact default_match_preamble first
  have hcapacity : u.pkt.payload.length = u.params.pktCap := by
    rw [hupkt, huparams]
    exact hok.capacity
  refine ⟨_, hshort.append (bs := [false]) ⟨_, exec_pktPush_match false false hidle hmatch, .inl ⟨rfl, rfl, rfl⟩⟩,
    ?awaits, rfl⟩
  case awaits =>
    exact ⟨by rw [hudefault]; rfl, by rw [hudefault]; rfl, by rw [hudefault]; decide, hcapacity, rfl,
      by rw [hudefault]; rfl⟩

/-- Settles O42: the preamble opens a capture, and the sixteen symbols complete it. -/
theorem preambleThenPayload : Obligations.PreambleThenPayload := by
  intro s first payload hlen hparams hok
  obtain ⟨u, hpreamble, hawaits, hempty⟩ := packetsOf_preamble first hparams hok
  obtain ⟨t, hpayload, hret⟩ := hawaits.packetsOf hlen
  rw [hempty, List.nil_append] at hpayload hret
  exact ⟨_, t, exec_pktReset s, hpreamble.append hpayload, hlen ▸ hret⟩

end Sys2Proof.Machine

/-! The spectrum collector, SPC, and its slot: START, STOP, RESET and DRAIN (45_spectrum_collector.md R256 to R259,
R273). -/

namespace Sys2Proof.Machine
open Sys2Proof

/-! ### What the control operations of SPC answer -/

theorem exec_spcStart_accepted (s : State) {k : Half} (h : k ≠ 0) :
    exec (.spcStart k) s = .next { s with spc := s.spc.start k, ret := .none } := by
  show done .none (s.spcStart k).1 = _
  rw [State.spcStart, if_neg h, done]

theorem exec_spcStart_rejected (s : State) :
    exec (.spcStart 0) s = .next { s with errstat := s.errstat ||| 1, ret := .none } :=
  done_configRejected s

theorem exec_spcStop (s : State) : exec .spcStop s = .next { s with spc := s.spc.stop, ret := .none } := rfl

theorem exec_spcReset (s : State) :
    exec .spcReset s
      = .next { s with spc := SpectrumUnit.powerOn, slot := SlotRegs.powerOn, evt := 0, ret := .none } := rfl

/-- Settles O43. -/
theorem spectrumControlOperations : Obligations.SpectrumControlOperations := by
  intro s k
  refine ⟨exec_spcStart_accepted s, ?rejected, exec_spcStop s, exec_spcReset s⟩
  case rejected =>
    rintro rfl
    exact exec_spcStart_rejected s

/-! ### The slot -/

theorem exec_spcDrain_posted {s : State} (hevt : s.evt = 1) (hvalid : s.slot.valid = true) :
    exec .spcDrain s
      = .next { s with evt := 0, slot := { s.slot with valid := false }, ret := .snapshot s.slot.snap } := by
  show done (snapshotRet s.spcDrain.2) s.spcDrain.1 = _
  have hdrain : s.spcDrain = ({ s with evt := 0, slot := { s.slot with valid := false } }, some s.slot.snap) := by
    simp [State.spcDrain, hevt, hvalid, evtBit, evtWrite]
  rw [hdrain, done, snapshotRet]

theorem exec_spcDrain_idle {s : State} (hevt : s.evt = 0) : exec .spcDrain s = .next { s with ret := .none } := by
  show done (snapshotRet s.spcDrain.2) s.spcDrain.1 = _
  have hdrain : s.spcDrain = (s, none) := by simp [State.spcDrain, hevt, evtBit]
  rw [hdrain, done, snapshotRet]

/-- Settles O47: the first DRAIN leaves EVT clear. -/
theorem drainConsumesOnce : Obligations.DrainConsumesOnce := by
  refine fun s hpaired => ⟨fun hevt => ?posted, exec_spcDrain_idle⟩
  case posted =>
    have hvalid : s.slot.valid = true := by
      by_contra hvalid
      rw [if_neg hvalid, hevt] at hpaired
      exact absurd hpaired (by decide)
    exact ⟨_, exec_spcDrain_posted hevt hvalid, rfl, exec_spcDrain_idle rfl⟩

end Sys2Proof.Machine

/-! SPC.FEED collects the first of every K samples and hands over the first epoch it completes
(45_spectrum_collector.md R261, R262). -/

namespace Sys2Proof.Machine
open Sys2Proof

/-! ### The samples kept -/

theorem keptSamples_nil (k dec : Nat) : keptSamples k dec [] = [] := rfl

/-- The next sample is kept at a multiple of `k`. -/
theorem keptSamples_concat (k dec : Nat) (xs : List C16) (x : C16) :
    keptSamples k dec (xs ++ [x]) = keptSamples k dec xs ++ if (dec + xs.length) % k = 0 then [x] else [] := by
  have hold : ∀ i ∈ (List.range xs.length).filter fun i => (dec + i) % k = 0,
      (xs ++ [x]).getD i C16.zero = xs.getD i C16.zero := fun i hi =>
    List.getD_append _ _ _ _ (List.mem_range.1 (List.mem_filter.1 hi).1)
  have hnew : (xs ++ [x]).getD xs.length C16.zero = x := by simp
  unfold keptSamples
  rw [List.length_append, List.length_singleton, List.range_succ, List.filter_append, List.map_append,
    List.map_congr_left hold]
  split <;> simp [*]

/-- The multiples of `k` below `n * k`. -/
theorem filter_range_multiples {k : Nat} (hk : 0 < k) (n : Nat) :
    ((List.range (n * k)).filter fun i => i % k = 0) = (List.range n).map (· * k) := by
  have hgroup : ((List.range k).filter fun i => i % k = 0) = [0] := by
    obtain ⟨m, rfl⟩ := Nat.exists_eq_add_of_lt hk
    rw [Nat.zero_add, List.range_succ_eq_map, List.filter_cons_of_pos (by simp), List.filter_map,
      List.filter_eq_nil_iff.2, List.map_nil]
    intro i hi
    have hlt := List.mem_range.1 hi
    simp [Nat.mod_eq_of_lt (Nat.succ_lt_succ hlt)]
  induction n with
  | zero => simp
  | succ n ih =>
    have hshift : ((fun i => decide (i % k = 0)) ∘ fun i => n * k + i) = fun i => decide (i % k = 0) := by
      funext i
      simp
    rw [Nat.succ_mul, List.range_add, List.filter_append, ih, List.filter_map, hshift, hgroup, List.range_succ,
      List.map_append]
    rfl

/-- From the start of a group, `n * k` samples hold `n` kept ones. -/
theorem keptSamples_groups {k n : Nat} (hk : 0 < k) {xs : List C16} (hlen : xs.length = n * k) :
    keptSamples k 0 xs = (List.range n).map fun i => xs.getD (i * k) C16.zero := by
  simp only [keptSamples, Nat.zero_add, hlen, filter_range_multiples hk, List.map_map]
  rfl

/-! ### The buffer after `w` samples have been collected -/

/-- Entry `j` of the buffer: the running epoch over the last one, over what stood there before. -/
def captureAt (cb w : List C16) (j : Nat) : C16 :=
  if j < w.length % 256 then w.getD (w.length / 256 * 256 + j) C16.zero
  else if 256 ≤ w.length then w.getD ((w.length / 256 - 1) * 256 + j) C16.zero
  else cb.getD j C16.zero

/-- The first epoch fills the buffer with all that has been collected. -/
theorem eq_of_captureAt {cb cb' w : List C16} (hlen : cb'.length = 256) (hw : w.length = 256)
    (hbuffer : ∀ j, j < 256 → cb'.getD j C16.zero = captureAt cb w j) : cb' = w := by
  refine List.ext_getElem (hlen.trans hw.symm) fun j hj hjw => ?_
  have hentry : captureAt cb w j = w.getD j C16.zero := by simp [captureAt, hw]
  rw [← List.getD_eq_getElem _ C16.zero hj, ← List.getD_eq_getElem _ C16.zero hjw, ← hentry]
  exact hbuffer j (hlen ▸ hj)

/-- One more sample changes the entry at the fill. -/
theorem captureAt_concat (cb w : List C16) (x : C16) {j : Nat} (hj : j < 256) :
    captureAt cb (w ++ [x]) j = if j = w.length % 256 then x else captureAt cb w j := by
  have hold : ∀ i, i < w.length → (w ++ [x]).getD i C16.zero = w.getD i C16.zero := fun i =>
    List.getD_append _ _ _ _
  have hnew : (w ++ [x]).getD w.length C16.zero = x := by simp
  have hdiv := Nat.div_add_mod' w.length 256
  have hmod := Nat.mod_lt w.length (show 0 < 256 by decide)
  unfold captureAt
  rw [List.length_append, List.length_singleton]
  by_cases hfull : w.length % 256 = 255
  · have hnext : (w.length + 1) % 256 = 0 ∧ (w.length + 1) / 256 - 1 = w.length / 256 := by omega
    rw [if_neg (by omega), if_pos (by omega), hnext.2]
    split
    · rw [show w.length / 256 * 256 + j = w.length by omega, hnew]
    · rw [if_pos (by omega), hold _ (by omega)]
  · have hnext : (w.length + 1) % 256 = w.length % 256 + 1 ∧ (w.length + 1) / 256 = w.length / 256 := by omega
    rw [hnext.1, hnext.2]
    rcases Nat.lt_trichotomy j (w.length % 256) with hlt | heq | hgt
    · rw [if_pos (by omega), if_neg (by omega), if_pos hlt, hold _ (by omega)]
    · rw [if_pos (by omega), if_pos heq, show w.length / 256 * 256 + j = w.length by omega, hnew]
    · rw [if_neg (show ¬ j < w.length % 256 + 1 by omega), if_neg hgt.ne', if_neg hgt.not_gt]
      by_cases hepoch : 256 ≤ w.length
      · rw [if_pos (by omega), if_pos hepoch, hold _ (by omega)]
      · rw [if_neg (by omega), if_neg hepoch]

/-! ### The unit, sample by sample -/

/-- The capture side of `u` after `w` samples have been collected, those already in the buffer included. -/
structure SpectrumUnit.Captured (u : SpectrumUnit) (w : List C16) (v : SpectrumUnit) : Prop where
  streaming : v.streaming = true
  factor : v.k = u.k
  fill : v.fill.toNat = w.length % 256
  length : v.cb.length = 256
  buffer : ∀ j, j < 256 → v.cb.getD j C16.zero = captureAt u.cb w j

/-- The epoch that FB holds by then: the first of `w` if no request was pending, else the old one. -/
structure SpectrumUnit.Handed (u : SpectrumUnit) (rate pass stop : Word) (w : List C16) (v : SpectrumUnit) : Prop where
  first : u.updateRequest = false → 256 ≤ w.length →
    v.fb = w.take 256 ∧ v.fbRate = BitVec.ofNat 32 (rate.toNat / u.k.toNat) ∧ v.fbPass = pass ∧ v.fbStop = stop
      ∧ v.updateRequest = true
  old : u.updateRequest = true ∨ w.length < 256 →
    v.fb = u.fb ∧ v.fbRate = u.fbRate ∧ v.fbPass = u.fbPass ∧ v.fbStop = u.fbStop
      ∧ v.updateRequest = u.updateRequest

namespace SpectrumUnit

variable {rate pass stop : Word} {u v : SpectrumUnit} {w : List C16}

theorem keep_fill (x : C16) : (u.keep rate pass stop x).fill = u.fill + 1 := by
  unfold keep
  by_cases hfill : u.fill = 255
  · rw [if_pos hfill, hfill]
    split <;> rfl
  · rw [if_neg hfill]

/-- A sample that completes an epoch with no request pending hands the epoch over. -/
theorem keep_handover (hfill : u.fill = 255) (hidle : u.updateRequest = false) (x : C16) :
    u.keep rate pass stop x
      = { u with cb := u.cb.set u.fill.toNat x, fill := 0, fb := u.cb.set u.fill.toNat x,
                 fbRate := BitVec.ofNat 32 (rate.toNat / u.k.toNat), fbPass := pass, fbStop := stop,
                 updateRequest := true } := by
  simp [keep, hfill, hidle]

/-- Every other sample only goes into the buffer. -/
theorem keep_only (h : u.fill = 255 → u.updateRequest = true) (x : C16) :
    u.keep rate pass stop x = { u with cb := u.cb.set u.fill.toNat x, fill := u.fill + 1 } := by
  by_cases hfill : u.fill = 255
  · simp [keep, hfill, h hfill]
  · exact if_neg hfill

theorem Captured.keep (h : u.Captured w v) (x : C16) : u.Captured (w ++ [x]) (v.keep rate pass stop x) := by
  obtain ⟨hstreaming, hk, -, hcb, -⟩ := v.keep_fields rate pass stop x
  refine ⟨hstreaming.trans h.streaming, hk.trans h.factor, ?fill, by rw [hcb, List.length_set, h.length],
    fun j hj => ?buffer⟩
  case fill =>
    rw [keep_fill, BitVec.toNat_add, h.fill, List.length_append]
    exact Nat.mod_add_mod _ _ _
  case buffer =>
    rw [hcb, captureAt_concat _ _ _ hj, ← h.fill, ← h.buffer j hj, List.getD_eq_getElem?_getD,
      List.getElem?_set, List.getD_eq_getElem?_getD, h.length]
    by_cases hnew : v.fill.toNat = j
    · rw [if_pos hnew, if_pos (hnew ▸ hj), if_pos hnew.symm, Option.getD_some]
    · rw [if_neg hnew, if_neg (Ne.symm hnew)]

/-- Without a request, none was pending before and no epoch is complete. -/
theorem Handed.none_yet (h : u.Handed rate pass stop w v) (hidle : v.updateRequest = false) :
    u.updateRequest = false ∧ w.length < 256 := by
  by_cases hold : u.updateRequest = true ∨ w.length < 256
  · obtain ⟨-, -, -, -, hrequest⟩ := h.old hold
    have hnone := hrequest.symm.trans hidle
    exact ⟨hnone, hold.resolve_left (by simp [hnone])⟩
  · obtain ⟨hnone, hepoch⟩ := not_or.1 hold
    obtain ⟨-, -, -, -, hrequest⟩ := h.first (Bool.eq_false_iff.2 hnone) (not_lt.1 hepoch)
    exact Bool.noConfusion (hrequest.symm.trans hidle)

/-- A collected sample hands the epoch over if it completes the first one with no request pending. -/
theorem Handed.keep (hcaptured : u.Captured w v) (h : u.Handed rate pass stop w v) (x : C16) :
    u.Handed rate pass stop (w ++ [x]) (v.keep rate pass stop x) := by
  have hfill := hcaptured.fill
  have hlen : (w ++ [x]).length = w.length + 1 := List.length_append
  by_cases hover : v.fill = 255 ∧ v.updateRequest = false
  · obtain ⟨hfull, hidle⟩ := hover
    obtain ⟨hnone, hbelow⟩ := h.none_yet hidle
    have hepoch : (w ++ [x]).length = 256 := by
      rw [hfull, Nat.mod_eq_of_lt hbelow] at hfill
      rw [hlen, ← hfill]
      rfl
    have hnext := hcaptured.keep (rate := rate) (pass := pass) (stop := stop) x
    rw [keep_handover hfull hidle] at hnext ⊢
    refine ⟨fun _ _ => ⟨?epoch, by rw [hcaptured.factor], rfl, rfl, rfl⟩, fun hold => absurd hold ?contradiction⟩
    case epoch =>
      rw [List.take_of_length_le hepoch.le]
      exact eq_of_captureAt hnext.length hepoch hnext.buffer
    case contradiction => simp [hnone, hepoch]
  · have hpending : v.fill = 255 → v.updateRequest = true := by simpa using hover
    rw [keep_only hpending]
    refine ⟨fun hnone hlong => ?first, fun hold => h.old (hold.imp_right (by omega))⟩
    case first =>
      have hepoch : 256 ≤ w.length := by
        by_contra hbelow
        have hfull : v.fill = 255 := BitVec.eq_of_toNat_eq (hfill.trans (by simp; omega))
        obtain ⟨-, -, -, -, hrequest⟩ := h.old (.inr (not_le.1 hbelow))
        exact Bool.noConfusion ((hpending hfull).symm.trans (hrequest.trans hnone))
      rw [List.take_append_of_le_length hepoch]
      exact h.first hnone hepoch

/-- Between two kept samples only the group position moves. -/
theorem Captured.with_decCount (h : u.Captured w v) (c : Half) : u.Captured w { v with decCount := c } :=
  ⟨h.streaming, h.factor, h.fill, h.length, h.buffer⟩

theorem Handed.with_decCount (h : u.Handed rate pass stop w v) (c : Half) :
    u.Handed rate pass stop w { v with decCount := c } :=
  ⟨h.first, h.old⟩

/-- Nothing collected yet but what the buffer holds. -/
theorem Ok.captured (hu : u.Ok) (hs : u.streaming = true) : u.Captured (u.cb.take u.fill.toNat) u := by
  have hlt := u.fill.isLt
  have hlen : (u.cb.take u.fill.toNat).length = u.fill.toNat := by
    rw [List.length_take, hu.capture]
    omega
  refine ⟨hs, rfl, by omega, hu.capture, fun j _ => ?buffer⟩
  case buffer =>
    unfold captureAt
    rw [hlen, Nat.mod_eq_of_lt hlt, Nat.div_eq_of_lt hlt, if_neg (show ¬ 256 ≤ u.fill.toNat by omega), Nat.zero_mul,
      Nat.zero_add]
    split
    · simp [List.getD_eq_getElem?_getD, List.getElem?_take_of_lt ‹_›]
    · rfl

theorem Handed.refl (h : w.length < 256) : u.Handed rate pass stop w u :=
  ⟨fun _ hepoch => absurd h (not_lt.2 hepoch), fun _ => ⟨rfl, rfl, rfl, rfl, rfl⟩⟩

/-- The first sample of a group is collected. -/
theorem feedOne_kept (h : u.decCount.toNat = 0) (x : C16) :
    u.feedOne rate pass stop x
      = { u.keep rate pass stop x with decCount := BitVec.ofNat 16 ((u.decCount.toNat + 1) % u.k.toNat) } := by
  unfold feedOne
  rw [if_pos (BitVec.eq_of_toNat_eq h)]

/-- Every other sample is dropped. -/
theorem feedOne_dropped (h : u.decCount.toNat ≠ 0) (x : C16) :
    u.feedOne rate pass stop x = { u with decCount := BitVec.ofNat 16 ((u.decCount.toNat + 1) % u.k.toNat) } := by
  unfold feedOne
  rw [if_neg (mt (congrArg BitVec.toNat) h)]

theorem feedOne_decCount (hk : 0 < u.k.toNat) (x : C16) :
    (u.feedOne rate pass stop x).decCount.toNat = (u.decCount.toNat + 1) % u.k.toNat :=
  (BitVec.toNat_ofNat _ _).trans (Nat.mod_eq_of_lt ((Nat.mod_lt _ hk).trans u.k.isLt))

theorem feed_nil : u.feed ⟨rate, []⟩ pass stop = u := ite_self _

/-- A FEED of one more sample takes one more step. -/
theorem feed_concat (hs : u.streaming = true) (xs : List C16) (x : C16) :
    u.feed ⟨rate, xs ++ [x]⟩ pass stop = (u.feed ⟨rate, xs⟩ pass stop).feedOne rate pass stop x := by
  simp [feed, hs]

/-- What one FEED of `xs` collects, and where it leaves the group. -/
theorem Ok.feed_collects (hu : u.Ok) (hs : u.streaming = true) (xs : List C16) :
    let v := u.feed ⟨rate, xs⟩ pass stop
    let w := u.cb.take u.fill.toNat ++ keptSamples u.k.toNat u.decCount.toNat xs
    u.Captured w v ∧ u.Handed rate pass stop w v
      ∧ v.decCount.toNat = (u.decCount.toNat + xs.length) % u.k.toNat := by
  have hgroup := hu.running hs
  induction xs using List.reverseRecOn with
  | nil =>
    have hlt := u.fill.isLt
    rw [feed_nil, keptSamples_nil, List.append_nil]
    exact ⟨hu.captured hs, .refl (by rw [List.length_take]; omega), (Nat.mod_eq_of_lt hgroup).symm⟩
  | append_singleton xs x ih =>
    obtain ⟨hcaptured, hhanded, hdec⟩ := ih
    rw [feed_concat hs, keptSamples_concat, ← List.append_assoc, ← hdec]
    generalize u.feed ⟨rate, xs⟩ pass stop = v at *
    have hfactor := hcaptured.factor
    have hnext : (v.feedOne rate pass stop x).decCount.toNat
        = (u.decCount.toNat + (xs ++ [x]).length) % u.k.toNat := by
      rw [feedOne_decCount (hfactor ▸ Nat.zero_lt_of_lt hgroup), hdec, hfactor, Nat.mod_add_mod, List.length_append,
        ← Nat.add_assoc]
      rfl
    by_cases hfirst : v.decCount.toNat = 0
    · rw [if_pos hfirst]
      rw [feedOne_kept hfirst] at hnext ⊢
      exact ⟨(hcaptured.keep x).with_decCount _, (hhanded.keep hcaptured x).with_decCount _, hnext⟩
    · rw [if_neg hfirst, List.append_nil]
      rw [feedOne_dropped hfirst] at hnext ⊢
      exact ⟨hcaptured.with_decCount _, hhanded.with_decCount _, hnext⟩

/-- One FEED while streaming, as R261 says it. -/
theorem Ok.feed_fed (hu : u.Ok) (hs : u.streaming = true) (b : C16Buf) :
    SpectrumFed u (u.feed b pass stop) b pass stop := by
  obtain ⟨hcaptured, hhanded, hdec⟩ := hu.feed_collects (rate := b.rate) (pass := pass) (stop := stop) hs b.data
  exact ⟨hcaptured.streaming, hcaptured.factor, hdec, hcaptured.fill, hcaptured.length, hcaptured.buffer, hhanded.first,
    hhanded.old⟩

end SpectrumUnit

/-! ### The operation -/

theorem exec_spcFeed (s : State) (b : C16Buf) (pass stop : Word) :
    exec (.spcFeed b pass stop) s = .next { s with spc := s.spc.feed b pass stop, ret := .none } := rfl

/-- Settles O44. -/
theorem spectrumFeedKeepsFirstOfK : Obligations.SpectrumFeedKeepsFirstOfK := fun s b pass stop =>
  ⟨_, exec_spcFeed s b pass stop, fun hidle => if_neg (by simp [hidle]), fun hok hs => hok.feed_fed hs b⟩

/-- Settles O45: from the start of a group and of an epoch the kept samples are the epoch. -/
theorem epochIsHandedOver : Obligations.EpochIsHandedOver := by
  intro s k b pass stop hok hk hnone hlen
  have hpos : 0 < k.toNat := Nat.pos_of_ne_zero fun hzero => hk (BitVec.eq_of_toNat_eq hzero)
  obtain ⟨-, -, hdec, hfill, -, -, hfirst, -⟩ :=
    (hok.start hk).feed_fed (pass := pass) (stop := stop) rfl b
  have hkept : (s.spc.start k).cb.take (s.spc.start k).fill.toNat
        ++ keptSamples (s.spc.start k).k.toNat (s.spc.start k).decCount.toNat b.data
      = (List.range 256).map fun i => b.data.getD (i * k.toNat) C16.zero := keptSamples_groups hpos hlen
  have hepoch := (congrArg List.length hkept).trans ((List.length_map _).trans List.length_range)
  obtain ⟨hfb, hrate, hpass, hstop, hrequest⟩ := hfirst hnone hepoch.ge
  refine ⟨_, _, exec_spcStart_accepted s hk, exec_spcFeed _ b pass stop, ?samples, hrate, hpass, hstop, hrequest,
    BitVec.eq_of_toNat_eq ?fill, BitVec.eq_of_toNat_eq ?decCount⟩
  case samples => exact (hfb.trans (List.take_of_length_le hepoch.le)).trans hkept
  case fill =>
    rw [hepoch] at hfill
    exact hfill
  case decCount =>
    refine hdec.trans ?_
    show (0 + b.data.length) % k.toNat = 0
    rw [hlen, Nat.zero_add, Nat.mul_mod_left]

end Sys2Proof.Machine

/-! The transform, its ROM and the logarithm (45_spectrum_collector.md R265, R266, R269; 10_state.md R76). -/

namespace Sys2Proof.Machine
open Sys2Proof

/-! ### BREV8 -/

/-- The sum of R265 is the number with these bits. -/
theorem brev8_eq_ofBits (i : Nat) : brev8 i = Nat.ofBits fun b : Fin 8 => i.testBit (7 - b) := by
  have hbit (c : Bool) (n : Nat) : (if c then n else 0) = n * c.toNat := by cases c <;> simp
  simp only [brev8, List.range_succ, List.range_zero, List.nil_append, List.cons_append, List.foldl_cons, List.foldl_nil,
    hbit, Nat.ofBits_succ, Nat.ofBits_zero, Function.comp_apply, Fin.val_succ, Fin.val_zero, Nat.reduceAdd, Nat.reduceSub,
    Nat.reducePow]
  omega

theorem brev8_lt (i : Nat) : brev8 i < 256 := brev8_eq_ofBits i ▸ Nat.ofBits_lt_two_pow _

theorem testBit_brev8 (i : Nat) {b : Nat} (hb : b < 8) : (brev8 i).testBit b = i.testBit (7 - b) := by
  rw [brev8_eq_ofBits, Nat.testBit_ofBits_lt _ _ hb]

/-- BREV8 undoes itself, bit by bit. -/
theorem brev8_brev8 {i : Nat} (hi : i < 256) : brev8 (brev8 i) = i := by
  refine Nat.eq_of_testBit_eq fun b => ?_
  by_cases hb : b < 8
  · rw [testBit_brev8 _ hb, testBit_brev8 _ (by omega), show 7 - (7 - b) = b by omega]
  · have hpow : 256 ≤ 2 ^ b := Nat.pow_le_pow_right (show 0 < 2 by decide) (not_lt.1 hb)
    rw [Nat.testBit_lt_two_pow ((brev8_lt _).trans_le hpow), Nat.testBit_lt_two_pow (hi.trans_le hpow)]

/-! ### The sine ROM -/

/-- Quadrant `n` of the sine reads the ROM forwards or backwards, with the sign of its half (R76). -/
theorem sin256_quadrant (q n : Nat) {r : Nat} (hn : n < 4) (hr : r < 64) :
    sin256 (256 * q + 64 * n + r)
      = (if n < 2 then 1 else -1) * romValues.getD (if n % 2 = 0 then r else 64 - r) 0 := by
  have hquadrant : (256 * q + 64 * n + r) / 64 % 4 = n := by omega
  have hentry : (256 * q + 64 * n + r) % 64 = r := by omega
  have hrom : sinq = romValues := rfl
  unfold sin256
  rw [hquadrant, hentry, hrom]
  interval_cases n <;> simp

theorem sin256_mod (p : Nat) : sin256 (p % 256) = sin256 p := by
  unfold sin256
  rw [show p % 256 / 64 % 4 = p / 64 % 4 by omega, show p % 256 % 64 = p % 64 by omega]

/-! ### The stages -/

theorem twiddles_length (stride j : Nat) (vs : List Cplx) : (twiddles stride j vs).length = vs.length := by
  induction vs generalizing j with
  | nil => rfl
  | cons v vs ih => exact congrArg (· + 1) (ih _)

theorem twiddles_getElem (stride j : Nat) (vs : List Cplx) {i : Nat} (hi : i < vs.length) :
    (twiddles stride j vs)[i]'((twiddles_length stride j vs).symm ▸ hi) = twiddle ((j + i) * stride) vs[i] := by
  induction vs generalizing j i with
  | nil => exact absurd hi (Nat.not_lt_zero i)
  | cons v vs ih =>
    cases i with
    | zero => rfl
    | succ i =>
      have hnext := ih (j + 1) (Nat.lt_of_succ_lt_succ hi)
      rw [show j + 1 + i = j + (i + 1) by omega] at hnext
      exact hnext

section block

variable {half : Nat} {a : List Cplx}

/-- Pair `j` of a block gives entry `j` of each half of it. -/
theorem fftBlock_half_getElem? (f : Cplx → Cplx → Cplx) (ha : a.length = 2 * half) {j : Nat} (hj : j < half) :
    (List.zipWith f (a.take half) (twiddles (128 / half) 0 (a.drop half)))[j]?
      = some (f (a.getD j (0, 0)) (twiddle (j * (128 / half)) (a.getD (j + half) (0, 0)))) := by
  have hu : j < (a.take half).length := by rw [List.length_take]; omega
  have hv : j < (a.drop half).length := by rw [List.length_drop]; omega
  have ht : j < (twiddles (128 / half) 0 (a.drop half)).length := (twiddles_length _ _ _).symm ▸ hv
  rw [List.getElem?_zipWith_eq_some]
  refine ⟨_, _, List.getElem?_eq_getElem hu, List.getElem?_eq_getElem ht, ?_⟩
  rw [twiddles_getElem _ _ _ hv, Nat.zero_add, List.getElem_take, List.getElem_drop,
    List.getD_eq_getElem _ _ (by omega), List.getD_eq_getElem _ _ (by omega)]
  simp only [Nat.add_comm half j]

theorem fftBlock_half_length (f : Cplx → Cplx → Cplx) (ha : a.length = 2 * half) :
    (List.zipWith f (a.take half) (twiddles (128 / half) 0 (a.drop half))).length = half := by
  rw [List.length_zipWith, twiddles_length, List.length_take, List.length_drop]
  omega

theorem fftBlock_length (ha : a.length = 2 * half) : (fftBlock half a).length = 2 * half := by
  rw [fftBlock, List.length_append, fftBlock_half_length _ ha, fftBlock_half_length _ ha, Nat.two_mul]

/-- A block is the butterflies of its pairs. -/
theorem fftBlock_getD (ha : a.length = 2 * half) {j : Nat} (hj : j < half) :
    (fftBlock half a).getD j (0, 0)
        = bflyAdd (a.getD j (0, 0)) (twiddle (j * (128 / half)) (a.getD (j + half) (0, 0)))
      ∧ (fftBlock half a).getD (j + half) (0, 0)
        = bflySub (a.getD j (0, 0)) (twiddle (j * (128 / half)) (a.getD (j + half) (0, 0))) := by
  have hlen := fftBlock_half_length bflyAdd ha
  unfold fftBlock
  constructor
  · rw [List.getD_append _ _ _ _ (by omega), List.getD_eq_getElem?_getD, fftBlock_half_getElem? _ ha hj, Option.getD_some]
  · rw [List.getD_append_right _ _ _ _ (by omega), hlen, Nat.add_sub_cancel, List.getD_eq_getElem?_getD,
      fftBlock_half_getElem? _ ha hj, Option.getD_some]

end block

theorem fftStage_length {half n : Nat} {a : List Cplx} (ha : a.length = n * (2 * half)) :
    (fftStage half n a).length = n * (2 * half) := by
  induction n generalizing a with
  | zero => simp [fftStage]
  | succ n ih =>
    rw [Nat.succ_mul n] at ha
    rw [fftStage, List.length_append, fftBlock_length (by rw [List.length_take]; omega),
      ih (by rw [List.length_drop]; omega), Nat.succ_mul n, Nat.add_comm]

/-- Each block of a stage is transformed alone. -/
theorem fftStage_getD {half n block i : Nat} {a : List Cplx} (ha : a.length = n * (2 * half)) (hblock : block < n)
    (hi : i < 2 * half) (d : Cplx) :
    (fftStage half n a).getD (block * (2 * half) + i) d
      = (fftBlock half ((a.drop (block * (2 * half))).take (2 * half))).getD i d := by
  induction n generalizing a block with
  | zero => exact absurd hblock (Nat.not_lt_zero block)
  | succ n ih =>
    rw [Nat.succ_mul n] at ha
    have hlen : (fftBlock half (a.take (2 * half))).length = 2 * half :=
      fftBlock_length (by rw [List.length_take]; omega)
    rw [fftStage]
    cases block with
    | zero => rw [Nat.zero_mul, Nat.zero_add, List.getD_append _ _ _ _ (hi.trans_eq hlen.symm), List.drop_zero]
    | succ block =>
      have hrest : (a.drop (2 * half)).length = n * (2 * half) := by
        rw [List.length_drop]
        omega
      rw [Nat.succ_mul block, List.getD_append_right _ _ _ _ (by omega), hlen,
        show block * (2 * half) + 2 * half + i - 2 * half = block * (2 * half) + i by omega,
        ih hrest (Nat.lt_of_succ_lt_succ hblock), List.drop_drop, Nat.add_comm (2 * half)]

/-- A pair of a stage is turned by the butterfly of its place in the block (R266). -/
theorem fftStage_pair {half n block j : Nat} {a : List Cplx} (ha : a.length = n * (2 * half)) (hblock : block < n)
    (hj : j < half) :
    let i := block * (2 * half) + j
    let t := twiddle (j * (128 / half)) (a.getD (i + half) (0, 0))
    (fftStage half n a).getD i (0, 0) = bflyAdd (a.getD i (0, 0)) t
      ∧ (fftStage half n a).getD (i + half) (0, 0) = bflySub (a.getD i (0, 0)) t := by
  have hroom : block * (2 * half) + 2 * half ≤ a.length := by
    rw [ha, ← Nat.succ_mul]
    exact Nat.mul_le_mul_right _ hblock
  have hlen : ((a.drop (block * (2 * half))).take (2 * half)).length = 2 * half := by
    rw [List.length_take, List.length_drop]
    omega
  have hentry : ∀ i < 2 * half, ((a.drop (block * (2 * half))).take (2 * half)).getD i (0, 0)
      = a.getD (block * (2 * half) + i) (0, 0) := by
    intro i hi
    rw [List.getD_eq_getElem?_getD, List.getElem?_take_of_lt hi, List.getElem?_drop, List.getD_eq_getElem?_getD]
  intro i t
  have hpair := fftBlock_getD hlen hj
  rw [hentry j (by omega), hentry (j + half) (by omega), ← Nat.add_assoc] at hpair
  obtain ⟨hadd, hsub⟩ := hpair
  refine ⟨(fftStage_getD ha hblock (by omega) _).trans hadd, ?lower⟩
  case lower => rw [Nat.add_assoc, fftStage_getD ha hblock (by omega), hsub]

/-- FFT256 is its eight stages in order. -/
theorem fft256_eq (a : List Cplx) :
    fft256 a = fftStage 128 1 (fftStage 64 2 (fftStage 32 4 (fftStage 16 8 (fftStage 8 16 (fftStage 4 32
      (fftStage 2 64 (fftStage 1 128 a))))))) := rfl

/-- Settles O48: each clause is one lemma on the stages, on BREV8 or on the ROM. -/
theorem fftStageButterflies : Obligations.FftStageButterflies := by
  refine ⟨fun e a block j he ha hblock hj => ?stage, fft256_eq,
    fun i hi => ⟨brev8_lt i, brev8_brev8 hi, fun b => testBit_brev8 i⟩, fun q r hr => ?rom, fun p => sin256_mod (p + 64)⟩
  case stage =>
    have hblocks : 128 / 2 ^ e * (2 * 2 ^ e) = 256 := by
      have hdvd : 2 ^ e ∣ 128 := Nat.pow_dvd_pow (n := 7) 2 (Nat.le_of_lt_succ he)
      rw [Nat.mul_left_comm, Nat.div_mul_cancel hdvd]
    have hlen : a.length = 128 / 2 ^ e * (2 * 2 ^ e) := ha.trans hblocks.symm
    exact ⟨(fftStage_length hlen).trans hblocks, fftStage_pair hlen hblock hj⟩
  case rom =>
    refine ⟨?rising, ?falling, ?negRising, ?negFalling⟩
    case rising => simpa using sin256_quadrant q 0 (by decide) hr
    case falling => simpa using sin256_quadrant q 1 (by decide) hr
    case negRising => simpa using sin256_quadrant q 2 (by decide) hr
    case negFalling => simpa using sin256_quadrant q 3 (by decide) hr

/-! ### ILOG2Q8 -/

theorem ilog2q8_zero : ilog2q8 0 = 0 := rfl

theorem ilog2q8_octave {e s : Nat} (hlow : 2 ^ e ≤ s) (hhigh : s < 2 ^ (e + 1)) : ilog2q8 s = ilogAt e s := by
  have hpos : s ≠ 0 := (Nat.two_pow_pos e |>.trans_le hlow).ne'
  have hlog : s.log2 = e := (Nat.log2_eq_iff hpos).2 ⟨hlow, hhigh⟩
  rw [ilog2q8, if_neg hpos, hlog]
  rfl

/-- Octave `e` has the values from `256 * e` to below `256 * (e + 1)`. -/
theorem ilogAt_bounds {e s : Nat} (hhigh : s < 2 ^ (e + 1)) : 256 * e ≤ ilogAt e s ∧ ilogAt e s < 256 * (e + 1) := by
  have hfraction : (s - 2 ^ e) * 256 / 2 ^ e < 256 := by
    rw [Nat.div_lt_iff_lt_mul (Nat.two_pow_pos e)]
    rw [Nat.pow_succ] at hhigh
    omega
  exact ⟨Nat.le_add_right _ _, (Nat.add_lt_add_left hfraction _).trans_eq (Nat.mul_succ 256 e).symm⟩

/-- Within an octave and from one to the next. -/
theorem ilog2q8_mono {a b : Nat} (hab : a ≤ b) : ilog2q8 a ≤ ilog2q8 b := by
  rcases Nat.eq_zero_or_pos a with rfl | ha
  · exact Nat.zero_le _
  have hb : b ≠ 0 := (ha.trans_le hab).ne'
  obtain ⟨hlowA, hhighA⟩ := (Nat.log2_eq_iff ha.ne').1 rfl
  obtain ⟨hlowB, hhighB⟩ := (Nat.log2_eq_iff hb).1 rfl
  have hoctave : a.log2 ≤ b.log2 := (Nat.le_log2 hb).2 (hlowA.trans hab)
  rw [ilog2q8_octave hlowA hhighA, ilog2q8_octave hlowB hhighB]
  rcases hoctave.eq_or_lt with hsame | hless
  · rw [hsame]
    exact Nat.add_le_add_left (Nat.div_le_div_right (Nat.mul_le_mul_right _ (Nat.sub_le_sub_right hab _))) _
  · have habove := (ilogAt_bounds hhighA).2
    have hbelow := (ilogAt_bounds hhighB).1
    omega

/-- Settles O49. -/
theorem logarithmIsMonotone : Obligations.LogarithmIsMonotone :=
  ⟨ilog2q8_zero, fun _ _ => ilog2q8_octave, fun _ _ => ilog2q8_mono⟩

end Sys2Proof.Machine

/-! SPC.UPDATE posts the snapshot of the epoch in FB (45_spectrum_collector.md R264 to R270). -/

namespace Sys2Proof.Machine
open Sys2Proof

/-! ### The bins of an epoch -/

theorem loadFft_length (fb : List C16) : (loadFft fb).length = 256 := by simp [loadFft]

/-- Sample `i` is loaded at `BREV8(i)`. -/
theorem loadFft_getD_brev8 (fb : List C16) {i : Nat} (hi : i < 256) :
    (loadFft fb).getD (brev8 i) (0, 0) = ((fb.getD i C16.zero).re.toInt, (fb.getD i C16.zero).im.toInt) := by
  have hlt : brev8 i < (loadFft fb).length := (brev8_lt i).trans_eq (loadFft_length fb).symm
  rw [List.getD_eq_getElem _ _ hlt]
  simp only [loadFft, List.getElem_map, List.getElem_range, brev8_brev8 hi]

/-- A power is the sum of two squares, so no bit of it is lost in a natural number. -/
theorem binPower_getD (a : List Cplx) (k : Nat) : (((a.map binPower).getD (k % 256) 0 : Nat) : Int) = powerAt a k := by
  have hmap : (a.map binPower).getD (k % 256) 0 = binPower (a.getD (k % 256) (0, 0)) :=
    List.getD_map a (0, 0) binPower
  rw [hmap, binPower, Int.toNat_of_nonneg (add_nonneg (mul_self_nonneg _) (mul_self_nonneg _))]
  rfl

theorem smooth_length (p : List Nat) : (smooth p).length = 256 := by simp [smooth]

theorem smooth_getD (a : List Cplx) {k : Nat} (hk : k < 256) :
    (((smooth (a.map binPower)).getD k 0 : Nat) : Int) = smoothed a k := by
  have hself := binPower_getD a k
  rw [Nat.mod_eq_of_lt hk] at hself
  rw [List.getD_eq_getElem _ _ ((smooth_length _).symm ▸ hk)]
  simp only [smooth, List.getElem_map, List.getElem_range]
  push_cast
  rw [binPower_getD, hself, binPower_getD]
  rfl

/-- The least bin is that of an S of 0 (R270). -/
theorem dbOf_toNat (l : Nat) :
    ((dbOf l).toNat : Int) = min 255 (max 0 (255 + ((l : Int) - 7424) / 2 ^ 5)) ∧ 23 ≤ (dbOf l).toNat := by
  have hbin : ((dbOf l).toNat : Int) = min 255 (max 0 (255 + ((l : Int) - 7424) / 2 ^ 5)) := by
    unfold dbOf satu8 clamp sra
    rw [BitVec.toNat_ofInt]
    omega
  exact ⟨hbin, by omega⟩

theorem spectrumDb_getD (fb : List C16) {k : Nat} (hk : k < 256) :
    (spectrumDb fb).getD k 0 = dbOf (ilog2q8 (smoothed (fft256 (loadFft fb)) k).toNat) := by
  rw [← smooth_getD _ hk, Int.toNat_natCast, List.getD_eq_getElem _ _ ((spectrumDb_length fb).symm ▸ hk),
    List.getD_eq_getElem _ _ ((smooth_length _).symm ▸ hk)]
  simp only [spectrumDb, List.getElem_map]

/-! ### The operation -/

/-- Setting EVT[0] leaves EVT = 1, its other bits being reserved (R63). -/
theorem evtWrite_or_one (v : Word) : evtWrite (v ||| 1) = 1 := by
  unfold evtWrite
  ext i
  simp +contextual

theorem exec_spcUpdate (s : State) (h : s.spc.updateRequest = true) :
    exec .spcUpdate s
      = .next { s with slot := { valid := true, snap := s.spc.snapshot }, spc := { s.spc with updateRequest := false },
                       evt := 1, ret := .none } := by
  show (if s.spc.updateRequest then done .none s.spcUpdate else _) = _
  rw [if_pos h, done, State.spcUpdate, evtWrite_or_one]

/-- Settles O46: the bins are those of the transform of the loaded epoch. -/
theorem spectrumUpdatePosts : Obligations.SpectrumUpdatePosts := by
  intro s hrequest
  refine ⟨spectrumDb s.spc.fb, loadFft s.spc.fb, exec_spcUpdate s hrequest, loadFft_length _,
    fun i => loadFft_getD_brev8 _, spectrumDb_length _, fun k hk => ?bin⟩
  case bin =>
    obtain ⟨hvalue, hleast⟩ := dbOf_toNat (ilog2q8 (smoothed (fft256 (loadFft s.spc.fb)) k).toNat)
    rw [spectrumDb_getD _ hk]
    exact ⟨smooth_getD _ hk ▸ Int.natCast_nonneg _, hleast, hvalue⟩

end Sys2Proof.Machine

/-! AUD.EXEC hands on the samples it takes, in order (46_audio_output.md R285 to R290). -/

namespace Sys2Proof.Machine
open Sys2Proof

/-! ### One sample -/

/-- The samples of the block under way, not yet handed to SINK. -/
def AudioUnit.waiting (u : AudioUnit) : List Half := u.block.take u.blockN

theorem take_succ_set {α : Type} {l : List α} {n : Nat} (hn : n < l.length) (y : α) :
    (l.set n y).take (n + 1) = l.take n ++ [y] := by
  rw [List.take_succ_eq_append_getElem (by simpa using hn), List.take_set_of_le (Nat.le_refl n), List.getElem_set_self]

@[simp] theorem AudioUnit.step_cfg (u : AudioUnit) (p : Params) (d : Nat) (x : F32) : (u.step p d x).1.cfg = u.cfg := by
  unfold AudioUnit.step
  dsimp only
  split <;> rfl

@[simp] theorem AudioUnit.step_fstate (u : AudioUnit) (p : Params) (d : Nat) (x : F32) :
    (u.step p d x).1.fstate = (audStage p d u.cfg u.fstate x).1 := by
  unfold AudioUnit.step
  dsimp only
  split <;> rfl

/-- The new sample goes behind those waiting; the block it completes, if any, is exactly what stood there. -/
theorem AudioUnit.Ok.step_waiting {u : AudioUnit} {p : Params} (hu : u.Ok p) (d : Nat) (x : F32) :
    (u.step p d x).2.getD [] ++ (u.step p d x).1.waiting = u.waiting ++ [toAudio (audStage p d u.cfg u.fstate x).2] := by
  have hroom : u.blockN < u.block.length := hu.count.trans_eq hu.block.symm
  have hcount := hu.count
  unfold AudioUnit.step AudioUnit.waiting
  dsimp only
  split
  case isTrue hlast =>
    have hfull : p.audBlock = u.blockN + 1 := by omega
    rw [Option.getD_some, List.take_zero, List.append_nil, hfull, take_succ_set hroom]
  case isFalse => rw [Option.getD_none, List.nil_append, take_succ_set hroom]

/-- The blocks, none or one, that a sample adds to SINK. -/
def emitted (rate : Word) (o : Option (List Half)) : List AudioBlock := o.toList.map (AudioBlock.mk rate)

theorem emitBlock_eq (rate : Word) (sink : List AudioBlock) (o : Option (List Half)) :
    emitBlock rate sink o = sink ++ emitted rate o := by
  cases o with
  | none => exact (List.append_nil sink).symm
  | some block => rfl

theorem emitted_samples (rate : Word) (o : Option (List Half)) :
    (emitted rate o).flatMap (fun x => x.samples) = o.getD [] := by
  cases o with
  | none => rfl
  | some block => exact List.append_nil block

theorem mem_emitted {rate : Word} {o : Option (List Half)} {x : AudioBlock} :
    x ∈ emitted rate o ↔ ∃ block, o = some block ∧ ⟨rate, block⟩ = x := by
  simp [emitted]

/-! ### A pass-through AUD_STAGE -/

/-- A chain without stages keeps its memory and hands the sample on. -/
theorem StageStep.passThrough {p : Params} {d : Nat} {cfg : List Byte} {m m' : AudioMemory} {x y : F32}
    (hstage : p.audStage = {}) (h : StageStep p d cfg m x m' y) : m' = m ∧ y = x := by
  obtain ⟨d1, d2, d3, d4, d5, x1, x2, present, -, -, -, -, -, hhigh, hde, -, hsq, -, hhist, hy⟩ := h
  rw [hstage] at hhigh hde hsq hhist
  obtain ⟨hx1, hdeMem⟩ := hde rfl
  obtain ⟨hpresent, hsqMem⟩ := hsq rfl
  obtain ⟨hhighMem, hx⟩ := Prod.mk.inj hhigh
  rw [hpresent, if_pos rfl, hx1] at hy
  refine ⟨?_, hy.trans hx.symm⟩
  calc m' = ⟨m'.highPass, m'.deEmphasis, m'.squelch, m'.history⟩ := rfl
    _ = m := by rw [← hhighMem, hdeMem, hsqMem, hhist]; rfl

theorem StageRun.passThrough {p : Params} {cfg : List Byte} {dOut d : Nat} {m m' : AudioMemory} {xs : List F32}
    {ys : List Half} (hstage : p.audStage = {}) (h : StageRun p cfg dOut d m xs ys m') :
    m' = m ∧ ys = xs.map (toS16At dOut) := by
  induction xs generalizing d m ys with
  | nil =>
    obtain ⟨hys, hm⟩ := h
    exact ⟨hm, hys⟩
  | cons x xs ih =>
    obtain ⟨m1, y, rest, hstep, hys, hrun⟩ := h
    obtain ⟨hm1, hy⟩ := hstep.passThrough hstage
    obtain ⟨hm', hrest⟩ := ih hrun
    exact ⟨hm'.trans hm1, by rw [hys, hy, hrest, List.map_cons]⟩

/-! ### The samples of a call -/

/-- `t` is `s` after the samples `xs`: AUD_STAGE made `ys` of them, and `new` are the blocks handed to SINK. -/
structure AudioFed (rate : Word) (d : Nat) (s : State) (xs : List F32) (new : List AudioBlock) (ys : List Half)
    (t : State) : Prop where
  frame : t = { s with aud := t.aud, sink := s.sink ++ new, draws := t.draws }
  cfg : t.aud.cfg = s.aud.cfg
  ok : t.aud.Ok s.params
  run : StageRun s.params s.aud.cfg d s.draws s.aud.fstate xs ys t.aud.fstate
  blocks : ∀ x ∈ new, x.samples.length = s.params.audBlock ∧ x.rate = rate
  conserved : new.flatMap (fun x => x.samples) ++ t.aud.waiting = s.aud.waiting ++ ys

/-- AUD.EXEC writes the chain's memory, the block under way, SINK and the free values drawn, and nothing else. -/
theorem AudioFed.writes {rate : Word} {d : Nat} {s t : State} {xs : List F32} {new : List AudioBlock} {ys : List Half}
    (h : AudioFed rate d s xs new ys t) :
    t = { s with aud := { s.aud with fstate := t.aud.fstate, block := t.aud.block, blockN := t.aud.blockN },
                 sink := s.sink ++ new, draws := t.draws } := by
  have haud : t.aud = { s.aud with fstate := t.aud.fstate, block := t.aud.block, blockN := t.aud.blockN } :=
    congrArg (fun c => { t.aud with cfg := c }) h.cfg
  rw [← haud]
  exact h.frame

theorem AudioFed.nil (rate : Word) (d : Nat) {s : State} (hs : s.aud.Ok s.params) : AudioFed rate d s [] [] [] s where
  frame := by rw [List.append_nil]
  cfg := rfl
  ok := hs
  run := ⟨rfl, rfl⟩
  blocks := List.forall_mem_nil _
  conserved := (List.append_nil _).symm

theorem AudioFed.cons {rate : Word} {d : Nat} {s t : State} {x : F32} {xs : List F32} {new : List AudioBlock}
    {ys : List Half} (hs : s.aud.Ok s.params) (hfed : AudioFed rate d (s.audStep rate x) xs new ys t) :
    AudioFed rate d s (x :: xs) (emitted rate (s.aud.step s.params s.draws x).2 ++ new)
      (toS16At d (audStage s.params s.draws s.aud.cfg s.aud.fstate x).2 :: ys) t where
  frame := hfed.frame.trans (by rw [← List.append_assoc, ← emitBlock_eq]; rfl)
  cfg := hfed.cfg.trans (s.aud.step_cfg ..)
  ok := hfed.ok
  run := by
    have hrun : StageRun s.params (s.aud.step s.params s.draws x).1.cfg d (s.draws + stageDraws s.params.audStage)
        (s.aud.step s.params s.draws x).1.fstate xs ys t.aud.fstate := hfed.run
    rw [AudioUnit.step_cfg, AudioUnit.step_fstate] at hrun
    exact ⟨_, _, ys, audStage_step .., rfl, hrun⟩
  blocks := by
    intro b hb
    rcases List.mem_append.1 hb with hb | hb
    · obtain ⟨block, hblock, rfl⟩ := mem_emitted.1 hb
      exact ⟨(hs.step s.draws x).2 block hblock, rfl⟩
    · exact hfed.blocks b hb
  conserved := by
    have hrest : new.flatMap (fun x => x.samples) ++ t.aud.waiting
        = (s.aud.step s.params s.draws x).1.waiting ++ ys := hfed.conserved
    rw [List.flatMap_append, emitted_samples, List.append_assoc, hrest, ← List.append_assoc, hs.step_waiting, toAudio_eq d,
      List.append_assoc, List.singleton_append]

theorem audStep_foldl_fed (rate : Word) (d : Nat) (xs : List F32) {s : State} (hs : s.aud.Ok s.params) :
    ∃ new ys, AudioFed rate d s xs new ys (xs.foldl (State.audStep rate) s) := by
  induction xs generalizing s with
  | nil => exact ⟨[], [], .nil rate d hs⟩
  | cons x xs ih =>
    have hnext : (s.audStep rate x).aud.Ok (s.audStep rate x).params := (hs.step s.draws x).1
    obtain ⟨new, ys, hfed⟩ := ih hnext
    exact ⟨_, _, hfed.cons hs⟩

/-! ### The operations -/

theorem exec_audReset (s : State) :
    exec .audReset s = .next { s with aud := { s.aud with fstate := s.params.audInit, blockN := 0 }, ret := .none } := rfl

theorem exec_audCfg (bytes : List Byte) (s : State) :
    exec (.audCfg bytes) s = .next { s with aud := { s.aud with cfg := bytes, fstate := s.params.audInit }, ret := .none } :=
  rfl

/-- Settles O50, by induction on the samples of the call. -/
theorem audioChainConserves : Obligations.AudioChainConserves := by
  intro s bytes b d
  refine ⟨exec_audReset s, exec_audCfg bytes s, fun hs => ?_⟩
  obtain ⟨new, ys, hfed⟩ : ∃ new ys, AudioFed b.rate d s b.data new ys (s.audExec b) :=
    audStep_foldl_fed b.rate d b.data hs
  exact ⟨new, _, _, _, ys, _, congrArg (done .none) hfed.writes, hfed.run, hfed.ok.block, hfed.ok.count, hfed.blocks,
    hfed.conserved, fun hstage => hfed.run.passThrough hstage⟩

end Sys2Proof.Machine

/-! The control messages that configure BB's units (48_top_level.md R312, R319 to R326). -/

namespace Sys2Proof.Machine
open Sys2Proof

/-! ### CTL_SET_MODE -/

/-- A mode byte above 3 names no mode (30_encoding.md R118). -/
theorem modeOf_of_gt {b : Byte} (h : 3 < b.toNat) : modeOf b = none := by
  unfold modeOf
  split
  case h_5 => rfl
  all_goals omega

theorem exec_ctlSetMode_accepted (s : State) {b : Byte} {m : Mode} (h : modeOf b = some m) :
    exec (.ctlSetMode [b]) s = .next { s.teardown with mode := m, ret := .none } := by
  simp only [exec, execCtlSetMode, State.ctlSetMode, cutSetMode, Option.bind_some, h, done]

theorem exec_ctlSetMode_rejected (s : State) {b : Byte} (h : modeOf b = none) :
    exec (.ctlSetMode [b]) s = .next { s with errstat := s.errstat ||| 1, ret := .none } := by
  simp only [exec, execCtlSetMode, State.ctlSetMode, cutSetMode, Option.bind_some, h, done_configRejected]

/-- The teardown resets every unit and keeps what R312 lists as not touched. -/
theorem State.teardown_modeInstalled (s : State) (m : Mode) :
    ModeInstalled s { s.teardown with mode := m, ret := .none } m :=
  ⟨rfl, s.pfd0.reset_cleared, s.pfd1.reset_cleared, s.pfd2.reset_cleared, s.bpf.fir.reset_cleared, rfl, rfl, rfl, rfl, rfl, rfl,
    rfl, rfl, rfl, rfl, rfl, rfl, rfl, rfl, rfl, rfl, rfl, rfl, rfl, rfl⟩

/-- Settles O23: the four mode bytes, and the others. -/
theorem modeChangeTearsDown : Obligations.ModeChangeTearsDown := by
  refine fun s b => ⟨fun m hm => ?accepted, fun hb => exec_ctlSetMode_rejected s (modeOf_of_gt hb)⟩
  case accepted =>
    have hmode : modeOf b = some m := by
      obtain ⟨rfl, rfl⟩ | ⟨rfl, rfl⟩ | ⟨rfl, rfl⟩ | ⟨rfl, rfl⟩ := hm <;> rfl
    exact ⟨_, exec_ctlSetMode_accepted s hmode, s.teardown_modeInstalled m, rfl⟩

/-! ### The fields of a payload (30_encoding.md R113) -/

/-- `n` halves of a payload from offset `off` on. -/
def halvesAt (pl : List Byte) (off n : Nat) : List Half := (List.range n).map fun k => halfAt pl (off + 2 * k)

/-- `n` words of a payload from offset `off` on. -/
def wordsAt (pl : List Byte) (off n : Nat) : List Word := (List.range n).map fun k => wordAt pl (off + 4 * k)

theorem halfAt_drop (pl : List Byte) (off i : Nat) : halfAt (pl.drop off) i = halfAt pl (off + i) := by
  simp only [halfAt, List.getD_eq_getElem?_getD, List.getElem?_drop, Nat.add_assoc]

theorem wordAt_drop (pl : List Byte) (off i : Nat) : wordAt (pl.drop off) i = wordAt pl (off + i) := by
  simp only [wordAt, List.getD_eq_getElem?_getD, List.getElem?_drop, Nat.add_assoc]

/-- The rest of a payload is its halves. -/
theorem halves_drop {pl : List Byte} {off n : Nat} (h : (pl.drop off).length = 2 * n) :
    halves (pl.drop off) = halvesAt pl off n := by
  simp only [halves_eq _ n h, halfAt_drop, halvesAt]

/-- The rest of a payload is its words. -/
theorem words_drop {pl : List Byte} {off n : Nat} (h : (pl.drop off).length = 4 * n) :
    words (pl.drop off) = wordsAt pl off n := by
  simp only [words_eq _ n h, wordAt_drop, wordsAt]

theorem wordsAt_getD (pl : List Byte) (off n : Nat) {k : Nat} (h : k < n) :
    (wordsAt pl off n).getD k 0 = wordAt pl (off + 4 * k) := by
  simp [wordsAt, h]

/-! ### CTL_DECIMATOR_CONFIG -/

theorem cutDecimator_eq {pl : List Byte} (hmin : 4 ≤ pl.length) (hlen : pl.length = 4 + 2 * (pl.getD 2 0).toNat) :
    cutDecimator pl = some ⟨pl.getD 0 0, pl.getD 1 0, pl.getD 2 0, halvesAt pl 4 (pl.getD 2 0).toNat⟩ := by
  have htaps : (pl.drop 4).length = 2 * (pl.getD 2 0).toNat := by rw [List.length_drop]; omega
  rw [← halves_drop htaps]
  match pl, hmin with
  | _ :: _ :: _ :: _ :: _, _ => exact if_pos htaps

/-- A message of the right length for one of the three stages is PFD.CFG with its fields (R319). -/
theorem exec_ctlDecimatorConfig (s : State) {pl : List Byte} (hmin : 4 ≤ pl.length)
    (hlen : pl.length = 4 + 2 * (pl.getD 2 0).toNat) {i : Fin 3} (hi : (pl.getD 0 0).toNat = i.val) :
    exec (.ctlDecimatorConfig pl) s
      = exec (.pfdCfg i (pl.getD 1 0) (pl.getD 2 0) (halvesAt pl 4 (pl.getD 2 0).toNat)) s := by
  have hstage : (pl.getD 0 0).toNat < 3 := hi ▸ i.isLt
  have hfin : (⟨(pl.getD 0 0).toNat, hstage⟩ : Fin 3) = i := Fin.ext hi
  simp only [exec, execCtlDecimatorConfig, State.ctlDecimator, cutDecimator_eq hmin hlen, dif_pos hstage, hfin, execPfdCfg]

/-- A message for another stage is rejected (R319). -/
theorem exec_ctlDecimatorConfig_badStage (s : State) {pl : List Byte} (hmin : 4 ≤ pl.length)
    (hlen : pl.length = 4 + 2 * (pl.getD 2 0).toNat) (hstage : 2 < (pl.getD 0 0).toNat) :
    exec (.ctlDecimatorConfig pl) s = .next { s with errstat := s.errstat ||| 1, ret := .none } := by
  have hstage : ¬ (pl.getD 0 0).toNat < 3 := by omega
  simp only [exec, execCtlDecimatorConfig, State.ctlDecimator, cutDecimator_eq hmin hlen, dif_neg hstage, done_configRejected]

/-- Settles O24: for a stage the message is PFD.CFG; an illegal stage or factor is rejected. -/
theorem decimatorMessageConfigures : Obligations.DecimatorMessageConfigures := by
  intro s pl hmin hlen
  refine ⟨fun i hi hlegal => ?accepted, fun hillegal => ?rejected⟩
  case accepted =>
    exact ⟨_, (exec_ctlDecimatorConfig s hmin hlen hi).trans (exec_pfdCfg_accepted s i _ hlegal),
      (s.pfd i).cfg_configured _ _ _ hlegal⟩
  case rejected =>
    by_cases hstage : 2 < (pl.getD 0 0).toNat
    · exact exec_ctlDecimatorConfig_badStage s hmin hlen hstage
    · have hi : (pl.getD 0 0).toNat = (⟨(pl.getD 0 0).toNat, by omega⟩ : Fin 3).val := rfl
      exact (exec_ctlDecimatorConfig s hmin hlen hi).trans
        (exec_pfdCfg_rejected s _ _ (hillegal.resolve_left hstage))

/-! ### CTL_CHANNEL_FILTER_CONFIG -/

theorem cutChannelFilter_eq {pl : List Byte} (hmin : 12 ≤ pl.length) (hlen : pl.length = 12 + 2 * (pl.getD 1 0).toNat) :
    cutChannelFilter pl
      = some ⟨pl.getD 0 0, pl.getD 1 0, wordAt pl 4, wordAt pl 8, halvesAt pl 12 (pl.getD 1 0).toNat⟩ := by
  have htaps : (pl.drop 12).length = 2 * (pl.getD 1 0).toNat := by rw [List.length_drop]; omega
  rw [← halves_drop htaps]
  match pl, hmin with
  | _ :: _ :: _ :: _ :: _ :: _ :: _ :: _ :: _ :: _ :: _ :: _ :: _, _ => exact if_pos htaps

/-- A message of the right length is BPF.CFG with its fields (R320). -/
theorem exec_ctlChannelFilterConfig (s : State) {pl : List Byte} (hmin : 12 ≤ pl.length)
    (hlen : pl.length = 12 + 2 * (pl.getD 1 0).toNat) :
    exec (.ctlChannelFilterConfig pl) s
      = exec (.bpfCfg (pl.getD 0 0) (pl.getD 1 0) (wordAt pl 4) (wordAt pl 8) (halvesAt pl 12 (pl.getD 1 0).toNat)) s := by
  simp only [exec, execCtlChannelFilterConfig, State.ctlChannelFilter, cutChannelFilter_eq hmin hlen, execBpfCfg]

/-- Settles O25: the message is BPF.CFG. -/
theorem channelFilterMessageConfigures : Obligations.ChannelFilterMessageConfigures := by
  intro s pl hmin hlen
  refine ⟨fun hfactors hpass hstop => ?accepted, fun hillegal => ?rejected⟩
  case accepted =>
    exact ⟨_, (exec_ctlChannelFilterConfig s hmin hlen).trans (exec_bpfCfg_accepted s _ hfactors ⟨hpass, hstop⟩),
      s.bpf.fir.cfg_configured _ _ _ hfactors⟩
  case rejected =>
    refine (exec_ctlChannelFilterConfig s hmin hlen).trans (exec_bpfCfg_rejected s _ ?_)
    rintro ⟨hfactors, hpass, hstop⟩
    obtain h | h | h := hillegal
    exacts [h hfactors, hpass h, absurd hstop (Nat.not_lt.2 h)]

/-! ### CTL_DEMOD_CONFIG and CTL_AUDIO_CONFIG -/

theorem cutDemod_eq {pl : List Byte} (h : pl.length = 12) :
    cutDemod pl = some ⟨(pl.getD 0 0).getLsbD 0, wordAt pl 4, wordAt pl 8⟩ := by
  match pl, h with
  | [_, _, _, _, _, _, _, _, _, _, _, _], _ => rfl

/-- A message of 12 bytes configures both demodulators with its fields (R321). -/
theorem exec_ctlDemodConfig (s : State) {pl : List Byte} (h : pl.length = 12) :
    exec (.ctlDemodConfig pl) s
      = .next { s with amd := s.amd.cfg ((pl.getD 0 0).getLsbD 0) (wordAt pl 4), fmd := s.fmd.cfg (wordAt pl 8),
                       ret := .none } := by
  simp only [exec, execCtlDemodConfig, State.ctlDemod, cutDemod_eq h, done]

/-- Settles O26: CTL_AUDIO_CONFIG is AUD.CFG. -/
theorem demodAndAudioMessagesConfigure : Obligations.DemodAndAudioMessagesConfigure :=
  fun s pl => ⟨exec_ctlDemodConfig s, exec_audCfg pl s⟩

/-! ### CTL_BASEBAND_FIR_CONFIG -/

theorem cutBaseband_eq {pl : List Byte} (hmin : 4 ≤ pl.length) (hlen : pl.length = 4 + 4 * (pl.getD 0 0).toNat) :
    cutBaseband pl = some ⟨pl.getD 0 0, wordsAt pl 4 (pl.getD 0 0).toNat⟩ := by
  have htaps : (pl.drop 4).length = 4 * (pl.getD 0 0).toNat := by rw [List.length_drop]; omega
  rw [← words_drop htaps]
  match pl, hmin with
  | _ :: _ :: _ :: _ :: _, _ => exact if_pos htaps

/-- A message of the right length is FBF.CFG with its fields (R322). -/
theorem exec_ctlBasebandFirConfig (s : State) {pl : List Byte} (hmin : 4 ≤ pl.length)
    (hlen : pl.length = 4 + 4 * (pl.getD 0 0).toNat) :
    exec (.ctlBasebandFirConfig pl) s = exec (.fbfCfg (pl.getD 0 0) (wordsAt pl 4 (pl.getD 0 0).toNat)) s := by
  simp only [exec, execCtlBasebandFirConfig, State.ctlBaseband, cutBaseband_eq hmin hlen, execFbfCfg]

/-- Settles O27: the message is FBF.CFG. -/
theorem basebandMessageConfigures : Obligations.BasebandMessageConfigures := by
  intro s pl hmin hlen
  rw [exec_ctlBasebandFirConfig s hmin hlen]
  refine ⟨fun hlo hhi => ?accepted, fun hillegal => exec_fbfCfg_rejected s _ (by omega)⟩
  case accepted =>
    refine ⟨_, exec_fbfCfg_accepted s _ ⟨hlo, hhi⟩, s.fbf.cfg_t _ _ hhi, padTaps_length _ _ _, fun k hk => ?_, rfl, rfl⟩
    refine (padTaps_getD _ _ _ k hk).trans (ite_congr rfl (fun hkt => ?_) fun _ => rfl)
    exact wordsAt_getD pl 4 _ hkt

/-! ### CTL_SPECTRUM_START and CTL_SPECTRUM_STOP -/

theorem cutSpectrumStart_eq {pl : List Byte} (h : pl.length = 4) : cutSpectrumStart pl = some (halfAt pl 0) := by
  match pl, h with
  | [_, _, _, _], _ => rfl

/-- An accepted start is followed by the emission of RES_SPECTRUM_READY (R325). -/
theorem exec_ctlSpectrumStart_accepted (s : State) {pl : List Byte} (hlen : pl.length = 4) (hk : halfAt pl 0 ≠ 0) :
    exec (.ctlSpectrumStart pl) s = done .none ({ s with spc := s.spc.start (halfAt pl 0) } : State).sendReady := by
  simp only [exec, execCtlSpectrumStart, State.ctlSpectrumStart, cutSpectrumStart_eq hlen, State.spcStart, if_neg hk, if_true]

theorem exec_ctlSpectrumStart_rejected (s : State) {pl : List Byte} (hlen : pl.length = 4) (hk : halfAt pl 0 = 0) :
    exec (.ctlSpectrumStart pl) s = .next { s with errstat := s.errstat ||| 1, ret := .none } := by
  simp only [exec, execCtlSpectrumStart, State.ctlSpectrumStart, cutSpectrumStart_eq hlen, State.spcStart, if_pos hk,
    Bool.false_eq_true, if_false, done_configRejected]

theorem exec_ctlSpectrumStop_accepted (s : State) :
    exec (.ctlSpectrumStop []) s = .next { s with spc := s.spc.stop, ret := .none } := rfl

/-- RES_SPECTRUM_READY is a message of every legal block (30_encoding.md R130). -/
theorem sendable_ready {s : State} (h : paramsOk s.params = true) : Sendable s (0x83, readyPayload) := by
  have hcap := (capOk_bounds _ (paramsOk_cap _ h)).1
  exact ⟨by simp, by simp [readyPayload]; omega⟩

theorem State.sendReady_of_fits {s : State} (hparams : paramsOk s.params = true) (hfits : Fits s .b2a (0x83, readyPayload)) :
    s.sendReady = s.sent .b2a 0x83 readyPayload := by
  rw [sendReady, s.send_sent _ _ _ ((badMessage_false _ _ _).2 (sendable_ready hparams)) ((noRoom_false _ _ _).2 hfits)]

/-- With no room the message is lost (60_exceptions.md R344). -/
theorem State.sendReady_of_full {s : State} (hparams : paramsOk s.params = true) (hfull : ¬ Fits s .b2a (0x83, readyPayload)) :
    s.sendReady = s.raise .txOverflow := by
  have hgood := (badMessage_false _ _ _).2 (sendable_ready hparams)
  have hnoRoom := Bool.eq_true_of_not_eq_false (mt (noRoom_false _ _ _).1 hfull)
  simp only [sendReady, send, hgood, Bool.false_eq_true, if_false, hnoRoom, if_true]

/-- Settles O28: the room for RES_SPECTRUM_READY does not depend on SPC. -/
theorem spectrumMessagesStartAndStop : Obligations.SpectrumMessagesStartAndStop := by
  intro s pl hparams hlen
  refine ⟨fun hk hfits => ?sent, fun hk hfull => ?lost, exec_ctlSpectrumStart_rejected s hlen,
    exec_ctlSpectrumStop_accepted s⟩
  case sent =>
    refine ⟨s.sent .b2a 0x83 readyPayload, ?_, State.sendAccepted_sent hfits⟩
    rw [exec_ctlSpectrumStart_accepted s hlen hk, State.sendReady_of_fits (s := { s with spc := s.spc.start _ }) hparams hfits]
    rfl
  case lost =>
    rw [exec_ctlSpectrumStart_accepted s hlen hk, State.sendReady_of_full (s := { s with spc := s.spc.start _ }) hparams hfull]
    rfl

end Sys2Proof.Machine

/-! The Manchester decoder, MAN (47_manchester_decoder.md R296 to R298). -/

namespace Sys2Proof.Machine
open Sys2Proof

/-! ### Digits -/

/-- `HEX(x)` is the digit of the table for the sixteen values of four bits (R296). -/
theorem hexDigit_eq {x : Nat} (h : x < 16) : hexDigit x = hexChar x := by
  have hall : ∀ y : Fin 16, hexDigit y = hexChar y := by decide
  exact hall ⟨x, h⟩

theorem bitNat_le (b : Bool) : bitNat b ≤ 1 := by cases b <;> decide

/-- Four bits are below sixteen, so their digit is in the table. -/
theorem hexDigit_bits (b0 b1 b2 b3 : Bool) :
    hexDigit (8 * bitNat b0 + 4 * bitNat b1 + 2 * bitNat b2 + bitNat b3)
      = hexChar (8 * bitNat b0 + 4 * bitNat b1 + 2 * bitNat b2 + bitNat b3) := by
  have := bitNat_le b0
  have := bitNat_le b1
  have := bitNat_le b2
  have := bitNat_le b3
  exact hexDigit_eq (by omega)

/-- A digit string, digit by digit; bits past the end are `pad` (R296). -/
theorem hexDigits_eq (pad : Bool) (n : Nat) (bits : List Bool) :
    hexDigits pad n bits = (List.range n).map (digitOf fun i => bitNat (bits.getD i pad)) := by
  induction n generalizing bits with
  | zero => rfl
  | succ n ih =>
    have hshift : ∀ d, digitOf (fun i => bitNat ((bits.drop 4).getD i pad)) d
        = digitOf (fun i => bitNat (bits.getD i pad)) (d + 1) := fun d => by
      simp only [digitOf, List.getD_eq_getElem?_getD, List.getElem?_drop]
      congr 5 <;> ring_nf
    rw [hexDigits, ih, hexDigit_bits, List.range_succ_eq_map, List.map_cons, List.map_map]
    exact congrArg₂ _ rfl (List.map_congr_left fun d _ => hshift d)

/-- A digit shows its own four bits and no other. -/
theorem digitOf_congr {v w : Nat → Nat} {d : Nat} (h : ∀ i, i / 4 = d → v i = w i) : digitOf v d = digitOf w d := by
  simp only [digitOf]
  rw [h (4 * d) (by omega), h (4 * d + 1) (by omega), h (4 * d + 2) (by omega), h (4 * d + 3) (by omega)]

/-- `n` digits show the bits below `4 * n`. -/
theorem map_digitOf_congr {v w : Nat → Nat} {n : Nat} (h : ∀ i, i < 4 * n → v i = w i) :
    (List.range n).map (digitOf v) = (List.range n).map (digitOf w) :=
  List.map_congr_left fun d hd => digitOf_congr fun i hi => h i (by have := List.mem_range.1 hd; omega)

/-! ### Pairs -/

/-- The whole pairs of the input, one by one (R296). -/
theorem manPairs_eq (sense : Bool) (bits : List Bool) :
    manPairs sense bits = (List.range (bits.length / 2)).map fun i =>
      (bits.getD (2 * i + if sense then 1 else 0) false, bits.getD (2 * i) false == bits.getD (2 * i + 1) false) := by
  induction bits using manPairs.induct with
  | case1 b0 b1 r ih =>
    have hlen : (b0 :: b1 :: r).length / 2 = r.length / 2 + 1 := by simp only [List.length_cons]; omega
    rw [manPairs, ih, hlen, List.range_succ_eq_map, List.map_cons, List.map_map]
    cases sense <;> rfl
  | case2 bits h =>
    match bits with
    | [] => rfl
    | [_] => simp [manPairs]
    | b0 :: b1 :: r => exact absurd rfl (h b0 b1 r)

/-- `v[i]` of R296: padded bits are 0. -/
theorem manV_eq (bits : List Bool) (sense : Bool) (i : Nat) :
    bitNat (((manPairs sense bits).map Prod.fst).getD i false) = manV bits sense i := by
  rw [manPairs_eq, List.map_map, manV]
  by_cases h : i < bits.length / 2
  · simp only [h, List.getD_eq_getElem?_getD, List.getElem?_map, List.getElem?_range, Option.map_some, Option.getD_some,
      if_true, Function.comp, bitNat]
  · simp [h, bitNat]

/-- `e[i]` of R296: padding positions are errors. -/
theorem manE_eq (bits : List Bool) (sense : Bool) (i : Nat) :
    bitNat (((manPairs sense bits).map Prod.snd).getD i true) = manE bits i := by
  rw [manPairs_eq, List.map_map, manE]
  by_cases h : i < bits.length / 2
  · simp [h, bitNat]
  · simp [h, bitNat]

/-- MAN.DECODE of an input it accepts: the digits of `v` and of `e`, and no state change (R296, R297). -/
theorem exec_manDecode (s : State) {bits : List Bool} (sense : Bool) (h : bits.length ≤ 512) :
    exec (.manDecode bits sense) s
      = .next { s with ret := .hex ((List.range ((bits.length / 2 + 3) / 4)).map (digitOf (manV bits sense)))
                                   ((List.range ((bits.length / 2 + 3) / 4)).map (digitOf (manE bits))) } := by
  have hdata : manData bits sense = (List.range ((bits.length / 2 + 3) / 4)).map (digitOf (manV bits sense)) := by
    rw [manData, hexDigits_eq, manDigits]
    exact map_digitOf_congr fun i _ => manV_eq bits sense i
  have herrs : manErrs bits sense = (List.range ((bits.length / 2 + 3) / 4)).map (digitOf (manE bits)) := by
    rw [manErrs, hexDigits_eq, manDigits]
    exact map_digitOf_congr fun i _ => manE_eq bits sense i
  rw [← hdata, ← herrs]
  exact if_pos h

/-- Settles O51. -/
theorem manchesterDecodes : Obligations.ManchesterDecodes :=
  fun s _ sense h => exec_manDecode s sense h

/-! ### The matching encoding -/

theorem manEncode_length (sense : Bool) (data : List Bool) : (manEncode sense data).length = 2 * data.length := by
  cases sense <;> simp [manEncode, Nat.mul_comm]

/-- Of the pair of a data bit, the bit that `sense` selects is the data bit and the other one its complement (R298). -/
theorem manEncode_getD (sense : Bool) {data : List Bool} {i k : Nat} (hi : i < data.length) (hk : k < 2) :
    (manEncode sense data).getD (2 * i + k) false
      = if k = 1 ↔ sense = true then data.getD i false else !data.getD i false := by
  induction data generalizing i with
  | nil => exact absurd hi (Nat.not_lt_zero i)
  | cons b data ih =>
    have hcons : manEncode sense (b :: data) = (if sense then [!b, b] else [b, !b]) ++ manEncode sense data := rfl
    cases i with
    | zero => interval_cases k <;> cases sense <;> simp [hcons]
    | succ i =>
      rw [hcons, show 2 * (i + 1) + k = 2 * i + k + 2 by ring]
      refine Eq.trans ?_ (ih (Nat.lt_of_succ_lt_succ hi))
      cases sense <;> rfl

/-- The same bits as the encoding, but for bit `j`, which is flipped if there is one. -/
theorem getD_flip (l : List Bool) {j m : Nat} (hm : m < l.length) :
    (l.set j (!l.getD j false)).getD m false = if m = j then !l.getD m false else l.getD m false := by
  simp only [List.getD_eq_getElem?_getD, List.getElem?_set]
  by_cases h : j = m
  · simp [h, hm]
  · simp [h, Ne.symm h]

/-- MAN.DECODE of an input with as many whole pairs as whole nibbles have bits (R296, R298): the pairs are `pair i`, the
digits those of the bits that `sense` selects, and the flags those of the pairs of two equal bits. -/
theorem exec_manDecode_nibbles (s : State) {bits : List Bool} {sense : Bool} {n : Nat} {v : Nat → Bool} {e : Nat → Nat}
    {pair : Nat → Nat → Bool} (hn : n % 4 = 0) (hlen : bits.length / 2 = n) (hmax : bits.length ≤ 512)
    (hbits : ∀ i k, i < n → k < 2 → bits.getD (2 * i + k) false = pair i k)
    (hv : ∀ i, pair i (if sense then 1 else 0) = v i) (he : ∀ i, (if pair i 0 = pair i 1 then 1 else 0) = e i) :
    exec (.manDecode bits sense) s
      = .next { s with ret := .hex ((List.range (n / 4)).map (digitOf fun i => if v i then 1 else 0))
                                   ((List.range (n / 4)).map (digitOf e)) } := by
  have hdigits : (bits.length / 2 + 3) / 4 = n / 4 := by omega
  have hvbits : ∀ i, i < n → manV bits sense i = if v i then 1 else 0 := fun i hi => by
    rw [manV, if_pos (hlen ▸ hi), hbits i _ hi (by split <;> decide), hv]
  have hebits : ∀ i, i < n → manE bits i = e i := fun i hi => by
    have hfirst : bits.getD (2 * i) false = pair i 0 := hbits i 0 hi (by decide)
    rw [manE, if_pos (hlen ▸ hi), hfirst, hbits i 1 hi (by decide), he]
  rw [exec_manDecode s sense hmax, hdigits, map_digitOf_congr fun i hi => hvbits i (by omega),
    map_digitOf_congr fun i hi => hebits i (by omega)]

/-- No flag set: every digit is 0. -/
theorem map_digitOf_zero (n : Nat) : (List.range n).map (digitOf fun _ => 0) = List.replicate n 0x30 := by
  rw [List.map_eq_replicate_iff.2 fun d _ => show digitOf (fun _ => 0) d = 0x30 from rfl, List.length_range]

/-- One flag set: the digit of its nibble has that bit (R296). -/
theorem digitOf_single (i d : Nat) :
    digitOf (fun k => if k = i then 1 else 0) d = if d = i / 4 then hexChar (2 ^ (3 - i % 4)) else 0x30 := by
  split
  case isFalse h =>
    rw [digitOf_congr (w := fun _ => 0) fun k hk => if_neg (by omega)]
    rfl
  case isTrue h =>
    obtain ⟨r, hr, rfl⟩ : ∃ r, r < 4 ∧ i = 4 * d + r := ⟨i % 4, by omega, by omega⟩
    rw [Nat.mul_add_mod, Nat.mod_eq_of_lt hr]
    interval_cases r <;> simp [digitOf]

/-- Settles O52: in each case the pairs of the input, the bits selected in them and the pairs of two equal bits. -/
theorem manchesterRoundTrip : Obligations.ManchesterRoundTrip := by
  intro s data sense hmax hwhole digits clean
  have hlen := manEncode_length sense data
  have hpair := fun i k hi hk => manEncode_getD sense (data := data) (i := i) (k := k) hi hk
  have hclean : clean = (List.range (data.length / 4)).map (digitOf fun _ => 0) := (map_digitOf_zero _).symm
  rw [hclean]
  refine ⟨?same, ?other, fun x hx => ?longer, fun j hj => ?flipped⟩
  case same | other =>
    refine exec_manDecode_nibbles s hwhole (by omega) (by omega) hpair (fun i => ?_) fun i => ?_
    all_goals cases sense <;> simp
  case longer =>
    have hlonger : ∀ i k, i < data.length → k < 2 → (manEncode sense data ++ [x]).getD (2 * i + k) false = _ :=
      fun i k hi hk => (List.getD_append _ _ _ _ (by omega)).trans (hpair i k hi hk)
    refine exec_manDecode_nibbles s hwhole ?_ ?_ hlonger (fun i => ?_) fun i => ?_
    · simp only [List.length_append, List.length_singleton]; omega
    · simp only [List.length_append, List.length_singleton]; omega
    all_goals cases sense <;> simp
  case flipped =>
    have hflags : ∀ d, (if d = j / 8 then hexChar (2 ^ (3 - j / 2 % 4)) else 0x30)
        = digitOf (fun i => if i = j / 2 then 1 else 0) d := fun d => by
      rw [digitOf_single, Nat.div_div_eq_div_mul]
    have hflip : ∀ i k, i < data.length → k < 2 →
        ((manEncode sense data).set j (!(manEncode sense data).getD j false)).getD (2 * i + k) false = _ :=
      fun i k hi hk => (getD_flip _ (by omega)).trans (by rw [hpair i k hi hk])
    simp only [hflags]
    refine exec_manDecode_nibbles s hwhole (by simp; omega) (by simp; omega) hflip (fun i => ?_) fun i => ?_
    · have hselected : 2 * i + (if sense then 1 else 0) = j ↔ i = j / 2 ∧ (j % 2 = 1 ↔ sense = true) := by
        cases sense <;> simp <;> omega
      simp only [hselected]
      cases sense <;> simp
    · obtain rfl | rfl | ⟨hfirst, hsecond, hpairs⟩ : j = 2 * i ∨ j = 2 * i + 1 ∨ 2 * i ≠ j ∧ 2 * i + 1 ≠ j ∧ i ≠ j / 2 := by
        omega
      · cases sense <;> simp
      · rw [show (2 * i + 1) / 2 = i by omega]
        cases sense <;> simp
      · cases sense <;> simp [hfirst, hsecond, hpairs]

end Sys2Proof.Machine

/-! No operation of BB looks at the result of the one before it: `ret` is written and never read (00_scope.md R14; log entry
10). -/

namespace Sys2Proof.Machine
open Sys2Proof

/-- A choice commutes with an update of the state that the choice does not look at. -/
theorem ite_updated {c : Prop} [Decidable c] {u : State → State} {s t s' t' : State} (hs : s' = u s) (ht : t' = u t) :
    (if c then s' else t') = u (if c then s else t) := by
  split
  · exact hs
  · exact ht

/-- The same of a choice between two states that come with an answer. -/
theorem ite_updated_fst {α : Type} {c : Prop} [Decidable c] {u : State → State} {x y x' y' : State × α} (hx : x' = x.map u id)
    (hy : y' = y.map u id) : (if c then x' else y') = (if c then x else y).map u id := by
  split
  · exact hx
  · exact hy

namespace State

/-- The state with another result of the last operation. -/
def withRet (r : Ret) (s : State) : State := { s with ret := r }

theorem withRet_withRet (s : State) (r r' : Ret) : (s.withRet r).withRet r' = s.withRet r' := rfl

/-- The state with another count of buffers. -/
def withCount (n : Word) (s : State) : State := { s with bufCount := n }

/-! ### The back chain, mode by mode (48_top_level.md R311, R316) -/

/-- The state after FMD and FBF, which TPMS runs on a whole buffer. -/
def basebandChain (s : State) : State := (s.fmdExec s.bpf.fir.out).fbfExec (s.fmdExec s.bpf.fir.out).fmd.out

section
variable {s : State}

theorem backChain_none (h : s.mode = .none) : s.backChain = s := by
  rw [backChain, h]

theorem backChain_am (h : s.mode = .am) :
    s.backChain = (s.amdExec s.bpf.fir.out).audExec (s.amdExec s.bpf.fir.out).amd.out := by
  rw [backChain, h]

theorem backChain_nfm (h : s.mode = .nfm) :
    s.backChain = (s.fmdExec s.bpf.fir.out).audExec (s.fmdExec s.bpf.fir.out).fmd.out := by
  rw [backChain, h]

theorem backChain_tpms (h : s.mode = .tpms) :
    s.backChain = s.basebandChain.fbf.out.data.foldl pushSample s.basebandChain := by
  rw [backChain, h, basebandChain]

end

section
variable (s : State) (r : Ret)

/-! ### The message channel -/

theorem send_withRet (c : Chan) (kind : Byte) (pl : List Byte) :
    (s.withRet r).send c kind pl = (s.send c kind pl).map (withRet r) id :=
  ite_updated_fst rfl (ite_updated_fst (by cases c <;> rfl) (by cases c <;> rfl))

/-- Nor does a send look at TOP.buf_count. -/
theorem send_withCount (n : Word) (c : Chan) (kind : Byte) (pl : List Byte) :
    (s.withCount n).send c kind pl = (s.send c kind pl).map (withCount n) id :=
  ite_updated_fst rfl (ite_updated_fst (by cases c <;> rfl) (by cases c <;> rfl))

theorem recv_withRet (c : Chan) : (s.withRet r).recv c = (s.recv c).map (withRet r) id :=
  ite_updated_fst rfl (ite_updated_fst rfl (ite_updated_fst (by cases c <;> rfl)
    (ite_updated_fst rfl (by cases c <;> rfl))))

/-! ### The units -/

theorem setPfd_withRet (i : Fin 3) (f : FirUnit) : (s.withRet r).setPfd i f = (s.setPfd i f).withRet r :=
  ite_updated rfl (ite_updated rfl rfl)

theorem pfdCfg_withRet (i : Fin 3) (d t : Byte) (taps : List Half) :
    (s.withRet r).pfdCfg i d t taps = (s.pfdCfg i d t taps).withRet r :=
  ite_updated (s.setPfd_withRet r i _) rfl

theorem bpfCfg_withRet (d t : Byte) (pass stop : Word) (taps : List Half) :
    (s.withRet r).bpfCfg d t pass stop taps = (s.bpfCfg d t pass stop taps).withRet r :=
  ite_updated rfl rfl

theorem fbfCfg_withRet (t : Byte) (taps : List F32) : (s.withRet r).fbfCfg t taps = (s.fbfCfg t taps).withRet r :=
  ite_updated rfl rfl

theorem strCfg_withRet (a b : Word) (gain : F32) : (s.withRet r).strCfg a b gain = (s.strCfg a b gain).withRet r :=
  ite_updated rfl rfl

/-- PKT.PUSH writes PKT and at most raises CaptureOverflow (44_packet_builder.md R243). -/
theorem pktPush_eq (bit err : Bool) :
    s.pktPush bit err
      = ({ s with pkt := (s.pkt.push s.params bit err).1, errstat := s.pktErrstat }, (s.pkt.push s.params bit err).2) := by
  unfold pktPush pktErrstat
  dsimp only
  split <;> rfl

theorem pktPush_withRet (bit err : Bool) : (s.withRet r).pktPush bit err = (s.pktPush bit err).map (withRet r) id := by
  rw [pktPush_eq, pktPush_eq]
  rfl

theorem spcStart_withRet (k : Half) : (s.withRet r).spcStart k = (s.spcStart k).map (withRet r) id :=
  ite_updated_fst rfl rfl

/-- The samples of a call, one after another. -/
theorem foldl_withRet {α : Type} {f : State → α → State} (hf : ∀ s x, f (s.withRet r) x = (f s x).withRet r) (xs : List α) :
    xs.foldl f (s.withRet r) = (xs.foldl f s).withRet r := by
  induction xs generalizing s with
  | nil => rfl
  | cons x xs ih => rw [List.foldl_cons, hf, ih, List.foldl_cons]

theorem audExec_withRet (b : F32Buf) : (s.withRet r).audExec b = (s.audExec b).withRet r :=
  s.foldl_withRet r (fun _ _ => rfl) b.data

/-! ### The control messages -/

theorem ctlSetMode_withRet (pl : List Byte) : (s.withRet r).ctlSetMode pl = (s.ctlSetMode pl).withRet r := by
  unfold ctlSetMode
  split <;> rfl

theorem ctlDecimator_withRet (pl : List Byte) : (s.withRet r).ctlDecimator pl = (s.ctlDecimator pl).withRet r := by
  unfold ctlDecimator
  split
  · rfl
  · split
    · exact s.pfdCfg_withRet r _ _ _ _
    · rfl

theorem ctlChannelFilter_withRet (pl : List Byte) : (s.withRet r).ctlChannelFilter pl = (s.ctlChannelFilter pl).withRet r := by
  unfold ctlChannelFilter
  split
  · rfl
  · exact s.bpfCfg_withRet r _ _ _ _ _

theorem ctlDemod_withRet (pl : List Byte) : (s.withRet r).ctlDemod pl = (s.ctlDemod pl).withRet r := by
  unfold ctlDemod
  split <;> rfl

theorem ctlBaseband_withRet (pl : List Byte) : (s.withRet r).ctlBaseband pl = (s.ctlBaseband pl).withRet r := by
  unfold ctlBaseband
  split
  · rfl
  · exact s.fbfCfg_withRet r _ _

theorem ctlClock_withRet (pl : List Byte) : (s.withRet r).ctlClock pl = (s.ctlClock pl).withRet r := by
  unfold ctlClock
  split
  · rfl
  · exact s.strCfg_withRet r _ _ _

theorem sendReady_withRet : (s.withRet r).sendReady = s.sendReady.withRet r :=
  congrArg Prod.fst (s.send_withRet r .b2a 0x83 readyPayload)

theorem ctlSpectrumStart_withRet (pl : List Byte) : (s.withRet r).ctlSpectrumStart pl = (s.ctlSpectrumStart pl).withRet r := by
  unfold ctlSpectrumStart
  split
  · rfl
  · rw [spcStart_withRet]
    exact ite_updated (sendReady_withRet _ r) rfl

theorem ctlSpectrumStop_withRet (pl : List Byte) : (s.withRet r).ctlSpectrumStop pl = (s.ctlSpectrumStop pl).withRet r :=
  ite_updated rfl rfl

theorem handle_withRet (kind : Byte) (pl : List Byte) : (s.withRet r).handle kind pl = (s.handle kind pl).withRet r := by
  unfold handle
  split
  · exact s.ctlSetMode_withRet r pl
  · exact s.ctlDecimator_withRet r pl
  · exact s.ctlChannelFilter_withRet r pl
  · exact s.ctlDemod_withRet r pl
  · exact s.ctlBaseband_withRet r pl
  · exact s.ctlClock_withRet r pl
  · rfl
  · exact s.ctlSpectrumStart_withRet r pl
  · exact s.ctlSpectrumStop_withRet r pl
  · rfl

/-! ### The top level -/

theorem dispatch_withRet : (s.withRet r).dispatch = s.dispatch.map (withRet r) id := by
  unfold dispatch
  rw [recv_withRet]
  obtain ⟨t, _ | ⟨kind, pl⟩⟩ := s.recv .a2b
  · rfl
  · exact congrArg (·, some kind) (t.handle_withRet r kind pl)

theorem drainControl_withRet (n : Nat) : (s.withRet r).drainControl n = (s.drainControl n).withRet r := by
  induction n generalizing s with
  | zero => rfl
  | succ n ih =>
    unfold drainControl
    rw [dispatch_withRet]
    obtain ⟨t, _ | kind⟩ := s.dispatch
    · rfl
    · exact ih t

theorem sendPacket_withRet (o : Option (List Bool)) : (s.withRet r).sendPacket o = (s.sendPacket o).withRet r := by
  cases o with
  | none => rfl
  | some bits => exact congrArg Prod.fst (s.send_withRet r .b2a 0x82 (packetPayload bits))

theorem pushSymbol_withRet (o : Option F32) : (s.withRet r).pushSymbol o = (s.pushSymbol o).withRet r := by
  cases o with
  | none => rfl
  | some x =>
    simp only [pushSymbol, pktPush_withRet]
    exact sendPacket_withRet _ r _

theorem pushSample_withRet (x : F32) : (s.withRet r).pushSample x = (s.pushSample x).withRet r :=
  (s.strPush x).1.pushSymbol_withRet r _

theorem backChain_withRet : (s.withRet r).backChain = s.backChain.withRet r := by
  cases h : s.mode with
  | none => rw [backChain_none h]; exact backChain_none h
  | am =>
    rw [backChain_am h, backChain_am (s := s.withRet r) h]
    exact (s.amdExec s.bpf.fir.out).audExec_withRet r _
  | nfm =>
    rw [backChain_nfm h, backChain_nfm (s := s.withRet r) h]
    exact (s.fmdExec s.bpf.fir.out).audExec_withRet r _
  | tpms =>
    rw [backChain_tpms h, backChain_tpms (s := s.withRet r) h]
    exact s.basebandChain.foldl_withRet r (fun t x => t.pushSample_withRet r x) _

/-- The front chain and SPC.FEED write the result only. -/
theorem processRaw_withRet (raw : List C8) : (s.withRet r).processRaw raw = (s.processRaw raw).withRet r :=
  ((s.frontChain raw).spcFeed (s.frontChain raw).bpf.fir.out (s.frontChain raw).bpf.passHz
    (s.frontChain raw).bpf.stopHz).backChain_withRet r

theorem consume_withRet (raw : List C8) : (s.withRet r).consume raw = (s.consume raw).withRet r :=
  ite_updated (s.processRaw_withRet r raw) rfl

/-- A report that is due is a send of its message; the flags and the counter are cleared after it (48_top_level.md R317). -/
theorem topStats_of_due {s : State} (h : statsDue s.params (s.bufCount + 1) = true) :
    s.topStats = { (s.send .b2a 0x81 s.statsBytes).1.clearSat with bufCount := 0, draws := s.draws + 2 } := by
  have hsend : (s.withCount (s.bufCount + 1)).send .b2a 0x81 (s.withCount (s.bufCount + 1)).statsBytes = _ :=
    s.send_withCount (s.bufCount + 1) .b2a 0x81 s.statsBytes
  calc
    s.topStats = { ((s.withCount (s.bufCount + 1)).send .b2a 0x81 (s.withCount (s.bufCount + 1)).statsBytes).1.clearSat with
        bufCount := 0, draws := s.draws + 2 } := if_pos h
    _ = _ := by rw [hsend]; rfl

theorem topStats_of_not_due {s : State} (h : statsDue s.params (s.bufCount + 1) = false) :
    s.topStats = s.withCount (s.bufCount + 1) :=
  if_neg (ne_true_of_eq_false h)

theorem topStats_withRet : (s.withRet r).topStats = s.topStats.withRet r := by
  cases h : statsDue s.params (s.bufCount + 1) with
  | false => rw [topStats_of_not_due h]; exact topStats_of_not_due h
  | true =>
    rw [topStats_of_due h, topStats_of_due (s := s.withRet r) h, send_withRet]
    rfl

end

end State

end Sys2Proof.Machine

/-! The top level: TOP.DISPATCH, TOP.STATS and TOP.BUFFER (48_top_level.md R311 to R318, R327, R328). -/

namespace Sys2Proof.Machine
open Sys2Proof

/-- An operation answers with its result in `ret`. -/
theorem done_eq_withRet (r : Ret) (s : State) : done r s = .next (s.withRet r) := rfl

/-! ### TOP.STATS -/

theorem statsDue_iff (p : Params) (n : Word) :
    statsDue p n = true ↔ p.statPeriod ≠ 0 ∧ p.statPeriod.toNat ≤ n.toNat := by
  simp only [statsDue, Bool.and_eq_true, bne_iff_ne, decide_eq_true_eq]

theorem exec_topStats_notDue (s : State) (h : statsDue s.params (s.bufCount + 1) = false) :
    exec .topStats s = .next { s with bufCount := s.bufCount + 1, ret := .none } := by
  show done .none s.topStats = _
  rw [State.topStats_of_not_due h]
  rfl

/-- A send touches no FIR unit, so that the flags it reports are the ones cleared after it (R317). -/
theorem exec_topStats_due (s : State) (h : statsDue s.params (s.bufCount + 1) = true) :
    exec .topStats s
      = .next { (s.send .b2a 0x81 s.statsBytes).1 with
          bufCount := 0, pfd0 := { s.pfd0 with sat := false }, pfd1 := { s.pfd1 with sat := false },
          pfd2 := { s.pfd2 with sat := false }, bpf := { s.bpf with fir := { s.bpf.fir with sat := false } },
          draws := s.draws + 2, ret := .none } := by
  show done .none s.topStats = _
  rw [State.topStats_of_due h]
  simp only [done, State.clearSat, State.send_pfd0, State.send_pfd1, State.send_pfd2, State.send_bpf]

/-- Settles O59: the busy times are the two values drawn. -/
theorem statisticsPeriod : Obligations.StatisticsPeriod := by
  refine fun s => ⟨fun hearly => ?early, fun hperiod hreached => ?due⟩
  case early =>
    refine exec_topStats_notDue s (Bool.eq_false_iff.2 fun hdue => ?_)
    obtain ⟨hperiod, hreached⟩ := (statsDue_iff _ _).1 hdue
    exact hearly.elim hperiod (Nat.not_lt.2 hreached)
  case due =>
    exact ⟨Config.busyDraw s.draws, Config.busyDraw (s.draws + 1), _, s.draws + 2, rfl,
      exec_topStats_due s ((statsDue_iff _ _).2 ⟨hperiod, hreached⟩)⟩

/-! ### TOP.DISPATCH -/

/-- A control message as an operation is BB's handling of it (R314; log entry 12). -/
theorem exec_controlMessage (s : State) {i : Instr} {kind : Byte} {payload : List Byte}
    (hmessage : messageOf i = some (kind, payload)) (hkind : kind.toNat ≤ 9) :
    exec i s = done .none (s.handle kind payload) := by
  cases i <;> cases hmessage
  case resStatistics | resPacket | resSpectrumReady => exact absurd hkind (by decide)
  all_goals rfl

/-- Kinds above 9 are none that BB handles (R327). -/
theorem State.handle_unknown (s : State) {kind : Byte} (payload : List Byte) (h : 9 < kind.toNat) :
    s.handle kind payload = s.raise .unknownKind := by
  unfold handle
  split
  case h_10 => rfl
  all_goals omega

theorem State.Holds.dispatch_nil {s : State} {hid : List Message} (h : s.Holds .a2b [] hid) : s.dispatch = (s, none) := by
  rw [State.dispatch, h.recv_nil]

/-- The oldest visible message is consumed and handled (R314). -/
theorem State.Holds.dispatch_cons {s : State} {kind : Byte} {payload : List Byte} {vis hid : List Message}
    (h : s.Holds .a2b ((kind, payload) :: vis) hid) :
    s.dispatch = ((s.received .a2b payload.length).handle kind payload, some kind) := by
  rw [State.dispatch, h.recv_cons]

theorem exec_topDispatch_of_dispatch {s t : State} {o : Option Byte} (h : s.dispatch = (t, o)) :
    exec .topDispatch s = .next (t.withRet (kindRet o)) := by
  show done (kindRet s.dispatch.2) s.dispatch.1 = _
  rw [h, done_eq_withRet]

/-- Settles O54. -/
theorem dispatchHandlesOldest : Obligations.DispatchHandlesOldest := by
  intro s vis hid _ h
  refine ⟨?empty, fun kind payload vis' hvis => ⟨fun i hmessage hkind => ?control, fun hkind => ?unknown⟩⟩
  case empty =>
    rintro rfl
    exact exec_topDispatch_of_dispatch h.dispatch_nil
  case control =>
    subst hvis
    exact ⟨_, exec_controlMessage _ hmessage hkind, exec_topDispatch_of_dispatch h.dispatch_cons⟩
  case unknown =>
    subst hvis
    rw [exec_topDispatch_of_dispatch h.dispatch_cons, State.handle_unknown _ payload hkind]
    rfl

/-! ### Control messages before the buffer -/

/-- BB's handling of a message moves no cursor of A2B, so that what is visible stays so. -/
theorem State.handle_a2b_avail (s : State) (kind : Byte) (payload : List Byte) :
    (s.handle kind payload).a2b.avail = s.a2b.avail := by
  have hframe := SharedFrame.handle (w := sendRegs .b2a) s kind payload subset_rfl
  have hread : (s.handle kind payload).a2b.r = s.a2b.r := hframe.readCursor .a2b (by simp [sendRegs])
  have hseen : (s.handle kind payload).a2b.wSeen = s.a2b.wSeen := (hframe.copies .a2b (by simp [sendRegs])).1
  rw [ChannelRegs.avail, hread, hseen, ChannelRegs.avail]

/-- A receive that takes a message makes at least its header invisible (40_message_channel.md R155). -/
theorem State.recv_avail_lt {s t : State} {m : Message} (h : s.recv .a2b = (t, some m)) : t.a2b.avail + 4 ≤ s.a2b.avail := by
  rcases s.recv_cases .a2b with ⟨e, -⟩ | ⟨-, -, -, e⟩ | ⟨-, hvisible, -, e⟩ <;> rw [e] at h <;> cases h
  simp only [State.chan_a2b, State.setChan_a2b_a2b, ChannelRegs.avail] at hvisible ⊢
  generalize s.headLen .a2b = n at *
  have := (s.a2b.wSeen - s.a2b.r).isLt
  bv_omega

/-- Each TOP.DISPATCH that is not none makes at least four bytes invisible. -/
theorem State.dispatch_avail_lt {s t : State} {kind : Byte} (h : s.dispatch = (t, some kind)) :
    t.a2b.avail + 4 ≤ s.a2b.avail := by
  unfold dispatch at h
  split at h <;> cases h
  rename_i hrecv
  rw [handle_a2b_avail]
  exact recv_avail_lt hrecv

/-- More dispatches than there can be visible messages are as many as there are (R316). -/
theorem State.drainControl_eq {m n : Nat} (s : State) (hm : s.a2b.avail / 4 < m) (hn : s.a2b.avail / 4 < n) :
    s.drainControl m = s.drainControl n := by
  induction m generalizing n s with
  | zero => exact absurd hm (Nat.not_lt_zero _)
  | succ m ih =>
    cases n with
    | zero => exact absurd hn (Nat.not_lt_zero _)
    | succ n =>
      rw [drainControl, drainControl]
      rcases hdispatch : s.dispatch with ⟨t, _ | kind⟩
      · rfl
      · have := dispatch_avail_lt hdispatch
        exact ih t (by omega) (by omega)

/-- Draining the visible messages begins with one TOP.DISPATCH (R316). -/
theorem State.drainControl_of_dispatch {s t : State} {kind : Byte} (h : s.dispatch = (t, some kind)) :
    s.drainControl s.visibleBound = t.drainControl t.visibleBound := by
  have := dispatch_avail_lt h
  rw [visibleBound, drainControl, h, visibleBound]
  exact t.drainControl_eq (by omega) (Nat.lt_succ_self _)

theorem State.topBuffer_withRet (s : State) (r : Ret) (raw : List C8) :
    (s.withRet r).topBuffer raw = (s.topBuffer raw).withRet r := by
  have hdrain : (s.withRet r).drainControl (s.withRet r).visibleBound = _ := s.drainControl_withRet r s.visibleBound
  rw [topBuffer, hdrain, consume_withRet, topStats_withRet, topBuffer]

/-- A buffer presented while a message is visible is processed as after its TOP.DISPATCH (R316, R318). -/
theorem State.topBuffer_of_dispatch {s t : State} {kind : Byte} (h : s.dispatch = (t, some kind)) (raw : List C8) :
    s.topBuffer raw = t.topBuffer raw := by
  rw [topBuffer, drainControl_of_dispatch h, topBuffer]

theorem exec_topBuffer (s : State) {raw : List C8} (h : raw.length = s.params.bufN) :
    exec (.topBuffer raw) s = .next ((s.topBuffer raw).withRet .none) :=
  if_pos h

/-- Settles O55. -/
theorem messagesBeforeBuffer : Obligations.MessagesBeforeBuffer := by
  intro s t raw vis hid _ hholds hvis hlen hexec
  obtain ⟨⟨kind, payload⟩, vis', rfl⟩ := List.exists_cons_of_ne_nil hvis
  have hdispatch := hholds.dispatch_cons
  have hparams := (exec_sharedFrame hexec).params
  rw [exec_topDispatch_of_dispatch hdispatch] at hexec
  cases hexec
  refine ⟨_, exec_topBuffer s hlen, (exec_topBuffer _ (hlen.trans (congrArg Params.bufN hparams.symm))).trans ?_⟩
  rw [State.topBuffer_of_dispatch hdispatch, State.topBuffer_withRet, State.withRet_withRet]

/-! ### The buffer with no message visible -/

theorem State.topBuffer_of_idle {s : State} (h : s.a2b.fault = true ∨ s.a2b.avail < 4) (raw : List C8) :
    s.topBuffer raw = (s.consume raw).topStats := by
  have hdispatch : s.dispatch = (s, none) := by rw [dispatch, recv_idle (c := .a2b) h]
  rw [topBuffer, visibleBound, drainControl, hdispatch]

/-- The predicate of R315, mode by mode. -/
theorem State.configuredFor_iff (s : State) : s.configuredFor s.mode = true ↔ Ready s := by
  cases hmode : s.mode <;> simp [configuredFor, Ready, hmode, and_assoc]

/-- Settles O56. -/
theorem unconfiguredDiscards : Obligations.UnconfiguredDiscards := by
  intro s raw hlen hidle hready
  have hconsume : s.consume raw = s := if_neg (mt s.configuredFor_iff.1 hready)
  refine ⟨_, exec_topBuffer s hlen, ?_⟩
  rw [State.topBuffer_of_idle hidle, hconsume]
  rfl

/-! ### The chain of a configured block -/

/-- The state after the front chain and SPC.FEED (R311, R316). -/
def State.fedChain (s : State) (raw : List C8) : State :=
  (s.frontChain raw).spcFeed (s.frontChain raw).bpf.fir.out (s.frontChain raw).bpf.passHz (s.frontChain raw).bpf.stopHz

theorem State.processRaw_eq (s : State) (raw : List C8) : s.processRaw raw = (s.fedChain raw).backChain := rfl

/-- The chain runs in one mode and does not touch STR (R311). -/
theorem State.fedChain_mode (s : State) (raw : List C8) : (s.fedChain raw).mode = s.mode :=
  ((Frame.frontChain (w := ∅) s raw).trans (Frame.spcFeed _ _ _ _)).mode (by simp)

theorem State.fedChain_str (s : State) (raw : List C8) : (s.fedChain raw).str = s.str :=
  ((Frame.frontChain (w := ∅) s raw).trans (Frame.spcFeed _ _ _ _)).str (by simp)

/-- The front chain is its five operations; each unit is configured, and no other's operation changes that (R173, R316). -/
theorem frontChain_runs {s : State} (h : Ready s) (raw : List C8) : FrontChain raw s ((s.fedChain raw).withRet .none) := by
  obtain ⟨-, hpfd0, hpfd1, hpfd2, hbpf, -⟩ := h
  exact ⟨_, _, _, _, exec_pfdExec s 0 _ hpfd0, exec_pfdExec _ 1 _ hpfd1, exec_pfdExec _ 2 _ hpfd2, exec_bpfExec _ _ hbpf,
    exec_spcFeed _ _ _ _⟩

/-! What an operation of the chain answers, whatever the operation before it returned. -/

theorem exec_strPush_eq {s : State} (h : s.str.configured = true) (x : F32) :
    exec (.strPush x) s = .next ((s.strPush x).1.withRet (symbolRet (s.strPush x).2)) :=
  if_pos h

theorem exec_pktPush_withRet (s : State) (r : Ret) (bit err : Bool) :
    exec (.pktPush bit err) (s.withRet r)
      = .next ((s.pktPush bit err).1.withRet (packetRet (s.pktPush bit err).2)) := by
  show done (packetRet ((s.withRet r).pktPush bit err).2) ((s.withRet r).pktPush bit err).1 = _
  rw [State.pktPush_withRet]
  rfl

theorem exec_mfcSend_withRet (s : State) (r : Ret) (c : Chan) (kind : Byte) (pl : List Byte) :
    exec (.mfcSend c kind pl) (s.withRet r) = .next ((s.send c kind pl).1.withRet (.bool (s.send c kind pl).2)) := by
  show done (.bool ((s.withRet r).send c kind pl).2) ((s.withRet r).send c kind pl).1 = _
  rw [State.send_withRet]
  rfl

theorem exec_audExec_withRet (s : State) (r : Ret) (b : F32Buf) :
    exec (.audExec b) (s.withRet r) = .next ((s.audExec b).withRet .none) := by
  show done .none ((s.withRet r).audExec b) = _
  rw [State.audExec_withRet]
  rfl

theorem exec_topStats_withRet (s : State) (r : Ret) :
    exec .topStats (s.withRet r) = .next (s.topStats.withRet .none) := by
  show done .none (s.withRet r).topStats = _
  rw [State.topStats_withRet]
  rfl

/-- A sample of the TPMS chain is STR.PUSH, and for a symbol PKT.PUSH, and for a packet its send (R316, R328). -/
theorem sampleChain_runs {s : State} (h : s.str.configured = true) (x : F32) :
    ∃ r, SampleChain x s ((s.pushSample x).withRet r) := by
  have hpush := exec_strPush_eq h x
  unfold State.pushSample
  generalize s.strPush x = pushed at hpush ⊢
  obtain ⟨s1, _ | y⟩ := pushed
  · exact ⟨.none, _, hpush, .inl ⟨rfl, rfl⟩⟩
  · have hbit := exec_pktPush_withRet s1 (.symbol y) (slice y) false
    simp only [State.pushSymbol]
    generalize s1.pktPush (slice y) false = captured at hbit ⊢
    obtain ⟨s2, _ | bits⟩ := captured
    · exact ⟨.none, _, hpush, .inr ⟨y, _, rfl, hbit, .inl ⟨rfl, rfl⟩⟩⟩
    · exact ⟨_, _, hpush, .inr ⟨y, _, rfl, hbit, .inr ⟨bits, packetPayload bits, rfl, packetPayload_bytes bits,
        exec_mfcSend_withRet s2 _ _ _ _⟩⟩⟩

/-- A sample of the TPMS chain leaves STR configured (43_clock_recovery.md R224). -/
theorem State.pushSample_configured (s : State) (x : F32) : (s.pushSample x).str.configured = s.str.configured := by
  have hsymbol : (s.pushSample x).str = (s.strPush x).1.str := (Frame.pushSymbol (w := ∅) (s.strPush x).1 _).str (by simp)
  rw [hsymbol]
  exact (s.str.push_fields s.draws x).1

theorem samplesChain_runs (xs : List F32) {s : State} (h : s.str.configured = true) :
    ∃ r, SamplesChain xs s ((xs.foldl State.pushSample s).withRet r) := by
  induction xs generalizing s with
  | nil => exact ⟨s.ret, rfl⟩
  | cons x xs ih =>
    obtain ⟨r, hsample⟩ := sampleChain_runs h x
    obtain ⟨r', hrest⟩ := ih (s := (s.pushSample x).withRet r) ((s.pushSample_configured x).trans h)
    rw [State.foldl_withRet _ r fun t x => t.pushSample_withRet r x] at hrest
    exact ⟨r', _, hsample, hrest⟩

/-- The back chain of a mode is its operations (R311, R316). -/
theorem backChain_runs {s : State} (h : s.mode = .tpms → s.str.configured = true) :
    ∃ r, BackChain s (s.backChain.withRet r) := by
  unfold BackChain
  cases hmode : s.mode with
  | none => exact ⟨s.ret, by rw [State.backChain_none hmode]; rfl⟩
  | am =>
    rw [State.backChain_am hmode]
    exact ⟨_, _, exec_amdExec s _, exec_audExec_withRet (s.amdExec s.bpf.fir.out) _ _⟩
  | nfm =>
    rw [State.backChain_nfm hmode]
    exact ⟨_, _, exec_fmdExec s _, exec_audExec_withRet (s.fmdExec s.bpf.fir.out) _ _⟩
  | tpms =>
    rw [State.backChain_tpms hmode]
    obtain ⟨r, hsamples⟩ := samplesChain_runs s.basebandChain.fbf.out.data
      (s := s.basebandChain.withRet (.buf32 s.basebandChain.fbf.out)) (h hmode)
    rw [State.foldl_withRet _ _ fun t x => t.pushSample_withRet _ x] at hsamples
    exact ⟨r, _, _, exec_fmdExec s _, exec_fbfExec _ _, hsamples⟩

/-- Settles O58: the front chain, the back chain and TOP.STATS, each on what the one before it left. -/
theorem configuredChainRuns : Obligations.ConfiguredChainRuns := by
  intro s raw hlen hidle hready
  have hconsume : s.consume raw = s.processRaw raw := if_pos (s.configuredFor_iff.2 hready)
  have hstr : (s.fedChain raw).mode = .tpms → (s.fedChain raw).str.configured = true := by
    obtain ⟨-, -, -, -, -, hstr⟩ := hready
    rwa [State.fedChain_mode, State.fedChain_str]
  obtain ⟨r, hback⟩ := backChain_runs (s := (s.fedChain raw).withRet .none) hstr
  rw [State.backChain_withRet, State.withRet_withRet] at hback
  refine ⟨_, _, _, frontChain_runs hready raw, hback, exec_topStats_withRet _ r, ?_⟩
  rw [exec_topBuffer s hlen, State.topBuffer_of_idle hidle, hconsume, State.processRaw_eq]

end Sys2Proof.Machine

/-! Encodings written out from the rules' examples (30_encoding.md R111, R112, R125; 48_top_level.md R312 to R327). -/

namespace Sys2Proof
open Sys2Proof.Machine

/-- Settles O4: the decoder evaluates on each of the eight words. -/
theorem exampleWordsDecode : Obligations.ExampleWordsDecode :=
  ⟨rfl, rfl, rfl, rfl, rfl, rfl, rfl, rfl⟩

end Sys2Proof

/-! The reset input and the builds of the block (48_top_level.md R331; 70_reset_and_hazards.md R370; 44_packet_builder.md
R242; 93 U7, U13). -/

namespace Sys2Proof.Machine
open Sys2Proof

/-! ### Power-on values -/

/-- A built block has the power-on values of R370, field by field. -/
theorem State.powerOn_registers (p : Params) : RegistersAtPowerOn (State.powerOn p) := by
  have hchannel : ChannelAtPowerOn ChannelRegs.powerOn := ⟨rfl, rfl, rfl, rfl, rfl⟩
  have hfir : FirAtPowerOn FirUnit.powerOn := ⟨rfl, rfl, rfl, rfl, rfl, rfl⟩
  exact ⟨rfl, rfl, rfl, rfl, hchannel, hchannel, hfir, hfir, hfir, hfir, rfl, rfl, rfl, rfl, rfl, rfl, rfl, rfl, rfl, rfl, rfl,
    rfl, rfl, rfl, rfl, rfl, rfl, rfl, rfl⟩

/-- So has the block after the reset input, which differs from a built one in no register of R370. -/
theorem State.hardReset_registers (s : State) : RegistersAtPowerOn s.hardReset := State.powerOn_registers s.params

/-- Settles O53. -/
theorem hardwareReset : Obligations.HardwareReset :=
  fun s => ⟨_, rfl, s.hardReset_registers, fun _ => rfl, rfl, rfl, rfl⟩

/-! ### A block of legal parameters -/

/-- Nothing has written a ring byte: each reads as its free value (10_state.md R45; log entry 8). -/
theorem State.powerOn_ringByte (p : Params) (off : Nat) : (State.powerOn p).ringByte off = Config.ringPowerOn off := rfl

theorem State.powerOn_whole (p : Params) : (State.powerOn p).Whole := fun c =>
  ⟨[], [], State.holds_nil_of_powerOn (by cases c <;> rfl)⟩

/-- A channel at power-on has equal cursors (40_message_channel.md R152). -/
theorem ChannelRegs.Ok.powerOn (cap : Nat) : ChannelRegs.powerOn.Ok cap where
  seen := le_rfl
  known := le_rfl
  room := Nat.zero_le cap

theorem BandpassUnit.Ok.powerOn : BandpassUnit.powerOn.Ok := BandpassUnit.Ok.reset BandpassUnit.powerOn

theorem BasebandUnit.Ok.powerOn : BasebandUnit.powerOn.Ok := BasebandUnit.Ok.reset (f := BasebandUnit.powerOn)

theorem PacketUnit.Ok.powerOn (p : Params) : (PacketUnit.powerOn p).Ok p where
  history := Nat.zero_le 64
  capacity := List.length_replicate
  count := Nat.zero_le p.pktCap

theorem SpectrumUnit.Ok.powerOn : SpectrumUnit.powerOn.Ok where
  capture := List.length_replicate
  epoch := List.length_replicate
  running := nofun
  idle _ := ⟨rfl, rfl⟩

/-- The block count is below AUD_BLOCK, which a legal build has at least 1 (00_scope.md R10). -/
theorem AudioUnit.Ok.powerOn {p : Params} (h : 1 ≤ p.audBlock) : (AudioUnit.powerOn p).Ok p where
  cfg := Nat.zero_le _
  block := List.length_replicate
  count := h

/-- A block built with legal parameters is healthy (10_state.md R42 to R63). -/
theorem State.powerOn_inv {p : Params} (h : paramsOk p = true) : (State.powerOn p).Inv := by
  obtain ⟨-, -, haudBlock, -⟩ := (paramsOk_iff p).1 h
  exact
    { params := h, memory := rfl, errors := Nat.zero_lt_succ 31, event := rfl, a2b := .powerOn _, b2a := .powerOn _, pfd0 := .powerOn,
      pfd1 := .powerOn, pfd2 := .powerOn, bpf := .powerOn, fbf := .powerOn, str := .powerOn, pkt := .powerOn p, spc := .powerOn,
      bins := List.length_replicate, aud := .powerOn haudBlock, blocks := nofun }

/-! ### Which builds give a block -/

theorem State.build_of_legal {p : Params} (h : LegalBuild p) : State.build p = some (State.powerOn p) :=
  if_pos ((paramsOk_iff p).2 h)

theorem State.build_of_illegal {p : Params} (h : ¬ LegalBuild p) : State.build p = none :=
  if_neg (mt (paramsOk_iff p).1 h)

/-- A block that is built has legal parameters and its power-on state. -/
theorem State.build_eq_some {p : Params} {s : State} (h : State.build p = some s) : LegalBuild p ∧ s = State.powerOn p := by
  by_cases hlegal : LegalBuild p
  · exact ⟨hlegal, Option.some.inj (h.symm.trans (State.build_of_legal hlegal))⟩
  · rw [State.build_of_illegal hlegal] at h
    cases h

/-- The default parameters are legal (00_scope.md R10). -/
theorem paramsOk_default : paramsOk Params.default = true := by decide

/-- Settles O7: State.reset and every block built are power-on states of legal parameters. -/
theorem healthyAfterReset : Obligations.HealthyAfterReset := by
  refine ⟨State.powerOn_inv paramsOk_default, State.powerOn_whole _, rfl, State.powerOn_registers _, fun p s hbuild => ?built,
    fun p hlegal => ⟨_, State.build_of_legal hlegal⟩, fun p => State.build_of_illegal,
    fun p hp => State.build_of_illegal ?illegal⟩
  case built =>
    obtain ⟨hlegal, rfl⟩ := State.build_eq_some hbuild
    exact ⟨State.powerOn_inv ((paramsOk_iff p).2 hlegal), State.powerOn_whole p, rfl, State.powerOn_registers p,
      State.powerOn_ringByte p⟩
  case illegal =>
    rintro ⟨-, -, -, -, hlen, hcap, -⟩
    omega

end Sys2Proof.Machine
